-- ==== Sys2Proof/Word.lean ====
section
/-! DEFINITION. Sys2Proof/Word.lean: the word types of the part (R5, Table 0-2) and their plainest
arithmetic. Bits are numbered from 0, the least significant (R3). -/
namespace Sys2Proof

/-- A byte (Table 0-2). -/
abbrev Byte := BitVec 8
/-- A word, 32 bits (Table 0-2). -/
abbrev Word := BitVec 32
/-- A doubleword, 64 bits (Table 0-2). -/
abbrev DWord := BitVec 64
/-- A lane-block register, or a 128-byte line: word `l` at bits `32l+31 : 32l` (Table 0-2, R4). -/
abbrev Row := BitVec 1024
/-- A lane mask of 32 mask words; lane `l` is bit `l` (R37, R40). -/
abbrev Mask := BitVec 1024
/-- A signature of a Drover command, a batch or a team (R245, R246). -/
abbrev Sig := BitVec 512

/-- `x[hi:lo]` as a number, `n` bits from bit `lo` (R3). -/
def field {w : Nat} (x : BitVec w) (lo n : Nat) : Nat := (x.extractLsb' lo n).toNat

/-- A one-bit field as a Boolean. -/
def bit {w : Nat} (x : BitVec w) (i : Nat) : Bool := x.getLsbD i

/-- RU(a / b) of Table 0-4, for a positive `b`. -/
def ceilDiv (a b : Nat) : Nat := (a + (b - 1)) / b

end Sys2Proof
end

