-- ==== Sys2Proof/Config.lean ====
section
/-! DEFINITION. Sys2Proof/Config.lean: what the part fixes once (sizes of R13 to R23) and the FREE
VALUES the manual leaves open: opaque constants without a body, of which no proof can see a value. -/
namespace Sys2Proof.Config

/-- Clusters of the part (R17). -/
def clusters : Nat := 16
/-- Cores of a cluster (R17). -/
def coresPerCluster : Nat := 32
/-- Cores of the part (R26). -/
def cores : Nat := 512
/-- Team slots of a core (R46). -/
def teamSlots : Nat := 32
/-- Block slots of a core (R53). -/
def blockSlots : Nat := 16
/-- Vector rows of a core (R18). -/
def rowsPerCore : Nat := 4096
/-- Physical map slots of a core (R18). -/
def mapSlotsPerCore : Nat := 32
/-- Fleeting tiles of a cluster (R19). -/
def tilesPerCluster : Nat := 32768
/-- Lines of one SRAM bank of 1 MiB (R19). -/
def linesPerBank : Nat := 8192
/-- Lines of an L1 of 192 KiB (R18). -/
def l1Lines : Nat := 1536
/-- Lines of an instruction cache of 64 KiB (R18); 32 MiB over the cores of the part (R21). -/
def icacheLines : Nat := 512
/-- Bytes of the LLC of one base die (R20); 512 MiB over the part (R21). Every word of device memory is read and written at
its home LLC, so no state of the LLC is held apart from memory's. -/
def llcBytes : Nat := 32 * 2 ^ 20
/-- The package power limit in W (R2, R355). -/
def packageLimit : Nat := 2800
/-- Partitions: tenant contexts (Table 0-1). -/
def partitions : Nat := 64
/-- Hardware queue slots (R310). -/
def queueSlots : Nat := 512
/-- GEOM.STEP of the first production stepping (Table 1-5). -/
def geomStep : Byte := 0x01#8
/-- GEOM (R28, Table 1-5), read from fuses. -/
def geom : DWord :=
  (0x00#8 : BitVec 8) ++ (0x20#8 : BitVec 8) ++ (0x02#8 : BitVec 8) ++ (0x10#8 : BitVec 8) ++
  (0x08#8 : BitVec 8) ++ (0x10#8 : BitVec 8) ++ (0x20#8 : BitVec 8) ++ geomStep

/-- The fused security version before the first boot (R372). DESIGN CHOICE, log 10. -/
def fusedSvn : BitVec 16 := 0#16

/-- What a byte of device memory that nothing has written reads as. DESIGN CHOICE, log 5. Unsafe. -/
def powerOnByte : Byte := 0#8

/-- FREE VALUE. What is left in a word of memory at the `n`th uncorrectable error, of which the manual gives no value (R375, log 7). -/
opaque lostWord : Nat → Word
/-- FREE VALUE. One bit that the hash of R245 sets for a line (log 22). -/
opaque lineBit : Nat → Nat
/-- FREE VALUE. The further bits that the hash of R245 sets for a line (log 22). -/
opaque lineBits : Nat → Sig
/-- FREE VALUE. SHA-512 of a byte string (R373, R374; the manual names it and gives no algorithm, log 23). -/
opaque sha512 : List Byte → BitVec 512
/-- FREE VALUE. Whether an image verifies at cold reset: key hash, signature (R373, log 23). -/
opaque imageVerifies : List Byte → Bool
/-- FREE VALUE. The SVN an image carries (R373; its place in the header is not given, log 23). -/
opaque imageSvn : List Byte → BitVec 16
/-- FREE VALUE. The ECDSA signature of the identity key over a report (R374, log 23). -/
opaque identitySign : List Byte → Nat → BitVec 1056
/-- FREE VALUE. The certificate of the identity key (R374, log 23). -/
opaque certificate : Nat → List Byte
/-- FREE VALUE. The image in on-package flash (R373, log 23). -/
opaque flashImage : Nat → List Byte
/-- FREE VALUE. Increments of the counters HBMB, LLCM and D2DF of R364 for the `n`th fill
(the manual gives no figure for one access, log 24). -/
opaque freeCount : Nat → Nat

/-- The signature of one line: one or more bits set (R245). -/
def sigOfLine (line : Nat) : Sig := (1#512 <<< (lineBit line % 512)) ||| lineBits line

end Sys2Proof.Config
end

