-- ==== Sys2Proof/Machine/Tab.lean ====
section
/-! DEFINITION. Sys2Proof/Machine/Tab.lean: tables, lists of (key, value) pairs kept in rising key order.
An absent key stands for a default the reader names. -/
namespace Sys2Proof.Machine

/-- A table from Nat keys. -/
abbrev Tab (α : Type) := List (Nat × α)

/-- The entry at a key. -/
def Tab.get? {α : Type} : Tab α → Nat → Option α
  | [], _ => none
  | (k, v) :: t, i => if k = i then some v else Tab.get? t i

/-- The entry at a key, or a default. -/
def Tab.get {α : Type} (t : Tab α) (d : α) (i : Nat) : α := (Tab.get? t i).getD d

/-- Sets the entry at a key. -/
def Tab.set {α : Type} : Tab α → Nat → α → Tab α
  | [], i, x => [(i, x)]
  | (k, v) :: t, i, x =>
    if k = i then (i, x) :: t else if i < k then (i, x) :: (k, v) :: t else (k, v) :: Tab.set t i x

/-- Removes the entry at a key. -/
def Tab.erase {α : Type} (t : Tab α) (i : Nat) : Tab α := t.filter (fun e => e.1 != i)

/-- Changes the entry at a key, absent ones from a default. -/
def Tab.upd {α : Type} (t : Tab α) (d : α) (i : Nat) (f : α → α) : Tab α := Tab.set t i (f (Tab.get t d i))

/-- Applies a function to every entry present. -/
def Tab.mapVals {α β : Type} (t : Tab α) (f : α → β) : Tab β := t.map (fun e => (e.1, f e.2))

/-- A list without repeats: adds an element that is not there. -/
def insertNew (l : List Nat) (x : Nat) : List Nat := if l.contains x then l else l ++ [x]

end Sys2Proof.Machine
end

