-- ==== Sys2Proof/Syntax.lean ====
section
/-! DEFINITION. Sys2Proof/Syntax.lean: the six word formats (R74 to R84) and Instr, one constructor per
row of the table: the 147 instructions, each with the fields of its format, and the 75 operations and
events of the part, each with the unit it acts on and what the outside world chooses in it. -/
namespace Sys2Proof

/-- The common fields of bits 63:59 (R74 to R76): the run flag B and the guard g, n. -/
structure Pre where
  run : Bool
  g : BitVec 3
  n : Bool
deriving DecidableEq, Repr

/-- S3 format (R80). -/
structure S3 where
  pre : Pre
  sd : BitVec 6
  sa : BitVec 6
  sb : BitVec 6
  imm : BitVec 8
  ty : BitVec 2
  bk : Bool
deriving DecidableEq, Repr

/-- V3 format (R77). -/
structure V3 where
  pre : Pre
  vd : BitVec 8
  va : BitVec 8
  vb : BitVec 8
  vc : BitVec 8
  ka : BitVec 4
  kb : BitVec 4
  kc : BitVec 4
  ty : BitVec 2
  rm : BitVec 2
  bk : BitVec 2
deriving DecidableEq, Repr

/-- M format (R81). -/
structure MF where
  pre : Pre
  md : BitVec 8
  ma : BitVec 8
  imm : BitVec 8
  ord : BitVec 2
  spc : BitVec 3
  evp : BitVec 3
  sz : BitVec 3
  am : BitVec 2
  aop : BitVec 5
  mx : BitVec 8
deriving DecidableEq, Repr

/-- B format (R82). -/
structure BF where
  pre : Pre
  disp : BitVec 24
  variant : BitVec 26
deriving DecidableEq, Repr

/-- E format (R83). -/
structure EF where
  pre : Pre
  tk : BitVec 6
  dp : BitVec 6
  cn : BitVec 6
  eng : BitVec 4
  op : BitVec 4
  qb : BitVec 8
  fs : BitVec 3
  var : BitVec 13
deriving DecidableEq, Repr

/-- Y format (R84). -/
structure YF where
  pre : Pre
  ya : BitVec 8
  yb : BitVec 8
  yc : BitVec 8
  sel : BitVec 8
  idx : BitVec 6
  yk : BitVec 2
deriving DecidableEq, Repr

/-- Where the Yardmaster places a migrated partition (R352); the manual leaves the choice to it. -/
structure Placement where
  cltab : DWord
  window : BitVec 1024
  saveBase : DWord
deriving DecidableEq, Repr

/-- What arrives on a peer port: an access of a task of that part (R371), or the end of the versions of some of its tasks,
which are dropped at their commit and restored at their fault (R340, R342). -/
inductive PeerOp where
  | read
  /-- `team`: the store is a team's, and ends a `park`; the Drover's and the Escapement's do not (R113). -/
  | write (task : Nat) (v : Word) (team : Bool)
  | atomic (task : Nat) (aop : BitVec 5) (v c : Word)
  | atomicWide (task : Nat) (aop : BitVec 5) (v c : DWord)
  | commit (tasks : List Nat)
  | discard (tasks : List Nat)
  /-- The parcel of a partition that migrates here, with the number and the hard domain it takes and the place chosen (R352). -/
  | arrive (part dom : Nat) (place : Placement)
deriving DecidableEq, Repr

/-- A write of a firewall register set by the Yardmaster: CLOSE of DFW_CTL, or a 1 to OVF of DFW_DROP (Tables 1-6, 1-7). -/
inductive EdgeWrite where
  | close (v : Bool)
  | clearOvf
deriving DecidableEq, Repr

/-- A register of a team: a scalar, a predicate, or lane block `w` of vector register `r` (R375). -/
inductive RegPlace where
  | s (i : Nat)
  | p (i : Nat)
  | v (r w : Nat)
deriving DecidableEq, Repr

/-- An item of another partition that a dispatching one claims (R346): a team with its slot and rows, its rows alone, the map
slots of a block, its scratch lines, the counters of the Escapement of a cluster. -/
inductive Claim where
  | team (k : Nat)
  | rows (k : Nat)
  | slots (blk : Nat)
  | lines (blk : Nat)
  | counters (cluster : Nat)
deriving DecidableEq, Repr

/-- Where a word with an error stands (R235, R375): in HBM, the LLC, the L1 of a core, a cluster cache, the scratch
banks of a block, an entry of a FIFO, a register of a team, a map slot of a block, a constant table, the counters of an
Escapement. A word of HBM or of the LLC is found by the patrol scrub, or only when a task reads it. -/
inductive ErrorPlace where
  | hbm (word : Nat) (scrub : Bool)
  | llc (word : Nat) (scrub : Bool)
  | l1 (core word : Nat)
  | l2 (cluster word : Nat)
  | scratch (blk word : Nat)
  | fifo (cluster bank idx : Nat)
  | reg (team : Nat) (r : RegPlace)
  | slot (blk n : Nat)
  | const (task word : Nat)
  | counters (cluster : Nat)
deriving DecidableEq, Repr

/-- A function of the part as a PCIe link presents it; none: the physical function (R365, R366). -/
structure HostFn where
  link : Nat
  fn : Option Nat
deriving DecidableEq, Repr
/-- Bytes of an aperture: `n` from `offset` on (R308). -/
structure Span where
  offset : Nat
  n : Nat
deriving DecidableEq, Repr
/-- The steps of the part. Keys: a core is its global index (R26), a team `32 * core + slot`, a block
`16 * core + block slot`, a cluster its physical number; a task and a launch are numbered by the model
in the order they arise. `fn` is the function of a host access: `none` the physical one, `some p` that of
partition `p` (R365). -/
inductive Instr where
  | sadd (f : S3)
  | ssub (f : S3)
  | smul (f : S3)
  | smulh (f : S3)
  | sdiv (f : S3)
  | srem (f : S3)
  | sand (f : S3)
  | sor (f : S3)
  | sxor (f : S3)
  | sshl (f : S3)
  | sshr (f : S3)
  | ssra (f : S3)
  | smin (f : S3)
  | smax (f : S3)
  | ssel (f : S3)
  | smov (f : S3)
  | smovi (f : S3)
  | sldk (f : S3)
  | slea (f : S3)
  | spopc (f : S3)
  | sclz (f : S3)
  | sbrev (f : S3)
  | sbfx (f : S3)
  | sbfi (f : S3)
  | scmpEq (f : S3)
  | scmpNe (f : S3)
  | scmpLt (f : S3)
  | scmpLe (f : S3)
  | scmpGt (f : S3)
  | scmpGe (f : S3)
  | vadd (f : V3)
  | vsub (f : V3)
  | vmul (f : V3)
  | vmulh (f : V3)
  | vmad (f : V3)
  | vand (f : V3)
  | vor (f : V3)
  | vxor (f : V3)
  | vshl (f : V3)
  | vshr (f : V3)
  | vsra (f : V3)
  | vmin (f : V3)
  | vmax (f : V3)
  | vabs (f : V3)
  | vsel (f : V3)
  | vmov (f : V3)
  | vmovi (f : V3)
  | vsplat (f : V3)
  | vpopc (f : V3)
  | vclz (f : V3)
  | vbrev (f : V3)
  | vbfx (f : V3)
  | vcmpEq (f : V3)
  | vcmpNe (f : V3)
  | vcmpLt (f : V3)
  | vcmpLe (f : V3)
  | vcmpGt (f : V3)
  | vcmpGe (f : V3)
  | vdot4 (f : V3)
  | vdot8 (f : V3)
  | fadd (f : V3)
  | fsub (f : V3)
  | fmul (f : V3)
  | ffma (f : V3)
  | fmin (f : V3)
  | fmax (f : V3)
  | fabs (f : V3)
  | fneg (f : V3)
  | fcmpEq (f : V3)
  | fcmpNe (f : V3)
  | fcmpLt (f : V3)
  | fcmpLe (f : V3)
  | fcmpGt (f : V3)
  | fcmpGe (f : V3)
  | fcmpUn (f : V3)
  | fclass (f : V3)
  | fdiv (f : V3)
  | fsqrt (f : V3)
  | frcp (f : V3)
  | frsq (f : V3)
  | fexp2 (f : V3)
  | flog2 (f : V3)
  | fsumerr (f : V3)
  | osmx (f : V3)
  | osmxf (f : V3)
  | lshf (f : V3)
  | lred (f : V3)
  | lscan (f : V3)
  | vote (f : V3)
  | vtos (f : V3)
  | mapgen (f : V3)
  | mapz (f : V3)
  | mapinfo (f : V3)
  | mapmov (f : V3)
  | cvtn (f : V3)
  | cvtw (f : V3)
  | fcvt (f : V3)
  | fcvti (f : V3)
  | icvtf (f : V3)
  | vld (f : MF)
  | vst (f : MF)
  | sld (f : MF)
  | sst (f : MF)
  | ldsc (f : MF)
  | stsc (f : MF)
  | vprf (f : MF)
  | scwb (f : MF)
  | bankq (f : MF)
  | vatom (f : MF)
  | vatomNr (f : MF)
  | satom (f : MF)
  | satomNr (f : MF)
  | fence (f : MF)
  | flrenew (f : MF)
  | fllife (f : MF)
  | cpy (f : EF)
  | cpyt (f : EF)
  | gat (f : EF)
  | sct (f : EF)
  | lay (f : EF)
  | mapld (f : EF)
  | mapst (f : EF)
  | seal (f : EF)
  | waitb (f : EF)
  | escld (f : EF)
  | qpush (f : EF)
  | qpop (f : EF)
  | bra (f : BF)
  | brx (f : BF)
  | call (f : BF)
  | ret (f : YF)
  | join (f : BF)
  | sync (f : YF)
  | exit (f : YF)
  | regroup (f : YF)
  | bar (f : YF)
  | bara (f : YF)
  | barw (f : YF)
  | park (f : YF)
  | wake (f : YF)
  | nop (f : YF)
  | srd (f : YF)
  | swr (f : YF)
  | trap (f : YF)
  | cmtwait (f : YF)
  | cmtpass (f : YF)
  | dlaunch (f : EF)
  /-- A held slot write of a block takes effect (R158). -/
  | slotWriteApply (blk idx : Nat)
  /-- One store of a core is recorded at its home LLC (R243). -/
  | storeRegistration (core idx : Nat)
  /-- The words written in this step, in that order; none named: all that remain (R263, R273). -/
  | cpyTransfer (cluster channel : Nat) (order : List Nat)
  /-- At most `n` elements in this step (R265, R273). -/
  | cpytTransfer (cluster channel n : Nat)
  | layTransfer (cluster channel n : Nat)
  | gatTransfer (cluster channel n : Nat)
  | sctTransfer (cluster channel n : Nat)
  | mapldTransfer (cluster channel : Nat)
  | mapstTransfer (cluster channel : Nat)
  | escldBind (cluster : Nat)
  | escDoneProcess (cluster : Nat)
  | parkTimeout (team : Nat)
  | commitBufferDrain (team : Nat)
  /-- The word that reached issue of the current team (R88). -/
  | illegalInstruction (w : BitVec 64)
  | trapTaken
  | resumePop
  | runArbitration (core pipe : Nat)
  | capEvaluation (core : Nat)
  | waitConditionMet (team : Nat)
  | lineFillReturn (core line : Nat)
  /-- Blocks and the cores the Starter chose, and the items it claims (R52, R54, R346). -/
  | blockDispatch (task : Nat) (places : List (Nat × Nat)) (claims : List Claim)
  | teamReload (team : Nat)
  | sweepVisit (blk tile : Nat)
  | fleetSoftError (blk tile line : Nat)
  | bkctlReqWrite (cluster bank : Nat) (v : Word)
  | bankModeChange (cluster bank : Nat)
  /-- A write of CLOSE, or of a 1 to OVF (R32, Table 1-7). -/
  | dfwCloseWrite (die edge : Nat) (w : EdgeWrite)
  | dfwDrainComplete (die edge : Nat)
  | dfwDomWrite (die dom : Nat)
  /-- An access of a function to aperture AP2: `n` bytes read, or written with `data` (R308). -/
  | notify (fn : Option Nat) (span : Span) (data : Option DWord)
  | pendingNotifyTimeout (part queue : Nat)
  | slotRelease (slot : Nat)
  | launchRecord (part queue : Nat)
  | evset (part queue : Nat)
  | evclr (part queue : Nat)
  | mark (part queue : Nat)
  | unknownType (part queue : Nat)
  | admission (launch : Nat)
  | leasePrewalk (launch : Nat)
  | taskCommit (task : Nat)
  | xlctlRetry (part : Nat)
  | xlctlAbort (part : Nat)
  | invctlGo (part : Nat) (stage2 : Bool) (v : Word)
  | invalidationAck (part : Nat) (stage2 : Bool)
  | taskFaultEnd (task : Nat)
  | taskkill (part : Nat) (id : DWord)
  | sliceEnd (dom : Nat)
  | pstateHaltWrite (part : Nat) (v : Word)
  | partitionHalted (part : Nat)
  | gangSliceStart (dom : Nat)
  | ready (dom port : Nat) (tick : DWord)
  | forfeit (dom : Nat) (tick : DWord)
  | gangGraceExpiry (dom : Nat)
  /-- Measured powers in W of the rails, of the package and of each partition, and the withholding chosen: a partition and
  of how many cycles in sixteen (R355, R361). -/
  | railOpUpdate (rails : List Nat) (package : Nat) (powers withheld : List (Nat × Nat))
  | droopStretch (cluster : Nat)
  | stageTwoFreeze (cluster : Nat)
  | freezeExpiry (cluster : Nat)
  | clusterResume (task group cluster : Nat)
  | tickAlignStep (reference : DWord)
  | watchdogReport (core part : Nat)
  | attest (fn : Option Nat)
  | pcreate
  | pdestroy
  | domain
  | migrate (place : Placement)
  | fwload
  /-- `n` bytes read, or written with `data`, over PCIe link 0 or 1 (R25, R366). -/
  | hostAp1Access (source : HostFn) (addr : DWord) (n : Nat) (data : Option DWord)
  | peerAccess (port : Nat) (addr : DWord) (op : PeerOp)
  | functionLevelReset (part : Nat)
  | coldReset
  /-- The place where a check finds an error, if any, and whether it can be corrected (R375). -/
  | patrolScrub (place : ErrorPlace) (corrected uncorrectable : Bool)
  | registerWrite (fn : Option Nat) (offset : Nat) (v : DWord)
  | packageTick
  | droopEnd (cluster : Nat)
  | isscapModeWrite (part : Nat) (v : Word)
deriving DecidableEq, Repr

end Sys2Proof
end

