-- ==== Sys2Proof/Machine/State.lean ====
section
/-! DEFINITION. Sys2Proof/Machine/State.lean: the state of the whole part as plain data, the reasons a step
can stop, and the state right after cold reset. -/
namespace Sys2Proof.Machine

/-- Element format codes (Table 8-7). -/
inductive Fmt where
  | f32 | i32 | bf16 | f16 | e4m3 | e5m2 | e3m2 | e2m1 | q8 | q4 | f64
deriving DecidableEq, Repr

/-- The rotation identity of a tag: none, or h32 with seed bits 31:0 (R151). -/
inductive Rot where
  | none
  | h32 (seed : Word)
deriving DecidableEq, Repr

/-- A tag (R151). -/
structure Tag where
  fmt : Fmt := .f32
  rot : Rot := .none
deriving DecidableEq, Repr

/-- One lane block of a vector register: 32 lane words, tag and scale word (R132, R151). -/
structure VReg where
  data : Row := 0
  tag : Tag := {}
  scale : DWord := 0
deriving DecidableEq, Repr

/-- Side registers of a lane block: running maximum, running sum, rescale factor (R39). -/
structure Side where
  m : Word := 0xFF800000#32
  ls : Word := 0#32
  r : Word := 0x3F800000#32
deriving DecidableEq, Repr

/-- A map slot: 32 columns, their scale words, tag and SET (R140, R157). -/
structure Slot where
  cols : Tab Row := []
  scales : Tab DWord := []
  tag : Tag := {}
  set : Bool := false
deriving DecidableEq, Repr

/-- A reconvergence stack entry: PCK with the kind in bits 2:0, and MASK (Table 3-3). -/
structure Entry where
  pck : DWord
  mask : Mask
deriving DecidableEq, Repr

/-- A fault as Table 23-2 and R338 give it. -/
structure FaultRec where
  cls : Nat
  detail : Nat
  pc : DWord := 0
  addr : DWord := 0
  eng : Bool := false
  block : Nat := 0
  team : Nat := 0
deriving DecidableEq, Repr

/-- The condition a team waits for after its run broke (R45, R62). -/
inductive Wait where
  /-- L1 misses: the lines still missing, those of them that a request was sent to their homes for, the others coming from the
  cluster's cache (R214), and the eviction priority of the access. -/
  | fill (lines sent : List Nat) (evp : Nat)
  /-- A scratch line in a bank in transition (R211). -/
  | bank (bank : Nat)
  /-- The first touch of a mapped scratch line, whose fill has been made (R213). -/
  | region
  /-- Pending tokens (R259). -/
  | token (regs : List Nat)
  | queueFull (q : Nat)
  | queueEmpty (q : Nat)
  | channel (ch : Nat)
  /-- A barrier generation of a group of the task (R111). -/
  | barrier (group : Nat) (gen : Word)
  /-- `park`: the word's virtual address and word number, the expected value, the deadline if any (R113). -/
  | park (va : DWord) (word : Nat) (expected : Word) (deadline : Option DWord)
  | batch (n : Nat)
  /-- The commit token, and if so said an empty commit buffer (R121, R293, R294). -/
  | commit (drained : Bool)
  /-- The end of the team's life: token, buffer, Drover commands (R288). -/
  | ending
  /-- The wait is over; the team reissues its instruction. -/
  | over
deriving DecidableEq, Repr

/-- One entry of a commit buffer (R294). Its addresses are virtual: they are translated when it is performed. A release
side keeps the signature it releases (R239, R246); `pc` is the address of the store or atomic, which its fault reports (R338). -/
inductive CommitEntry where
  /-- The bytes one pass writes within one line, by address. -/
  | store (pc : DWord) (bytes : List (Nat × Byte)) (rel : Option Sig)
  /-- A non-returning atomic: operation, width 64 or 32, address, operand. -/
  | atomic (pc : DWord) (aop : Nat) (wide : Bool) (addr : Nat) (v : DWord) (rel : Option Sig)
deriving DecidableEq, Repr

/-- The address of the instruction an entry is of. -/
def CommitEntry.pc : CommitEntry → DWord
  | .store pc _ _ => pc
  | .atomic pc _ _ _ _ _ => pc

/-- A pending trap: A_t and the address of the successor (R329). -/
structure PendTrap where
  at_ : Mask
  succ : DWord
deriving DecidableEq, Repr

/-- An instruction stopped between two passes: its lanes, the word of the pass that comes next, the lanes
trapped so far and their flags, the slots it has fetched with their versions (R158, R183). -/
structure Intr where
  act : Mask
  next : Nat
  trap : Mask
  flags : BitVec 5
  slots : List (Nat × Slot)
deriving DecidableEq, Repr

/-- The Outrider checkpoint, the invalid bits of the episode, the shadow rows in use, and whether the missing load
still comes next (R65 to R67). -/
structure Outrider where
  pc : DWord
  s : Tab Word
  p : Tab Mask
  sides : Tab Side
  active : Mask
  v : Tab VReg
  fflags : Word
  invS : List Nat := []
  invP : List Nat := []
  invV : List Nat := []
  invSide : List Nat := []
  invSlot : List Nat := []
  shadow : List Nat := []
  first : Bool := true
deriving DecidableEq, Repr

/-- What a team knows of one Drover command it issued (R259, R271). -/
structure CmdStat where
  done : Bool := false
  sig : Sig := 0
  underToken : Bool := false
deriving DecidableEq, Repr

/-- A resident, spilled or ended team (R37, R39, Table 3-5). `bad` lists its registers with an uncorrectable error (R375),
`rowsSpilled` says that its rows alone are in the save area (R346), `engFault` that a command of it faulted (R298). -/
structure Team where
  uid : Nat
  task : Nat
  blk : Nat
  block : Nat
  team : Nat
  part : Nat
  lanes : Nat
  regs : Nat
  pc : DWord
  active : Mask
  retired : Mask := 0
  s : Tab Word := []
  p : Tab Mask := []
  v : Tab VReg := []
  sides : Tab Side := []
  olane : Tab Word := []
  fflags : Word := 0
  fmode : Word := 0
  tcause : Word := 0
  tlanes : Mask := 0
  entered : Bool := false
  pend : Option PendTrap := none
  broke : Bool := false
  pix : Word := 0
  intr : Option Intr := none
  stopAt : Option Nat := none
  /-- Lanes whose passes of the instruction at the pc are performed: it was stopped between passes when a trap was taken (R332). -/
  did : Mask := 0
  /-- For each RESUME entry of the stack, the top one first, those lanes of the instruction at its pc (R332). -/
  resumes : List Mask := []
  stack : List Entry := []
  spilledEntries : Nat := 0
  pendTok : List Nat := []
  tokSig : Tab Sig := []
  cmds : Tab CmdStat := []
  nextCmd : Nat := 0
  unsealed : List Nat := []
  batches : Tab (List Nat) := []
  carried : Sig := 0
  relFence : Sig := 0
  acqPend : Sig := 0
  gather : Sig := 0
  held : Bool := false
  passed : Bool := false
  buffer : List CommitEntry := []
  arrived : Tab Word := []
  wait : Option Wait := none
  phase : Nat := 0
  fills : Tab Word := []
  readyAt : Nat := 0
  runEnd : Nat := 0
  score : Nat := 0
  out : Option Outrider := none
  halted : Bool := false
  awaitsBlock : Bool := false
  fault : Option FaultRec := none
  started : Bool := false
  bad : List RegPlace := []
  rowsSpilled : Bool := false
  engFault : Bool := false
deriving DecidableEq, Repr

/-- A fleeting tile (R216), and the tick of the sweep's last visit (R218). -/
structure Tile where
  birth : BitVec 16 := 0
  exp : Bool := false
  valid : BitVec 512 := 0
  data : Tab Word := []
  visit : DWord := 0
deriving DecidableEq, Repr

/-- A slot write not yet in effect: the slot, its new state, the writing team (R158). -/
structure HeldWrite where
  slot : Nat
  val : Slot
  writer : Nat
deriving DecidableEq, Repr

/-- A resident block (R36, R53), the signatures released at its scratch and fleeting words (R246), its scratch words and map
slots with an uncorrectable error (R375). -/
structure Block where
  task : Nat
  block : Nat
  core : Nat
  scratch : Tab Word := []
  touched : List Nat := []
  dirty : Tab Word := []
  tiles : Tab Tile := []
  slots : Tab Slot := []
  heldWrites : List HeldWrite := []
  calls : Nat := 0
  banks : List (Nat × Nat) := []
  slotsSpilled : Bool := false
  linesSpilled : Bool := false
  scratchSig : Tab Sig := []
  fleetSig : Tab Sig := []
  badWords : List Nat := []
  badSlots : List Nat := []
deriving DecidableEq, Repr

/-- A queue binding (R303). -/
structure QBind where
  kind : Nat
  bank : Nat
deriving DecidableEq, Repr

/-- The fields of a launch record (Table 21-1). -/
structure Rec where
  entry : DWord := 0
  grid : Nat := 1
  teams : Nat := 1
  det : Bool := false
  outr : Bool := false
  lanes : Nat := 32
  regs : Nat := 32
  maps : Nat := 0
  prio : Nat := 0
  scratch : Nat := 0
  fleet : Nat := 0
  fmode : Word := 0
  privBase : DWord := 0
  privSize : Nat := 0
  floor : Nat := 0
  dlDepth : Nat := 0
  dlMax : Nat := 0
  trapVec : DWord := 0
  vbudget : Nat := 0
  undo : DWord := 0
  msBase : DWord := 0
  msStride : DWord := 0
  msOff : Nat := 0
  msLines : Nat := 0
  fmts : List (BitVec 128) := []
  waitMask : BitVec 256 := 0
  setMask : BitVec 256 := 0
  qbind : List QBind := []
deriving DecidableEq, Repr

/-- A group table entry (R49). -/
structure Group where
  first : Nat
  count : Nat
  stride : Nat
  teams : BitVec 8
deriving DecidableEq, Repr

/-- A lease (R302). -/
structure Lease where
  base : Nat
  len : Nat
  rw : Bool := false
  excl : Bool := false
  shared : Bool := false
  sliced : Bool := false
deriving DecidableEq, Repr

/-- A pinned translation of one page: virtual base, size, device address, whether both leaves are
writable, the guest addresses its walk used, and base and size of its stage-one leaf (R319, R320, R324). -/
structure Pin where
  va : Nat
  size : Nat
  dpa : Nat
  w : Bool := false
  gpas : List (Nat × Nat) := []
  leaf : Nat × Nat := (0, 0)
deriving DecidableEq, Repr

/-- A completed generation of a group: its number and tick, the members' signatures, the clusters holding
members in their order of resumption, none when one cluster holds them all, and those resumed (R51, R358). -/
structure GenDone where
  gen : Word
  tick : DWord
  sig : Sig
  clusters : List Nat
  resumed : List Nat
deriving DecidableEq, Repr

/-- A group's barrier state: current generation, arrivals, the signatures of all arrivals so far, the
generation last completed. -/
structure GroupState where
  gen : Word := 0
  arrived : List Nat := []
  sig : Sig := 0
  done : Option GenDone := none
deriving DecidableEq, Repr

/-- A version shadow of a line: prior contents, the words written, and the model's stamp of when it arose (R340). -/
structure Shadow where
  prior : Row
  mask : Word
  stamp : Nat
deriving DecidableEq, Repr

/-- An admitted task (R301 to R318); the signature its accesses follow, and that of its teams that have exited (R239, R246).
`badConsts` lists the words of its constant table with an uncorrectable error (R375); `awaitsWalk` says that a migration
revoked its pages and they are not walked again yet (R352). -/
structure Task where
  part : Nat
  id : DWord
  lr : Rec
  consts : List Word := []
  groups : List Group := []
  leases : List Lease := []
  pins : List Pin := []
  root : Nat
  parent : Option Nat := none
  number : Nat × Nat := (0, 0)
  record : Option (Nat × Nat) := none
  dispatched : List Nat := []
  exited : List Nat := []
  exitedTeams : List Nat := []
  calls : Tab Nat := []
  tokenAt : Nat := 0
  tokenSig : Sig := 0
  gstate : Tab GroupState := []
  shadows : Tab Shadow := []
  shadowLines : List Nat := []
  faults : List FaultRec := []
  revoked : Bool := false
  walkFailed : Bool := false
  awaitsWalk : Bool := false
  badConsts : List Nat := []
  startSig : Sig := 0
  endSig : Sig := 0
deriving DecidableEq, Repr

/-- Where a launch comes from: record `k` of queue `q`, or a `dlaunch` (R309, R123). -/
inductive Source where
  | queue (q k : Nat)
  | child (task uid block call : Nat) (tok : Nat) (count : Nat)
deriving DecidableEq, Repr

/-- A launch before admission (R313, R314, R321): its walks so far and the walk generation they started under (R323), the
signature of the `dlaunch` that made it (R239). -/
structure Launch where
  part : Nat
  src : Source
  addr : DWord
  wait : Option (BitVec 256) := none
  eligible : Bool := false
  read : Option (Rec × List Word × List Group × List Lease) := none
  pins : Option (List Pin) := none
  failed : Bool := false
  walked : Option (List Pin) := none
  gen : Word := 0
  sig : Sig := 0
deriving DecidableEq, Repr

/-- A cache line: valid and dirty bits per word, data, eviction priority, last use, filling team slot, and in a cluster
cache the bank that holds it and the core whose store each dirty word is (R214, R47, R209, R244). -/
structure Line where
  valid : Word := 0
  dirty : Word := 0
  data : Row := 0
  prio : Nat := 0
  used : Nat := 0
  slot : Nat := 0
  bank : Nat := 0
  src : Tab Nat := []
deriving DecidableEq, Repr

/-- A store not yet registered: the storing team, its task, the words with their new values (device
word numbers), and the signature it releases if it is an ordered store (R243). -/
structure PStore where
  team : Nat
  task : Nat
  part : Nat
  words : List (Nat × Word)
  rel : Option Sig := none
  /-- The team that stored it, by its number and by block and team, for an error found after it has exited (R375). -/
  uid : Nat := 0
  block : Nat := 0
  teamNo : Nat := 0
deriving DecidableEq, Repr

/-- A pipe: the team slot whose run issues and how many instructions it has issued (R43, R44). -/
structure Pipe where
  team : Option Nat := none
  count : Nat := 0
deriving DecidableEq, Repr

/-- A walk under way on a core for a prefetch of Outrider or `vprf`: the team slot, the partition and the priority of the access, the
virtual addresses of its words of one line, the walk generation recorded, the line found (R67, R227, R323, R326). -/
structure Refill where
  slot : Nat
  part : Nat
  evp : Nat
  vas : List Nat
  gen : Word
  line : Nat
deriving DecidableEq, Repr

/-- A core (R17, R18, R47, R363). -/
structure Core where
  l1 : Tab Line := []
  stores : List PStore := []
  refills : List Refill := []
  icache : Tab Line := []
  victims : List (Nat × Nat) := []
  cycle : DWord := 0
  pipeA : Pipe := {}
  pipeB : Pipe := {}
  caps : Tab Nat := []
  capClock : Nat := 0
  wd : Tab Nat := []
deriving DecidableEq, Repr

/-- An entry of a hardware FIFO: a word or a line, the signature its push carries, an uncorrectable error in it (R239, R280,
R375). -/
structure QEntry where
  data : Row
  sig : Sig
  bad : Bool := false
deriving DecidableEq, Repr

/-- The mode of an SRAM bank (R209). -/
inductive BankMode where
  | cache | scratch | fifo
deriving DecidableEq, Repr

/-- An SRAM bank with its BKCTL fields (Table 13-2); `aim` is the mode a switch in progress enters, `next` a request made
meanwhile (R211). -/
structure Bank where
  esc : Bool := false
  fw : Bool := false
  req : BankMode := .cache
  mode : BankMode := .cache
  trans : Bool := false
  aim : BankMode := .cache
  next : Option BankMode := none
  width : Bool := false
  fifo : List QEntry := []
  owner : Option Nat := none
  saved : Tab (Bool × List QEntry) := []
deriving DecidableEq, Repr

/-- What a Drover command does (Table 17-1). -/
inductive CmdKind where
  | cpy (dspc sspc : Nat) (dst src bytes : Nat)
  | cpyt (desc : Nat)
  | gat (desc n : Nat)
  | sct (desc n : Nat)
  | lay (desc : Nat)
  | mapld (slot spc : Nat) (row : Bool) (base stride fs : Nat)
  | mapst (slot spc : Nat) (row : Bool) (base stride : Nat)
deriving DecidableEq, Repr

/-- A queued Drover command with its progress (R258, R260, R273). -/
structure Cmd where
  kind : CmdKind
  uid : Nat
  task : Nat
  blk : Nat
  blockNo : Nat
  teamNo : Nat
  id : Nat
  tok : Nat
  pc : DWord
  underToken : Bool
  started : Bool := false
  done : List Nat := []
  source : List Word := []
  desc : List Byte := []
  skipped : Bool := false
  expired : Bool := false
  sig : Sig := 0
deriving DecidableEq, Repr

/-- An `escld` handed to the Escapement (R258). -/
structure EscLoad where
  uid : Nat := 0
  task : Nat := 0
  blockNo : Nat := 0
  teamNo : Nat := 0
  tok : Nat := 0
  pc : DWord := 0
  desc : Nat := 0
deriving DecidableEq, Repr

/-- The graph an Escapement holds (R275 to R278) and the `escld` that bound it; spilled, its counters come back to the bank
they stood in (R282, R346). `bad` says that its counters hold an uncorrectable error (R375). -/
structure Graph where
  task : Nat
  count : Nat
  succ : Tab (List Nat)
  counters : Tab Nat
  ring : List Nat
  handed : List Nat := []
  pushed : List Nat := []
  port : List (Nat × Sig) := []
  processed : Nat := 0
  sigs : Tab Sig := []
  spilled : Bool := false
  bank : Nat := 0
  load : EscLoad := {}
  bad : Bool := false
deriving DecidableEq, Repr

/-- The Regulator of a cluster: droop, stage two, the cycles since the droop or the freeze began (R356, R357). -/
structure Regulator where
  droop : Bool := false
  frozen : Bool := false
  count : Nat := 0
deriving DecidableEq, Repr
/-- Stage two holds issue after `i` more cycles: it is frozen, or droop has then persisted beyond 64 cycles (R357). -/
def Regulator.freezesAt (r : Regulator) (i : Nat) : Bool := r.frozen || (r.droop && decide (64 < r.count + i))
/-- Stage two holds issue now. -/
def Regulator.freezes (r : Regulator) : Bool := r.freezesAt 0
/-- Of the next `n` cycles, those before stage two holds issue. -/
def Regulator.free (r : Regulator) (n : Nat) : Nat := if r.frozen then 0 else if r.droop then min n (65 - r.count) else n

/-- A cluster (R19). -/
structure Cluster where
  l2 : Tab Line := []
  banks : Tab Bank := []
  channels : Tab (List Cmd) := []
  escLoads : List EscLoad := []
  graph : Option Graph := none
  escBank : Option Nat := none
  frz : Nat := 0x0100
  reg : Regulator := {}
deriving DecidableEq, Repr

/-- What the Starter keeps of one software queue between steps (R309). -/
structure QueueState where
  next : Nat := 0
  done : List Nat := []
deriving DecidableEq, Repr

/-- INVADDR and INVCTL of one stage (Table 21-8). -/
structure Inval where
  addr : DWord := 0
  busy : Bool := false
  all : Bool := false
  log2 : Nat := 0x10
deriving DecidableEq, Repr

/-- A mailbox (Table 25-4, R369). -/
structure Mailbox where
  addr : DWord := 0
  busy : Bool := false
  code : Byte := 0
  stat : Word := 0
deriving DecidableEq, Repr

/-- A partition's registers and tables (Tables 3-1, 21-9, 23-1, 23-3, 23-5, 25-4, R371). -/
structure Part where
  ncl : Nat := 0
  dom : Nat := 0
  iprio : Nat := 0
  haltBit : Bool := false
  haltedBit : Bool := false
  sliceOff : Bool := false
  cltab : DWord := 0
  saveBase : DWord := 0
  saveSize : Word := 0
  tickOff : DWord := 0
  fring : DWord := 0
  window : BitVec 1024 := 0
  capMode : Nat := 0
  cap : Nat := 0x10
  thresh : Nat := 0x40
  qtbase : DWord := 0
  qtsize : Word := 0
  ntmo : Word := 0x00010000#32
  evec : BitVec 256 := 0
  evSig : Sig := 0
  s1root : DWord := 0
  s2root : DWord := 0
  inv1 : Inval := {}
  inv2 : Inval := {}
  walkGen : Word := 0
  xladdr : DWord := 0
  pnmap : Tab (Option DWord) := []
  queues : Tab QueueState := []
  bkpt : Tab DWord := []
  fltTask : DWord := 0
  flt : Option FaultRec := none
  fltLast : FaultRec := { cls := 0, detail := 0 }
  fltOvf : Bool := false
  instr : DWord := 0
  outr : DWord := 0
  mapp : DWord := 0
  hbmb : DWord := 0
  llcm : DWord := 0
  d2df : DWord := 0
  hist : List (DWord × DWord × DWord × DWord) := []
  log2w : Nat := 0x18
  wdValid : Bool := false
  wdCore : Nat := 0
  wdCluster : Nat := 0
  mbox : Mailbox := {}
  peerWin : Tab DWord := []
  nextTask : DWord := 1
deriving DecidableEq, Repr

/-- A gang slice in progress (R350). -/
structure Gang where
  start : DWord
  posted : Bool := false
  got : Word := 0
  running : Bool := false
  forfeited : Bool := false
deriving DecidableEq, Repr

/-- A hard domain's slice table and scheduling registers, the entry that runs, the tick it ends (R344, Table 23-4), the READY
messages received for slices that have not begun: port and tick, with port 32 for a FORFEIT (R350). -/
structure Domain where
  slices : Tab Word := []
  backfill : DWord := 0
  gangctl : DWord := 0
  glate : DWord := 0
  index : Option Nat := none
  ends : DWord := 0
  gang : Option Gang := none
  early : List (Nat × DWord) := []
deriving DecidableEq, Repr

/-- The STATE field of DFW_CTL (Table 1-6). -/
inductive EdgeState where
  | opened | draining | closed
deriving DecidableEq, Repr

/-- A firewall register set (Tables 1-6, 1-7). -/
structure Edge where
  state : EdgeState := .closed
  close : Bool := true
  count : BitVec 31 := 0
  ovf : Bool := false
deriving DecidableEq, Repr

/-- A partition with everything a migration carries (R352): its registers, tasks, launches, teams, blocks, clusters' items by
virtual cluster, the bytes of its window with their signatures and errors, by rank of GiB, and the `%tick` it reads (R71). -/
structure Parcel where
  part : Part
  tasks : Tab Task := []
  launches : Tab Launch := []
  teams : Tab Team := []
  blocks : Tab Block := []
  clusters : Tab Cluster := []
  mem : List Host.Cell := []
  relSig : Tab Sig := []
  poisoned : Tab Nat := []
  tick : DWord := 0
deriving DecidableEq, Repr

/-- A peer part behind a port, as far as this part sees it: its memory by address, the 1 GiB ranges it admits, first and
count (R371), its GEOM.STEP, and the partitions that migrate between the two and are there now (R352). -/
structure Peer where
  mem : List Host.Cell := []
  admits : Nat × Nat := (0, 0)
  step : Byte := Config.geomStep
  parcels : List Parcel := []
deriving DecidableEq, Repr

/-- A message posted on a peer port (R350). -/
structure Msg where
  port : Nat
  forfeit : Bool
  tick : DWord
deriving DecidableEq, Repr

/-- An MSI-X message raised: function, vector, tick (R328, R353, R368). -/
structure Irq where
  fn : Option Nat
  vector : Nat
  tick : DWord
deriving DecidableEq, Repr

/-- A hardware queue slot in use: partition, queue, credit (R310, R312). -/
structure HwSlot where
  part : Nat
  queue : Nat
  credit : Nat
deriving DecidableEq, Repr

/-- A rail's PWR and OP (Table 25-2). -/
structure Rail where
  pwr : Nat := 0
  op : Nat := 0
deriving DecidableEq, Repr

/-- BOOTST.STATE (R372). -/
inductive Boot where
  | rom | running | recovery
deriving DecidableEq, Repr

/-- The next move of the part: a step of the table, the issue of one pipe (with the mask word at which
a pre-emption stops the instruction, if any, R183), `n` cycles of a core passing, or a line leaving an
instruction cache. -/
inductive Move where
  | event (i : Instr)
  | issue (core pipe : Nat) (stopAt : Option Nat)
  | cycles (core n : Nat)
  | dropCode (core line : Nat)
deriving DecidableEq, Repr

/-- The state of the part. Tables hold what differs from the record's default. `poisoned` gives the detail code of each
uncorrectable word (Table 23-2), `unfound` those of them that nothing outside a task has met yet (R375), `throttled` of how many cycles in sixteen a partition's issue is withheld (R355), `powers` each
partition's power in W (R361), `railAt` and
`alignAt` the ticks of the last rail update and alignment step (R355, R362), `hostRead` the link and data of the last read. -/
structure State where
  tick : DWord := 0
  agenda : List Move := []
  cur : Option Nat := none
  moment : Nat := 0
  fresh : Nat := 0
  turn : Nat := 0
  mem : List Host.Cell := []
  owners : Tab Nat := []
  relSig : Tab Sig := []
  poisoned : Tab Nat := []
  unfound : List Nat := []
  cores : Tab Core := []
  clusters : Tab Cluster := []
  teams : Tab Team := []
  blocks : Tab Block := []
  tasks : Tab Task := []
  nextKey : Nat := 0
  launches : Tab Launch := []
  nextLaunch : Nat := 0
  parts : Tab Part := []
  domains : Tab Domain := []
  dieDom : Tab Nat := []
  edges : Tab Edge := []
  hwSlots : Tab HwSlot := []
  lastServed : Nat := 63
  irqs : List Irq := []
  hostRead : Option (Nat × DWord) := none
  peers : Tab Peer := []
  outbox : List Msg := []
  peerShadows : Tab (Tab Shadow) := []
  boot : Boot := .rom
  svn : BitVec 16 := Config.fusedSvn
  fwImage : Option (List Byte) := none
  image : List Byte := []
  rails : Tab Rail := []
  pkgPwr : Nat := 0
  pkgThr : Bool := false
  throttled : Tab Nat := []
  powers : Tab Nat := []
  railAt : DWord := 0
  alignAt : DWord := 0
  slew : Nat := 4
  tsyncErr : Bool := false
  tsyncPort : Nat := 0
  tsyncAlign : Bool := false
  floors : Tab Word := []
  peerAcc : Tab DWord := []
  cecnt : DWord := 0
  pfBox : Mailbox := {}
deriving DecidableEq, Repr

/-- Why the model stops. -/
inductive Fault where
  /-- Raised by `exec` on a word's instruction while no team issues (`State.cur` is none or names no
  team): no step of the part does so. Safe: the part goes on elsewhere. -/
  | noIssuingTeam
deriving DecidableEq, Repr

/-- Why an instruction has no meaning in the model. -/
inductive Refusal where
  /-- Raised by an arm of `exec` that has no meaning yet. Safe: nothing is claimed of it. -/
  | notModelled (mnemonic : String)
deriving DecidableEq, Repr

/-- The part right after cold reset (R9, R372): no partition, no task, the boot ROM about to verify the
firmware image, every register at the reset value of its field map. -/
def State.reset : State := {}

end Sys2Proof.Machine
end

