-- ==== Sys2Proof/Machine/Arith.lean ====
section
/-! DEFINITION. Sys2Proof/Machine/Arith.lean: the integer operations of Table 6-3, R100 and R101 over patterns held
as Nat, at a width `w` and a reading given by a type code (R78, R97). Classes 000 and 001 share them. -/
namespace Sys2Proof.Machine

/-- The width of a type code (Table 5-4). -/
def tyWidth (ty : BitVec 2) : Nat := if bit ty 1 then 64 else 32
/-- Signed type codes are `.i32` and `.i64`. -/
def tySigned (ty : BitVec 2) : Bool := !bit ty 0
/-- S(x). -/
def sval (w x : Nat) : Int := if x < 2 ^ (w - 1) then (x : Int) else (x : Int) - 2 ^ w
/-- val(x) (R100). -/
def tyVal (ty : BitVec 2) (x : Nat) : Int := if tySigned ty then sval (tyWidth ty) x else (x : Int)
/-- Reduction modulo 2^w. -/
def wrap (w : Nat) (x : Int) : Nat := (x % 2 ^ w).toNat
/-- An imm8 sign-extended and taken at width `w` (R79, R98). -/
def immS (w : Nat) (i : BitVec 8) : Nat := wrap w (sval 8 i.toNat)

/-- The two-operand operations of Table 6-3. -/
inductive IntOp where
  | add | sub | mul | mulh | div | rem | and | or | xor | shl | shr | sra | min | max
deriving DecidableEq, Repr

/-- The result at the type's width (Table 6-3, R100). -/
def intOp (o : IntOp) (ty : BitVec 2) (a b : Nat) : Nat :=
  let w := tyWidth ty
  let va := tyVal ty a
  let vb := tyVal ty b
  match o with
  | .add => (a + b) % 2 ^ w
  | .sub => wrap w (va - vb)
  | .mul => (a * b) % 2 ^ w
  | .mulh => wrap w ((va * vb) / 2 ^ w)
  | .div => if b = 0 then 2 ^ w - 1 else wrap w (va.tdiv vb)
  | .rem => if b = 0 then a else wrap w (va - vb * va.tdiv vb)
  | .and => a &&& b
  | .or => a ||| b
  | .xor => a ^^^ b
  | .shl => (a * 2 ^ (b % w)) % 2 ^ w
  | .shr => a / 2 ^ (b % w)
  | .sra => wrap w (sval w a / 2 ^ (b % w))
  | .min => if va ≤ vb then a else b
  | .max => if vb ≤ va then a else b

/-- val(a) cc val(b) (Table 6-3, R162). -/
def intCmp (c : Nat) (ty : BitVec 2) (a b : Nat) : Bool :=
  let va := tyVal ty a
  let vb := tyVal ty b
  match c with
  | 0 => va == vb
  | 1 => va != vb
  | 2 => va < vb
  | 3 => va ≤ vb
  | 4 => vb < va
  | _ => vb ≤ va

/-- Number of 1 bits among the `w` lowest. -/
def popcount (w x : Nat) : Nat := ((List.range w).filter (fun i => x.testBit i)).length
/-- Leading zeros in `w` bits, `w` for zero. -/
def clz (w x : Nat) : Nat := if x = 0 then w else w - 1 - Nat.log2 x
/-- The `w` bits in reversed order. -/
def brev (w x : Nat) : Nat :=
  (List.range w).foldl (fun r i => if x.testBit i then r + 2 ^ (w - 1 - i) else r) 0

/-- pos and len of a control word (R101). -/
def bfPos (c : Nat) : Nat := c % 64
def bfLen (w c : Nat) : Nat := if c / 256 % 64 = 0 then w - bfPos c else c / 256 % 64
/-- `sbfx` (R101). -/
def bfx (ty : BitVec 2) (a c : Nat) : Nat :=
  let w := tyWidth ty
  let len := bfLen w c
  let f : Int := (tyVal ty a / 2 ^ bfPos c) % 2 ^ len
  wrap w (if tySigned ty && 0 < len && 2 ^ (len - 1) ≤ f then f - 2 ^ len else f)
/-- `sbfi` (R101). -/
def bfi (ty : BitVec 2) (old a c : Nat) : Nat :=
  let w := tyWidth ty
  let m := ((2 ^ bfLen w c - 1) * 2 ^ bfPos c) % 2 ^ w
  (old &&& (2 ^ w - 1 - m)) ||| ((a * 2 ^ bfPos c) &&& m)

/-- S8 and S4 of R163. -/
def dotBytes (n ew c a b : Nat) : Nat :=
  wrap 32 ((List.range n).foldl (fun acc e =>
    acc + sval ew (a / 2 ^ (ew * e) % 2 ^ ew) * sval ew (b / 2 ^ (ew * e) % 2 ^ ew)) (sval 32 c))

end Sys2Proof.Machine
end

