-- ==== Sys2Proof/Machine/Float.lean ====
section
/-! DEFINITION. Sys2Proof/Machine/Float.lean: the floating-point formats (R126 to R130), exact values, the one
rounding of Table 0-4 and R134, and the arithmetic of R165 to R170 and R193 to R195 over bit patterns held as Nat.
Exact values are dyadic: an integer times a power of two; a quotient or a root carries its inexactness in
a last sticky bit below the rounding position. -/
namespace Sys2Proof.Machine

/-- The three ways a format uses its top exponent (Table 8-2). -/
inductive Specials where
  | ieee | nanOnly | none
deriving DecidableEq, Repr

/-- A binary format: exponent and fraction widths, bias, special encodings (Table 8-1). -/
structure FloatFmt where
  ebits : Nat
  mbits : Nat
  bias : Nat
  specials : Specials := .ieee
deriving DecidableEq, Repr

def binary64 : FloatFmt := { ebits := 11, mbits := 52, bias := 1023 }
def binary32 : FloatFmt := { ebits := 8, mbits := 23, bias := 127 }
def bf16 : FloatFmt := { ebits := 8, mbits := 7, bias := 127 }
def f16 : FloatFmt := { ebits := 5, mbits := 10, bias := 15 }
def e5m2 : FloatFmt := { ebits := 5, mbits := 2, bias := 15 }
def e4m3 : FloatFmt := { ebits := 4, mbits := 3, bias := 7, specials := .nanOnly }
def e3m2 : FloatFmt := { ebits := 3, mbits := 2, bias := 3, specials := .none }
def e2m1 : FloatFmt := { ebits := 2, mbits := 1, bias := 1, specials := .none }

/-- The value of an encoding. `fin neg m e` is (-1)^neg times m times 2^e. -/
inductive FV where
  | nan (signalling : Bool)
  | inf (neg : Bool)
  | fin (neg : Bool) (m : Nat) (e : Int)
deriving DecidableEq, Repr

/-- Exception flags, bit for bit as `%fflags` 4:0 (Table 3-6). -/
abbrev Flags := BitVec 5
def flagNV : Flags := 1#5
def flagDZ : Flags := 2#5
def flagOF : Flags := 4#5
def flagUF : Flags := 8#5
def flagNX : Flags := 16#5

/-- A rounded result: encoding and flags. -/
structure FRes where
  bits : Nat
  flags : Flags := 0
deriving DecidableEq, Repr

/-- The value an encoding stands for (R126, R127). -/
def FloatFmt.value (f : FloatFmt) (x : Nat) : FV :=
  let neg := x / 2 ^ (f.ebits + f.mbits) % 2 == 1
  let e := x / 2 ^ f.mbits % 2 ^ f.ebits
  let m := x % 2 ^ f.mbits
  let top := e == 2 ^ f.ebits - 1
  if f.specials == .ieee && top then
    if m == 0 then .inf neg else .nan (m / 2 ^ (f.mbits - 1) % 2 == 0)
  else if f.specials == .nanOnly && top && m == 2 ^ f.mbits - 1 then .nan false
  else if e == 0 then .fin neg m (1 - (f.bias : Int) - f.mbits)
  else .fin neg (2 ^ f.mbits + m) ((e : Int) - f.bias - f.mbits)

/-- The sign bit of a format, set or clear. -/
def FloatFmt.sign (f : FloatFmt) (neg : Bool) : Nat := if neg then 2 ^ (f.ebits + f.mbits) else 0
/-- The largest finite magnitude (Table 8-1). -/
def FloatFmt.maxFinite (f : FloatFmt) : Nat :=
  match f.specials with
  | .ieee => (2 ^ f.ebits - 1) * 2 ^ f.mbits - 1
  | .nanOnly => 2 ^ (f.ebits + f.mbits) - 2
  | .none => 2 ^ (f.ebits + f.mbits) - 1
/-- Infinity of a sign. -/
def FloatFmt.infBits (f : FloatFmt) (neg : Bool) : Nat := f.sign neg + (2 ^ f.ebits - 1) * 2 ^ f.mbits
/-- The canonical NaN (R130). -/
def FloatFmt.canonNaN (f : FloatFmt) : Nat :=
  match f.specials with
  | .nanOnly => 2 ^ (f.ebits + f.mbits) - 1
  | _ => if f.mbits == 2 then (2 ^ f.ebits - 1) * 2 ^ f.mbits + 3
         else (2 ^ f.ebits - 1) * 2 ^ f.mbits + 2 ^ (f.mbits - 1)

/-- `m * 2^sh` rounded to an integer under a mode (0 RNE, 1 RTZ, 2 RUP, 3 RDN), and whether inexact. -/
def roundUnit (m : Nat) (sh : Int) (mode : BitVec 2) (neg : Bool) : Nat × Bool :=
  match sh with
  | .ofNat k => (m * 2 ^ k, false)
  | .negSucc k =>
    let d := k + 1
    let q := m / 2 ^ d
    let r := m % 2 ^ d
    let up := match mode.toNat with
      | 0 => r > 2 ^ k || (r == 2 ^ k && q % 2 == 1)
      | 1 => false
      | 2 => r != 0 && !neg
      | _ => r != 0 && neg
    (if up then q + 1 else q, r != 0)

/-- The one rounding (R134, Table 0-4): the non-zero magnitude `m * 2^e` of a sign in a format under a
mode; tininess after rounding, UF only when also inexact; a format without infinities, or `sat`,
saturates. -/
def FloatFmt.round (f : FloatFmt) (mode : BitVec 2) (sat : Bool) (neg : Bool) (m : Nat) (e : Int) : FRes :=
  let top : Int := (Nat.log2 m : Int) + e
  let emin : Int := 1 - (f.bias : Int)
  let ex : Int := if top < emin then emin else top
  let (n, nx) := roundUnit m (e - (ex - f.mbits)) mode neg
  let mag := (ex - emin).toNat * 2 ^ f.mbits + n
  if f.maxFinite < mag then
    let toMax := sat || f.specials != .ieee ||
      (match mode.toNat with | 0 => false | 1 => true | 2 => neg | _ => !neg)
    { bits := if toMax then f.sign neg + f.maxFinite else f.infBits neg, flags := flagOF ||| flagNX }
  else
    let tiny := top < emin &&
      (top < emin - 1 || (roundUnit m (e - (top - f.mbits)) mode neg).1 < 2 ^ (f.mbits + 1))
    { bits := f.sign neg + mag,
      flags := (if nx then flagNX else 0) ||| (if tiny && nx then flagUF else 0) }

/-- Rounds a value, keeping the sign of a zero. -/
def FloatFmt.roundV (f : FloatFmt) (mode : BitVec 2) (sat : Bool) : FV → FRes
  | .nan _ => { bits := f.canonNaN }
  | .inf neg => { bits := f.infBits neg }
  | .fin neg 0 _ => { bits := f.sign neg }
  | .fin neg m e => f.round mode sat neg m e

/-- An exact dyadic number `n * 2^e`. -/
structure Dy where
  n : Int
  e : Int
deriving DecidableEq, Repr

def Dy.zero : Dy := { n := 0, e := 0 }
/-- Exact sum. -/
def Dy.add (x y : Dy) : Dy :=
  if x.e ≤ y.e then { n := x.n + y.n * 2 ^ (y.e - x.e).toNat, e := x.e }
  else { n := x.n * 2 ^ (x.e - y.e).toNat + y.n, e := y.e }
/-- Exact product. -/
def Dy.mul (x y : Dy) : Dy := { n := x.n * y.n, e := x.e + y.e }
def Dy.neg (x : Dy) : Dy := { x with n := -x.n }
/-- The signed dyadic of a finite value. -/
def Dy.of (neg : Bool) (m : Nat) (e : Int) : Dy := { n := if neg then -(m : Int) else m, e := e }
/-- Exact comparison `x < y`. -/
def Dy.lt (x y : Dy) : Bool := (Dy.add x y.neg).n < 0

/-- Rounds an exact sum; `zneg` is the sign its zero takes. -/
def FloatFmt.roundDy (f : FloatFmt) (mode : BitVec 2) (sat : Bool) (zneg : Bool) (x : Dy) : FRes :=
  if x.n == 0 then { bits := f.sign zneg } else f.round mode sat (x.n < 0) x.n.natAbs x.e

def FV.isNaN : FV → Bool
  | .nan _ => true
  | _ => false
def FV.isSNaN : FV → Bool
  | .nan s => s
  | _ => false
def FV.isInf : FV → Bool
  | .inf _ => true
  | _ => false
def FV.isZero : FV → Bool
  | .fin _ m _ => m == 0
  | _ => false
def FV.isNeg : FV → Bool
  | .nan _ => false
  | .inf n => n
  | .fin n _ _ => n
def FV.neg : FV → FV
  | .nan s => .nan s
  | .inf n => .inf (!n)
  | .fin n m e => .fin (!n) m e

/-- NV for a signalling NaN among the operands. -/
def snanFlag (l : List FV) : Flags := if l.any FV.isSNaN then flagNV else 0

/-- IEEE 754-2019 addition of values, rounded once (R165). -/
def FloatFmt.addV (f : FloatFmt) (mode : BitVec 2) (x y : FV) : FRes :=
  match x, y with
  | .nan _, _ => { bits := f.canonNaN, flags := snanFlag [x, y] }
  | _, .nan _ => { bits := f.canonNaN, flags := snanFlag [x, y] }
  | .inf a, .inf b => if a == b then { bits := f.infBits a } else { bits := f.canonNaN, flags := flagNV }
  | .inf a, _ => { bits := f.infBits a }
  | _, .inf b => { bits := f.infBits b }
  | .fin a m e, .fin b n g =>
    let zneg := if m == 0 && n == 0 && a == b then a else mode == 3#2
    f.roundDy mode false zneg (Dy.add (Dy.of a m e) (Dy.of b n g))

/-- The exact product of values; none when it is invalid (0 times infinity). -/
def mulV : FV → FV → Option FV
  | .nan s, .nan t => some (.nan (s || t))
  | .nan s, _ => some (.nan s)
  | _, .nan t => some (.nan t)
  | .inf a, .inf b => some (.inf (a != b))
  | .inf a, .fin b m _ => if m == 0 then none else some (.inf (a != b))
  | .fin a m _, .inf b => if m == 0 then none else some (.inf (a != b))
  | .fin a m e, .fin b n g => some (.fin (a != b) (m * n) (e + g))

/-- IEEE 754-2019 multiplication (R165). -/
def FloatFmt.mulR (f : FloatFmt) (mode : BitVec 2) (x y : FV) : FRes :=
  match mulV x y with
  | none => { bits := f.canonNaN, flags := flagNV }
  | some p =>
    let r := f.roundV mode false p
    { r with flags := r.flags ||| snanFlag [x, y] }

/-- Fused multiply-add, one rounding; an invalid product gives NaN with NV (R165). -/
def FloatFmt.fmaR (f : FloatFmt) (mode : BitVec 2) (x y z : FV) : FRes :=
  match mulV x y with
  | none => { bits := f.canonNaN, flags := flagNV }
  | some p =>
    let r := f.addV mode p z
    { r with flags := r.flags ||| snanFlag [x, y, z] }

/-- The quotient of two positive magnitudes with a sticky last bit, at least `p` bits. -/
def divMag (p m : Nat) (e : Int) (n : Nat) (g : Int) : Nat × Int :=
  let k := p + Nat.log2 n + 1 - Nat.log2 m
  let q := m * 2 ^ k / n
  (2 * q + (if m * 2 ^ k % n == 0 then 0 else 1), e - g - k - 1)

/-- Correctly rounded division (R169). -/
def FloatFmt.divR (f : FloatFmt) (mode : BitVec 2) (x y : FV) : FRes :=
  match x, y with
  | .nan _, _ => { bits := f.canonNaN, flags := snanFlag [x, y] }
  | _, .nan _ => { bits := f.canonNaN, flags := snanFlag [x, y] }
  | .inf _, .inf _ => { bits := f.canonNaN, flags := flagNV }
  | .inf a, .fin b _ _ => { bits := f.infBits (a != b) }
  | .fin a _ _, .inf b => { bits := f.sign (a != b) }
  | .fin a m e, .fin b n g =>
    if n == 0 then
      if m == 0 then { bits := f.canonNaN, flags := flagNV }
      else { bits := f.infBits (a != b), flags := flagDZ }
    else if m == 0 then { bits := f.sign (a != b) }
    else
      let (q, qe) := divMag (f.mbits + 4) m e n g
      f.round mode false (a != b) q qe

/-- The integer square root, bit by bit from bit `k`. -/
def isqrtGo (n : Nat) : Nat → Nat → Nat
  | 0, r => r
  | k + 1, r => isqrtGo n k (if (r + 2 ^ k) * (r + 2 ^ k) ≤ n then r + 2 ^ k else r)
def isqrt (n : Nat) : Nat := isqrtGo n (Nat.log2 n / 2 + 1) 0

/-- The square root of a positive magnitude with a sticky last bit, at least `p` bits. -/
def sqrtMag (p m : Nat) (e : Int) : Nat × Int :=
  let k0 := 2 * p - Nat.log2 m
  let k := if (e - k0) % 2 == 0 then k0 else k0 + 1
  let n := m * 2 ^ k
  let r := isqrt n
  (2 * r + (if r * r == n then 0 else 1), (e - k) / 2 - 1)

/-- Correctly rounded square root (R169). -/
def FloatFmt.sqrtR (f : FloatFmt) (mode : BitVec 2) (x : FV) : FRes :=
  match x with
  | .nan s => { bits := f.canonNaN, flags := if s then flagNV else 0 }
  | .inf false => { bits := f.infBits false }
  | .inf true => { bits := f.canonNaN, flags := flagNV }
  | .fin neg 0 _ => { bits := f.sign neg }
  | .fin true _ _ => { bits := f.canonNaN, flags := flagNV }
  | .fin false m e =>
    let (r, re) := sqrtMag (f.mbits + 4) m e
    f.round mode false false r re

/-- `frcp` (R169, Table 9-6): 1/a rounded toward zero. A NaN gives NaN, with no flag. -/
def frcpR (x : FV) : FRes :=
  match x with
  | .nan _ => { bits := binary32.canonNaN }
  | .inf neg => { bits := binary32.sign neg }
  | .fin neg 0 _ => { bits := binary32.infBits neg, flags := flagDZ }
  | .fin neg m e =>
    let (q, qe) := divMag 28 1 0 m e
    binary32.round 1#2 false neg q qe

/-- `frsq` (R169, Table 9-6): 1/sqrt(a) rounded toward zero. -/
def frsqR (x : FV) : FRes :=
  match x with
  | .nan _ => { bits := binary32.canonNaN }
  | .inf false => { bits := 0 }
  | .inf true => { bits := binary32.canonNaN, flags := flagNV }
  | .fin neg 0 _ => { bits := binary32.infBits neg, flags := flagDZ }
  | .fin true _ _ => { bits := binary32.canonNaN, flags := flagNV }
  | .fin false m e =>
    let (m, e) := if e % 2 == 0 then (m, e) else (2 * m, e - 1)
    let k := 2 * (30 + Nat.log2 m)
    let r := isqrt (2 ^ k / m)
    let st := if r * r * m == 2 ^ k then 0 else 1
    binary32.round 1#2 false false (2 * r + st) (-((k : Int) + e) / 2 - 1)

/-- Fixed-point precision of the transcendental enclosures: 2^-256, far below the nearest midpoint of any
binary32 argument (log 25). -/
def fixP : Nat := 256
/-- ln 2 in units of 2^-256, by the series of 1/(k 2^k). -/
def ln2Go : Nat → Nat → Nat
  | 0, acc => acc
  | k + 1, acc => ln2Go k (acc + 2 ^ (fixP + 16) / ((k + 1) * 2 ^ (k + 1)))
def ln2Fix : Nat := ln2Go 280 0 / 2 ^ 16
/-- exp(t) in units of 2^-256 by its power series; `term` is the running term. -/
def expGo (t : Nat) : Nat → Nat → Nat → Nat → Nat
  | 0, _, _, acc => acc
  | fuel + 1, k, term, acc =>
    let term' := term * t / 2 ^ fixP / k
    expGo t fuel (k + 1) term' (acc + term')

/-- The magnitude of 2^a for a finite a = (-1)^neg m 2^e, m > 0, with a sticky last bit. -/
def exp2Mag (neg : Bool) (m : Nat) (e : Int) : Nat × Int :=
  let a := Dy.of neg m e
  if Dy.lt { n := 200, e := 0 } a then (1, 200)
  else if Dy.lt a { n := -200, e := 0 } then (3, -201)
  else if 0 ≤ e then (1, a.n * 2 ^ e.toNat)
  else
    let d := (-e).toNat
    let n := a.n / 2 ^ d
    let fr := (a.n % 2 ^ d).toNat
    if fr == 0 then (1, n)
    else
      let t := fr * ln2Fix / 2 ^ d
      (2 * expGo t 70 1 (2 ^ fixP) (2 ^ fixP) + 1, n - fixP - 1)

/-- RN32(2^a) (R169, Table 9-6). -/
def fexp2R (x : FV) : FRes :=
  match x with
  | .nan _ => { bits := binary32.canonNaN }
  | .inf false => { bits := binary32.infBits false }
  | .inf true => { bits := 0 }
  | .fin _ 0 _ => { bits := 0x3F800000 }
  | .fin neg m e =>
    let (q, qe) := exp2Mag neg m e
    binary32.round 0#2 false false q qe

/-- Bits of log2(x / 2^400) for x / 2^400 in [1, 2), by repeated squaring. -/
def log2Go : Nat → Nat → Nat → Nat
  | 0, _, acc => acc
  | fuel + 1, x, acc =>
    let y := x * x / 2 ^ 400
    if 2 ^ 401 ≤ y then log2Go fuel (y / 2) (2 * acc + 1) else log2Go fuel y (2 * acc)

/-- RN32(log2(a)) (R169, Table 9-6). -/
def flog2R (x : FV) : FRes :=
  match x with
  | .nan _ => { bits := binary32.canonNaN }
  | .inf false => { bits := binary32.infBits false }
  | .inf true => { bits := binary32.canonNaN, flags := flagNV }
  | .fin _ 0 _ => { bits := binary32.infBits true, flags := flagDZ }
  | .fin true _ _ => { bits := binary32.canonNaN, flags := flagNV }
  | .fin false m e =>
    let l := Nat.log2 m
    let ex : Int := l + e
    if m == 2 ^ l then binary32.roundDy 0#2 false false { n := ex, e := 0 }
    else
      let y := log2Go 160 (m * 2 ^ (400 - l)) 0
      binary32.roundDy 0#2 false false { n := 2 * (ex * 2 ^ 160 + y) + 1, e := -161 }

/-- The dyadic value of a finite or infinite value, for ordering: infinities beyond every finite value. -/
def FV.dy : FV → Dy
  | .nan _ => Dy.zero
  | .inf neg => { n := if neg then -1 else 1, e := 5000 }
  | .fin neg m e => Dy.of neg m e

/-- Compare conditions in the order of the opcodes (R99, R168). -/
inductive Cond where
  | eq | ne | lt | le | gt | ge | un
deriving DecidableEq, Repr

/-- A floating-point comparison and its flags (R168). -/
def fcmpV (c : Cond) (x y : FV) : Bool × Flags :=
  let nan := x.isNaN || y.isNaN
  let less := Dy.lt x.dy y.dy
  let more := Dy.lt y.dy x.dy
  let quiet := snanFlag [x, y]
  let strict := if nan then flagNV else 0
  match c with
  | .eq => (!nan && !less && !more, quiet)
  | .ne => (nan || less || more, quiet)
  | .lt => (!nan && less, strict)
  | .le => (!nan && !more, strict)
  | .gt => (!nan && more, strict)
  | .ge => (!nan && !less, strict)
  | .un => (nan, quiet)

/-- minimumNumber (`mx` false) or maximumNumber of two encodings (R167). -/
def FloatFmt.minMax (f : FloatFmt) (mx : Bool) (a b : Nat) : FRes :=
  let x := f.value a
  let y := f.value b
  let fl := snanFlag [x, y]
  if x.isNaN && y.isNaN then { bits := f.canonNaN, flags := fl }
  else if x.isNaN then { bits := b, flags := fl }
  else if y.isNaN then { bits := a, flags := fl }
  else
    let less := Dy.lt x.dy y.dy || (x.isZero && y.isZero && x.isNeg && !y.isNeg)
    { bits := if less == mx then b else a, flags := fl }

/-- `fclass` (Table 9-5). -/
def FloatFmt.classBits (f : FloatFmt) (a : Nat) : Word :=
  match f.value a with
  | .nan true => 0x100#32
  | .nan false => 0x200#32
  | .inf true => 0x001#32
  | .inf false => 0x080#32
  | .fin neg m _ =>
    let sub := a / 2 ^ f.mbits % 2 ^ f.ebits == 0
    if m == 0 then (if neg then 0x008#32 else 0x010#32)
    else if sub then (if neg then 0x004#32 else 0x020#32)
    else (if neg then 0x002#32 else 0x040#32)

/-- `fabs` (`n` false) and `fneg`: the sign bit cleared or inverted, a NaN canonical (R167). -/
def FloatFmt.absNeg (f : FloatFmt) (n : Bool) (a : Nat) : Nat :=
  if (f.value a).isNaN then f.canonNaN
  else
    let s := 2 ^ (f.ebits + f.mbits)
    if n then (if a / s % 2 == 1 then a - s else a + s) else a % s

/-- Conversion between formats (R193): a NaN canonical, NV when signalling. -/
def convertF (src dst : FloatFmt) (mode : BitVec 2) (a : Nat) : FRes :=
  let x := src.value a
  let r := dst.roundV mode false x
  { r with flags := r.flags ||| snanFlag [x] }

/-- RNEINT and its three directed fellows of a dyadic (R194), and whether inexact. -/
def Dy.toInt (x : Dy) (mode : BitVec 2) : Int × Bool :=
  let neg := x.n < 0
  let (q, nx) := roundUnit x.n.natAbs x.e mode neg
  (if neg then -(q : Int) else q, nx)

/-- `fcvti` (R194): the integer and the flags. -/
def toIntR (x : FV) (mode : BitVec 2) (lo hi : Int) : Int × Flags :=
  match x with
  | .nan _ => (0, flagNV)
  | .inf neg => (if neg then lo else hi, flagNV)
  | .fin neg m e =>
    let (t, nx) := (Dy.of neg m e).toInt mode
    if t < lo then (lo, flagNV) else if hi < t then (hi, flagNV) else (t, if nx then flagNX else 0)

/-- `icvtf` (R195). -/
def FloatFmt.ofInt (f : FloatFmt) (mode : BitVec 2) (v : Int) : FRes :=
  f.roundDy mode false false { n := v, e := 0 }

/-- The exact error of a rounded sum (R170), as an encoding; +0 when the sum is not finite or the error
is zero. -/
def FloatFmt.sumErr (f : FloatFmt) (a b : Nat) : FRes × Nat :=
  let hi := f.addV 0#2 (f.value a) (f.value b)
  match f.value hi.bits, f.value a, f.value b with
  | .fin hn hm he, .fin an am ae, .fin bn bm be =>
    let err := Dy.add (Dy.add (Dy.of an am ae) (Dy.of bn bm be)) (Dy.of hn hm he).neg
    (hi, (f.roundDy 0#2 false false err).bits)
  | _, _, _ => (hi, 0)

end Sys2Proof.Machine
end

