-- ==== Sys2Proof/Machine/Memory.lean ====
section
/-! DEFINITION. Sys2Proof/Machine/Memory.lean: device memory in canonical form, its words and their homes, translation
and lease checks, routes across the dies, versions, registration, caches, fleeting tiles and scratch. A LOCATION is a
byte address with its home: a device physical address of the part, or, past 2^44, an address of the peer
behind port `n - 1` at `n * 2^44` (R371). A WORD NUMBER is a location divided by 4. -/
namespace Sys2Proof.Machine

/-! ## Bytes and words -/

/-- Rising addresses from a bound, no entry equal to what an unlisted address reads as. -/
def Memory.wfAbove : Nat → List Host.Cell → Bool
  | _, [] => true
  | lo, (a, b) :: t => decide (lo ≤ a) && b != Config.powerOnByte && Memory.wfAbove (a + 1) t
/-- The canonical form of a memory. -/
def Memory.wf (m : List Host.Cell) : Bool := Memory.wfAbove 0 m

/-- The byte at an address. -/
def Memory.get : List Host.Cell → Nat → Byte
  | [], _ => Config.powerOnByte
  | (k, v) :: t, a => if k = a then v else Memory.get t a

/-- Writes one byte, keeping the canonical form. -/
def Memory.put : List Host.Cell → Nat → Byte → List Host.Cell
  | [], a, b => if b = Config.powerOnByte then [] else [(a, b)]
  | (k, v) :: t, a, b =>
    if k = a then (if b = Config.powerOnByte then t else (a, b) :: t)
    else if a < k then (if b = Config.powerOnByte then (k, v) :: t else (a, b) :: (k, v) :: t)
    else (k, v) :: Memory.put t a b

/-- Little-endian bytes of a number. -/
def bytesOf (n v : Nat) : List Byte := (List.range n).map (fun i => BitVec.ofNat 8 (v / 2 ^ (8 * i)))
/-- The number little-endian bytes hold. -/
def natOfBytes : List Byte → Nat
  | [] => 0
  | b :: t => b.toNat + 256 * natOfBytes t

/-- The word at word number `w`. -/
def Memory.word (m : List Host.Cell) (w : Nat) : Word :=
  BitVec.ofNat 32 (natOfBytes ((List.range 4).map (fun i => Memory.get m (4 * w + i))))
/-- Writes bytes from an address up. -/
def Memory.putBytes (m : List Host.Cell) : Nat → List Byte → List Host.Cell
  | _, [] => m
  | a, b :: t => Memory.putBytes (Memory.put m a b) (a + 1) t
/-- Writes the word at word number `w`. -/
def Memory.setWord (m : List Host.Cell) (w : Nat) (v : Word) : List Host.Cell :=
  Memory.putBytes m (4 * w) (bytesOf 4 v.toNat)

/-- Word numbers of one home: 2^44 bytes. -/
def homeWords : Nat := 2 ^ 42

/-- The word its home LLC holds. -/
def State.peek (s : State) (w : Nat) : Word :=
  if w < homeWords then Memory.word s.mem w
  else Memory.word (Tab.get s.peers {} (w / homeWords - 1)).mem (w % homeWords)

/-- Writes a word at its home; the one writer of device memory. A poisoned word written whole is poisoned no more (R375, log 7). -/
def State.poke (s : State) (w : Nat) (v : Word) : State :=
  if w < homeWords then
    { s with mem := Memory.setWord s.mem w v, poisoned := Tab.erase s.poisoned w }
  else
    let ps := Tab.upd s.peers {} (w / homeWords - 1)
      (fun p => { p with mem := Memory.setWord p.mem (w % homeWords) v })
    { s with peers := ps }

/-- The byte at a location. -/
def State.peekByte (s : State) (loc : Nat) : Byte := (s.peek (loc / 4)).extractLsb' (8 * (loc % 4)) 8
/-- A word with the byte of a location replaced. -/
def setByteIn (w : Word) (i : Nat) (b : Byte) : Word :=
  (w &&& ~~~(0xFF#32 <<< (8 * (i % 4)))) ||| (b.setWidth 32 <<< (8 * (i % 4)))
/-- A write of a part of a word leaves a word in error in error (R375, log 7). -/
def State.keepPoison (s old : State) (w : Nat) : State :=
  match Tab.get? old.poisoned w with
  | some d => { s with poisoned := Tab.set s.poisoned w d }
  | none => s
/-- Writes one byte at its home. -/
def State.pokeByte (s : State) (loc : Nat) (b : Byte) : State :=
  (s.poke (loc / 4) (setByteIn (s.peek (loc / 4)) loc b)).keepPoison s (loc / 4)
/-- Bytes at consecutive locations. -/
def State.peekBytes (s : State) (loc n : Nat) : List Byte := (List.range n).map (fun i => s.peekByte (loc + i))
/-- Words all of whose bytes have been written are in error no more (R375, log 7). -/
def State.heal (s : State) (locs : List Nat) : State :=
  { s with poisoned := s.poisoned.filter (fun e => !(List.range 4).all (fun i => locs.contains (4 * e.1 + i))) }
/-- Bytes with their locations, from one up. -/
def bytesAt (loc : Nat) (l : List Byte) : List (Nat × Byte) := ((List.range l.length).zip l).map (fun e => (loc + e.1, e.2))
/-- Writes bytes at consecutive locations. -/
def State.pokeBytes (s : State) (loc : Nat) (l : List Byte) : State :=
  ((bytesAt loc l).foldl (fun s e => s.pokeByte e.1 e.2) s).heal ((bytesAt loc l).map (·.1))

/-! ## Rows of words -/

/-- Word `l` of a row (R4). -/
def rowWord (r : Row) (l : Nat) : Word := r.extractLsb' (32 * l) 32
/-- A row with word `l` replaced. -/
def rowSet (r : Row) (l : Nat) (v : Word) : Row :=
  (r &&& ~~~((0xFFFFFFFF#1024) <<< (32 * l))) ||| (v.setWidth 1024 <<< (32 * l))
/-- The row of 32 words. -/
def rowOf (f : Nat → Word) : Row :=
  (List.range 32).foldl (fun r l => r ||| ((f l).setWidth 1024 <<< (32 * l))) 0
/-- The line of 32 words at its home. -/
def State.peekLine (s : State) (line : Nat) : Row := rowOf (fun i => s.peek (32 * line + i))

/-! ## Records of the state -/

def State.core (s : State) (c : Nat) : Core := Tab.get s.cores {} c
def State.setCore (s : State) (c : Nat) (x : Core) : State := { s with cores := Tab.set s.cores c x }
def State.cluster (s : State) (n : Nat) : Cluster := Tab.get s.clusters {} n
def State.setCluster (s : State) (n : Nat) (x : Cluster) : State := { s with clusters := Tab.set s.clusters n x }
def State.team? (s : State) (k : Nat) : Option Team := Tab.get? s.teams k
def State.setTeam (s : State) (k : Nat) (t : Team) : State := { s with teams := Tab.set s.teams k t }
def State.block? (s : State) (b : Nat) : Option Block := Tab.get? s.blocks b
def State.setBlock (s : State) (b : Nat) (x : Block) : State := { s with blocks := Tab.set s.blocks b x }
def State.task? (s : State) (k : Nat) : Option Task := Tab.get? s.tasks k
def State.setTask (s : State) (k : Nat) (x : Task) : State := { s with tasks := Tab.set s.tasks k x }
def State.part (s : State) (p : Nat) : Part := Tab.get s.parts {} p
def State.setPart (s : State) (p : Nat) (x : Part) : State := { s with parts := Tab.set s.parts p x }
def State.updPart (s : State) (p : Nat) (f : Part → Part) : State := s.setPart p (f (s.part p))
def State.edge (s : State) (d e : Nat) : Edge := Tab.get s.edges {} (4 * d + e)
def State.setEdge (s : State) (d e : Nat) (x : Edge) : State := { s with edges := Tab.set s.edges (4 * d + e) x }
def State.domain (s : State) (d : Nat) : Domain := Tab.get s.domains {} d
def State.setDomain (s : State) (d : Nat) (x : Domain) : State := { s with domains := Tab.set s.domains d x }
/-- Bank `b` of a cluster. -/
def Cluster.bank (c : Cluster) (b : Nat) : Bank := Tab.get c.banks {} b
def Cluster.setBank (c : Cluster) (b : Nat) (x : Bank) : Cluster := { c with banks := Tab.set c.banks b x }
/-- Raises an MSI-X message (R368). -/
def State.irq (s : State) (fn : Option Nat) (v : Nat) : State :=
  { s with irqs := s.irqs ++ [{ fn := fn, vector := v, tick := s.tick }] }
/-- Words are read that no task reads: an uncorrectable error met there for the first time raises vector 2 of the physical function
(R375, log 7). -/
def State.finds (s : State) (f : Nat → Bool) : State :=
  if s.unfound.any (fun w => f w && (Tab.get? s.poisoned w).isSome) then
    { s with unfound := s.unfound.filter (fun w => !f w) }.irq none 2
  else s
/-- The same of the words of `n` bytes from a location on. -/
def State.findsAt (s : State) (loc n : Nat) : State :=
  s.finds (fun w => decide (loc / 4 ≤ w) && decide (4 * w < loc + n))

/-- Team slots of the part. A spilled team keeps its key, raised by a multiple of this that its number gives (R346). -/
def slotKeys : Nat := 16384
/-- The key of a team is that of a spilled team. -/
def isSpilled (k : Nat) : Bool := decide (slotKeys ≤ k)
/-- The key a team has while it is spilled. -/
def spillKey (uid k : Nat) : Nat := slotKeys * (uid + 1) + k % slotKeys
/-- The core of a team slot key, and the slot's number on it (R46). -/
def coreOf (k : Nat) : Nat := k % slotKeys / 32
def slotOf (k : Nat) : Nat := k % 32
/-- The cluster of a core (R26). -/
def clusterOf (c : Nat) : Nat := c / 32
/-- The die of a core (R13). -/
def dieOf (c : Nat) : Nat := c / 64

/-! ## Stops, addresses, leases, translation, routes -/

/-- How a body ends that does not complete: it waits, in a state kept; it is stopped between two passes
(R183); or it faults, where a request refused at an edge names the edge (R33). -/
inductive Stop where
  | stopped (s : State)
  | wait (s : State) (w : Wait)
  | fault (cls detail : Nat) (addr : DWord) (edge : Option (Nat × Nat))

/-- A body's result. -/
abbrev Act := Except Stop

/-- A fault with an address. -/
def faultAt {α : Type} (cls detail : Nat) (addr : DWord) : Act α := .error (.fault cls detail addr none)
/-- The illegal-operation fault; details of Table 23-2. -/
def illegal {α : Type} (detail : Nat) : Act α := .error (.fault 6 detail 0 none)
/-- Raises the illegal-operation fault on a condition. -/
def illegalIf (c : Bool) (detail : Nat) : Act Unit := if c then illegal detail else pure ()

/-- R206: bits 63:57 all equal bit 56. -/
def canonical (a : DWord) : Bool := field a 56 8 == 0 || field a 56 8 == 255

def Task.det (tk : Task) : Bool := tk.lr.det
/-- The lease that holds a virtual byte address. -/
def Task.leaseOf (tk : Task) (va : Nat) : Option Lease :=
  tk.leases.find? (fun l => decide (l.base ≤ va) && decide (va < l.base + l.len))
/-- R341: the undo area. -/
def Task.inUndo (tk : Task) (va : Nat) : Bool :=
  decide (tk.lr.undo.toNat ≤ va) && decide (va < tk.lr.undo.toNat + tk.lr.vbudget)
/-- R292: the slice of a `sliced` lease that block `b` owns holds the address. -/
def Task.ownSlice (tk : Task) (l : Lease) (b va : Nat) : Bool :=
  let z := l.len / tk.lr.grid
  decide (l.base + b * z ≤ va) && decide (va < l.base + (b + 1) * z)

/-- The lease check of one word (R206, R285, R291, R292, R341): class and detail of its fault, or the lease. -/
def Task.checkWord (tk : Task) (b : Nat) (write : Bool) (va : Nat) : Except (Nat × Nat) Lease :=
  if tk.inUndo va then .error (2, 1)
  else match tk.leaseOf va with
    | none => .error (2, 1)
    | some l =>
      if write && !l.rw then .error (2, 2)
      else if tk.det && l.sliced && !tk.ownSlice l b va then .error (2, 3)
      else .ok l

/-- A field of PEERWIN (R371). -/
def peerLoc (win : Tab DWord) (dpa : Nat) : Nat :=
  match win.find? (fun e => bit e.2 63 && field e.2 30 10 == dpa / 2 ^ 30) with
  | some e => (field e.2 51 5 + 1) * 2 ^ 44 + field e.2 20 10 * 2 ^ 30 + dpa % 2 ^ 30
  | none => dpa

/-- The pinned translation of a virtual byte address (R319). -/
def Task.pinOf (tk : Task) (va : Nat) : Option Pin :=
  tk.pins.find? (fun p => decide (p.va ≤ va) && decide (va < p.va + p.size))
/-- The location of a virtual byte address. -/
def State.locate (s : State) (tk : Task) (va : Nat) : Option Nat :=
  (tk.pinOf va).map (fun p => peerLoc (s.part tk.part).peerWin (p.dpa + (va - p.va)))

/-- The die that serves a location (R13, R25). -/
def dieOfLoc (loc : Nat) : Nat := if loc < 2 ^ 44 then loc / 2 ^ 37 % 8 else (loc / 2 ^ 44 - 1) / 4 % 8
/-- One hop toward a die, column first, then row (R16): the edge left by (E 0, W 1, S 2, N 3) and the next die. -/
def hop (d t : Nat) : Nat × Nat :=
  if d % 4 < t % 4 then (0, d + 1) else if t % 4 < d % 4 then (1, d - 1)
  else if d < t then (2, d + 4) else (3, d - 4)
/-- The edge opposite to an edge. -/
def opposite (e : Nat) : Nat := if e % 2 == 0 then e + 1 else e - 1
/-- The first edge on the route that does not read open (R32, R33); at most four hops. -/
def State.blockedEdge (s : State) (t : Nat) : Nat → Nat → Option (Nat × Nat)
  | 0, _ => none
  | n + 1, d =>
    if d = t then none
    else
      let (e, d') := hop d t
      if (s.edge d e).state ≠ .opened then some (d, e)
      else if (s.edge d' (opposite e)).state ≠ .opened then some (d', opposite e)
      else s.blockedEdge t n d'

/-- A peer admits a location (R371). -/
def State.peerAdmits (s : State) (loc : Nat) : Bool :=
  loc < 2 ^ 44 ||
    (let a := (Tab.get s.peers {} (loc / 2 ^ 44 - 1)).admits
     let g := loc % 2 ^ 44 / 2 ^ 30
     decide (a.1 ≤ g) && decide (g < a.1 + a.2))

/-- The request of a core's die for a location reaches its home, or the fault of R33 and R371. Its response comes back whatever
edges are on its own way: the manual refuses requests only (R16, R32, log 94). -/
def State.reach (s : State) (die : Nat) (loc : Nat) (addr : DWord) : Act Unit :=
  match s.blockedEdge (dieOfLoc loc) 5 die with
  | some e => .error (.fault 1 4 addr (some e))
  | none => if s.peerAdmits loc then pure () else faultAt 1 4 addr

/-- A refused request is counted at its edge (R33, Table 1-7). -/
def State.countRefusal (s : State) (e : Option (Nat × Nat)) : State :=
  match e with
  | none => s
  | some (d, n) =>
    let x := s.edge d n
    s.setEdge d n { x with count := x.count + 1, ovf := x.ovf || x.count == BitVec.allOnes 31 }

/-- The virtual cluster of a physical cluster in a partition (R27, R348). -/
def Part.vcluster (p : Part) (c : Nat) : Nat :=
  ((List.range p.ncl).find? (fun v => field p.cltab (4 * v) 4 == c)).getD 0
/-- The physical clusters of a partition (R348). -/
def Part.clusterList (p : Part) : List Nat := (List.range p.ncl).map (fun v => field p.cltab (4 * v) 4)
/-- The base of the private area of the team in slot `k` (R304). -/
def State.privateBase (s : State) (tk : Task) (k : Nat) : Nat :=
  tk.lr.privBase.toNat + tk.lr.privSize *
    (1024 * (s.part tk.part).vcluster (clusterOf (coreOf k)) + k % 1024)

/-! ## Versions (R340 to R342) -/

/-- A table of shadows with the shadow of a write of a word (R340). -/
def State.shadowOf (s : State) (m : Tab Shadow) (w : Nat) : Tab Shadow :=
  let sh := (Tab.get? m (w / 32)).getD { prior := s.peekLine (w / 32), mask := 0, stamp := s.moment }
  Tab.set m (w / 32) { sh with mask := sh.mask ||| (1#32 <<< (w % 32)) }
/-- The shadow of a task's first write to a line, or the further word in its mask (R340). -/
def State.shadowWord (s : State) (task w : Nat) : State :=
  match s.task? task with
  | none => s
  | some tk =>
    s.setTask task { tk with shadows := s.shadowOf tk.shadows w, shadowLines := insertNew tk.shadowLines (w / 32) }

/-- Counts a line the task is about to write against its version budget (R341): none when it is spent. -/
def Task.budget (tk : Task) (line : Nat) : Option Task :=
  if tk.shadowLines.contains line then some tk
  else if tk.shadowLines.length < tk.lr.vbudget / 256 then
    some { tk with shadowLines := tk.shadowLines ++ [line] }
  else none

/-- A task is about to write words of a line none of which is written: the shadow alone (R340, a mapped-region fill). -/
def State.shadowLine (s : State) (task line : Nat) : State :=
  match s.task? task with
  | none => s
  | some tk =>
    let sh := (Tab.get? tk.shadows line).getD { prior := s.peekLine line, mask := 0, stamp := s.moment }
    s.setTask task { tk with shadows := Tab.set tk.shadows line sh, shadowLines := insertNew tk.shadowLines line }

/-- The budget for every line of a list of words, or the version-overflow fault. -/
def State.chargeLines (s : State) (task : Nat) (words : List Nat) : Act State :=
  match s.task? task with
  | none => pure s
  | some tk =>
    match words.foldl (fun o w => o.bind (fun tk : Task => tk.budget (w / 32))) (some tk) with
    | some tk => pure (s.setTask task tk)
    | none => faultAt 8 0 0

/-- Shadows of tasks, the latest first. -/
def insertShadow (e : Nat × Shadow) : List (Nat × Shadow) → List (Nat × Shadow)
  | [] => [e]
  | x :: t => if x.2.stamp ≤ e.2.stamp then e :: x :: t else x :: insertShadow e t
/-- Restores the words of shadows to their prior contents, the latest shadow first, each a write of the LLC's own (R342,
R254). -/
def State.restoreLines (s : State) (shs : List (Nat × Shadow)) : State :=
  (shs.foldl (fun l e => insertShadow e l) []).foldl (fun s e =>
    (List.range 32).foldl (fun s i =>
      if bit e.2.mask i then
        { s with owners := Tab.erase s.owners (32 * e.1 + i) }.poke (32 * e.1 + i) (rowWord e.2.prior i)
      else s) s) s
/-- Restores the words of the shadows of tasks. -/
def State.restoreShadows (s : State) (ts : List Task) : State := s.restoreLines (ts.flatMap (·.shadows))

/-! ## Writes at the home -/

/-- A write by a team leaves the word `v`: every `park` on it that expects another value ends (R113). -/
def State.endParks (s : State) (w : Nat) (v : Word) : State :=
  let ts := Tab.mapVals s.teams (fun t =>
      match t.wait with
      | some (.park _ pw e _) => if pw = w ∧ e ≠ v then { t with wait := some .over } else t
      | _ => t)
  { s with teams := ts }

/-- A task's word written at its home LLC: its version shadow first, then the word (R340). -/
def State.writeHome (s : State) (task w : Nat) (v : Word) : State := (s.shadowWord task w).poke w v

/-- The registration of one word by a team of a core (R243): value, owner mark, signature released. -/
def State.registerWord (s : State) (c task w : Nat) (v : Word) (rel : Option Sig) : State :=
  let s := s.writeHome task w v
  let s := { s with
    owners := Tab.set s.owners w c,
    relSig := match rel with
      | none => s.relSig
      | some g => Tab.upd s.relSig 0 w (· ||| g) }
  s.endParks w v

/-! ## Caches (R214) -/

/-- The valid word a cache holds. -/
def cached (t : Tab Line) (w : Nat) : Option Word :=
  match Tab.get? t (w / 32) with
  | none => none
  | some l => if bit l.valid (w % 32) then some (rowWord l.data (w % 32)) else none
/-- The word is dirty in the cache. -/
def dirtyIn (t : Tab Line) (w : Nat) : Bool :=
  match Tab.get? t (w / 32) with
  | none => false
  | some l => bit l.dirty (w % 32)
/-- Sets a word that the cache already holds valid. -/
def updateCached (t : Tab Line) (w : Nat) (v : Word) : Tab Line :=
  match Tab.get? t (w / 32) with
  | none => t
  | some l => if bit l.valid (w % 32) then Tab.set t (w / 32) { l with data := rowSet l.data (w % 32) v } else t
/-- Clears the valid bit of a clean word. -/
def dropWord (t : Tab Line) (w : Nat) : Tab Line :=
  match Tab.get? t (w / 32) with
  | none => t
  | some l => Tab.set t (w / 32) { l with valid := l.valid &&& ~~~((1#32 <<< (w % 32)) &&& ~~~l.dirty) }
/-- Clears the dirty bit of a word. -/
def cleanWord (t : Tab Line) (w : Nat) : Tab Line :=
  match Tab.get? t (w / 32) with
  | none => t
  | some l => Tab.set t (w / 32) { l with dirty := l.dirty &&& ~~~(1#32 <<< (w % 32)) }

/-- Keeps valid, of the clean words of a cache, those the core owns (R244). -/
def keepOwned (owners : Tab Nat) (c : Nat) (t : Tab Line) : Tab Line :=
  t.map (fun e => (e.1, { e.2 with
    valid := (List.range 32).foldl (fun v i =>
      if bit e.2.valid i && (bit e.2.dirty i || Tab.get? owners (32 * e.1 + i) == some c)
      then v ||| (1#32 <<< i) else v) 0 }))
/-- Keeps, of the lines that match a signature, only the dirty words (R246). -/
def dropMatching (g : Sig) (t : Tab Line) : Tab Line :=
  t.map (fun e => if g &&& Config.sigOfLine e.1 == Config.sigOfLine e.1
    then (e.1, { e.2 with valid := e.2.valid &&& e.2.dirty }) else e)

/-- Applies a function to the caches of a core: its L1 and its cluster's cache. -/
def State.onCaches (s : State) (c : Nat) (f : Tab Line → Tab Line) : State :=
  let x := s.core c
  let s := s.setCore c { x with l1 := f x.l1 }
  let y := s.cluster (clusterOf c)
  s.setCluster (clusterOf c) { y with l2 := f y.l2 }

/-- An acquire performed for a team on a core, with its carried signature (R244, R246). -/
def State.acquire (s : State) (c : Nat) (g : Sig) : State :=
  let s := s.onCaches c (keepOwned s.owners c)
  if g == 0 then s else s.onCaches c (dropMatching g)

/-- The carried signature grew: its lines leave the caches (R246). -/
def State.applySig (s : State) (c : Nat) (g : Sig) : State :=
  if g == 0 then s else s.onCaches c (dropMatching g)

/-- A fill, a prefetch, a registration, an atomic or a word of a Drover command counts in the undisclosed counters of a
partition (R364, log 24). -/
def State.countFill (s : State) (p : Nat) : State :=
  let n := s.fresh
  let d := fun i => BitVec.ofNat 64 (Config.freeCount (n + i))
  let s := s.updPart p (fun x =>
    let y := { x with hbmb := x.hbmb + d 0, llcm := x.llcm + d 1, d2df := x.d2df + d 2 }
    { y with hist := (s.tick, y.hbmb, y.llcm, y.d2df) :: y.hist })
  { s with fresh := n + 3 }

/-- The other word of the aligned doubleword that holds a word (R215). -/
def mate (w : Nat) : Nat := if w % 2 = 0 then w + 1 else w - 1
/-- Sets a clean word that the cache already holds valid. -/
def updateClean (t : Tab Line) (w : Nat) (v : Word) : Tab Line := if dirtyIn t w then t else updateCached t w v
/-- A core's clean copies of words are brought to what their homes hold, and with each the other word of its doubleword, so that
no later load mixes two states of a doubleword or returns an older value (R215, R248). A word in error gives nothing. -/
def State.refreshCore (s : State) (c : Nat) (ws : List Nat) : State :=
  ws.foldl (fun s w => if (Tab.get? s.poisoned w).isSome then s
    else s.onCaches c (fun l => updateClean l w (s.peek w))) s

/-- The core whose store a dirty word of a cluster cache is (R244). -/
def dirtyBy (t : Tab Line) (w : Nat) : Option Nat :=
  match Tab.get? t (w / 32) with
  | none => none
  | some l => if bit l.dirty (w % 32) then some (Tab.get l.src 0 (w % 32)) else none
/-- Word `i` of a line of a cluster cache once a store of core `c` to it is registered: the value, dirty no more when it was this
core's and no younger store of the core to it remains; another core's store stays dirty (R243, R244). -/
def Line.registered (l : Line) (c i : Nat) (v : Word) (last : Bool) : Line :=
  if bit l.dirty i && !(last && Tab.get l.src 0 i == c) then l
  else if bit l.valid i then
    { l with data := rowSet l.data i v, dirty := l.dirty &&& ~~~(1#32 <<< i), src := Tab.erase l.src i }
  else l
/-- A cluster cache once a store of core `c` is registered. -/
def registeredIn (t : Tab Line) (c w : Nat) (v : Word) (last : Bool) : Tab Line :=
  match Tab.get? t (w / 32) with
  | none => t
  | some l => Tab.set t (w / 32) (l.registered c (w % 32) v last)

/-- A store of a core becomes registered: its words at their homes, their dirty bits in the L1 and the cluster cache cleared
unless a younger store of the core holds them, the clean copies brought up to date (R215, R243, R244). -/
def State.registerStore (s : State) (c : Nat) (p : PStore) (younger : List PStore) : State :=
  let s := p.words.foldl (fun s e =>
    let last := !younger.any (fun q => q.words.any (fun x => x.1 == e.1))
    let s := s.registerWord c p.task e.1 e.2 p.rel
    let y := s.cluster (clusterOf c)
    let s := s.setCluster (clusterOf c) { y with l2 := registeredIn y.l2 c e.1 e.2 last }
    if last then
      let x := s.core c
      s.setCore c { x with l1 := cleanWord x.l1 e.1 }
    else s) s
  (s.refreshCore c (p.words.map (fun e => mate e.1))).countFill p.part

/-- Two stores touch a common word. -/
def PStore.meets (p q : PStore) : Bool := p.words.any (fun e => q.words.any (fun x => x.1 == e.1))
/-- An older store of a core is registered before a younger one: they touch a common word, or the younger is an ordered store of
the same team, whose release side waits for every prior store of it (R242, R243). -/
def PStore.before (p q : PStore) : Bool := p.meets q || (q.rel.isSome && p.team == q.team)

/-- Splits a queue of stores: those that satisfy a predicate, with every older store that goes before one of them, and
the rest, each in order. -/
def splitStores (f : PStore → Bool) : List PStore → List PStore × List PStore
  | [] => ([], [])
  | p :: t =>
    let (a, b) := splitStores f t
    if f p || a.any p.before then (p :: a, b) else (a, p :: b)

/-- Registers, in order, the stores of a core that satisfy a predicate, and what must precede them. -/
def registerAll (c : Nat) (rest : List PStore) : List PStore → State → State
  | [], s => s
  | p :: t, s => registerAll c rest t (s.registerStore c p (t ++ rest))
def State.registerIf (s : State) (c : Nat) (f : PStore → Bool) : State :=
  let x := s.core c
  let (a, b) := splitStores f x.stores
  registerAll c b a (s.setCore c { x with stores := b })
/-- The stores behind those of some words that a cluster's cache holds dirty for a core that satisfies a test are registered. -/
def State.flushL2 (s : State) (cl : Nat) (f : Nat → Bool) (ws : List Nat) : State :=
  ws.foldl (fun s w => match dirtyBy (s.cluster cl).l2 w with
    | some c => if f c then s.registerIf c (fun p => p.words.any (fun e => e.1 == w)) else s
    | none => s) s
/-- The words of a line. -/
def lineWords (line : Nat) : List Nat := (List.range 32).map (32 * line + ·)

/-- A release side of a team: every store of it is registered (R243). Stores still in its commit buffer are not yet performed, and
no release side waits for them (R293, log 119). -/
def State.release (s : State) (k : Nat) : State := s.registerIf (coreOf k) (fun p => p.team == k)

/-- An ordered or atomic access of a team to words: the core's stores to them, those its cluster's cache holds for other cores and
the team's own ordered stores are registered first, so that accesses of this kind take one order (R242, R248). -/
def State.ordered (s : State) (k : Nat) (ws : List Nat) : State :=
  (s.registerIf (coreOf k) (fun p => (p.team == k && p.rel.isSome) || p.words.any (fun e => ws.contains e.1))).flushL2
    (clusterOf (coreOf k)) (fun _ => true) ws
/-- A read of words at their homes: the core's copies are brought up to date, so that no later read of the core returns an
older value (R215, R248). -/
def State.refresh (s : State) (k : Nat) (ws : List Nat) : State :=
  s.refreshCore (coreOf k) (ws.flatMap (fun w => [w, mate w]))

/-- A bank serves as cache: in cache mode and not leaving it (R211). -/
def Cluster.caching (c : Cluster) (b : Nat) : Bool := (c.bank b).mode == .cache && !(c.bank b).trans
/-- Lines the cluster cache can hold: 8,192 for each bank that serves as cache (R19, R209, R211). -/
def Cluster.l2Lines (c : Cluster) : Nat := Config.linesPerBank * ((List.range 32).filter c.caching).length

/-- The line to replace: highest priority, then least recently used (R214). -/
def victimOf : List (Nat × Line) → Option (Nat × Line)
  | [] => none
  | e :: t =>
    match victimOf t with
    | none => some e
    | some v =>
      if v.2.prio < e.2.prio || (v.2.prio == e.2.prio && decide (e.2.used ≤ v.2.used)) then some e else some v

/-- The bank a line of a cluster cache takes and the line that leaves for it: its own, the first with a line free, the
victim's; none when no bank may take a fill (R211, R214). -/
def Cluster.placeL2 (x : Cluster) (line : Nat) : Option (Nat × Option Nat) :=
  match Tab.get? x.l2 line with
  | some l => if x.caching l.bank then some (l.bank, none) else none
  | none =>
    let room := fun b => x.caching b && decide ((x.l2.filter (fun e => e.2.bank == b)).length < Config.linesPerBank)
    match (List.range 32).find? room with
    | some b => some (b, none)
    | none => (victimOf (x.l2.filter (fun e => x.caching e.2.bank))).map (fun v => (v.2.bank, some v.1))
/-- Makes room in a cluster cache for a line: the bank it takes; the dirty words of a line that leaves are registered (R214). -/
def State.roomL2 (s : State) (cl line : Nat) : Option Nat × State :=
  match (s.cluster cl).placeL2 line with
  | none => (none, s)
  | some (b, none) => (some b, s)
  | some (b, some v) =>
    let s := s.flushL2 cl (fun _ => true) (lineWords v)
    let y := s.cluster cl
    (some b, s.setCluster cl { y with l2 := Tab.erase y.l2 v })

/-- A line of a cluster cache with the dirty words of a line that leaves the L1 of core `c`. -/
def Line.takeDirty (y l : Line) (c : Nat) : Line :=
  { y with
    valid := y.valid ||| l.dirty, dirty := y.dirty ||| l.dirty,
    data := rowOf (fun i => if bit l.dirty i then rowWord l.data i else rowWord y.data i),
    src := ((List.range 32).filter (bit l.dirty ·)).foldl (fun m i => Tab.set m i c) y.src }
/-- The dirty words of a line that leaves the L1 of a core go to the cluster cache, after another core's stores it holds to them
are registered; where it has no room for the line, the core's stores are (R214, R244, log 123). -/
def State.lowerLine (s : State) (c line : Nat) : State :=
  let cl := clusterOf c
  match s.roomL2 cl line with
  | (none, s) => s.registerIf c (fun p => p.words.any (fun e => e.1 / 32 == line))
  | (some b, s) =>
    let l := (Tab.get? (s.core c).l1 line).getD {}
    let s := s.flushL2 cl (fun d => d != c) ((lineWords line).filter (fun w => bit l.dirty (w % 32)))
    let y := s.cluster cl
    let z := (Tab.get? y.l2 line).getD { prio := l.prio, used := l.used, slot := l.slot, bank := b }
    s.setCluster cl { y with l2 := Tab.set y.l2 line (z.takeDirty l c) }

/-- The victim tag array with a line evicted: the 64 most recent; a line evicted again has one entry, its last (R47, log 116). -/
def Core.recordVictim (x : Core) (line slot : Nat) : List (Nat × Nat) :=
  let old := x.victims.filter (fun v => v.1 != line)
  (old ++ [(line, slot)]).drop (old.length - 63)
/-- Makes room in a core's L1 for a line: the victim's dirty words go to the next level, the victim tag array records
it (R47, R214). -/
def State.roomL1 (s : State) (c line : Nat) : State :=
  let x := s.core c
  if x.l1.length < Config.l1Lines || (Tab.get? x.l1 line).isSome then s
  else match victimOf x.l1 with
    | none => s
    | some v =>
      let s := if v.2.dirty = 0 then s else s.lowerLine c v.1
      let x := s.core c
      s.setCore c { x with l1 := Tab.erase x.l1 v.1, victims := x.recordVictim v.1 v.2.slot }

/-- A line with its clean words taken from a row, of which those of a mask are good; a word that is not good stays (R215). -/
def Line.fill (l : Line) (r : Row) (good : Word) : Line :=
  { l with
    data := rowOf (fun i => if bit l.dirty i || (bit l.valid i && !bit good i) then rowWord l.data i else rowWord r i),
    valid := l.valid ||| good }
/-- A line a cache holds, its valid clean words taken from a row: no word becomes valid (R215). -/
def renewLine (t : Tab Line) (line : Nat) (r : Row) (good : Word) : Tab Line :=
  match Tab.get? t line with
  | none => t
  | some l => Tab.set t line { l.fill r good with valid := l.valid }
/-- A line with no valid word is as one not held: the access that fills it next gives its team slot (R47). -/
def Line.ownedBy (l : Line) (slot : Nat) : Line := if l.valid = 0 then { l with slot := slot } else l
/-- A line filled by an access: its priority and use; the team slot of the access that filled it first (R47, R214). -/
def fillLine (t : Tab Line) (line : Nat) (r : Row) (good : Word) (evp now slot bank : Nat) : Tab Line :=
  let l := ((Tab.get? t line).getD { bank := bank }).ownedBy slot
  Tab.set t line { l.fill r good with prio := evp, used := now }

/-- The words of a line as the next level after the L1 holds them: a cluster cache's line that holds every word, or that serves a
miss without a request to the homes (`home` false); else its dirty words, and those whose home is in error, and all others from
their homes at one moment (R214, R215). -/
def State.nextLevel (s : State) (c line : Nat) (home : Bool) : Row :=
  match Tab.get? (s.cluster (clusterOf c)).l2 line with
  | none => s.peekLine line
  | some l =>
    if !home || l.valid == BitVec.allOnes 32 then l.data
    else rowOf (fun i =>
      if bit l.dirty i || (bit l.valid i && (Tab.get? s.poisoned (32 * line + i)).isSome) then rowWord l.data i
      else s.peek (32 * line + i))

/-- The word comes to a core uncorrectable: its cluster's cache does not hold it and memory's word is (R375). -/
def State.badFor (s : State) (c w : Nat) : Bool :=
  (Tab.get? s.poisoned w).isSome && (cached (s.cluster (clusterOf c)).l2 w).isNone
/-- The words of a line that come to a core as good: those its cluster's cache holds, and by a request the others that are good at
their homes. -/
def State.goodWords (s : State) (c line : Nat) (home : Bool) : Word :=
  (List.range 32).foldl (fun m i =>
    if (cached (s.cluster (clusterOf c)).l2 (32 * line + i)).isSome || (home && !s.badFor c (32 * line + i))
    then m ||| (1#32 <<< i) else m) 0

/-- Brings a line into the cluster cache and the L1 at a priority, for a team slot; `home`: by a request to its home (R214). -/
def State.bringLine (s : State) (c line evp slot : Nat) (home : Bool) : State :=
  let s := s.roomL1 c line
  let (b, s) := s.roomL2 (clusterOf c) line
  let row := s.nextLevel c line home
  let good := s.goodWords c line home
  let y := s.cluster (clusterOf c)
  let s := s.setCluster (clusterOf c) { y with l2 := match b with
    | some b => fillLine y.l2 line row good evp s.moment slot b
    | none => renewLine y.l2 line row good }
  let x := s.core c
  s.setCore c { x with l1 := fillLine x.l1 line row good evp s.moment slot 0 }
/-- A line read without being kept: the words that the caches of a core hold of it clean become those read (R214, R215). -/
def State.renewCopies (s : State) (c line : Nat) (row : Row) (good : Word) : State :=
  s.onCaches c (fun t => renewLine t line row good)

/-- Puts a stored word into the L1: valid and dirty (R214). -/
def State.storeL1 (s : State) (c w evp slot : Nat) (v : Word) : State :=
  let s := s.roomL1 c (w / 32)
  let x := s.core c
  let m := 1#32 <<< (w % 32)
  let l := ((Tab.get? x.l1 (w / 32)).getD {}).ownedBy slot
  s.setCore c { x with l1 := Tab.set x.l1 (w / 32) { l with
    valid := l.valid ||| m, dirty := l.dirty ||| m, data := rowSet l.data (w % 32) v, prio := evp, used := s.moment } }

/-- Queues stores of whole words in the core, one per single-copy atomic unit (R215, R243); other cores' stores to the words that
the cluster's cache holds are registered first, for the core may have read them (R248). -/
def State.queueStore (s : State) (k : Nat) (t : Team) (evp : Nat) (rel : Option Sig) (ws : List (Nat × Word)) : State :=
  let s := s.flushL2 (clusterOf (coreOf k)) (fun d => d != coreOf k) (ws.map (·.1))
  let s := ws.foldl (fun s e => s.storeL1 (coreOf k) e.1 evp (slotOf k) e.2) s
  let units := if ws.length ≤ 2 then [ws] else [ws.take 2, ws.drop 2]
  let c := s.core (coreOf k)
  s.setCore (coreOf k) { c with
    stores := c.stores ++ units.map (fun u =>
      { team := k, task := t.task, part := t.part, words := u, rel := rel, uid := t.uid, block := t.block, teamNo := t.team }) }

/-- A hit sets the line's priority and use (R214). -/
def State.touchL1 (s : State) (c w evp : Nat) : State :=
  let x := s.core c
  match Tab.get? x.l1 (w / 32) with
  | none => s
  | some l => s.setCore c { x with l1 := Tab.set x.l1 (w / 32) { l with prio := evp, used := s.moment } }

/-- A load at eviction priority 7 that hits in the cluster cache alone sets the line's priority there (R214). -/
def State.touchL2 (s : State) (c line evp : Nat) : State :=
  let y := s.cluster (clusterOf c)
  match Tab.get? y.l2 line with
  | none => s
  | some l => s.setCluster (clusterOf c) { y with l2 := Tab.set y.l2 line { l with prio := evp, used := s.moment } }

/-- The word a team of a core reads by a plain load, when the core holds it. -/
def State.held? (s : State) (c : Nat) (t : Team) (w : Nat) : Option Word :=
  match cached (s.core c).l1 w with
  | some v => some v
  | none => Tab.get? t.fills w

/-- The word as a team of the core would load it with every level at hand: its own core's copy, else the next level. -/
def State.viewWord (s : State) (c w : Nat) : Word :=
  match cached (s.core c).l1 w with
  | some v => v
  | none => match cached (s.cluster (clusterOf c)).l2 w with
    | some v => v
    | none => s.peek w

/-! ## Fleeting memory (R216 to R219) -/

/-- R216: live at tick `x`. -/
def Tile.live (t : Tile) (x : BitVec 16) : Bool := !t.exp && decide ((x - t.birth).toNat < 4096)
/-- The tile of Table 13-3 that a store, or `flrenew`, finds at tick `x`. -/
def Tile.restamp (t : Tile) (x : BitVec 16) : Tile :=
  if t.live x then t else { birth := x, visit := t.visit }
/-- Stores a word of a tile under a byte mask (Table 13-3; unwritten bytes of an invalid word are zero). -/
def Tile.store (t : Tile) (x : BitVec 16) (i : Nat) (v keep : Word) : Tile :=
  let t := t.restamp x
  let old := if bit t.valid i then Tab.get t.data 0 i else 0
  { t with valid := t.valid ||| (1#512 <<< i), data := Tab.set t.data i ((old &&& keep) ||| (v &&& ~~~keep)) }
/-- The word a load returns; none when it is expired or invalid. -/
def Tile.load (t : Tile) (x : BitVec 16) (i : Nat) : Option Word :=
  if t.live x && bit t.valid i then some (Tab.get t.data 0 i) else none
/-- `flrenew` of Table 13-3. -/
def Tile.renew (t : Tile) (x : BitVec 16) : Tile := if t.live x then { t with birth := x } else { birth := x, visit := t.visit }
/-- `fllife` of Table 13-3. -/
def Tile.life (t : Tile) (x : BitVec 16) : Nat := if t.live x then 4096 - (x - t.birth).toNat else 0
/-- The sample tick (R217). -/
def State.sample (s : State) : BitVec 16 := s.tick.setWidth 16
/-- A word of a block's fleeting space. -/
def Block.fleetLoad (b : Block) (x : BitVec 16) (w : Nat) : Option Word := (Tab.get b.tiles {} (w / 512)).load x (w % 512)
def Block.fleetStore (b : Block) (x : BitVec 16) (w : Nat) (v keep : Word) : Block :=
  { b with tiles := Tab.upd b.tiles {} (w / 512) (fun t => t.store x (w % 512) v keep) }

/-! ## Scratch (R209 to R213) -/

/-- The code of a bank mode (Table 13-2). -/
def BankMode.code : BankMode → Nat
  | .cache => 0 | .scratch => 1 | .fifo => 2
/-- BKCTL as it reads (Table 13-2). -/
def Bank.ctl (b : Bank) : Word :=
  BitVec.ofNat 32 ((if b.esc then 8192 else 0) + (if b.fw then 4096 else 0) + 256 * b.req.code + 16 * b.mode.code +
    (if b.trans then 1 else 0))

/-- The bytes of a block's scratch allocation: whole lines (R205). -/
def Rec.scratchBytes (r : Rec) : Nat := 128 * ceilDiv r.scratch 128
/-- The bank that holds line `i` of a block's scratch: banks in the order of allocation (R209). -/
def bankOfLine : List (Nat × Nat) → Nat → Option Nat
  | [], _ => none
  | (b, n) :: t, i => if i < n then some b else bankOfLine t (i - n)
/-- The line of the mapped region a scratch line is, if any (R213). -/
def Rec.regionLine (r : Rec) (line : Nat) : Option Nat :=
  if r.msOff / 128 ≤ line ∧ line < r.msOff / 128 + r.msLines then some (line - r.msOff / 128) else none
/-- The virtual address that backs line `j` of block `b`'s region (R213). -/
def Rec.backing (r : Rec) (b j : Nat) : Nat :=
  (r.msBase.toNat + r.msStride.toNat * b + 128 * j) % 2 ^ 64
/-- A word written to scratch is good again; in a touched mapped line it becomes dirty (R213, R375). -/
def Block.scratchStore (b : Block) (r : Rec) (w : Nat) (v : Word) : Block :=
  { b with
    scratch := Tab.set b.scratch w v,
    badWords := b.badWords.filter (fun x => x != w),
    dirty := if (r.regionLine (w / 32)).isSome
      then Tab.upd b.dirty 0 (w / 32) (· ||| (1#32 <<< (w % 32))) else b.dirty }

end Sys2Proof.Machine
end

