-- ==== Sys2Proof/Machine/Ops.lean ====
section
/-! DEFINITION. Sys2Proof/Machine/Ops.lean: named operations over a team: lanes and masks, registers, guards, the
reconvergence stack, lane traps, taking a trap and returning from it, barriers, the end of a team's life, faults,
and the two frames every word instruction runs in: once for the team, or on lanes (R76). -/
namespace Sys2Proof.Machine

/-! ## Lanes and masks (R37, R40) -/

/-- Mask word `w`. -/
def maskWord (m : Mask) (w : Nat) : Word := m.extractLsb' (32 * w) 32
/-- The mask of one lane. -/
def lane1 (l : Nat) : Mask := 1#1024 <<< l
/-- The mask of lanes 0 to `n` - 1. -/
def lanesBelow (n : Nat) : Mask := BitVec.ofNat 1024 (2 ^ n - 1)
/-- The mask of a list of lanes. -/
def maskOf (l : List Nat) : Mask := l.foldl (fun m i => m ||| lane1 i) 0
/-- The mask words below `W` that hold a lane, ascending: the passes (R41). -/
def passesOf (m : Mask) (W : Nat) : List Nat := (List.range W).filter (fun w => maskWord m w != 0)
/-- The lanes of a mask below `32 * W`, ascending. -/
def lanesOf (m : Mask) (W : Nat) : List Nat :=
  (passesOf m W).flatMap (fun w => ((List.range 32).map (32 * w + ·)).filter (fun l => bit m l))
/-- The mask words at or past `lo` and below `hi`. -/
def maskSpan (m : Mask) (lo hi : Nat) : Mask := m &&& lanesBelow (32 * hi) &&& ~~~(lanesBelow (32 * lo))
/-- The lanes of a mask for which a test holds. -/
def maskWhere (m : Mask) (W : Nat) (f : Nat → Bool) : Mask := maskOf ((lanesOf m W).filter f)

/-- The mask words of a team (R37). -/
def Team.words (t : Team) : Nat := ceilDiv t.lanes 32
/-- All lanes of a team. -/
def Team.all (t : Team) : Mask := lanesBelow t.lanes

/-! ## Registers -/

/-- A scalar register; `s0` reads zero (R39). -/
def Team.rs (t : Team) (i : Nat) : Word := if i = 0 then 0 else Tab.get t.s 0 i
/-- A write of a scalar register; to `s0` it is discarded (R85). -/
def Team.ws (t : Team) (i : Nat) (v : Word) : Team := if i = 0 then t else { t with s := Tab.set t.s i v }
/-- A pair: the even register holds bits 31:0 (R98). -/
def Team.rs2 (t : Team) (i : Nat) : DWord := t.rs (i + 1) ++ t.rs i
def Team.ws2 (t : Team) (i : Nat) (v : DWord) : Team :=
  (t.ws i (v.setWidth 32)).ws (i + 1) (v.extractLsb' 32 32)
/-- A predicate; `p7` is true in every lane (R39). -/
def Team.rp (t : Team) (i : Nat) : Mask := if i = 7 then t.all else Tab.get t.p 0 i
/-- A write of a predicate in the lanes of a mask; to `p7` it is discarded (R85). -/
def Team.wp (t : Team) (i : Nat) (act v : Mask) : Team :=
  if i = 7 then t else { t with p := Tab.set t.p i ((t.rp i &&& ~~~act) ||| (v &&& act)) }
/-- Lane block `w` of vector register `r`. -/
def Team.rv (t : Team) (r w : Nat) : VReg := Tab.get t.v {} (32 * r + w)
def Team.wv (t : Team) (r w : Nat) (x : VReg) : Team := { t with v := Tab.set t.v (32 * r + w) x }
/-- Lane `l`'s word of vector register `r`. -/
def Team.rl (t : Team) (r l : Nat) : Word := rowWord (t.rv r (l / 32)).data (l % 32)
/-- Lane `l`'s pair, the even register low. -/
def Team.rl2 (t : Team) (r l : Nat) : DWord := t.rl (r + 1) l ++ t.rl r l
/-- A row with the active lanes replaced. -/
def rowMerge (old : Row) (m : Word) (f : Nat → Word) : Row :=
  (List.range 32).foldl (fun r i => if bit m i then rowSet r i (f i) else r) old
/-- Writes the active lanes of a vector register; each lane block written takes the tag and a zero scale
word (R151). -/
def Team.wlanes (t : Team) (r : Nat) (act : Mask) (tag : Tag) (f : Nat → Word) : Team :=
  (passesOf act t.words).foldl (fun (t : Team) w =>
    t.wv r w { data := rowMerge (t.rv r w).data (maskWord act w) (fun i => f (32 * w + i)), tag := tag, scale := 0 }) t
/-- Writes the active lanes of a pair (Table 5-4). -/
def Team.wlanes2 (t : Team) (r : Nat) (act : Mask) (tag : Tag) (f : Nat → DWord) : Team :=
  (t.wlanes r act tag (fun l => (f l).setWidth 32)).wlanes (r + 1) act tag (fun l => (f l).extractLsb' 32 32)
def plainTag (f : Fmt) : Tag := { fmt := f }
/-- The side registers of a lane block (R39). -/
def Team.side (t : Team) (w : Nat) : Side := Tab.get t.sides {} w

/-- The lanes of the active mask whose guard is true (R76). -/
def Team.guarded (t : Team) (p : Pre) : Mask :=
  let m := t.rp p.g.toNat
  t.active &&& (if p.n then ~~~m else m)

/-! ## What runs (R325, R335, R344, R345) -/

/-- The partition's teams may issue: neither halted nor out of its slice (R344, R345). -/
def State.partRuns (s : State) (p : Nat) : Bool :=
  !(s.part p).haltBit && !(s.part p).haltedBit && !(s.part p).sliceOff
/-- A partition that arrived by a migration waits for the walk of its pages: one that failed holds all of it (R352). -/
def State.walkHeld (s : State) (p : Nat) : Bool := s.tasks.any (fun e => e.2.part == p && e.2.awaitsWalk)
/-- The task's teams may issue: it holds no fault and no revoked page, and no walk holds its partition (R325, R335, R352). -/
def State.taskRuns (s : State) (k : Nat) : Bool :=
  match s.task? k with
  | none => false
  | some tk => !tk.revoked && (tk.lr.det || tk.faults.isEmpty) && !s.walkHeld tk.part

/-- A team stands in place: its partition is halted, or its task's pages are revoked, or a walk holds its partition (R325, R345,
R352). -/
def State.inPlace (s : State) (t : Team) : Bool :=
  !s.partRuns t.part || s.walkHeld t.part || (match s.task? t.task with | some tk => tk.revoked | none => false)
/-- A partition has teams, and all of them stand in place. -/
def State.allInPlace (s : State) (p : Nat) : Bool :=
  s.teams.any (fun e => e.2.part == p) && s.teams.all (fun e => e.2.part != p || s.inPlace e.2)
/-- A partition is halted: by HALT or its slice, or because all its teams stand in place under R325 (R345, R363). -/
def State.partHalted (s : State) (p : Nat) : Bool := !s.partRuns p || s.allInPlace p

/-- The shares of a partition's active contracts (R359, R361). -/
def State.contractShares (s : State) (p : Nat) : Nat :=
  (s.tasks.foldl (fun l e => if e.2.part == p && e.2.lr.floor != 0 then insertNew l e.2.lr.floor else l) []).foldl
    (fun n f => n + min 256 (field (Tab.get s.floors 0 f) 0 9)) 0
/-- A partition with a ready team and active contracts, whose power does not exceed their share of the package's (R361). -/
def State.floored (s : State) (p : Nat) : Bool :=
  s.tasks.any (fun e => e.2.part == p && e.2.lr.floor != 0) &&
  s.teams.any (fun e => e.2.part == p && !isSpilled e.1 && e.2.wait.isNone && e.2.fault.isNone) &&
  decide (256 * Tab.get s.powers 0 p ≤ Config.packageLimit * s.contractShares p)
/-- Issue throttling withholds this cycle of a core from a partition: so many of every sixteen (R355, R361, log 13). -/
def State.withheld (s : State) (core p : Nat) : Bool :=
  decide ((s.core core).cycle.toNat % 16 < Tab.get s.throttled 0 p) && !s.floored p
/-- A cycle of a core counts for the watchdog of a partition: neither withheld, nor frozen, nor halted (R363). -/
def State.countsCycle (s : State) (core p : Nat) : Bool :=
  !s.withheld core p && !(s.cluster (clusterOf core)).reg.freezes && !s.partHalted p
/-- How many of the next `n` cycles of a core count for the watchdog of a partition, each by itself: of every sixteen those that
throttling does not withhold, and none from the first that stage two freezes (R355, R357, R363). -/
def State.cyclesCounted (s : State) (core p n : Nat) : Nat :=
  let n := (s.cluster (clusterOf core)).reg.free n
  if s.partHalted p then 0
  else if s.floored p then n
  else
    let w := Tab.get s.throttled 0 p
    n / 16 * (16 - w) + ((List.range (n % 16)).filter (fun i => decide (w ≤ ((s.core core).cycle.toNat + i) % 16))).length

/-! ## The record a body answers with -/

/-- What an instruction leaves: the team, the part, a new pc where it transfers control, the lanes it
traps and their cause as `%tcause` holds it, and the lanes that have performed the instruction it goes on at (R332). -/
structure Done where
  t : Team
  s : State
  pc : Option DWord := none
  traps : Mask := 0
  cause : Word := 0
  did : Mask := 0

/-- Goes on at the next word. -/
def done (t : Team) (s : State) : Act Done := pure { t := t, s := s }
/-- Transfers control. -/
def jump (t : Team) (s : State) (pc : DWord) : Act Done := pure { t := t, s := s, pc := some pc }
/-- Waits, keeping the part and the team as given; the team issues the instruction again (R45). -/
def waitOn {α : Type} (k : Nat) (t : Team) (s : State) (w : Wait) : Act α := .error (.wait (s.setTeam k t) w)

/-! ## The reconvergence stack (R57, R58) -/

def kindJoin : Nat := 1
def kindPend : Nat := 2
def kindTrap : Nat := 3
def kindResume : Nat := 4
/-- An entry of a kind (Table 3-3). -/
def Entry.make (pc : DWord) (kind : Nat) (m : Mask) : Entry :=
  { pck := (pc &&& ~~~7#64) ||| BitVec.ofNat 64 kind, mask := m }
def Entry.pc (e : Entry) : DWord := e.pck &&& ~~~7#64
def Entry.kind (e : Entry) : Nat := field e.pck 0 3

/-- The summary word of a mask (R40). -/
def summary (m : Mask) : Word := (List.range 32).foldl (fun v w => if maskWord m w != 0 then v ||| (1#32 <<< w) else v) 0
/-- The 144-byte image of an entry (Table 3-3). -/
def Entry.image (e : Entry) : List Byte :=
  bytesOf 8 e.pck.toNat ++ bytesOf 4 (summary e.mask).toNat ++ bytesOf 4 0 ++ bytesOf 128 e.mask.toNat
/-- The entry an image holds. -/
def Entry.ofImage (l : List Byte) : Entry :=
  { pck := BitVec.ofNat 64 (natOfBytes (l.take 8)), mask := BitVec.ofNat 1024 (natOfBytes (l.drop 16)) }

/-- The location of private offset `x` of a team, in the task's pinned areas (R304). -/
def State.privateLoc (s : State) (k : Nat) (t : Team) (x : Nat) : Option Nat :=
  (s.task? t.task).bind (fun tk => s.locate tk (s.privateBase tk k + x))

/-- The private offset of word `j` of the image of spilled entry `i` (R57). -/
def imageWord (i j : Nat) : Nat := 144 * i + 4 * j
/-- The locations of the 36 words of the image of spilled entry `i`, each translated by itself, for an image may straddle two pages
(R57, R304). -/
def State.imageLocs (s : State) (k : Nat) (t : Team) (i : Nat) : Option (List Nat) :=
  (List.range 36).mapM (fun j => s.privateLoc k t (imageWord i j))
/-- An entry spilled to private space is stored or reloaded: the home of each of its words can be reached, and for a reload its words
are good (R33, R57, R375). -/
def State.spillCheck (s : State) (k : Nat) (t : Team) (reload : Bool) (i : Nat) : Act Unit :=
  (List.range 36).forM (fun j =>
    let a := BitVec.ofNat 64 (imageWord i j)
    match s.privateLoc k t (imageWord i j) with
    | none => faultAt 1 5 a
    | some loc => do
      s.reach (dieOf (coreOf k)) loc a
      match (if reload then Tab.get? s.poisoned (loc / 4) else none) with
      | some d => faultAt 7 d a
      | none => pure ())
/-- The image of an entry stored at the locations of its words (Table 3-3). -/
def State.storeEntry (s : State) (locs : List Nat) (e : Entry) : State :=
  (locs.zip (List.range 36)).foldl (fun s x => s.pokeBytes x.1 ((e.image.drop (4 * x.2)).take 4)) s
/-- The next pop reloads an entry: its check. -/
def reloadCheck (k : Nat) (t : Team) (s : State) : Act Unit :=
  if t.stack.length == 1 && t.spilledEntries != 0 then s.spillCheck k t true (t.spilledEntries - 1) else pure ()

/-- The request of that reload counts (R364). -/
def State.countReload (s : State) (t : Team) : State :=
  if t.stack.length == 1 && t.spilledEntries != 0 then s.countFill t.part else s

/-- Pushes an entry; the oldest on-chip entry beyond 16 is spilled to private space, a request that counts (R57, R364, log 26). -/
def pushEntry (k : Nat) (e : Entry) (t : Team) (s : State) : Act (Team × State) :=
  if 256 ≤ t.stack.length + t.spilledEntries then illegal 3
  else if t.stack.length < 16 then pure ({ t with stack := e :: t.stack }, s)
  else match t.stack.getLast?, s.imageLocs k t t.spilledEntries with
    | some old, some locs => do
      s.spillCheck k t false t.spilledEntries
      pure ({ t with stack := e :: t.stack.take 15, spilledEntries := t.spilledEntries + 1 },
        (s.storeEntry locs old).countFill t.part)
    | _, _ => do
      s.spillCheck k t false t.spilledEntries
      faultAt 1 5 (BitVec.ofNat 64 (imageWord t.spilledEntries 0))

/-- The image of spilled entry `i`, read back. -/
def State.spilledEntry (s : State) (k : Nat) (t : Team) (i : Nat) : Option Entry :=
  (s.imageLocs k t i).map (fun locs => Entry.ofImage (locs.flatMap (fun loc => s.peekBytes loc 4)))

/-- Pops the top entry; a spilled entry is reloaded when the on-chip part is empty (R57). -/
def popEntry (k : Nat) (t : Team) (s : State) : Option (Entry × Team) :=
  match t.stack with
  | [] => none
  | e :: rest =>
    if rest.isEmpty && t.spilledEntries != 0 then
      match s.spilledEntry k t (t.spilledEntries - 1) with
      | some o => some (e, { t with stack := [o], spilledEntries := t.spilledEntries - 1 })
      | none => some (e, { t with stack := [], spilledEntries := t.spilledEntries - 1 })
    else some (e, { t with stack := rest })

/-- Every entry of the stack, on chip and spilled (R60). -/
def allEntries (k : Nat) (t : Team) (s : State) : List Entry :=
  t.stack ++ (List.range t.spilledEntries).filterMap (fun i => s.spilledEntry k t i)

/-- An entry leaves the stack. The instruction at the pc of a RESUME entry has been performed in the lanes kept with it, that at another's
in none (R332). -/
def Team.takeUp (t : Team) (e : Entry) : Team :=
  if e.kind = kindResume then { t with did := t.resumes.headD 0, resumes := t.resumes.drop 1 } else { t with did := 0 }
/-- The transition of `sync` on an entry popped: pc, mask and, for TRAP, `%tcause` and `%tlanes` (R58). -/
def syncTo (e : Entry) (t : Team) : Team :=
  let t := { t.takeUp e with pc := e.pc, active := e.mask &&& ~~~t.retired }
  if e.kind = kindTrap then { t with tcause := 0, tlanes := 0, entered := false } else t

/-- The return from a trap, and every other `sync`: pops and restores; none on an empty stack (R58, R106). -/
def popSync (k : Nat) (t : Team) (s : State) : Option Team :=
  (popEntry k t s).map (fun r => syncTo r.1 r.2)

/-- The implied `sync`, repeated while the mask restored is empty (R59); the team with an empty mask when
the stack runs out. -/
def impliedSync (k : Nat) : Nat → Team → State → Act (Team × State)
  | 0, t, s => pure (t, s)
  | n + 1, t, s => if t.active != 0 then pure (t, s) else do
    reloadCheck k t s
    match popSync k t s with
    | none => pure (t, s)
    | some t' => impliedSync k n t' (s.countReload t)

/-! ## Lane traps (R329 to R333) -/

/-- Lanes join `%tlanes`, leaving the active mask; `at_` and `succ` are A_t and S (R329). -/
def joinTraps (t : Team) (lanes : Mask) (cause : Word) (at_ : Mask) (succ : DWord) : Team :=
  if lanes == 0 then t
  else
    let t := { t with active := t.active &&& ~~~lanes }
    if t.entered || t.tlanes == 0 then
      { t with tlanes := lanes, tcause := cause, entered := false, pend := some { at_ := at_, succ := succ } }
    else { t with tlanes := t.tlanes ||| lanes }

/-- The lanes in which the instruction at the pc has been performed: passes done before it was stopped, in this issue or before an
earlier trap (R183, R236). -/
def Team.didLanes (t : Team) : Mask :=
  t.did ||| (match t.intr with | some i => maskSpan i.act 0 i.next | none => 0)
/-- TAKING A TRAP: the pending trap of a team is taken before its next instruction, at the team's pc (R332). Where that instruction
was stopped between passes, those performed are kept with the RESUME entry and are not performed again; what its reads have acquired
is taken up now (R236, R246). -/
def takeTrap (k : Nat) (p : PendTrap) (vec : DWord) (t : Team) (s : State) : Act (Team × State) := do
  illegalIf (vec == 0) 4
  let rm := t.active
  let (t, s) ← if rm != 0 then pushEntry k (Entry.make t.pc kindResume rm) t s else pure (t, s)
  let (t, s) ← pushEntry k (Entry.make p.succ kindTrap (p.at_ &&& ~~~rm)) t s
  let s := if t.gather == 0 then s else s.acquire (coreOf k) (t.carried ||| t.gather)
  pure ({ t with active := t.tlanes, pc := vec, entered := true, pend := none,
                 resumes := if rm != 0 then t.didLanes :: t.resumes else t.resumes, did := 0, intr := none, stopAt := none, pix := 0,
                 carried := t.carried ||| t.gather, gather := 0 }, s)

/-! ## Barriers (R49 to R51, R110, R111, R358) -/

/-- A team's number in its grid. -/
def Task.teamId (tk : Task) (block team : Nat) : Nat := tk.lr.teams * block + team
/-- R49: membership of team `team` of block `block`. -/
def Group.has (g : Group) (block team : Nat) : Bool :=
  decide (g.first ≤ block) && (block - g.first) % g.stride == 0 &&
    decide ((block - g.first) / g.stride < g.count) && bit g.teams team
/-- The members of a group among the `T` teams of each block. -/
def Group.members (g : Group) (T : Nat) : Nat := g.count * ((List.range T).filter (fun i => bit g.teams i)).length
/-- The group in group slot `i` of a team: its groups in ascending table index (R50). -/
def Task.groupSlot (tk : Task) (block team i : Nat) : Option Nat :=
  ((List.range tk.groups.length).filter (fun g =>
    match tk.groups[g]? with | some x => x.has block team | none => false))[i]?

/-- The clusters that hold members of group `g` of a task, by (c - G) mod 16 (R358); none for one cluster. -/
def State.memberClusters (s : State) (k g : Nat) (gen : Word) : List Nat :=
  match (s.task? k).bind (fun tk => tk.groups[g]?) with
  | none => []
  | some x =>
    let cs := s.teams.foldl (fun l e =>
      if e.2.task == k && x.has e.2.block e.2.team then insertNew l (clusterOf (coreOf e.1)) else l) []
    if cs.length ≤ 1 then []
    else ((List.range 16).map (fun r => (r + gen.toNat) % 16)).filter (fun c => cs.contains c)

/-- Completes the current generation of a group when every member has arrived or exited (R51). -/
def State.checkGroup (s : State) (k g : Nat) : State :=
  match s.task? k with
  | none => s
  | some tk =>
    match tk.groups[g]? with
    | none => s
    | some x =>
      let gs := Tab.get tk.gstate {} g
      let gone := tk.exitedTeams.filter (fun i =>
        x.has (i / tk.lr.teams) (i % tk.lr.teams) && !gs.arrived.contains i)
      if gs.arrived.isEmpty || gs.arrived.length + gone.length < x.members tk.lr.teams then s
      else
        let d : GenDone := { gen := gs.gen, tick := s.tick, sig := gs.sig,
                             clusters := s.memberClusters k g gs.gen, resumed := [] }
        let gs' := { gs with gen := gs.gen + 1, arrived := [], done := some d }
        s.setTask k { tk with gstate := Tab.set tk.gstate g gs' }

/-- A team arrives at the current generation of group `g` (R111). -/
def State.arrive (s : State) (k g id : Nat) (c : Sig) : State :=
  match s.task? k with
  | none => s
  | some tk =>
    let gs := Tab.get tk.gstate {} g
    let gs' := { gs with arrived := insertNew gs.arrived id, sig := gs.sig ||| c }
    (s.setTask k { tk with gstate := Tab.set tk.gstate g gs' }).checkGroup k g

/-- A team counts as exited: every group it belongs to is looked at (R51). -/
def State.markExited (s : State) (k id : Nat) (c : Sig) : State :=
  match s.task? k with
  | none => s
  | some tk =>
    let mine := (List.range tk.groups.length).filter (fun g =>
      match tk.groups[g]? with | some x => x.has (id / tk.lr.teams) (id % tk.lr.teams) | none => false)
    let gst := mine.foldl (fun m g => Tab.upd m {} g (fun gs : GroupState => { gs with sig := gs.sig ||| c })) tk.gstate
    let s := s.setTask k { tk with exitedTeams := insertNew tk.exitedTeams id, gstate := gst }
    mine.foldl (fun s g => s.checkGroup k g) s

/-- The last completed generation of a group is `gen`, and the team's cluster has been resumed (R111, R358). -/
def State.generationDone (s : State) (k g : Nat) (gen : Word) (cluster : Nat) : Bool :=
  match s.task? k with
  | none => false
  | some tk =>
    match (Tab.get tk.gstate {} g).done with
    | none => false
    | some d => d.gen == gen && (d.clusters.isEmpty || d.resumed.contains cluster)
/-- The signature a completed generation carries (R246). -/
def State.generationSig (s : State) (k g : Nat) : Sig :=
  match (s.task? k).bind (fun tk => (Tab.get tk.gstate {} g).done) with
  | none => 0
  | some d => d.sig

/-! ## Versions of map slots (R158) -/

/-- The version of a slot that a team reads: its own latest write, else the block's version. -/
def Block.slotFor (b : Block) (u n : Nat) : Slot :=
  match b.heldWrites.reverse.find? (fun h => h.slot == n && h.writer == u) with
  | some h => h.val
  | none => Tab.get b.slots {} n
/-- A slot write waits until it takes effect; a later write of the same team to the slot takes its place
in the team's program order (R42, R158). -/
def Block.writeSlot (b : Block) (u n : Nat) (v : Slot) : Block :=
  { b with heldWrites := b.heldWrites ++ [{ slot := n, val := v, writer := u }] }
/-- A held write takes effect: the slot is whole and good again (R158, R375). -/
def Block.applyWrite (b : Block) (h : HeldWrite) : Block :=
  { b with slots := Tab.set b.slots h.slot h.val, badSlots := b.badSlots.filter (fun n => n != h.slot) }
/-- The held writes that take effect with those of a team: its own, and older ones of the slots it wrote, so that the later
of two writes of a slot remains (R270). -/
def Block.goesWith (b : Block) (u i : Nat) : Bool :=
  match b.heldWrites[i]? with
  | none => false
  | some h => h.writer == u || (b.heldWrites.drop (i + 1)).any (fun g => g.writer == u && g.slot == h.slot)
/-- Every held write of a team takes effect, in order: before its barrier arrival, or its exit (R158, R51). -/
def Block.applyWrites (b : Block) (u : Nat) : Block :=
  let idx := (List.range b.heldWrites.length).zip b.heldWrites
  (idx.filter (fun e => b.goesWith u e.1)).foldl (fun x e => x.applyWrite e.2)
    { b with heldWrites := (idx.filter (fun e => !b.goesWith u e.1)).map (·.2) }

/-! ## The commit token (R287 to R289) -/

/-- Every Drover command the team issued while it held the token has completed (R288). -/
def Team.tokenCmdsDone (t : Team) : Bool := t.cmds.all (fun e => !e.2.underToken || e.2.done)
/-- The condition of the waits of R121 and R288; a team whose command faulted does not pass the token on (R298). -/
def Team.canPass (t : Team) : Bool := t.held && t.buffer.isEmpty && t.tokenCmdsDone && !t.engFault

/-- The token of a task arrives at a team (R287, R289): an acquire with the passing team's signature. -/
def State.tokenArrives (s : State) (tkey key : Nat) (g : Sig) : State :=
  match s.team? key with
  | none => s
  | some u =>
    if u.task == tkey then
      let c := u.carried ||| g
      (s.setTeam key { u with held := true, carried := c }).acquire (coreOf key) c
    else s

/-- The resident team of a task with a team number. -/
def State.teamWithId (s : State) (k id : Nat) : Option Nat :=
  (s.teams.find? (fun e => e.2.task == k &&
    (match s.task? k with | some tk => tk.teamId e.2.block e.2.team == id | none => false))).map (·.1)

/-- Numbers of children in order (R296). -/
def numberBefore (a b : Nat × Nat) : Bool := decide (a.1 < b.1) || (a.1 == b.1 && decide (a.2 < b.2))
/-- The token has been passed by the last team (R287). -/
def Task.passedAll (tk : Task) : Bool := decide (tk.lr.grid * tk.lr.teams ≤ tk.tokenAt)
/-- The token of a task may arrive at its first team: always in a root; in a child of a deterministic launch after the
parent's last team has passed the parent's token, and the last team of every lower-numbered child its own (R296). -/
def State.tokenStarts (s : State) (tk : Task) : Bool :=
  match tk.parent.bind s.task? with
  | none => true
  | some pt => !pt.det || (pt.passedAll &&
      s.tasks.all (fun e => e.2.parent != tk.parent || !numberBefore e.2.number tk.number || e.2.passedAll))
/-- The tokens of children that may now start (R296). -/
def State.startTokens (s : State) (g : Sig) : State :=
  s.tasks.foldl (fun s e =>
    if e.2.det && e.2.parent.isSome && e.2.tokenAt == 0 && s.tokenStarts e.2 then
      let s := s.setTask e.1 { e.2 with tokenSig := e.2.tokenSig ||| g }
      match s.teamWithId e.1 0 with
      | some key => if (match s.team? key with | some u => u.held | none => true) then s else s.tokenArrives e.1 key (e.2.tokenSig ||| g)
      | none => s
    else s) s

/-- The token moves on from team number `id` of a task (R287); from its last team, the token of a child may start. -/
def State.moveToken (s : State) (k id : Nat) (g : Sig) : State :=
  match s.task? k with
  | none => s
  | some tk =>
    let tk := { tk with tokenAt := id + 1, tokenSig := g }
    let s := s.setTask k tk
    if tk.passedAll then s.startTokens g
    else match s.teamWithId k (id + 1) with
      | none => s
      | some key => s.tokenArrives k key g

/-- A team passes the token: a release side (R121, R285, R288, R289). It hands on the team's own signature: what Drover commands issued under the
token wrote goes with it when the team has read their tokens (R246, log 135). -/
def passToken (k : Nat) (t : Team) (s : State) : Team × State :=
  let s := s.release k
  let t := { t with held := false, passed := true }
  let id := match s.task? t.task with | some tk => tk.teamId t.block t.team | none => 0
  (t, (s.setTeam k t).moveToken t.task id t.carried)

/-! ## The end of a team's life (R55, R56, R213, R274, R288) -/

/-- A plain access of a block to a backing word or line of its mapped region (R206, R213, R291 to R293): the lease admits it,
and in a range leased `shared` by a deterministic launch the team holds the token, its buffer empty; else it waits, or
faults when it has passed the token. -/
def backingCheck (k : Nat) (t : Team) (s : State) (tk : Task) (b : Nat) (write : Bool) (va : Nat) : Act Unit :=
  match tk.checkWord b write va with
  | .error (c, d) => faultAt c d (BitVec.ofNat 64 va)
  | .ok l => do
    if tk.det && l.shared then
      illegalIf t.passed 5
      if !t.held || !t.buffer.isEmpty then waitOn k t s (.commit true)

/-- Writes the dirty words of one scratch line back to its backing line (R213): plain global stores of the exiting team. -/
def State.writeBackLine (s : State) (k : Nat) (t : Team) (b : Block) (line : Nat) : Act State :=
  match s.task? b.task with
  | none => pure s
  | some tk =>
    match tk.lr.regionLine line with
    | none => pure s
    | some j =>
      let va := tk.lr.backing b.block j
      let dirty := Tab.get b.dirty 0 line
      ((List.range 32).filter (fun i => bit dirty i)).foldlM (fun s i => do
        if b.badWords.contains (32 * line + i) then faultAt 7 3 (BitVec.ofNat 64 (128 * line + 4 * i))
        backingCheck k t s tk b.block true (va + 4 * i)
        match s.locate tk (va + 4 * i) with
        | none => faultAt 1 5 (BitVec.ofNat 64 (va + 4 * i))
        | some loc => do
          s.reach (dieOf (coreOf k)) loc (BitVec.ofNat 64 (va + 4 * i))
          let s ← s.chargeLines b.task [loc / 4]
          pure (s.queueStore k t 0 none [(loc / 4, Tab.get b.scratch 0 (32 * line + i))])) s

/-- A bank that holds a line of a block is not in scratch mode: an access to the line stalls (R211). -/
def State.lineStall (s : State) (b : Block) (line : Nat) : Option Nat :=
  (bankOfLine b.banks line).bind (fun n => if ((s.cluster (clusterOf b.core)).bank n).mode = .scratch then none else some n)

/-- Every mapped dirty word of a block, written back and registered (R213). -/
def State.writeBackBlock (s : State) (k : Nat) (t : Team) (b : Block) : Act State :=
  match b.dirty.findSome? (fun e => if e.2 = 0 then none else s.lineStall b e.1) with
  | some n => waitOn k t s (.bank n)
  | none => do
    let s ← b.dirty.foldlM (fun s e => s.writeBackLine k t b e.1) s
    pure (s.release k)

/-- A Drover command of the block is still queued (R274). -/
def State.blockBusy (s : State) (bk : Nat) : Bool :=
  s.clusters.any (fun c => c.2.channels.any (fun ch => ch.2.any (fun m => m.blk == bk)))
/-- A team of the block is resident. -/
def State.blockHasTeam (s : State) (bk : Nat) : Bool := s.teams.any (fun e => e.2.blk == bk)

/-- A block of a cluster whose launch binds an Escapement port (R275). -/
def Rec.bindsEsc (r : Rec) : Bool := r.qbind.any (fun q => q.kind == 3 || q.kind == 4)
/-- A bank is the Escapement's no longer: a switch asked for meanwhile starts (R211, R275). -/
def Bank.unreserve (x : Bank) : Bank :=
  if x.trans then { x with esc := false }
  else
    let m := x.next.getD x.mode
    { x with esc := false, next := none, aim := m, trans := m != x.mode }
/-- The launch of a task binds an Escapement port. -/
def State.taskBindsEsc (s : State) (k : Nat) : Bool := match s.task? k with | some tk => tk.lr.bindsEsc | none => false
/-- The reservation of an Escapement bank ends when no block on the cluster that has not exited binds a port; Drover commands of one
that has do not hold it (R275). -/
def State.endEscReservation (s : State) (cl : Nat) : State :=
  let used := s.blocks.any (fun e => clusterOf e.2.core == cl && s.taskBindsEsc e.2.task && s.blockHasTeam e.1)
  if used then s
  else
    let c := s.cluster cl
    match c.escBank with
    | none => s
    | some b => s.setCluster cl { c.setBank b (c.bank b).unreserve with escBank := none }

/-- Frees a block whose teams have all exited and whose Drover commands have completed (R55, R274). Words of its mapped lines that
a command wrote after the last team's exit are not written back (log 118). -/
def State.freeBlock (s : State) (bk : Nat) : State :=
  match s.block? bk with
  | none => s
  | some _ =>
    if s.blockHasTeam bk || s.blockBusy bk then s else { s with blocks := Tab.erase s.blocks bk }

/-- A team leaves its pipe. -/
def Core.dropTeam (c : Core) (k : Nat) : Core :=
  { c with
    pipeA := if c.pipeA.team == some k then {} else c.pipeA,
    pipeB := if c.pipeB.team == some k then {} else c.pipeB }

/-- Every held slot write of a team takes effect on its block (R51, R158). -/
def State.settleSlots (s : State) (t : Team) : State :=
  match s.block? t.blk with
  | none => s
  | some b => s.setBlock t.blk (b.applyWrites t.uid)

/-- The team is gone: rows and slot freed; with the block's last team the block has exited (R55, R275). -/
def State.removeTeam (s : State) (k : Nat) (t : Team) : State :=
  let s := { s with teams := Tab.erase s.teams k }
  let s := s.setCore (coreOf k) ((s.core (coreOf k)).dropTeam k)
  let s := s.settleSlots t
  let s := match s.task? t.task with
    | none => s
    | some tk => (s.setTask t.task { tk with endSig := tk.endSig ||| t.carried }).markExited t.task
        (tk.teamId t.block t.team) t.carried
  if s.blockHasTeam t.blk then s
  else
    let s := match s.task? t.task with
      | none => s
      | some tk => s.setTask t.task { tk with exited := insertNew tk.exited t.block }
    (if s.taskBindsEsc t.task then s.endEscReservation (clusterOf (coreOf k)) else s).freeBlock t.blk

/-- A team's life ends: in a deterministic launch after R288, then exit under R55. The last team of a
block writes its mapped lines back first, before it passes the token (R213). -/
def endTeam (k : Nat) (told t : Team) (s : State) : Act State := do
  let det := match s.task? t.task with | some tk => tk.det | none => false
  if det && !t.passed && !t.canPass then .error (.wait (s.setTeam k told) .ending)
  else
    let last := !(s.teams.any (fun e => e.1 != k && e.2.blk == t.blk))
    let s ← match s.block? t.blk with
      | some b => if last && b.dirty != [] then (s.release k).writeBackBlock k told b else pure s
      | none => pure s
    let (t, s) := if det && !t.passed then passToken k t s else (t, s)
    pure (s.removeTeam k t)

/-! ## Completion of an instruction -/

/-- A word of the table's third cause (Table 3-8). -/
def causeTrap (code : Nat) : Word := BitVec.ofNat 32 (256 * code + 1)
def causeBreak : Word := 2#32
def causeFloat (f : BitVec 5) : Word := (f.setWidth 32 <<< 16) ||| 3#32

/-- The pipe of a team slot (R46). -/
def Core.pipe (c : Core) (slot : Nat) : Pipe := if slot % 2 == 0 then c.pipeA else c.pipeB
def Core.setPipe (c : Core) (slot : Nat) (p : Pipe) : Core :=
  if slot % 2 == 0 then { c with pipeA := p } else { c with pipeB := p }

/-- One instruction more of the run; at a boundary the pipe is free again (R43, R44). -/
def State.runStep (s : State) (k : Nat) (boundary : Bool) : State :=
  let c := s.core (coreOf k)
  let p := c.pipe (slotOf k)
  if boundary || 24 ≤ p.count + 1 then
    let s := s.setCore (coreOf k) (c.setPipe (slotOf k) {})
    match s.team? k with
    | none => s
    | some t => s.setTeam k { t with runEnd := s.moment }
  else s.setCore (coreOf k) (c.setPipe (slotOf k) { team := some k, count := p.count + 1 })

/-- A breakpoint of the partition names the address (R330). -/
def Part.breaksAt (p : Part) (pc : DWord) : Bool :=
  (List.range 4).any (fun i =>
    let b := Tab.get p.bkpt 0 i
    bit b 0 && (b &&& ~~~7#64) == (pc &&& ~~~7#64))

/-- Progress of a partition's team on a core: in a cycle that counts, its count of progress-free cycles starts again (R363). -/
def State.progress (s : State) (core part : Nat) : State :=
  if s.countsCycle core part then
    let c := s.core core
    s.setCore core { c with wd := Tab.erase c.wd part }
  else s

/-- Completes an instruction of team `k`, as `told` issued it: pc, lane traps, breakpoint, the empty mask
(R59), the run, the retired count. -/
def complete (k : Nat) (p : Pre) (told : Team) (d : Done) : Act State := do
  let pc := d.pc.getD (told.pc + 8)
  let s := d.s.updPart told.part (fun p => { p with instr := p.instr + 1 })
  let s := s.progress (coreOf k) told.part
  let t := { d.t with pc := pc, phase := 0, fills := [], gather := 0, intr := none, did := d.did, pix := 0, stopAt := none, wait := none,
                      broke := false, started := true }
  let t := joinTraps t d.traps d.cause told.active (told.pc + 8)
  let t := if (s.part t.part).breaksAt told.pc then joinTraps t t.active causeBreak told.active pc else t
  if t.active == 0 && t.pend.isNone then
    let (u, s) ← impliedSync k 300 t s
    if u.active == 0 then endTeam k told u s
    else pure ((s.setTeam k u).runStep k (p.run || u.pc != told.pc + 8))
  else pure ((s.setTeam k t).runStep k (p.run || pc != told.pc + 8))

/-! ## Faults and waits -/

/-- A fault of a team at an instruction: it stops, and the Starter receives the fault (R335, R336, R338). In a deterministic launch it
counts as exited, so its slot writes take effect first (R51, R158). -/
def State.raiseAt (s : State) (pc : DWord) (k : Nat) (t : Team) (cls detail : Nat) (addr : DWord) (edge : Option (Nat × Nat)) : State :=
  let r : FaultRec := { cls := cls, detail := detail, pc := pc, addr := addr, block := t.block, team := t.team }
  let s := s.countRefusal edge
  let s := s.setTeam k { t with fault := some r, wait := none, out := none }
  let s := s.setCore (coreOf k) ((s.core (coreOf k)).dropTeam k)
  match s.task? t.task with
  | none => s
  | some tk =>
    let s := s.setTask t.task { tk with faults := tk.faults ++ [r] }
    if tk.det then (s.settleSlots t).markExited t.task (tk.teamId t.block t.team) t.carried else s
/-- A fault of the issuing team, at the instruction it issues. -/
def State.raise (s : State) (k : Nat) (t : Team) (cls detail : Nat) (addr : DWord) (edge : Option (Nat × Nat)) : State :=
  s.raiseAt t.pc k t cls detail addr edge

/-- The Outrider checkpoint of a team whose run breaks on an L1 miss (R65, R66). -/
def Team.checkpoint (t : Team) : Team :=
  { t with out := some { pc := t.pc, s := t.s, p := t.p, sides := t.sides, active := t.active, v := t.v,
                         fflags := t.fflags } }

/-- The lines of a miss that the victim tag array records as filled by a team slot (R47). -/
def Core.lostLines (c : Core) (slot : Nat) (lines : List Nat) : Nat :=
  (lines.filter (fun l => c.victims.any (fun v => v.1 == l && v.2 == slot))).length
/-- The lost-locality score after so many such misses (R47). -/
def Team.scoreAfter (t : Team) (lost : Nat) : Nat := min 255 (t.score + 4 * lost)

/-- The run of a team breaks (R45, R62): its wait, the lost-locality score of R47, Outrider of R65. A run that breaks on its first
instruction counts as a run issued (log 108). -/
def State.breakRun (s : State) (k : Nat) (w : Wait) : State :=
  match s.team? k with
  | none => s
  | some t =>
    let c := s.core (coreOf k)
    let lost := match w with | .fill lines _ _ => c.lostLines (slotOf k) lines | _ => 0
    let enabled := match w, s.task? t.task with
      | .fill .., some tk => tk.lr.outr && bit t.fmode 8
      | _, _ => false
    let t := { t with wait := some w, broke := true, started := true, runEnd := s.moment, score := t.scoreAfter lost }
    (s.setTeam k (if enabled then t.checkpoint else t)).setCore (coreOf k) (c.dropTeam k)

/-- A step's answer. -/
abbrev Out := Host.Outcome State Fault Refusal

/-- Ends an issue: the completed state, the break of the run, or the fault. -/
def settle (k : Nat) (t : Team) (s : State) (r : Act State) : State :=
  match r with
  | .ok s' => s'
  | .error (.wait s' w) => s'.breakRun k w
  | .error (.stopped s') => s'
  | .error (.fault cls detail addr edge) => s.raise k t cls detail addr edge

/-! ## Tokens read and written (R246, R259) -/

/-- The pending token registers among those an instruction reads or writes. -/
def Team.tokensPending (t : Team) (l : List Nat) : List Nat := l.filter (fun i => i != 0 && t.pendTok.contains i)
/-- The first read of a token that returns 1 is an acquire, and joins its command's signature to C (R239, R246). -/
def readTokens (k : Nat) (l : List Nat) (t : Team) (s : State) : Team × State :=
  let g := l.foldl (fun g i => if t.rs i == 1 then g ||| Tab.get t.tokSig 0 i else g) 0
  if l.any (fun i => (Tab.get? t.tokSig i).isSome) then
    let u := { t with tokSig := t.tokSig.filter (fun e => !l.contains e.1), carried := t.carried ||| g }
    (u, if l.any (fun i => (Tab.get? t.tokSig i).isSome && t.rs i == 1) then s.acquire (coreOf k) u.carried else s)
  else (t, s)

/-! ## The two frames of an instruction -/

/-- The operands of an instruction that are scalar registers: read, and written. -/
structure Scalars where
  reads : List Nat := []
  writes : List Nat := []

/-- Runs an instruction of the issuing team. `check` makes the checks of R88 step 3 and of the operands,
whatever the guard; `act` gives the lanes that act, and with none the instruction completes with no
effect (R41, R76); the body follows. -/
def issueWith (p : Pre) (r : Scalars) (check : Nat → Team → State → Act Unit) (act : Team → Mask)
    (body : Nat → Mask → Team → State → Act Done) (s : State) : Out :=
  match s.cur with
  | none => .fault .noIssuingTeam
  | some k =>
    match s.team? k with
    | none => .fault .noIssuingTeam
    | some t =>
      .next (settle k t s (do
        check k t s
        let m := act t
        if m == 0 && t.phase == 0 then complete k p t { t := t, s := s }
        else
          let pend := t.tokensPending (r.reads ++ r.writes)
          if pend != [] then waitOn k t s (.token pend)
          else
            let (t1, s1) := readTokens k r.reads t s
            let t1 := { t1 with tokSig := t1.tokSig.filter (fun e => !r.writes.contains e.1) }
            let d ← body k m t1 s1
            match complete k p t d with
            | .error (.wait _ w) => .error (.wait s w)
            | r => r))

/-- A per-team instruction (R76): its effect when the guard is true in an active lane. -/
def perTeam (p : Pre) (r : Scalars) (check : Nat → Team → State → Act Unit) (body : Nat → Team → State → Act Done)
    (s : State) : Out :=
  issueWith p r check (fun t => t.guarded p) (fun k _ t s => body k t s) s

/-- A lane-acting instruction (R41, R76); after a trap taken between its passes, in the lanes it has not been performed in (R332). -/
def perLane (p : Pre) (r : Scalars) (check : Nat → Team → State → Act Unit)
    (body : Nat → Mask → Team → State → Act Done) (s : State) : Out :=
  issueWith p r check (fun t => match t.intr with | some i => i.act | none => t.guarded p &&& ~~~t.did) body s

end Sys2Proof.Machine
end

