-- ==== Sys2Proof/Machine/Flags.lean ====
section
/-! DEFINITION. Sys2Proof/Machine/Flags.lean: exception flags of lanes, their recording in `%fflags`, lane traps by
enabled flags (R135), and the sweep of a stoppable instruction over its passes (R41, R183). -/
namespace Sys2Proof.Machine

/-- The flags a list of lanes raises, together. -/
def flagUnion (l : List Nat) (fl : Nat → Flags) : Flags := l.foldl (fun a i => a ||| fl i) 0

/-- What the passes so far leave: `%fflags` in the team, the lanes that trap, their enabled flags. -/
structure Raised where
  t : Team
  traps : Mask := 0
  flg : Flags := 0

/-- Records the flags of the lanes of a mask (R135). -/
def raiseFlags (t : Team) (act : Mask) (fl : Nat → Flags) : Raised :=
  let l := lanesOf act t.words
  let en : Flags := t.fmode.setWidth 5
  { t := { t with fflags := t.fflags ||| (flagUnion l fl).setWidth 32 },
    traps := maskOf (l.filter (fun i => fl i &&& en != 0)),
    flg := flagUnion l (fun i => fl i &&& en) }

/-- The mask words of the passes an instruction performs now: from where it stopped, up to the word at which pre-emption stops it;
it is stopped between two passes, so at least one is performed (R183). -/
def Team.sweepSpan (t : Team) (act : Mask) : Nat × Nat :=
  let lo := match t.intr with | some i => i.next | none => 0
  match t.stopAt with
  | some n => if maskSpan act lo n == 0 then (lo, t.words) else (lo, n)
  | none => (lo, t.words)
/-- The word whose pass comes next after those performed now; none when they are the last. -/
def Team.nextPass (t : Team) (act : Mask) : Option Nat :=
  (passesOf (maskSpan act (t.sweepSpan act).2 t.words) t.words).head?

/-- Sweeps a lane-acting instruction over the passes that remain, up to the mask word at which pre-emption
stops it (R183). `f` performs the passes of a mask and gives the flags its lanes raise. -/
def sweep (k : Nat) (act : Mask) (slots : List (Nat × Slot)) (t : Team) (s : State)
    (f : Mask → Team → State → Act (Team × State × (Nat → Flags))) : Act Done := do
  let now := maskSpan act (t.sweepSpan act).1 (t.sweepSpan act).2
  let next := t.nextPass act
  let (t, s, fl) ← f now t s
  let r := raiseFlags t now fl
  let traps := r.traps ||| (match t.intr with | some i => i.trap | none => 0)
  let flg := r.flg ||| (match t.intr with | some i => i.flags | none => 0)
  match next with
  | some w =>
    let i : Intr := { act := act, next := w, trap := traps, flags := flg, slots := slots }
    .error (.stopped (s.setTeam k { r.t with intr := some i, pix := BitVec.ofNat 32 (w + 1), stopAt := none }))
  | none => pure { t := r.t, s := s, traps := traps, cause := causeFloat flg }

/-- A sweep over registers alone, with no flag. -/
def sweepRegs (k : Nat) (act : Mask) (slots : List (Nat × Slot)) (t : Team) (s : State) (f : Mask → Team → Team) :
    Act Done :=
  sweep k act slots t s (fun m t s => pure (f m t, s, fun _ => 0))

/-- An indivisible lane-acting instruction that raises flags. -/
def whole (act : Mask) (t : Team) (s : State) (fl : Nat → Flags) : Act Done :=
  let r := raiseFlags t act fl
  pure { t := r.t, s := s, traps := r.traps, cause := causeFloat r.flg }

end Sys2Proof.Machine
end

