-- ==== Sys2Proof/Machine/Operands.lean ====
section
/-! DEFINITION. Sys2Proof/Machine/Operands.lean: elements of lane words (R131 to R133), map slots and their versions
(R140, R158), tags (R151 to R153), the mapped value P(n) (R141, R146, R147), the operand checks of R85, R88 and
R148, and the sources of S3 and V3 words. -/
namespace Sys2Proof.Machine

/-! ## Elements (Tables 8-3 and 8-7) -/

/-- Elements per lane word. -/
def Fmt.count : Fmt → Nat
  | .f32 | .i32 | .f64 => 1
  | .bf16 | .f16 => 2
  | .e4m3 | .e5m2 | .q8 => 4
  | .e3m2 => 5
  | .e2m1 | .q4 => 8
/-- Bits of an element. -/
def Fmt.bits : Fmt → Nat
  | .f32 | .i32 | .f64 => 32
  | .bf16 | .f16 => 16
  | .e4m3 | .e5m2 | .q8 => 8
  | .e3m2 => 6
  | .e2m1 | .q4 => 4
/-- Block-scaled formats (R132). -/
def Fmt.scaled : Fmt → Bool
  | .e4m3 | .e5m2 | .e3m2 | .e2m1 | .q8 | .q4 => true
  | _ => false
/-- Table 8-7. -/
def Fmt.code : Fmt → Nat
  | .f32 => 0 | .i32 => 1 | .bf16 => 2 | .f16 => 3 | .e4m3 => 4 | .e5m2 => 5
  | .e3m2 => 6 | .e2m1 => 7 | .q8 => 8 | .q4 => 9 | .f64 => 10
def Fmt.ofCode : Nat → Fmt
  | 0 => .f32 | 1 => .i32 | 2 => .bf16 | 3 => .f16 | 4 => .e4m3 | 5 => .e5m2
  | 6 => .e3m2 | 7 => .e2m1 | 8 => .q8 | 9 => .q4 | _ => .f64
/-- The binary format of a floating-point element. -/
def Fmt.float : Fmt → FloatFmt
  | .bf16 => Machine.bf16 | .f16 => Machine.f16 | .e4m3 => Machine.e4m3 | .e5m2 => Machine.e5m2
  | .e3m2 => Machine.e3m2 | .e2m1 => Machine.e2m1
  | .f64 => binary64 | _ => binary32
/-- Element `e` of a lane word. -/
def Fmt.element (f : Fmt) (w : Word) (e : Nat) : Nat := w.toNat / 2 ^ (f.bits * e) % 2 ^ f.bits
/-- The bits of a lane word that hold elements (R131). -/
def Fmt.used (f : Fmt) : Word := BitVec.ofNat 32 (2 ^ (f.bits * f.count) - 1)
/-- The scale bytes of a format's blocks; the others read and write as zero (R132). -/
def Fmt.usedScales (f : Fmt) : DWord := BitVec.ofNat 64 (2 ^ (8 * f.count) - 1)
/-- Scale byte `e` of a scale word. -/
def scaleByte (s : DWord) (e : Nat) : Nat := field s (8 * e) 8
/-- The integer value of a q8, q4 or i32 element. -/
def intFV (v : Int) : FV := .fin (v < 0) v.natAbs 0
/-- The unscaled value of an element (R126 to R128). -/
def Fmt.value (f : Fmt) (x : Nat) : FV :=
  match f with
  | .q8 => intFV (sval 8 x)
  | .q4 => intFV (sval 4 x)
  | .i32 => intFV (sval 32 x)
  | _ => f.float.value x
/-- A value times a power of two. -/
def FV.scale (v : FV) (k : Int) : FV :=
  match v with
  | .fin n m e => .fin n m (e + k)
  | _ => v
/-- The value of element `e` of a lane word, scaled for the block-scaled formats (R133). -/
def Fmt.member (f : Fmt) (w : Word) (scale : DWord) (e : Nat) : FV :=
  if f.scaled then
    if scaleByte scale e == 255 then .nan false
    else (f.value (f.element w e)).scale ((scaleByte scale e : Int) - 127)
  else f.value (f.element w e)

/-! ## Tags (R151 to R153) -/

/-- A plain tag. -/
def Tag.plain (t : Tag) : Bool := t.rot == .none && !t.fmt.scaled
/-- R152. -/
def Tag.matches (t slot : Tag) : Bool :=
  (t.plain && slot.plain) || (t.fmt.scaled && t.fmt == slot.fmt && t.rot == slot.rot)
/-- The tag a format slot names (R189, Table 8-6). -/
def slotTag (f : BitVec 128) : Tag :=
  { fmt := Fmt.ofCode (field f 0 8), rot := if field f 8 8 == 1 then .h32 (f.extractLsb' 64 32) else .none }
/-- Format slot `i` of a launch; a launch with none carries zeros: f32, none, max (R149, R150). -/
def Rec.fmtSlot (r : Rec) (i : Nat) : BitVec 128 := (r.fmts[i]?).getD 0

/-! ## Map slots (R140, R157, R158) -/

/-- The block of a team. -/
def State.blockOf (s : State) (t : Team) : Block :=
  (s.block? t.blk).getD { task := t.task, block := t.block, core := 0 }
/-- The launch record of a team's task. -/
def State.recOf (s : State) (t : Team) : Rec :=
  match s.task? t.task with | some tk => tk.lr | none => {}
/-- Whether a team's launch is deterministic. -/
def State.detOf (s : State) (t : Team) : Bool := (s.recOf t).det
/-- The slot an instruction reads: the version fetched before a stop, else the current one (R183). -/
def State.mapSlot (s : State) (_k : Nat) (t : Team) (n : Nat) : Slot :=
  match t.intr.bind (fun i => i.slots.find? (fun e => e.1 == n)) with
  | some e => e.2
  | none => (s.blockOf t).slotFor t.uid n

/-- Words of the constant table are good; a word in error raises the fault of data of a bank (R235, R375, log 125). -/
def constGood (t : Team) (s : State) (a : DWord) (ws : List Nat) : Act Unit :=
  match s.task? t.task with
  | some tk => if ws.any (fun w => tk.badConsts.contains w) then faultAt 7 3 a else pure ()
  | none => pure ()

/-! ## The mapped value (R141, R146, R147) -/

/-- P(n): overwritten, or an exact number with whether every product is a negative zero, or a positive zero. -/
inductive MapVal where
  | overwrite
  | real (d : Dy) (allNeg allPos : Bool)

/-- A value that is NaN or infinite. -/
def FV.special (v : FV) : Bool := v.isNaN || v.isInf
/-- A value that is a zero of a sign. -/
def FV.zeroOf (v : FV) (neg : Bool) : Bool :=
  match v with | .fin n m _ => m == 0 && n == neg | _ => false

/-- The K products of lane `n`, in an order that does not matter (R142). The integer zero of q8 and q4 elements counts as +0, and the sign
of a product is the XOR of its factors' signs: the model's choice, for integers have no signed zero (R146, log 137). -/
def mapProducts (sl : Slot) (x : VReg) (m : Word) (n : Nat) : List FV :=
  let f := sl.tag.fmt
  (List.range f.count).flatMap (fun e => (List.range 32).map (fun l =>
    let a := if bit m l then f.member (rowWord x.data l) x.scale e else .fin false 0 0
    let b := f.member (rowWord (Tab.get sl.cols 0 n) l) (Tab.get sl.scales 0 n) e
    match a, b with
    | .fin sa ma ea, .fin sb mb eb => .fin (sa != sb) (ma * mb) (ea + eb)
    | _, _ => .nan false))

/-- P(n) for a slot that is not i32 (R141), or the overwrite of R147. -/
def mapValue (sl : Slot) (x : VReg) (m : Word) (n : Nat) : MapVal :=
  let ps := mapProducts sl x m n
  if ps.any FV.special then .overwrite
  else
    let d := ps.foldl (fun a p => Dy.add a p.dy) Dy.zero
    .real { d with e := if sl.tag.rot == .none then d.e else d.e - 5 }
      (ps.all (fun p => p.zeroOf true)) (ps.all (fun p => p.zeroOf false))

/-- P(n) mod 2^32 for an i32 slot (R141). -/
def mapInt (sl : Slot) (x : VReg) (m : Word) (n : Nat) : Nat :=
  wrap 32 ((List.range 32).foldl (fun acc l =>
    if bit m l then acc + sval 32 (rowWord x.data l).toNat * sval 32 (rowWord (Tab.get sl.cols 0 n) l).toNat else acc) 0)

/-- P(n) as a value: a zero takes the sign of R146. -/
def MapVal.fv (v : MapVal) : FV :=
  match v with
  | .overwrite => .nan false
  | .real d an _ => .fin (d.n < 0 || (d.n == 0 && an)) d.n.natAbs d.e
/-- The negated summand of `fsub`: its products are negated before their signs are tested (R146). -/
def MapVal.negFV (v : MapVal) : FV :=
  match v with
  | .overwrite => .nan false
  | .real d _ ap => .fin (0 < d.n || (d.n == 0 && ap)) d.n.natAbs d.e

/-! ## Operand checks -/

/-- Vector registers `r` to `r + n - 1` exist in the launch, `r` a multiple of the alignment (R85). -/
def Rec.vecOk (r : Rec) (reg n al : Nat) : Bool := reg % al == 0 && decide (reg + n ≤ r.regs)
/-- A map field names a slot of the window (R85). -/
def Rec.slotOk (r : Rec) (k : Nat) : Bool := decide (k ≤ r.maps)

/-- What an instruction of classes 001 and 010 accepts. `bks` are the kinds of source b, none where it is
absent; `wideD` whether the 64-bit forms pair the destination; `group` how many results it takes. -/
structure VSpec where
  tys : List (BitVec 2) := [0, 1, 2, 3]
  rms : List (BitVec 2) := [0]
  bks : List (BitVec 2) := []
  a : Bool := true
  c : Bool := false
  mapA : Bool := false
  mapB : Bool := false
  mapC : Bool := false
  pred : Bool := false
  wideD : Bool := true
  rsf : Bool := false
  group : Nat := 1
  intClass : Bool := false

/-- The pair forms of a type code: in class 001 `.i64` and `.n64`, in class 010 `.f64` (Table 5-4). -/
def wideTy (intClass : Bool) (ty : BitVec 2) : Bool := if intClass then bit ty 1 else ty == 1#2

/-- One source's slot fits its consumer (Table 8-5, R145, R148, R156). -/
def slotFits (intClass : Bool) (ty : BitVec 2) (sl : Slot) : Bool :=
  if intClass then sl.tag.fmt == .i32 && !bit ty 1
  else if ty == 0#2 then sl.tag.fmt != .i32
  else ty == 1#2 && sl.tag.fmt == .f32

/-- The tag of each lane block that holds an active lane matches the slot (R153). -/
def tagsMatch (t : Team) (act : Mask) (reg : Nat) (tag : Tag) : Bool :=
  (passesOf act t.words).all (fun w => (t.rv reg w).tag.matches tag)

/-- The mapped sources of a V3 word: register and slot. -/
def v3Mapped (f : V3) : List (Nat × Nat) :=
  [(f.va.toNat, f.ka.toNat), (f.vb.toNat, f.kb.toNat), (f.vc.toNat, f.kc.toNat)].filter (fun e => e.2 != 0)

/-- Step 3 of R88 for classes 001 and 010, R85, R148 and R156; then the tags (R153), before the first pass. Of the illegal operations of
R148 a slot whose SET is clear gives detail 0x05 and goes first, a slot format that does not fit gives 0x01: Table 23-2 names
neither case (log 133). -/
def v3Check (f : V3) (sp : VSpec) (k : Nat) (t : Team) (s : State) : Act Unit := do
  let r := s.recOf t
  illegalIf (!sp.tys.contains f.ty || !sp.rms.contains f.rm) 1
  illegalIf (!sp.bks.isEmpty && !sp.bks.contains f.bk) 1
  illegalIf ((f.ka != 0 && !sp.mapA) || (f.kb != 0 && !sp.mapB) || (f.kc != 0 && !sp.mapC)) 1
  illegalIf (f.kb != 0 && f.bk != 0) 1
  illegalIf (f.bk == 1 && f.vb == 0xFF && !sp.rsf) 1
  let ms := v3Mapped f
  illegalIf (ms != [] && f.rm != 0) 1
  let wide := wideTy sp.intClass f.ty
  let n := if wide then 2 else 1
  illegalIf (if sp.pred then decide (8 ≤ f.vd.toNat) else false) 1
  illegalIf (!sp.pred && !(let m := sp.group * (if sp.wideD then n else 1); r.vecOk f.vd.toNat m m)) 2
  let src := fun (v : BitVec 8) (kf : BitVec 4) => let m := if kf != 0 then 1 else n; r.vecOk v.toNat m m
  illegalIf (sp.a && !src f.va f.ka) 2
  illegalIf (!sp.bks.isEmpty && f.bk == 0 && !src f.vb f.kb) 2
  illegalIf (!sp.bks.isEmpty && f.bk == 1 && f.vb != 0xFF && wide && bit f.vb 0) 2
  illegalIf (sp.c && !src f.vc f.kc) 2
  illegalIf (ms.any (fun e => !r.slotOk e.2)) 2
  if t.intr.isSome then pure ()
  else
    illegalIf (ms.any (fun e => !(s.mapSlot k t e.2).set)) 5
    illegalIf (ms.any (fun e => !slotFits sp.intClass f.ty (s.mapSlot k t e.2))) 1

/-- R153 for the mapped sources, with the lanes active for the instruction. -/
def v3CheckTags (f : V3) (k : Nat) (act : Mask) (t : Team) (s : State) : Act Unit :=
  if t.intr.isSome then pure ()
  else if (v3Mapped f).any (fun e => !tagsMatch t act e.1 (s.mapSlot k t e.2).tag) then faultAt 3 1 0 else pure ()

/-- The slots an instruction has fetched, with their versions (R158). -/
def v3Slots (f : V3) (k : Nat) (t : Team) (s : State) : List (Nat × Slot) :=
  (v3Mapped f).map (fun e => (e.2, s.mapSlot k t e.2))

/-- The scalar registers a V3 word reads as source b (Table 5-3). -/
def v3ScalarB (f : V3) (wide : Bool) : List Nat :=
  if f.bk == 1 && f.vb != 0xFF then
    let r := field f.vb 0 6
    if wide then [r, r + 1] else [r]
  else []

/-- Map-unit passes are counted, one for each mapped source of each lane block, as they are performed (R156, R364). -/
def State.countMap (s : State) (f : V3) (act : Mask) (t : Team) : State :=
  if (v3Mapped f).isEmpty then s
  else
    let now := (passesOf act t.words).filter (fun w => decide ((t.sweepSpan act).1 ≤ w) && decide (w < (t.sweepSpan act).2))
    s.updPart t.part (fun p => { p with mapp := p.mapp + BitVec.ofNat 64 ((v3Mapped f).length * now.length) })

/-! ## Integer sources of a V3 word -/

/-- The pattern of an integer source in a lane: mapped (R144), a register, or a pair. -/
def intSource (k : Nat) (t : Team) (s : State) (act : Mask) (wide : Bool) (v : BitVec 8) (kf : BitVec 4) (l : Nat) : Nat :=
  if kf != 0 then mapInt (s.mapSlot k t kf.toNat) (t.rv v.toNat (l / 32)) (maskWord act (l / 32)) (l % 32)
  else if wide then (t.rl2 v.toNat l).toNat else (t.rl v.toNat l).toNat

/-- Source b of class 001: vector, scalar, or immediate extended as Table 5-5 gives. -/
def v3IntB (f : V3) (k : Nat) (t : Team) (s : State) (act : Mask) (signedImm : Bool) (l : Nat) : Nat :=
  let wide := bit f.ty 1
  if f.bk == 0 then intSource k t s act wide f.vb f.kb l
  else if f.bk == 1 then
    let r := field f.vb 0 6
    if wide then (t.rs2 r).toNat else (t.rs r).toNat
  else if signedImm then immS (tyWidth f.ty) f.vb else f.vb.toNat

/-! ## Sources of an S3 word -/

/-- The pattern of a scalar source at a width. -/
def Team.scalar (t : Team) (wide : Bool) (i : Nat) : Nat := if wide then (t.rs2 i).toNat else (t.rs i).toNat
/-- Source b of an S3 word: register, or imm8 extended as Table 5-5 gives. -/
def s3B (f : S3) (t : Team) (wide : Bool) (signedImm : Bool) (w : Nat) : Nat :=
  if f.bk then (if signedImm then immS w f.imm else f.imm.toNat) else t.scalar wide f.sb.toNat

end Sys2Proof.Machine
end

