-- ==== Sys2Proof/Machine/Translate.lean ====
section
/-! DEFINITION. Sys2Proof/Machine/Translate.lean: the two-stage walk (R322), moving pages into the window (R320, R370),
the pinned translations of a launch, writes by the host and the Starter, and the translation events. -/
namespace Sys2Proof.Machine

/-! ## Writes that are no task's (R255, R371) -/

/-- A word written by the host, a peer, the Starter or the Yardmaster: at its home, the owner mark withdrawn (R243). -/
def State.foreignWord (s : State) (w : Nat) (v : Word) : State :=
  ({ s with owners := Tab.erase s.owners w }).poke w v
/-- Bytes so written, each at its location: a word in error is good again when all of it is written (R375, log 7). -/
def State.foreignAt (s : State) (l : List (Nat × Byte)) : State :=
  (l.foldl (fun s e => (s.foreignWord (e.1 / 4) (setByteIn (s.peek (e.1 / 4)) e.1 e.2)).keepPoison s (e.1 / 4)) s).heal (l.map (·.1))
/-- Consecutive bytes so written. -/
def State.foreignBytes (s : State) (loc : Nat) (l : List Byte) : State := s.foreignAt (bytesAt loc l)
/-- The doubleword at a location. -/
def State.peek2 (s : State) (loc : Nat) : DWord := s.peek (loc / 4 + 1) ++ s.peek (loc / 4)

/-! ## Walks (Tables 21-6, 21-7) -/

/-- The least address bit that a level translates. -/
def levelBits : Nat → Nat
  | 0 => 16 | 1 => 21 | 2 => 30 | 3 => 39 | _ => 48
/-- Index bits of a level: 32 entries at level 0, else 512. -/
def indexBits : Nat → Nat
  | 0 => 5 | _ => 9
/-- The address of the entry of a table of level `n` that serves an address. -/
def entryAt (tbl n a : Nat) : Nat := tbl + 8 * (a / 2 ^ levelBits n % 2 ^ indexBits n)

/-- What an entry says at a level. -/
inductive Walked where
  | fail
  | table (addr : Nat)
  | leaf (addr : Nat) (w m : Bool)

/-- An entry read at a level: bits 63:52, the type, the alignment, the levels a leaf may stand at (R321, R322). -/
def readEntry (n : Nat) (e : DWord) : Walked :=
  let a := 256 * field e 8 44
  if field e 52 12 ≠ 0 then .fail
  else match field e 0 2 with
    | 1 => if n = 0 ∨ a % 2 ^ (3 + indexBits (n - 1)) ≠ 0 then .fail else .table a
    | 2 => if 3 ≤ n ∨ a % 2 ^ levelBits n ≠ 0 then .fail else .leaf a (bit e 2) (bit e 3)
    | _ => .fail

/-- A device physical address lies in a partition's window (R24). -/
def Part.inWindow (p : Part) (dpa : Nat) : Bool := decide (dpa < 2 ^ 40) && bit p.window (dpa / 2 ^ 30)

/-- A page copied, poisoned words and the signatures released at its words with it (R246, R320). -/
def State.copyPage (s : State) (src dst bytes : Nat) : State :=
  (List.range (bytes / 4)).foldl (fun s i =>
    let bad := Tab.get? s.poisoned (src / 4 + i)
    let sig := Tab.get? s.relSig (src / 4 + i)
    let s := s.foreignWord (dst / 4 + i) (s.peek (src / 4 + i))
    let s := { s with relSig := match sig with
      | some g => Tab.set s.relSig (dst / 4 + i) g
      | none => Tab.erase s.relSig (dst / 4 + i) }
    match bad with
    | some d => { s with poisoned := Tab.set s.poisoned (dst / 4 + i) d, unfound := s.unfound.filter (· != dst / 4 + i) }
    | none => s) s

/-- The descriptor of the ring of frames of a level: 64 KiB, 2 MiB, 1 GiB (R370). -/
def Part.ringAt (p : Part) (n : Nat) : Nat := p.fring.toNat + 16 * n
/-- The hard domain of a die; the firmware's first choice is a domain for each die (R29, log 20). -/
def State.domOf (s : State) (d : Nat) : Nat := (Tab.get? s.dieDom d).getD d
/-- The page named by a stage-two leaf with M 1 lies in the hard domain of the partition (R320). -/
def State.inDomain (s : State) (p : Nat) (dpa : Nat) : Bool :=
  decide (dpa < 2 ^ 40) && s.domOf (dpa / 2 ^ 37) == (s.part p).dom
/-- Moves the page of a stage-two leaf into a free frame: the frame, and the part with the page copied, the
ring's HEAD advanced and the leaf rewritten (R320, R370). A page that lies outside the hard domain fails the walk: the model's choice (log
146). -/
def State.movePage (s : State) (p n entry : Nat) (e : DWord) (src : Nat) : Option Nat × State :=
  let x := s.part p
  let r := x.ringAt n
  let base := (s.peek2 r).toNat
  let size := natOfBytes (s.peekBytes (r + 8) 2)
  let head := natOfBytes (s.peekBytes (r + 10) 2)
  let tail := natOfBytes (s.peekBytes (r + 12) 2)
  let s := s.findsAt r 16
  if size = 0 ∨ head = tail ∨ !s.inDomain p src then (none, s)
  else
    let frame := (s.peek2 (base + 8 * head)).toNat
    let s := s.findsAt (base + 8 * head) 8
    if frame % 2 ^ levelBits n ≠ 0 ∨ !x.inWindow frame then (none, s)
    else
      let s := (s.findsAt src (2 ^ levelBits n)).copyPage src frame (2 ^ levelBits n)
      let s := s.foreignBytes (r + 10) (bytesOf 2 ((head + 1) % size))
      let keep := e &&& (0xFFF00000000000F7#64)
      (some frame, s.foreignBytes entry (bytesOf 8 (keep.toNat + frame)))

/-- A stage-two translation: the device address, the page's size and W. -/
structure Stage2 where
  dpa : Nat
  size : Nat
  w : Bool

/-- The stage-two walk from a level; with `mv` a leaf with M 1 is moved, else its page is outside the window. An error in an entry read
is found (R375). -/
def walk2 (p : Nat) (mv : Bool) (g : Nat) : Nat → Nat → State → Option Stage2 × State
  | n, tbl, s =>
    let at_ := entryAt tbl n g
    if 2 ^ 40 ≤ at_ then (none, s)
    else
      let e := s.peek2 at_
      let s := s.findsAt at_ 8
      match readEntry n e with
      | .fail => (none, s)
      | .leaf a w m =>
        match (if m && mv then s.movePage p n at_ e a else (some a, s)) with
        | (none, s) => (none, s)
        | (some a, s) =>
          if (s.part p).inWindow a then
            (some { dpa := a + g % 2 ^ levelBits n, size := 2 ^ levelBits n, w := w }, s)
          else (none, s)
      | .table a =>
        match n with
        | 0 => (none, s)
        | n' + 1 => walk2 p mv g n' a s

/-- Stage two for a guest physical address (R322). -/
def State.stage2 (s : State) (p : Nat) (mv : Bool) (g : Nat) : Option Stage2 × State :=
  if 2 ^ 57 ≤ g then (none, s) else walk2 p mv g 4 (s.part p).s2root.toNat s

/-- The stage-one walk, each table address and the leaf's output translated through stage two, a table read over its peer window
(R371, log 126); a root is taken as it stands, be it no multiple of 4 KiB: the model's choice (R322, log 153); `gs` are the guest addresses used, with the size of the stage-two page of each (R322, R324). A page moved on the
way stays moved when the walk then fails (R320). -/
def walk1 (p : Nat) (mv : Bool) (va : Nat) : Nat → Nat → List (Nat × Nat) → State → Option Pin × State
  | n, tbl, gs, s =>
    let g := entryAt tbl n va
    match s.stage2 p mv g with
    | (none, s) => (none, s)
    | (some x, s) =>
      let gs := gs ++ [(g, x.size)]
      let loc := peerLoc (s.part p).peerWin x.dpa
      if !s.peerAdmits loc then (none, s)
      else
      let s := s.findsAt loc 8
      match readEntry n (s.peek2 loc) with
      | .fail => (none, s)
      | .leaf a w m =>
        if m then (none, s)
        else
          let out := a + va % 2 ^ levelBits n
          match s.stage2 p mv out with
          | (none, s) => (none, s)
          | (some y, s) =>
            let size := min (2 ^ levelBits n) y.size
            (some { va := va - va % size, size := size, dpa := y.dpa - y.dpa % size, w := w && y.w,
                    gpas := gs ++ [(out, y.size)], leaf := (va - va % 2 ^ levelBits n, 2 ^ levelBits n) }, s)
      | .table a =>
        match n with
        | 0 => (none, s)
        | n' + 1 => walk1 p mv va n' a gs s

/-- Both stages for a virtual address, and the part with the pages moved and the errors found on the way (R320, R322, R375). -/
def State.walk (s : State) (p : Nat) (mv : Bool) (va : Nat) : Option Pin × State :=
  if !canonical (BitVec.ofNat 64 va) then (none, s) else walk1 p mv (va % 2 ^ 57) 4 (s.part p).s1root.toNat [] s

/-- The location of a virtual address of a partition, for the Starter's own reads and writes and the host's (R306, R255). These walks
move no page: a leaf with M 1 is outside the window for them (R320, log 66). The Starter, the walks and the moves of pages meet no
edge: the manual gives them no die (log 106). -/
def State.vloc (s : State) (p va : Nat) : Option Nat :=
  (s.walk p false va).1.map (fun q => peerLoc (s.part p).peerWin (q.dpa + (va - q.va) % q.size))
/-- Bytes of the partition's global virtual space; they lie within one page. -/
def State.vread (s : State) (p va n : Nat) : Option (List Byte) := (s.vloc p va).map (fun l => s.peekBytes l n)
/-- The part after a walk that is no task's: errors in the entries it read are found (R375). -/
def State.sawWalk (s : State) (p va : Nat) : State := (s.walk p false va).2
/-- The part after such a read of bytes: errors in the words read are found too (R375). -/
def State.vsaw (s : State) (p va n : Nat) : State :=
  match s.vloc p va with
  | none => s.sawWalk p va
  | some l => (s.sawWalk p va).findsAt l n
/-- Writes bytes of the partition's global virtual space, within one page. What the Starter writes needs no W in the
leaves: the model's choice (R322, log 145). -/
def State.vwrite (s : State) (p va : Nat) (l : List Byte) : State :=
  match s.vloc p va with
  | none => s.sawWalk p va
  | some loc => (s.sawWalk p va).foreignBytes loc l

/-! ## Pinning (R319, R320, R341) -/

/-- Walks every page that holds a byte of a range, in rising order; the failing address on a failure. A virtual
address is kept as its 57 low bits while it is walked and pinned by its own value. -/
def pinRange (p : Nat) (w : Bool) (stop : Nat) : Nat → Nat → List Pin → State → Except (Nat × State) (List Pin × State)
  | 0, _, pins, s => .ok (pins, s)
  | n + 1, va, pins, s =>
    if stop ≤ va then .ok (pins, s)
    else match pins.find? (fun q => decide (q.va ≤ va) && decide (va < q.va + q.size)) with
      | some q => if w && !q.w then .error (va, s) else pinRange p w stop n (q.va + q.size) pins s
      | none =>
        match s.walk p true va with
        | (none, s) => .error (va, s)
        | (some q, s) =>
          if w && !q.w then .error (va, s)
          else
            let q := { q with va := va - va % q.size }
            pinRange p w stop n (q.va + q.size) (pins ++ [q]) s

/-- The ranges a launch pins: its leases, and the undo area as an `rw` lease (R320, R341). -/
def pinnedRanges (r : Rec) (ls : List Lease) : List (Nat × Nat × Bool) :=
  ls.map (fun l => (l.base, l.len, l.rw)) ++ (if r.vbudget = 0 then [] else [(r.undo.toNat, r.vbudget, true)])

/-- Walks and pins every range that no pin covers yet (R320, R325). -/
def pinAll (p : Nat) : List (Nat × Nat × Bool) → List Pin → State → Except (Nat × State) (List Pin × State)
  | [], pins, s => .ok (pins, s)
  | (base, len, w) :: rest, pins, s =>
    match pinRange p w (base + len) (len / 65536 + 2) base pins s with
    | .error e => .error e
    | .ok (pins, s) => pinAll p rest pins s

/-- A translation hold: XLADDR and vector 2 (R321, R325). -/
def State.holdAt (s : State) (p va : Nat) : State :=
  (s.updPart p (fun x => { x with xladdr := BitVec.ofNat 64 va })).irq (some p) 2

/-- The walks of a launch start, under the walk generation of the moment; it is held when one fails (R321, R323). -/
def State.startWalks (s : State) (n : Nat) (l : Launch) (r : Rec) (ls : List Lease) : State :=
  let gen := (s.part l.part).walkGen
  match pinAll l.part (pinnedRanges r ls) [] s with
  | .ok (pins, s) => { s with launches := Tab.set s.launches n { l with walked := some pins, gen := gen } }
  | .error (va, s) =>
    ({ s with launches := Tab.set s.launches n { l with walked := none, failed := true } }).holdAt l.part va
/-- LEASE_PREWALK of a launch whose record is read: its walks start; when they have ended their result is installed if their
generation is still current, else it is discarded and they start again (R320, R323). -/
def execLeasePrewalk (n : Nat) (s : State) : Out :=
  match Tab.get? s.launches n with
  | none => .next s
  | some l =>
    match l.read, l.pins with
    | some (r, _, _, ls), none =>
      if l.failed then .next s
      else match l.walked with
        | none => .next (s.startWalks n l r ls)
        | some pins =>
          if l.gen = (s.part l.part).walkGen then
            .next { s with launches := Tab.set s.launches n { l with pins := some pins, walked := none } }
          else .next (s.startWalks n l r ls)
    | _, _ => .next s

/-! ## Invalidation (R323 to R325) -/

/-- The registers of one stage. -/
def Part.inval (p : Part) (stage2 : Bool) : Inval := if stage2 then p.inv2 else p.inv1
def Part.setInval (p : Part) (stage2 : Bool) (i : Inval) : Part :=
  if stage2 then { p with inv2 := i } else { p with inv1 := i }

/-- The range of an invalidation meets an interval, by the 57 bits that are translated (R206, R324). -/
def Inval.hits (i : Inval) (a n : Nat) : Bool :=
  i.all ||
    (let z := 2 ^ min 57 (max 16 i.log2)
     let b := i.addr.toNat % 2 ^ 57 / z * z
     let a := a % 2 ^ 57
     decide (a < b + z) && decide (b < a + n))
/-- A pinned page whose translation used an entry in the range: a stage-two leaf of its walk, or its stage-one leaf (R324). -/
def Inval.revokes (i : Inval) (stage2 : Bool) (p : Pin) : Bool :=
  if stage2 then p.gpas.any (fun g => i.hits (g.1 - g.1 % g.2) g.2) else i.hits p.leaf.1 p.leaf.2

/-- A team in Outrider state is put back to its checkpoint (R68). -/
def Team.restore (t : Team) : Team :=
  match t.out with
  | none => t
  | some o => { t with pc := o.pc, s := o.s, p := o.p, sides := o.sides, active := o.active, v := o.v,
                       fflags := o.fflags, out := none }

/-- Teams of a task or of a partition halt in place: each leaves its pipe, Outrider ends, its stores are registered
(R253, R345). A run so cut is none that has been issued: the manual says it of a boundary and of a break alone; the run that goes on
after the halt counts its 24 instructions anew (R43, R46, log 132). -/
def State.haltTeams (s : State) (f : Team → Bool) : State :=
  s.teams.foldl (fun s e =>
    match s.team? e.1 with
    | none => s
    | some t =>
      if f t then
        let s := s.setTeam e.1 { t.restore with halted := true, awaitsBlock := true }
        let s := s.setCore (coreOf e.1) ((s.core (coreOf e.1)).dropTeam e.1)
        if t.halted then s else s.release e.1
      else s) s
/-- A miss of a team is made again: its line was named by a translation that is gone (R325). -/
def Team.refetch (t : Team) : Team :=
  match t.wait with
  | some (.fill ..) => { t with wait := some .over, fills := [] }
  | _ => t

/-- INVCTL as written: ALL and LOG2 are set, and a 1 in GO starts the invalidation unless BUSY reads 1 (R324). -/
def execInvctlGo (p : Nat) (stage2 : Bool) (v : Word) (s : State) : Out :=
  let i := (s.part p).inval stage2
  let j := { i with all := bit v 8, log2 := field v 2 6 }
  if !bit v 0 || i.busy then .next (s.updPart p (fun x => x.setInval stage2 j))
  else
    let j := { j with busy := true }
    let s := s.updPart p (fun x => { x.setInval stage2 j with walkGen := x.walkGen + 1 })
    let hit := fun (pins : List Pin) => pins.any (fun q => j.revokes stage2 q)
    let keep := fun (pins : List Pin) => pins.filter (fun q => !j.revokes stage2 q)
    let ls := Tab.mapVals s.launches (fun l =>
      match l.pins with
      | some pins => if l.part == p && hit pins then { l with pins := none, walked := none } else l
      | none => l)
    let struck := (s.tasks.filter (fun e => e.2.part == p && hit e.2.pins)).map (·.1)
    let ts := Tab.mapVals s.tasks (fun tk =>
      if tk.part == p && hit tk.pins then { tk with pins := keep tk.pins, revoked := true } else tk)
    let us := Tab.mapVals s.teams (fun t => if struck.contains t.task then t.refetch else t)
    .next ({ s with launches := ls, tasks := ts, teams := us }.haltTeams (fun t => struck.contains t.task))

def Team.parked (t : Team) : Bool := match t.wait with | some (.park ..) => true | _ => false

/-! ## Teams that stand on their pipes (R46, R345, R347) -/

/-- The banks a launch binds to FIFOs. -/
def Rec.fifoBanks (r : Rec) : List Nat :=
  r.qbind.foldl (fun l q => if q.kind == 1 || q.kind == 2 then insertNew l q.bank else l) []
/-- Items of a block are in the save area (R346). -/
def State.blockOut (s : State) (t : Team) : Bool :=
  match s.block? t.blk with
  | none => false
  | some b =>
    let c := s.cluster (clusterOf b.core)
    b.slotsSpilled || b.linesSpilled ||
    (s.recOf t).fifoBanks.any (fun n => (Tab.get? (c.bank n).saved t.part).isSome) ||
    ((s.recOf t).bindsEsc && (match c.graph with | some g => g.task == t.task && g.spilled | none => false))
/-- A team of a team's block is in the save area (R347). -/
def State.mateOut (s : State) (t : Team) : Bool :=
  s.teams.any (fun e => (isSpilled e.1 || e.2.rowsSpilled) && e.2.blk == t.blk)
/-- A halted team of a block waits for every spilled item of the block: those of teams in `park` come back too (R347, log 155). -/
def State.blockAwaits (s : State) (b : Nat) : Bool := s.teams.any (fun e => e.2.blk == b && e.2.awaitsBlock)
/-- A halt of a team lasts no longer: its partition and task run and every spilled item of its block is back (R347). -/
def State.haltOver (s : State) (t : Team) : Bool := !s.inPlace t && !s.blockOut t && !s.mateOut t
/-- Halts that last no longer end. What is spilled of a block afterwards holds its other teams no more (R62, R64). -/
def State.endHalts (s : State) : State :=
  { s with teams := Tab.mapVals s.teams (fun t => if t.awaitsBlock && s.haltOver t then { t with awaitsBlock := false } else t) }
/-- A team stands on its pipe: resident, no fault, its partition and task run, nothing of its block is in the save area; while its
halt lasts it waits for the reload of every team of its block too (R335, R345, R347). -/
def State.stands (s : State) (k : Nat) (t : Team) : Bool :=
  !isSpilled k && !t.rowsSpilled && t.fault.isNone && s.partRuns t.part && s.taskRuns t.task && !s.blockOut t &&
  (!t.awaitsBlock || !s.mateOut t)
/-- Teams that stand now and did not in an earlier state, and wait for nothing, are ready from now on (R46). -/
def State.readiedFrom (s old : State) : State :=
  { s with teams := s.teams.map (fun e => (e.1,
      if e.2.wait.isNone && s.stands e.1 e.2 && !(match old.team? e.1 with | some u => old.stands e.1 u | none => false)
      then { e.2 with readyAt := s.moment } else e.2)) }

/-! ## Revoked pages (R325) -/

/-- A team that waits in `park` waits on its word under the new translation, whatever that word holds: only what happens after the
first load ends the wait (R113, R325). -/
def State.repark (s : State) (tk : Task) (t : Team) : Team :=
  match t.wait with
  | some (.park va _ e d) =>
    match s.locate tk va.toNat with
    | some loc => { t with wait := some (.park va (loc / 4) e d) }
    | none => { t with wait := some .over }
  | _ => t
/-- Walks a halted task's revoked pages again: the task resumes, or stays halted with vector 2 raised (R325). -/
def State.repin (s : State) (k : Nat) : State :=
  match s.task? k with
  | none => s
  | some tk =>
    match pinAll tk.part (pinnedRanges tk.lr tk.leases) tk.pins s with
    | .ok (pins, s) =>
      let tk := { tk with pins := pins, revoked := false, walkFailed := false, awaitsWalk := false }
      let ts := Tab.mapVals s.teams (fun t => if t.task == k then s.repark tk t else t)
      ({ s with teams := ts }.setTask k tk).endHalts.readiedFrom s
    | .error (va, s) => (s.setTask k { tk with walkFailed := true }).holdAt tk.part va

/-- INVALIDATION_ACK: every walk of an older generation has ended or restarted, every access translated under a removed entry is
performed (no store of the partition waits to be registered), BUSY clears, the revoked pages are walked again (R324, R325); while the other
stage's invalidation is under way they are not, but after its acknowledgement: the model's choice (log 147). -/
def execInvalidationAck (p : Nat) (stage2 : Bool) (s : State) : Out :=
  let i := (s.part p).inval stage2
  let waiting := s.cores.any (fun c => c.2.stores.any (fun q => q.part == p))
  let walking := s.launches.any (fun e => e.2.part == p && e.2.walked.isSome && e.2.gen != (s.part p).walkGen) ||
    s.cores.any (fun c => c.2.refills.any (fun r => r.part == p && r.gen != (s.part p).walkGen))
  if !i.busy || waiting || walking then .next s
  else
    let s := s.updPart p (fun x => x.setInval stage2 { i with busy := false })
    if (s.part p).inv1.busy || (s.part p).inv2.busy then .next s
    else
      let ks := (s.tasks.filter (fun e => e.2.part == p && e.2.revoked && !e.2.walkFailed)).map (·.1)
      .next (ks.foldl (fun s k => s.repin k) s)

/-- XLCTL_RETRY: the failed walks of the partition start again, and those of pages revoked by a migration (R321, R325,
R352). -/
def execXlctlRetry (p : Nat) (s : State) : Out :=
  let ls := Tab.mapVals s.launches (fun l => if l.part == p then { l with failed := false, walked := if l.failed then none else l.walked } else l)
  let x := s.part p
  let idle := !x.inv1.busy && !x.inv2.busy
  let ks := (s.tasks.filter (fun e => e.2.part == p && (e.2.walkFailed || (e.2.revoked && idle)))).map (·.1)
  .next (ks.foldl (fun s k => s.repin k) { s with launches := ls })

end Sys2Proof.Machine
end

