-- ==== Sys2Proof/Machine/Access.lean ====
section
/-! DEFINITION. Sys2Proof/Machine/Access.lean: one access of a team: its place (R205 to R207), its loads, stores and
atomics in each space (R212 to R219, R223, R224, R233, R234, R243 to R249), and shared ranges (R293, R294). -/
namespace Sys2Proof.Machine

/-- Where an access lies: its words as word numbers of device memory, of scratch, of fleeting space or of the
constant table; whether a word of it lies in a range leased `shared` by a deterministic launch. -/
structure Place where
  spc : Nat
  words : List Nat
  shared : Bool := false

/-- The addresses of the words that `z` bytes at `a` touch. -/
def wordsAt (a z : Nat) : List Nat := (List.range ((a + z - 1) / 4 - a / 4 + 1)).map (fun i => a / 4 + i)

/-- The words of a global access, each checked and located (R206, R319). -/
def globalWords (t : Team) (s : State) (write : Bool) (a : DWord) (z : Nat) : Act Place :=
  match s.task? t.task with
  | none => faultAt 2 1 a
  | some tk => (wordsAt a.toNat z).foldlM (fun (p : Place) w => do
      let l ← match tk.checkWord t.block write (4 * w) with
        | .ok l => pure l
        | .error (c, d) => faultAt c d a
      match s.locate tk (4 * w) with
      | none => faultAt 1 5 a
      | some loc =>
        pure { p with words := p.words ++ [loc / 4], shared := p.shared || (tk.det && l.shared) })
    { spc := 0, words := [] }
/-- The words of a private access (R206, R304). -/
def privateWords (k : Nat) (t : Team) (s : State) (a : DWord) (z : Nat) : Act Place :=
  match s.task? t.task with
  | none => faultAt 1 3 a
  | some tk =>
    if a.toNat < 36864 ∨ tk.lr.privSize < a.toNat + z then faultAt 1 3 a
    else (wordsAt (s.privateBase tk k + a.toNat) z).foldlM (fun (p : Place) w =>
      match s.locate tk (4 * w) with
      | none => faultAt 1 5 a
      | some loc => pure { p with words := p.words ++ [loc / 4] })
      { spc := 3, words := [] }

/-- The place of an access of `z` bytes at `a`, aligned to `al` (R205 to R207). -/
def resolve (k : Nat) (t : Team) (s : State) (spc : Nat) (write : Bool) (z al : Nat) (a : DWord) : Act Place := do
  if spc = 0 ∧ !canonical a then faultAt 1 1 a
  if a.toNat % al ≠ 0 then faultAt 1 2 a
  let r := s.recOf t
  let within := fun (n : Nat) =>
    if n < a.toNat + z then faultAt 1 3 a else pure ({ spc := spc, words := wordsAt a.toNat z } : Place)
  match spc with
  | 0 => globalWords t s write a z
  | 1 => within r.scratchBytes
  | 2 => within (2048 * r.fleet)
  | 3 => privateWords k t s a z
  | _ => within (4 * (match s.task? t.task with | some tk => tk.consts.length | none => 0))

/-- The address of a lane (R208). -/
def laneAddr (f : MF) (t : Team) (z : Nat) (l : Nat) : DWord :=
  let base := match f.am.toNat with
    | 0 => t.rl2 f.ma.toNat l
    | 1 => t.rs2 f.ma.toNat + BitVec.ofNat 64 (l * z)
    | 2 => t.rs2 f.ma.toNat + (t.rl f.mx.toNat l).signExtend 64
    | _ => t.rs2 f.ma.toNat
  base + BitVec.ofInt 64 (sval 8 f.imm.toNat * z)
/-- The scalar registers an address reads. -/
def addrScalars (f : MF) : List Nat := if f.am == 0 then [] else [f.ma.toNat, f.ma.toNat + 1]

/-- Bytes per lane (R207). -/
def accessSize (f : MF) : Nat := 2 ^ f.sz.toNat

/-- Bytes of the single-copy atomic accesses that a lane's access of `z` bytes is made of: 128 bits are two of 64 (R215, R237). -/
def unitSize (z : Nat) : Nat := min 8 z

/-- One lane's access. -/
structure LaneAcc where
  lane : Nat
  addr : DWord
  place : Place

/-- The places of a list of lanes. -/
def resolveLanes (k : Nat) (t : Team) (s : State) (f : MF) (write : Bool) (z al : Nat) (ls : List Nat) : Act (List LaneAcc) :=
  ls.mapM (fun l => do
    let a := laneAddr f t z l
    let p ← resolve k t s f.spc.toNat write z al a
    pure { lane := l, addr := a, place := p })

/-- The accesses that a lane's access is made of, each with its own place, so that a doubleword in a shared range takes no other with
it (R206, R215, R237). -/
def unitsOf (k : Nat) (t : Team) (s : State) (f : MF) (write : Bool) (a : LaneAcc) : Act (List LaneAcc) :=
  (List.range (accessSize f / unitSize (accessSize f))).mapM (fun i => do
    let b := a.addr + BitVec.ofNat 64 (8 * i)
    let p ← resolve k t s f.spc.toNat write (unitSize (accessSize f)) (unitSize (accessSize f)) b
    pure { lane := a.lane, addr := b, place := p })

/-! ## Readiness: shared ranges, cache misses, scratch lines -/

/-- A load or a returning atomic of a shared range is performed while the token is held, the commit buffer empty, and is illegal once
the token has passed (R285, R293). -/
def sharedReadReady (k : Nat) (t : Team) (s : State) (ps : List Place) : Act Unit := do
  if ps.any (·.shared) then
    illegalIf t.passed 5
    if !t.held || !t.buffer.isEmpty then waitOn k t s (.commit true)

/-- The lines of words the core does not hold (R214). -/
def missing (k : Nat) (t : Team) (s : State) (ws : List Nat) : List Nat :=
  ws.foldl (fun l w => if (s.held? (coreOf k) t w).isSome then l else insertNew l (w / 32)) []
/-- Those of them that a request goes to their homes for: a word of them the cluster's cache does not hold either, or the read is
ordered (R33, R214). -/
def requested (k : Nat) (t : Team) (s : State) (acq : Bool) (ws : List Nat) : List Nat :=
  missing k t s (if acq then ws else ws.filter (fun w => (cached (s.cluster (clusterOf (coreOf k))).l2 w).isNone))
/-- A word of an access that is fetched by a request: it reaches its home, and is good (R33, R375). An ordered read takes
every word from its home. -/
def checkFetch (k : Nat) (t : Team) (s : State) (acq : Bool) (a : LaneAcc) : Act Unit :=
  a.place.words.forM (fun w => do
    let c := coreOf k
    if acq || ((s.held? c t w).isNone && (cached (s.cluster (clusterOf c)).l2 w).isNone) then
      s.reach (dieOf c) (4 * w) a.addr
    if acq || ((s.held? c t w).isNone && s.badFor c w) then
      match Tab.get? s.poisoned w with
      | some d => faultAt 7 d a.addr
      | none => pure ())
/-- Every request of accesses reaches the home of its word; of an instruction the first refused counts, alone (R33, log 95). -/
def checkReach (k : Nat) (s : State) (accs : List LaneAcc) : Act Unit :=
  accs.forM (fun a => a.place.words.forM (fun w => s.reach (dieOf (coreOf k)) (4 * w) a.addr))
/-- Every word of memory is at hand, or the run breaks on the missing lines (R45). -/
def needWords (k : Nat) (t : Team) (s : State) (acq : Bool) (evp : Nat) (accs : List LaneAcc) : Act Unit := do
  accs.forM (checkFetch k t s acq)
  let ws := accs.flatMap (·.place.words)
  let m := missing k t s ws
  if m != [] then waitOn k t s (.fill m (requested k t s acq ws) evp)

/-- The lease behind line `j` of the region is not writable (R213). -/
def backingRo (tk : Task) (b j : Nat) : Bool :=
  match tk.leaseOf (tk.lr.backing b j) with | some l => !l.rw | none => true
/-- Fills one line of the mapped region: a plain load of the backing line, which makes its version shadow (R213, R340); each of its
words is checked, for a line may begin or end outside the own slice (R206, R292). A request
goes to the home when neither the L1 nor the cluster cache holds a word, and counts (R33, R364). -/
def fillRegion (k : Nat) (t : Team) (s : State) (line j : Nat) : Act State :=
  match s.task? t.task with
  | none => pure s
  | some tk =>
    let va := tk.lr.backing t.block j
    let ad := BitVec.ofNat 64 va
    match s.locate tk va with
    | none => faultAt 1 5 ad
    | some loc => do
      (List.range 32).forM (fun i => backingCheck k t s tk t.block false (va + 4 * i))
      let lacks := fun i => (cached (s.core (coreOf k)).l1 (loc / 4 + i)).isNone
      let sent := (List.range 32).any (fun i =>
        lacks i && (cached (s.cluster (clusterOf (coreOf k))).l2 (loc / 4 + i)).isNone)
      if sent then s.reach (dieOf (coreOf k)) loc ad
      let bad := fun i => if lacks i && s.badFor (coreOf k) (loc / 4 + i)
        then Tab.get? s.poisoned (loc / 4 + i) else none
      match (List.range 32).findSome? bad with
      | some d => faultAt 7 d ad
      | none => pure ()
      let s ← s.chargeLines t.task [loc / 4]
      let s := s.shadowLine t.task (loc / 128)
      let s := if sent then s.countFill t.part else s
      let b := s.blockOf t
      pure (s.setBlock t.blk { b with
        touched := insertNew b.touched line,
        scratch := (List.range 32).foldl (fun m i => Tab.set m (32 * line + i) (s.viewWord (coreOf k) (loc / 4 + i))) b.scratch })
/-- The scratch lines of an access are in banks in scratch mode, their region lines filled; else the run
breaks (R45, R211, R213). The lease violation of a store to a line whose backing is `ro` reports the scratch offset of the line, for
the store names no global address: the model's reading (log 139). -/
def needScratch (k : Nat) (t : Team) (s : State) (write : Bool) (ws : List Nat) : Act Unit := do
  let b := s.blockOf t
  let r := s.recOf t
  let lines := ws.foldl (fun l w => insertNew l (w / 32)) []
  match (lines.filterMap (bankOfLine b.banks)).find? (fun n => ((s.cluster (clusterOf (coreOf k))).bank n).mode ≠ .scratch) with
  | some n => waitOn k t s (.bank n)
  | none =>
    if write then
      lines.forM (fun line => match r.regionLine line, s.task? t.task with
        | some j, some tk => if backingRo tk t.block j then faultAt 2 2 (BitVec.ofNat 64 (128 * line)) else pure ()
        | _, _ => pure ())
    let fresh := lines.filterMap (fun line => match r.regionLine line with
      | some j => if b.touched.contains line then none else some (line, j)
      | none => none)
    if fresh.isEmpty then pure ()
    else
      let s' ← fresh.foldlM (fun s e => fillRegion k t s e.1 e.2) s
      waitOn k t s' .region

/-! ## Loads -/

/-- The number the bytes of an access hold, its words given. -/
def bytesIn (ws : List Word) (a z : Nat) : Nat :=
  (ws.foldr (fun w n => w.toNat + 2 ^ 32 * n) 0) / 2 ^ (8 * (a % 4)) % 2 ^ (8 * z)

/-- The word of a place as the team reads it; none when it is fleeting and expired or invalid. -/
def readWord (k : Nat) (t : Team) (s : State) (spc w : Nat) : Option Word :=
  match spc with
  | 1 => some (Tab.get (s.blockOf t).scratch 0 w)
  | 2 => (s.blockOf t).fleetLoad s.sample w
  | 4 => some ((match s.task? t.task with | some tk => (tk.consts[w]?).getD 0 | none => 0))
  | _ => some ((s.held? (coreOf k) t w).getD 0)
/-- The words of an access; none when any is expired (R219). -/
def readWords (k : Nat) (t : Team) (s : State) (p : Place) : Option (List Word) :=
  p.words.mapM (fun w => readWord k t s p.spc w)

/-- The scratch words of accesses are good (R375). -/
def scratchGood (t : Team) (s : State) (accs : List LaneAcc) : Act Unit :=
  accs.forM (fun a => if a.place.words.any (fun w => (s.blockOf t).badWords.contains w) then faultAt 7 3 a.addr else pure ())

/-- The readiness of loads, and the expiry fault of a deterministic launch (R219). -/
def loadReady (k : Nat) (t : Team) (s : State) (acq : Bool) (evp : Nat) (accs : List LaneAcc) : Act Unit := do
  sharedReadReady k t s (accs.map (·.place))
  match accs with
  | [] => pure ()
  | a :: _ =>
    match a.place.spc with
    | 0 | 3 => needWords k t s acq evp accs
    | 1 => do
      needScratch k t s false (accs.flatMap (·.place.words))
      scratchGood t s accs
    | 2 => if s.detOf t then
        accs.forM (fun x => if (readWords k t s x.place).isNone then faultAt 4 1 x.addr else pure ())
    | _ => accs.forM (fun x => constGood t s x.addr x.place.words)

/-- The signatures released at the words read (R246). -/
def State.releasedAt (s : State) (ws : List Nat) : Sig := ws.foldl (fun g w => g ||| Tab.get s.relSig 0 w) 0

/-- The signatures released at the words of accesses, in their space. -/
def State.releasedIn (s : State) (t : Team) (accs : List LaneAcc) : Sig :=
  accs.foldl (fun g a => g ||| (match a.place.spc with
    | 0 | 3 => s.releasedAt a.place.words
    | 1 => a.place.words.foldl (fun g w => g ||| Tab.get (s.blockOf t).scratchSig 0 w) 0
    | 2 => a.place.words.foldl (fun g w => g ||| Tab.get (s.blockOf t).fleetSig 0 w) 0
    | _ => 0)) 0
/-- The words of device memory that accesses name. -/
def memWords (accs : List LaneAcc) : List Nat := (accs.filter (fun a => a.place.spc == 0 || a.place.spc == 3)).flatMap (·.place.words)

/-- An ordered load reads each word at its home, after the team's own earlier ordered stores (R242, R248); its requests count
(R364). -/
def beforeRead (k : Nat) (t : Team) (s : State) (acq : Bool) (accs : List LaneAcc) : Team × State :=
  if acq then
    let ws := memWords accs
    let s := (s.ordered k ws).refresh k ws
    let s := if ws.isEmpty then s else s.countFill t.part
    ({ t with fills := t.fills.map (fun e => if ws.contains e.1 then (e.1, s.peek e.1) else e) }, s)
  else (t, s)

/-- The acquire side of a read that found a signature: once, after the last pass (R223, R244, R246). -/
def acquireRead (k : Nat) (t : Team) (s : State) (last : Bool) (g : Sig) : Team × State :=
  if last then
    let t := { t with carried := t.carried ||| t.gather ||| g }
    (t, s.acquire (coreOf k) t.carried)
  else ({ t with gather := t.gather ||| g }, s)

/-- The use of the lines a read hit, and its acquire side (R214, R244, R246). -/
def afterRead (k : Nat) (t : Team) (s : State) (acq last : Bool) (evp : Nat) (accs : List LaneAcc) : Team × State :=
  let s := (memWords accs).foldl (fun s w => s.touchL1 (coreOf k) w evp) s
  if acq && !accs.isEmpty then acquireRead k t s last (s.releasedIn t accs) else (t, s)

/-! ## Prefetches (R67, R227, R326) -/

/-- The virtual addresses of the words of an access to global or private space (R206, R304). -/
def accessVas (k : Nat) (t : Team) (s : State) (spc z : Nat) (a : DWord) : List Nat :=
  let base := match spc, s.task? t.task with
    | 3, some tk => s.privateBase tk k
    | _, _ => 0
  (wordsAt (base + a.toNat) z).map (4 * ·)
/-- The words of a refill's access where its walk found them. -/
def Refill.words (r : Refill) : List Nat := r.vas.map (fun v => 32 * r.line + v / 4 % 32)
/-- A walk starts for words of one line, under the walk generation of the moment; none when it fails (R322, R323). -/
def State.startRefill (s : State) (slot part evp : Nat) (vas : List Nat) : Option Refill :=
  (s.vloc part (vas.headD 0)).map (fun loc =>
    { slot := slot, part := part, evp := evp, vas := vas, gen := (s.part part).walkGen, line := loc / 128 })
def State.addRefill (s : State) (c : Nat) (r : Refill) : State :=
  s.setCore c { s.core c with refills := (s.core c).refills ++ [r] }
/-- The words of prefetches of a team, by virtual address: a walk for each line, whose access is dropped when it fails (R326); also the
misses that the victim tag array knows (R47). The model keeps no translation cache, so that every prefetch makes its walk (log 15). -/
def State.prefetchWords (s : State) (k part evp : Nat) (vas : List Nat) : State × Nat :=
  let c := coreOf k
  let lines := vas.foldl (fun l v => insertNew l (v / 128)) []
  lines.foldl (fun (r : State × Nat) line =>
    match r.1.startRefill (slotOf k) part evp (vas.filter (fun v => v / 128 == line)) with
    | none => r
    | some x =>
      let missed := x.words.any (fun w => (cached (r.1.core c).l1 w).isNone)
      (r.1.addRefill c x, r.2 + (if missed then (r.1.core c).lostLines (slotOf k) [x.line] else 0))) (s, 0)
/-- A prefetch whose walk is installed brings its line into the caches of the core at its priority; a request refused on its way is
dropped and counted (R33, R67, R214, R227). -/
def State.prefetchLine (s : State) (c : Nat) (r : Refill) : State :=
  let need := r.words.filter (fun w => (cached (s.core c).l1 w).isNone)
  if need.all (fun w => (cached (s.cluster (clusterOf c)).l2 w).isSome) then s.bringLine c r.line r.evp r.slot false
  else match s.blockedEdge (dieOfLoc (128 * r.line)) 5 (dieOf c) with
    | some e => s.countRefusal (some e)
    | none => if s.peerAdmits (128 * r.line) then (s.bringLine c r.line r.evp r.slot true).countFill r.part else s
/-- A walk ends: its result is installed when its generation is still current; else it is discarded and the walk starts again, the
access dropped when that fails (R323, R326). -/
def State.endRefill (s : State) (c : Nat) (r : Refill) : State :=
  if r.gen = (s.part r.part).walkGen then s.prefetchLine c r
  else match s.startRefill r.slot r.part r.evp r.vas with
    | some x => s.addRefill c x
    | none => s
/-- The walks of a core that found a line end. -/
def State.endRefills (s : State) (c line : Nat) : State :=
  let x := s.core c
  (x.refills.filter (fun r => r.line == line)).foldl (fun s r => s.endRefill c r)
    (s.setCore c { x with refills := x.refills.filter (fun r => r.line != line) })

/-! ## Stores -/

/-- The bytes of a word that a store of `z` bytes at `a` leaves as they were: mask of kept bits of word `i`
of the access. -/
def keptBits (a z i : Nat) : Word :=
  (List.range 4).foldl (fun m j =>
    let byte := 4 * i + j
    if a % 4 ≤ byte ∧ byte < a % 4 + z then m else m ||| (0xFF#32 <<< (8 * j))) 0
/-- Word `i` of the data of a store at `a`. -/
def dataWord (v a i : Nat) : Word := BitVec.ofNat 32 (v * 2 ^ (8 * (a % 4)) / 2 ^ (32 * i))

/-- The new words of a store: each old word under the kept bits. -/
def newWords (old : Nat → Word) (ws : List Nat) (v a z : Nat) : List (Nat × Word) :=
  ((List.range ws.length).zip ws).map (fun e =>
    let kp := keptBits a z e.1
    (e.2, (old e.2 &&& kp) ||| (dataWord v a e.1 &&& ~~~kp)))

/-- The new words of each store of a list, in order: an earlier store of the list, else the word as the core holds it, gives
the other bytes (R224, R249). -/
def storedWords (hold : Nat → Word) (z : Nat) : Tab Word → List (LaneAcc × Nat) → List (List (Nat × Word))
  | _, [] => []
  | m, e :: t =>
    let ws := newWords (fun w => (Tab.get? m w).getD (hold w)) e.1.place.words e.2 e.1.addr.toNat z
    ws :: storedWords hold z (ws.foldl (fun m x => Tab.set m x.1 x.2) m) t

/-- Stores of memory by a team, in lane order; evp 7 goes through to the LLC (R214, R224, R249). -/
def storeMem (k : Nat) (t : Team) (s : State) (evp : Nat) (rel : Option Sig) (z : Nat) (accs : List (LaneAcc × Nat)) : State :=
  let l := storedWords (fun w => (s.held? (coreOf k) t w).getD 0) z [] accs
  let s := l.foldl (fun s ws => s.queueStore k t evp rel ws) s
  if evp = 7 then
    let ws := memWords (accs.map (·.1))
    s.registerIf (coreOf k) (fun p => p.team == k && p.words.any (fun e => ws.contains e.1))
  else s

/-- A release side leaves its signature at words of a table (R246). -/
def releaseAt (m : Tab Sig) (rel : Option Sig) (ws : List Nat) : Tab Sig :=
  match rel with
  | none => m
  | some g => ws.foldl (fun m w => Tab.upd m 0 w (· ||| g)) m

/-- A store to scratch or fleeting space (R212, R218, R246). -/
def storeLocal (t : Team) (s : State) (rel : Option Sig) (spc : Nat) (a : DWord) (ws : List Nat) (z v : Nat) : State :=
  let b := s.blockOf t
  if spc = 1 then
    let b := { b with scratchSig := releaseAt b.scratchSig rel ws }
    s.setBlock t.blk ((newWords (fun w => Tab.get b.scratch 0 w) ws v a.toNat z).foldl
      (fun b e => b.scratchStore (s.recOf t) e.1 e.2) b)
  else
    let b := { b with fleetSig := releaseAt b.fleetSig rel ws }
    s.setBlock t.blk (((List.range ws.length).zip ws).foldl
      (fun b e => b.fleetStore s.sample e.2 (dataWord v a.toNat e.1) (keptBits a.toNat z e.1)) b)

/-- The bytes an access writes, by address. -/
def storeBytes (a z v : Nat) : List (Nat × Byte) := (List.range z).map (fun i => (a + i, BitVec.ofNat 8 (v / 2 ^ (8 * i))))
/-- Adds a byte to the entries of one pass: one entry per line, in the order in which the pass first writes the lines; a later byte in
place of an earlier one (R238, R294). -/
def addByte (es : List (Nat × Tab Byte)) (e : Nat × Byte) : List (Nat × Tab Byte) :=
  if es.any (fun x => x.1 == e.1 / 128) then
    es.map (fun x => if x.1 = e.1 / 128 then (x.1, Tab.set x.2 e.1 e.2) else x)
  else es ++ [(e.1 / 128, [e])]
/-- The commit-buffer entries of the stores of one pass, in program order: ascending lane order (R238, R294); each with the signature a
release side releases. -/
def passEntries (pc : DWord) (l : List (LaneAcc × Nat)) (z : Nat) (rel : Option Sig) : List CommitEntry :=
  (l.foldl (fun es e => (storeBytes e.1.addr.toNat z e.2).foldl addByte es) []).map
    (fun e => .store pc e.2 rel)

/-- Stores and non-returning atomics of a shared range: the waits and the fault; true when they go to the buffer (R285, R293,
R294). -/
def sharedWriteReady (k : Nat) (t : Team) (s : State) (any : Bool) (entries : Nat) : Act Bool := do
  if !any then pure false
  else
    illegalIf t.passed 5
    if t.held then
      if t.buffer.isEmpty then pure false else waitOn k t s (.commit true)
    else if 256 < t.buffer.length + entries then waitOn k t s (.commit true)
    else pure true

/-- A store's requests reach their homes; every word a sub-word store takes other bytes from is at hand and good (R33,
R249, R375). -/
def storeReady (k : Nat) (t : Team) (s : State) (evp z : Nat) (accs : List LaneAcc) : Act Unit :=
  match accs with
  | [] => pure ()
  | a :: _ =>
    match a.place.spc with
    | 0 | 3 => do
      if z < 4 then needWords k t s false evp accs
      checkReach k s accs
    | 1 => do
      needScratch k t s true (accs.flatMap (·.place.words))
      if z < 4 then scratchGood t s accs
    | _ => pure ()

/-- The commit-buffer entries of the stores of a list to a shared range, pass by pass (R294). -/
def bufferEntries (pc : DWord) (z : Nat) (accs : List (LaneAcc × Nat)) (rel : Option Sig) : List CommitEntry :=
  let shared := accs.filter (·.1.place.shared)
  let passes := shared.foldl (fun l e => insertNew l (e.1.lane / 32)) []
  passes.flatMap (fun w => passEntries pc (shared.filter (fun e => e.1.lane / 32 == w)) z rel)

/-- The first pass, after the first one, that needs more entries of the commit buffer than those before it leave free: it waits
and they are performed (R294). `count` gives the entries of a pass. -/
def bufferStop (t : Team) (act : Mask) (count : Nat → Nat) : Option Nat :=
  let ps := passesOf (maskSpan act (t.sweepSpan act).1 (t.sweepSpan act).2) t.words
  if t.held || t.passed then none
  else (ps.drop 1).find? (fun w => decide (256 < t.buffer.length + ((ps.filter (· ≤ w)).map count).sum) &&
    decide (t.buffer.length + count (ps.headD 0) ≤ 256))
/-- Sweeps an instruction that stores: a pass that waits for the commit buffer stops it there, and the team waits (R183, R294). -/
def sweepStores (k : Nat) (act : Mask) (t : Team) (s : State) (count : Nat → Nat)
    (f : Mask → Team → State → Act (Team × State × (Nat → Flags))) : Act Done :=
  match bufferStop t act count with
  | none => sweep k act [] t s f
  | some w =>
    match sweep k act [] { t with stopAt := some w } s f with
    | .error (.stopped s') => .error (.wait s' (.commit true))
    | r => r

/-- The stores of the lanes of one instruction, in pass and lane order (R224): checks and waits first. -/
def storeLanes (k : Nat) (t : Team) (s : State) (evp : Nat) (release : Bool) (z : Nat)
    (accs : List (LaneAcc × Nat)) : Act (Team × State) := do
  let rel := if release then some t.carried else none
  let entries := bufferEntries t.pc z accs rel
  let buffered ← sharedWriteReady k t s (accs.any (·.1.place.shared)) entries.length
  let direct := if buffered then accs.filter (fun e => !e.1.place.shared) else accs
  storeReady k t s evp z (direct.map (·.1))
  let s ← if (direct.map (·.1.place.spc)).any (fun n => n == 0 || n == 3)
    then s.chargeLines t.task (direct.flatMap (·.1.place.words)) else pure s
  let s := if release then s.release k else s
  let isMem := fun (e : LaneAcc × Nat) => e.1.place.spc == 0 || e.1.place.spc == 3
  let s := storeMem k t s evp rel z (direct.filter isMem)
  let s := (direct.filter (fun e => !isMem e)).foldl (fun s e =>
    storeLocal t s rel e.1.place.spc e.1.addr e.1.place.words z e.2) s
  pure (if buffered then { t with buffer := t.buffer ++ entries } else t, s)

/-! ## Atomics (R233, R234, R247) -/

/-- *new* of Table 13-6. -/
def atomicNew (aop : Nat) (wide : Bool) (old v c : Nat) : Nat :=
  let w := if wide then 64 else 32
  let F := if wide then binary64 else binary32
  match aop with
  | 0 => (old + v) % 2 ^ w
  | 1 => if sval w old ≤ sval w v then old else v
  | 2 => if sval w v ≤ sval w old then old else v
  | 3 => old &&& v
  | 4 => old ||| v
  | 5 => old ^^^ v
  | 6 => v
  | 7 => if old = c then v else old
  | 8 => (F.addV 0 (F.value old) (F.value v)).bits
  | 9 => (F.minMax false old v).bits
  | _ => (F.minMax true old v).bits

/-- The number consecutive words hold, the first lowest. -/
def natOfWords (ws : List Word) : Nat := ws.foldr (fun w n => w.toNat + 2 ^ 32 * n) 0

/-- An atomic at the home of its words: the core's own stores to them and the team's ordered stores register first; the old value
is returned, the words leave the core's caches (R242, R247). -/
def atomicMem (k : Nat) (t : Team) (s : State) (aop : Nat) (wide : Bool) (rel : Option Sig) (ws : List Nat) (v c : Nat) :
    Nat × State :=
  let s := s.ordered k ws
  let old := natOfWords (ws.map s.peek)
  let new := atomicNew aop wide old v c
  let s := ((List.range ws.length).zip ws).foldl
    (fun s e => s.registerWord (coreOf k) t.task e.2 (BitVec.ofNat 32 (new / 2 ^ (32 * e.1))) rel) s
  (old, (ws.foldl (fun s w => s.onCaches (coreOf k) (fun l => dropWord l w)) s).countFill t.part)
/-- An atomic at the bank that holds its scratch words (R212). -/
def atomicScratch (k : Nat) (t : Team) (s : State) (aop : Nat) (wide : Bool) (rel : Option Sig) (ws : List Nat) (v c : Nat) :
    Nat × State :=
  let s := s.ordered k []
  let b := s.blockOf t
  let b := { b with scratchSig := releaseAt b.scratchSig rel ws }
  let old := natOfWords (ws.map (fun w => Tab.get b.scratch 0 w))
  let new := atomicNew aop wide old v c
  (old, s.setBlock t.blk (((List.range ws.length).zip ws).foldl
    (fun b e => b.scratchStore (s.recOf t) e.2 (BitVec.ofNat 32 (new / 2 ^ (32 * e.1)))) b))

/-- The atomics of the lanes of one instruction, in order: each lane's access, operand and compare value; the
old values by lane. A non-returning atomic to a shared range not yet the team's goes to the commit buffer. -/
def atomicLanes (k : Nat) (t : Team) (s : State) (aop : Nat) (wide returning acq last release : Bool)
    (accs : List (LaneAcc × Nat × Nat)) : Act (Tab Nat × Team × State) := do
  let places := accs.map (·.1.place)
  (if returning then sharedReadReady k t s places else pure ())
  let shared := accs.filter (·.1.place.shared)
  let rel := if release then some t.carried else if t.relFence != 0 then some t.relFence else none
  let entries : List CommitEntry := shared.map (fun e =>
    .atomic t.pc aop wide e.1.addr.toNat (BitVec.ofNat 64 e.2.1) rel)
  let buffered ← if returning then pure false else sharedWriteReady k t s (!shared.isEmpty) entries.length
  let direct := if buffered then accs.filter (fun e => !e.1.place.shared) else accs
  let mem := direct.filter (fun e => e.1.place.spc != 1)
  checkReach k s (mem.map (·.1))
  mem.forM (fun e => match e.1.place.words.findSome? (Tab.get? s.poisoned) with
    | some d => faultAt 7 d e.1.addr
    | none => pure ())
  if direct.length != mem.length then
    needScratch k t s true ((direct.map (·.1)).flatMap (·.place.words))
    scratchGood t s (direct.map (·.1))
  let s ← s.chargeLines t.task (mem.flatMap (·.1.place.words))
  let s := if release then s.release k else s
  let (olds, g, s) := direct.foldl (fun (r : Tab Nat × Sig × State) e =>
    let p := e.1.place
    let s := r.2.2.ordered k (memWords [e.1])
    let g := s.releasedIn t [e.1]
    let (old, s) := if p.spc = 1 then atomicScratch k t s aop wide rel p.words e.2.1 e.2.2
      else atomicMem k t s aop wide rel p.words e.2.1 e.2.2
    (r.1 ++ [(e.1.lane, old)], r.2.1 ||| g, s)) ([], 0, s)
  let t := if buffered then { t with buffer := t.buffer ++ entries } else t
  if acq then
    let r := acquireRead k t s last g
    pure (olds, r.1, r.2)
  else pure (olds, { t with acqPend := t.acqPend ||| g }, s)

end Sys2Proof.Machine
end

