-- ==== Sys2Proof/Machine/VectorFloat.lean ====
section
/-! DEFINITION. Sys2Proof/Machine/VectorFloat.lean: class 010, the vector floating-point instructions (R143 to R147, R164 to
R172), and the fixed tree of R174. -/
namespace Sys2Proof.Machine

/-! ## Sources -/

/-- The format of a type code of class 010 (Table 5-4). -/
def tyFloat (ty : BitVec 2) : FloatFmt :=
  match ty.toNat with | 0 => binary32 | 1 => binary64 | 2 => bf16 | _ => f16
/-- The plain tag of a type code of class 010 (R151). -/
def tyTag (ty : BitVec 2) : Tag :=
  plainTag (match ty.toNat with | 0 => .f32 | 1 => .f64 | 2 => .bf16 | _ => .f16)

/-- A source in a lane: a pattern of the type, or P(n). -/
inductive Opnd where
  | bits (n : Nat)
  | map (v : MapVal)

/-- A source of class 010. -/
def floatSource (k : Nat) (t : Team) (s : State) (act : Mask) (wide : Bool) (v : BitVec 8) (kf : BitVec 4) (l : Nat) : Opnd :=
  if kf != 0 then .map (mapValue (s.mapSlot k t kf.toNat) (t.rv v.toNat (l / 32)) (maskWord act (l / 32)) (l % 32))
  else .bits (if wide then (t.rl2 v.toNat l).toNat else (t.rl v.toNat l).toNat)

/-- Source b: vector, scalar, the lane block's rescale factor, or an immediate converted exactly (R79, R166). -/
def v3FloatB (f : V3) (k : Nat) (t : Team) (s : State) (act : Mask) (l : Nat) : Opnd :=
  let wide := f.ty == 1
  if f.bk == 0 then floatSource k t s act wide f.vb f.kb l
  else if f.bk == 1 then
    if f.vb == 0xFF then .bits (t.side (l / 32)).r.toNat
    else
      let r := field f.vb 0 6
      .bits (if wide then (t.rs2 r).toNat else (t.rs r).toNat)
  else
    let x := ((tyFloat f.ty).ofInt 0 (sval 8 f.vb.toNat)).bits
    .bits (if bit f.ty 1 then x + 65536 * x else x)

/-- Some mapped source of the lane is overwritten (R147). -/
def anyOver (l : List Opnd) : Bool := l.any (fun o => match o with | .map .overwrite => true | _ => false)
/-- The result of R147. -/
def overwritten (F : FloatFmt) : FRes := { bits := F.canonNaN, flags := flagNV }
/-- A mapped source outside a sum: rounded to binary32, then widened exactly (R144). -/
def ordinary (F : FloatFmt) (o : Opnd) : FRes :=
  match o with
  | .bits n => { bits := n }
  | .map v =>
    let r := binary32.roundV 0 false v.fv
    { bits := (convertF binary32 F 0 r.bits).bits, flags := r.flags }
/-- A summand as it enters the sum (R143): P(n) without rounding. -/
def summand (F : FloatFmt) (o : Opnd) : FV := match o with | .bits n => F.value n | .map v => v.fv
/-- A negated summand (R143, R146). -/
def negSummand (F : FloatFmt) (o : Opnd) : FV := match o with | .bits n => (F.value n).neg | .map v => v.negFV

/-- An operation on ordinary operands (R144). -/
def onOrdinary (F : FloatFmt) (a b : Opnd) (g : Nat → Nat → FRes) : FRes :=
  if anyOver [a, b] then overwritten F
  else
    let x := ordinary F a
    let y := ordinary F b
    let r := g x.bits y.bits
    { r with flags := r.flags ||| x.flags ||| y.flags }

/-- a + b, or a - b, rounded once (R143, R165). -/
def laneAdd (sub : Bool) (mode : BitVec 2) (F : FloatFmt) (a b _c : Opnd) : FRes :=
  if anyOver [a, b] then overwritten F
  else F.addV mode (summand F a) (if sub then negSummand F b else summand F b)
/-- a × b (R165, R166). -/
def laneMul (mode : BitVec 2) (F : FloatFmt) (a b _c : Opnd) : FRes :=
  onOrdinary F a b (fun x y => F.mulR mode (F.value x) (F.value y))
/-- a × b + c: a mapped c enters the sum as P(n) (R143). -/
def laneFma (mode : BitVec 2) (F : FloatFmt) (a b c : Opnd) : FRes :=
  if anyOver [a, b, c] then overwritten F
  else
    let x := ordinary F a
    let y := ordinary F b
    let r := F.fmaR mode (F.value x.bits) (F.value y.bits) (summand F c)
    { r with flags := r.flags ||| x.flags ||| y.flags }
/-- `fmin`, `fmax` (R167). -/
def laneMinMax (mx : Bool) (F : FloatFmt) (a b _c : Opnd) : FRes := onOrdinary F a b (fun x y => F.minMax mx x y)
/-- `fabs`, `fneg` (R167). -/
def laneSign (n : Bool) (F : FloatFmt) (a _b _c : Opnd) : FRes := { bits := F.absNeg n (ordinary F a).bits }

/-- A packed type computes each half in its own format, with the flags of both (R164). -/
def byHalves (ty : BitVec 2) (g : FloatFmt → Opnd → Opnd → Opnd → FRes) (a b c : Opnd) : FRes :=
  let F := tyFloat ty
  if bit ty 1 then
    let half := fun (hi : Bool) (o : Opnd) => match o with
      | .bits n => Opnd.bits (if hi then n / 65536 % 65536 else n % 65536)
      | .map v => .map v
    let lo := g F (half false a) (half false b) (half false c)
    let hi := g F (half true a) (half true b) (half true c)
    { bits := lo.bits % 65536 + 65536 * hi.bits, flags := lo.flags ||| hi.flags }
  else g F a b c

/-! ## The common course -/

/-- Writes results by lane: a pair for `.f64` where the destination is one. -/
def writeFloat (t : Team) (wide : Bool) (reg : Nat) (m : Mask) (tag : Tag) (g : Nat → Nat) : Team :=
  if wide then t.wlanes2 reg m tag (fun l => BitVec.ofNat 64 (g l))
  else t.wlanes reg m tag (fun l => BitVec.ofNat 32 (g l))

/-- The results of the lanes of a mask, each computed once. -/
def laneTable (t : Team) (m : Mask) (g : Nat → FRes) : Tab FRes := (lanesOf m t.words).map (fun l => (l, g l))

/-- The common course of class 010. -/
def vecFloat (f : V3) (sp : VSpec) (tag : Tag) (g : Opnd → Opnd → Opnd → FRes) (s : State) : Out :=
  let wide := f.ty == 1
  perLane f.pre { reads := v3ScalarB f wide }
    (fun k t s => v3Check f sp k t s)
    (fun k act t s => do
      v3CheckTags f k act t s
      sweep k act (v3Slots f k t s) t (s.countMap f act t) (fun m u s => do
        let rs := laneTable u m (fun l =>
          g (floatSource k t s act wide f.va f.ka l)
            (if sp.bks.isEmpty then .bits 0 else v3FloatB f k t s act l)
            (if sp.c then floatSource k t s act wide f.vc f.kc l else .bits 0))
        pure (writeFloat u (wide && sp.wideD) f.vd.toNat m tag (fun l => (Tab.get rs { bits := 0 } l).bits), s,
          fun l => (Tab.get rs { bits := 0 } l).flags))) s

/-- Rounding modes an instruction accepts: all four. -/
def anyRm : List (BitVec 2) := [0, 1, 2, 3]

/-- A floating-point compare in a lane (R147, R168). -/
def laneCmp (c : Cond) (F : FloatFmt) (a b : Opnd) : Bool × Flags :=
  if anyOver [a, b] then (c == .ne || c == .un, flagNV)
  else
    let x := ordinary F a
    let y := ordinary F b
    let r := fcmpV c (F.value x.bits) (F.value y.bits)
    (r.1, r.2 ||| x.flags ||| y.flags)

/-- `fcmp`: the predicate vd (R162, R168). -/
def vecFcmp (f : V3) (c : Cond) (s : State) : Out :=
  let wide := f.ty == 1
  perLane f.pre { reads := v3ScalarB f wide }
    (fun k t s => v3Check f { tys := [0, 1], bks := [0, 1, 2], mapA := true, mapB := true, pred := true } k t s)
    (fun k act t s => do
      v3CheckTags f k act t s
      sweep k act (v3Slots f k t s) t (s.countMap f act t) (fun m u s => do
        let rs : Tab (Bool × Flags) := (lanesOf m u.words).map (fun l =>
          (l, laneCmp c (tyFloat f.ty) (floatSource k t s act wide f.va f.ka l) (v3FloatB f k t s act l)))
        pure (u.wp f.vd.toNat m (maskWhere m u.words (fun l => (Tab.get rs (false, 0) l).1)), s,
          fun l => (Tab.get rs (false, 0) l).2))) s

/-! ## The fixed tree (R174) -/

/-- One level of the tree. -/
def treeLevel (op : Nat → Nat → FRes) : List FRes → List FRes
  | x :: y :: r =>
    let z := op x.bits y.bits
    { z with flags := z.flags ||| x.flags ||| y.flags } :: treeLevel op r
  | l => l
/-- TREE(op, u) over 2^n positions. -/
def tree (op : Nat → Nat → FRes) : Nat → List FRes → FRes
  | 0, l => l.headD { bits := 0 }
  | n + 1, l => tree op n (treeLevel op l)

/-! ## Online softmax (R171, R172) -/

/-- The greater of two binary32 values; of equal values, as `fmax` takes them (R167, log 27). -/
def max32 (x y : Nat) : Nat := (binary32.minMax true x y).bits
/-- RN32(2^(x - mn)) for a finite or infinite x and a finite mn (R171). -/
def expDiff (x mn : FV) : FRes :=
  match x with
  | .fin _ _ _ =>
    let d := Dy.add x.dy mn.dy.neg
    fexp2R (.fin (d.n < 0) d.n.natAbs d.e)
  | .inf false => { bits := binary32.infBits false }
  | _ => { bits := 0 }

/-- What `osmx` leaves of one lane block: d by position, the side registers, the flags of its lanes. -/
structure Osmx where
  d : Tab Word
  side : Side
  flags : Flags := 0

/-- `osmx` on one lane block: its active positions and their patterns (R171). -/
def osmxBlock (side : Side) (a : Tab Nat) : Osmx :=
  let v := binary32.value
  let nan := BitVec.ofNat 32 binary32.canonNaN
  if (v side.m.toNat).isNaN || a.any (fun e => (v e.2).isNaN) then
    { d := a.mapVals (fun _ => nan), side := { m := nan, ls := nan, r := nan }, flags := flagNV }
  else
    let mn := a.foldl (fun x e => max32 x e.2) side.m.toNat
    let one := 0x3F800000
    let isInf := fun (neg : Bool) (x : Nat) => v x == .inf neg
    let ds : Tab FRes := a.mapVals (fun x =>
      if isInf true mn then { bits := 0 }
      else if isInf false mn then { bits := if isInf false x then one else 0 }
      else expDiff (v x) (v mn))
    let r : FRes :=
      if isInf true mn then { bits := one }
      else if isInf false mn then { bits := if isInf false side.m.toNat then one else 0 }
      else expDiff (v side.m.toNat) (v mn)
    let sigma := tree (fun x y => binary32.addV 0 (v x) (v y)) 5
      ((List.range 32).map (fun i => match Tab.get? ds i with
        | some e => { bits := e.bits } | none => { bits := 0x80000000 }))
    let ls := binary32.fmaR 0 (v side.ls.toNat) (v r.bits) (v sigma.bits)
    { d := ds.mapVals (fun e => BitVec.ofNat 32 e.bits),
      side := { m := BitVec.ofNat 32 mn, ls := BitVec.ofNat 32 ls.bits, r := BitVec.ofNat 32 r.bits },
      flags := ds.foldl (fun g e => g ||| e.2.flags) (r.flags ||| sigma.flags ||| ls.flags) }

/-! ## The instructions -/

/-- `fadd` (R165). -/
def execFadd (f : V3) (s : State) : Out :=
  vecFloat f { rms := anyRm, bks := [0, 1, 2], mapA := true, mapB := true } (tyTag f.ty) (byHalves f.ty (laneAdd false f.rm)) s
/-- `fsub` (R165). -/
def execFsub (f : V3) (s : State) : Out :=
  vecFloat f { rms := anyRm, bks := [0, 1, 2], mapA := true, mapB := true } (tyTag f.ty) (byHalves f.ty (laneAdd true f.rm)) s
/-- `fmul`; the rescale operand with `.f32` only (R165, R166). -/
def execFmul (f : V3) (s : State) : Out :=
  vecFloat f { rms := anyRm, bks := [0, 1, 2], mapA := true, mapB := true, rsf := f.ty == 0 } (tyTag f.ty)
    (byHalves f.ty (laneMul f.rm)) s
/-- `ffma` (R165). -/
def execFfma (f : V3) (s : State) : Out :=
  vecFloat f { rms := anyRm, bks := [0, 1, 2], c := true, mapA := true, mapB := true, mapC := true } (tyTag f.ty)
    (byHalves f.ty (laneFma f.rm)) s
/-- `fmin` (R167). -/
def execFmin (f : V3) (s : State) : Out :=
  vecFloat f { bks := [0, 1, 2], mapA := true, mapB := true } (tyTag f.ty) (byHalves f.ty (laneMinMax false)) s
/-- `fmax` (R167). -/
def execFmax (f : V3) (s : State) : Out :=
  vecFloat f { bks := [0, 1, 2], mapA := true, mapB := true } (tyTag f.ty) (byHalves f.ty (laneMinMax true)) s
/-- `fabs` (R167). -/
def execFabs (f : V3) (s : State) : Out :=
  vecFloat f {} (tyTag f.ty) (byHalves f.ty (laneSign false)) s
/-- `fneg` (R167). -/
def execFneg (f : V3) (s : State) : Out :=
  vecFloat f {} (tyTag f.ty) (byHalves f.ty (laneSign true)) s
/-- `fcmp.eq` (R168). -/
def execFcmpEq (f : V3) (s : State) : Out :=
  vecFcmp f .eq s
/-- `fcmp.ne` (R168). -/
def execFcmpNe (f : V3) (s : State) : Out :=
  vecFcmp f .ne s
/-- `fcmp.lt` (R168). -/
def execFcmpLt (f : V3) (s : State) : Out :=
  vecFcmp f .lt s
/-- `fcmp.le` (R168). -/
def execFcmpLe (f : V3) (s : State) : Out :=
  vecFcmp f .le s
/-- `fcmp.gt` (R168). -/
def execFcmpGt (f : V3) (s : State) : Out :=
  vecFcmp f .gt s
/-- `fcmp.ge` (R168). -/
def execFcmpGe (f : V3) (s : State) : Out :=
  vecFcmp f .ge s
/-- `fcmp.un` (R168). -/
def execFcmpUn (f : V3) (s : State) : Out :=
  vecFcmp f .un s
/-- A function of one source of a lane, as a lane operation. -/
def unary (g : FV → FRes) (F : FloatFmt) (a _b _c : Opnd) : FRes := g (summand F a)
/-- `fclass`: one 32-bit register with the plain i32 tag (R168). -/
def execFclass (f : V3) (s : State) : Out :=
  vecFloat f { tys := [0, 1], wideD := false } (plainTag .i32)
    (fun a _ _ => { bits := ((tyFloat f.ty).classBits (ordinary (tyFloat f.ty) a).bits).toNat }) s
/-- `fdiv` (R169). -/
def execFdiv (f : V3) (s : State) : Out :=
  vecFloat f { tys := [0, 1], rms := anyRm, bks := [0, 1, 2] } (tyTag f.ty)
    (fun a b _ => (tyFloat f.ty).divR f.rm (summand (tyFloat f.ty) a) (summand (tyFloat f.ty) b)) s
/-- `fsqrt` (R169). -/
def execFsqrt (f : V3) (s : State) : Out :=
  vecFloat f { tys := [0, 1], rms := anyRm } (tyTag f.ty) (unary ((tyFloat f.ty).sqrtR f.rm) (tyFloat f.ty)) s
/-- `frcp` (R169, Table 9-6). -/
def execFrcp (f : V3) (s : State) : Out :=
  vecFloat f { tys := [0] } (tyTag f.ty) (unary frcpR binary32) s
/-- `frsq` (R169, Table 9-6). -/
def execFrsq (f : V3) (s : State) : Out :=
  vecFloat f { tys := [0] } (tyTag f.ty) (unary frsqR binary32) s
/-- `fexp2` (R169, Table 9-6). -/
def execFexp2 (f : V3) (s : State) : Out :=
  vecFloat f { tys := [0] } (tyTag f.ty) (unary fexp2R binary32) s
/-- `flog2` (R169, Table 9-6). -/
def execFlog2 (f : V3) (s : State) : Out :=
  vecFloat f { tys := [0] } (tyTag f.ty) (unary flog2R binary32) s
/-- `fsumerr`: the rounded sum and its exact error; only the rounding of the sum raises flags (R170). -/
def execFsumerr (f : V3) (s : State) : Out :=
  let wide := f.ty == 1
  let F := tyFloat f.ty
  perLane f.pre { reads := v3ScalarB f wide }
    (fun k t s => v3Check f { tys := [0, 1], bks := [0, 1, 2], group := 2 } k t s)
    (fun k act t s =>
      sweep k act [] t s (fun m u s => do
        let rs : Tab (FRes × Nat) := (lanesOf m u.words).map (fun l =>
          (l, F.sumErr (ordinary F (floatSource k t s act wide f.va 0 l)).bits (ordinary F (v3FloatB f k t s act l)).bits))
        let u := writeFloat u wide f.vd.toNat m (tyTag f.ty) (fun l => (Tab.get rs ({ bits := 0 }, 0) l).1.bits)
        let u := writeFloat u wide (f.vd.toNat + if wide then 2 else 1) m (tyTag f.ty)
          (fun l => (Tab.get rs ({ bits := 0 }, 0) l).2)
        pure (u, s, fun l => (Tab.get rs ({ bits := 0 }, 0) l).1.flags))) s
/-- `osmx` (R171). -/
def execOsmx (f : V3) (s : State) : Out :=
  perLane f.pre {}
    (fun k t s => v3Check f { tys := [0] } k t s)
    (fun k act t s =>
      sweep k act [] t s (fun m u s =>
        let r : Tab Osmx := (passesOf m u.words).map (fun w =>
          (w, osmxBlock (u.side w) (((List.range 32).filter (fun i => bit (maskWord m w) i)).map
            (fun i => (i, (t.rl f.va.toNat (32 * w + i)).toNat)))))
        let u := r.foldl (fun (u : Team) e => { u with sides := Tab.set u.sides e.1 e.2.side }) u
        pure (u.wlanes f.vd.toNat m (plainTag .f32) (fun l =>
            match Tab.get? r (l / 32) with | some o => Tab.get o.d 0 (l % 32) | none => 0), s,
          fun l => match Tab.get? r (l / 32) with | some o => o.flags | none => 0))) s
/-- `osmxf`: a / ls; with `.rst` the side registers of each lane block with an active lane are reset after
the division (R172). -/
def execOsmxf (f : V3) (s : State) : Out :=
  perLane f.pre {}
    (fun k t s => do
      v3Check f { tys := [0] } k t s
      illegalIf (decide (2 ≤ f.vc.toNat)) 1)
    (fun k act t s =>
      sweep k act [] t s (fun m u s => do
        let rs := laneTable u m (fun l =>
          binary32.divR 0 (binary32.value (t.rl f.va.toNat l).toNat) (binary32.value (u.side (l / 32)).ls.toNat))
        let u' := u.wlanes f.vd.toNat m (plainTag .f32) (fun l => BitVec.ofNat 32 (Tab.get rs { bits := 0 } l).bits)
        let u' := if f.vc == 1 then
          (passesOf m u.words).foldl (fun (u : Team) w => { u with sides := Tab.set u.sides w {} }) u' else u'
        pure (u', s, fun l => (Tab.get rs { bits := 0 } l).flags))) s

end Sys2Proof.Machine
end

