-- ==== Sys2Proof/Machine/CrossLane.lean ====
section
/-! DEFINITION. Sys2Proof/Machine/CrossLane.lean: class 011 up to `mapmov`, the cross-lane and map slot instructions (R173
to R182). -/
namespace Sys2Proof.Machine

/-- No map field outside those an instruction names a slot in (R173). -/
def noMaps (f : V3) (a b : Bool) : Act Unit :=
  illegalIf ((!a && f.ka != 0) || (!b && f.kb != 0) || f.kc != 0) 1
/-- A source b of an accepted kind, not the rescale operand (Table 5-13). -/
def kindB (f : V3) (bks : List (BitVec 2)) : Act Unit :=
  illegalIf (!bks.contains f.bk || (f.bk == 1 && f.vb == 0xFF)) 1
/-- U(b) of a scalar or immediate source b. -/
def v3UniformB (f : V3) (t : Team) : Nat :=
  if f.bk == 1 then
    let r := field f.vb 0 6
    if f.ty == 2 then (t.rs2 r).toNat else (t.rs r).toNat
  else f.vb.toNat

/-! ## lshf (R177) -/

/-- The source lane of lane `i` within its lane block, for shift `d`. -/
def shiftLane (mode : BitVec 2) (i d : Nat) : Nat :=
  match mode.toNat with
  | 0 => d % 32
  | 1 => if d < 32 ∧ d ≤ i then i - d else i
  | 2 => if d < 32 ∧ i + d < 32 then i + d else i
  | _ => i ^^^ (d % 32)

/-- `lshf` (R177). -/
def execLshf (f : V3) (s : State) : Out :=
  let wide := f.ty == 2
  let n := if wide then 2 else 1
  perLane f.pre { reads := v3ScalarB f wide }
    (fun _ t s => do
      let r := s.recOf t
      noMaps f false false
      illegalIf (f.ty != 0 && f.ty != 2) 1
      kindB f (if f.rm == 0 then [0, 1, 2] else [1, 2])
      illegalIf (!r.vecOk f.vd.toNat n n || !r.vecOk f.va.toNat n n || (f.bk == 0 && !r.vecOk f.vb.toNat n n) ||
        (f.bk == 1 && wide && bit f.vb 0)) 2)
    (fun k act t s => do
      let regs := (List.range n).map (f.va.toNat + ·)
      illegalIf (t.intr.isNone && regs.any (fun r => (passesOf act t.words).any (fun w => !(t.rv r w).tag.plain))) 5
      let d := fun l => if f.bk == 0 then (t.rl f.vb.toNat l).toNat else v3UniformB f t
      let src := fun l => 32 * (l / 32) + shiftLane f.rm (l % 32) (d l)
      let get := fun r l => if src l < t.lanes then t.rl r (src l) else 0
      sweepRegs k act [] t s (fun m u => (List.range n).foldl (fun (u : Team) i =>
        (passesOf m u.words).foldl (fun (u : Team) w =>
          u.wlanes (f.vd.toNat + i) (maskSpan m w (w + 1)) (t.rv (f.va.toNat + i) w).tag (get (f.va.toNat + i))) u) u)) s

/-! ## lred and lscan (R174 to R176) -/

/-- The identity of a reduction (Table 9-8). -/
def redIdentity (op : Nat) (ty : BitVec 2) : Nat :=
  let w := tyWidth ty
  let F := if ty == 1 then binary64 else binary32
  match op with
  | 1 => if tySigned ty then 2 ^ (w - 1) - 1 else 2 ^ w - 1
  | 2 => if tySigned ty then 2 ^ (w - 1) else 0
  | 3 => 2 ^ w - 1
  | 6 => F.sign true
  | 7 => F.infBits false
  | 8 => F.infBits true
  | _ => 0
/-- A node of the tree (Table 9-8). -/
def redNode (op : Nat) (ty : BitVec 2) (x y : Nat) : FRes :=
  let F := if ty == 1 then binary64 else binary32
  match op with
  | 0 => { bits := intOp .add ty x y }
  | 1 => { bits := intOp .min ty x y }
  | 2 => { bits := intOp .max ty x y }
  | 3 => { bits := x &&& y }
  | 4 => { bits := x ||| y }
  | 5 => { bits := x ^^^ y }
  | 6 => F.addV 0 (F.value x) (F.value y)
  | 7 => F.minMax false x y
  | _ => F.minMax true x y
/-- Values of a reduction are pairs: `.i64`, `.n64`, and `.f64` in the floating-point codes. -/
def redWide (op : Nat) (ty : BitVec 2) : Bool := if op < 6 then bit ty 1 else ty == 1
/-- The tag of a reduction's result (R176). -/
def redTag (op : Nat) (ty : BitVec 2) : Tag := plainTag (if op < 6 then .i32 else if ty == 1 then .f64 else .f32)

/-- The tree over the positions of a scope in which a position supplies its lane's value when `here` holds
for its lane, and the identity otherwise. -/
def redTree (f : V3) (t : Team) (act : Mask) (team : Bool) (w : Nat) (here : Nat → Bool) : FRes :=
  let op := f.vc.toNat
  let wide := redWide op f.ty
  let leaf := fun l =>
    if l < t.lanes && bit act l && here l then
      if wide then (t.rl2 f.va.toNat l).toNat else (t.rl f.va.toNat l).toNat
    else redIdentity op f.ty
  if team then tree (redNode op f.ty) 10 ((List.range 1024).map (fun p => { bits := leaf p }))
  else tree (redNode op f.ty) 5 ((List.range 32).map (fun i => { bits := leaf (32 * w + i) }))

/-- The checks of `lred` and `lscan` (R173, R175). -/
def redCheck (f : V3) (rms : List (BitVec 2)) (t : Team) (s : State) : Act Unit := do
  let r := s.recOf t
  let n := if redWide f.vc.toNat f.ty then 2 else 1
  noMaps f false false
  illegalIf (!rms.contains f.rm || decide (9 ≤ f.vc.toNat) || (decide (6 ≤ f.vc.toNat) && bit f.ty 1)) 1
  illegalIf (!r.vecOk f.vd.toNat n n || !r.vecOk f.va.toNat n n) 2

/-- Writes a reduction: `.lb` stops at pass boundaries, `.team` is indivisible (R183). -/
def redRun (k : Nat) (f : V3) (act : Mask) (team : Bool) (t : Team) (s : State) (g : Nat → FRes) : Act Done :=
  let wide := redWide f.vc.toNat f.ty
  let put := fun (m : Mask) (u : Team) (rs : Tab FRes) =>
    writeFloat u wide f.vd.toNat m (redTag f.vc.toNat f.ty) (fun l => (Tab.get rs { bits := 0 } l).bits)
  if team then
    let rs := laneTable t act g
    whole act (put act t rs) s (fun l => (Tab.get rs { bits := 0 } l).flags)
  else sweep k act [] t s (fun m u s => do
    let rs := laneTable u m g
    pure (put m u rs, s, fun l => (Tab.get rs { bits := 0 } l).flags))

/-- `lred` (R176). -/
def execLred (f : V3) (s : State) : Out :=
  let team := bit f.rm 0
  perLane f.pre {} (fun _ t s => redCheck f [0, 1] t s)
    (fun k act t s =>
      let one := redTree f t act true 0 (fun _ => true)
      let rows : Tab FRes := (passesOf act t.words).map (fun w => (w, redTree f t act false w (fun _ => true)))
      redRun k f act team t s (fun l => if team then one else Tab.get rows { bits := 0 } (l / 32))) s
/-- `lscan` (R176). -/
def execLscan (f : V3) (s : State) : Out :=
  let team := bit f.rm 0
  perLane f.pre {} (fun _ t s => redCheck f [0, 1, 2, 3] t s)
    (fun k act t s => redRun k f act team t s (fun p =>
      redTree f t act team (p / 32) (fun l => decide (l < p) || (l == p && !bit f.rm 1)))) s

/-! ## vote and vtos (R178, R179) -/

/-- `vote` (R178). -/
def execVote (f : V3) (s : State) : Out :=
  let toPred := decide (f.rm.toNat < 2)
  perLane f.pre {}
    (fun _ t s => do
      noMaps f false false
      illegalIf (decide (8 ≤ f.va.toNat) || (toPred && decide (8 ≤ f.vd.toNat))) 1
      illegalIf (!toPred && !(s.recOf t).vecOk f.vd.toNat 1 1) 2)
    (fun _ act t s =>
      let yes := act &&& t.rp f.va.toNat
      match f.rm.toNat with
      | 0 => done (t.wp f.vd.toNat act (if yes != 0 then act else 0)) s
      | 1 => done (t.wp f.vd.toNat act (if yes == act then act else 0)) s
      | 2 => done (t.wlanes f.vd.toNat act (plainTag .i32) (fun l => maskWord yes (l / 32))) s
      | _ => done (t.wlanes f.vd.toNat act (plainTag .i32)
          (fun _ => BitVec.ofNat 32 (lanesOf yes t.words).length)) s) s

/-- The lane that `vtos` reads (R179). -/
def vtosLane (f : V3) (t : Team) : Nat :=
  if f.rm == 0 then v3UniformB f t else ((lanesOf (t.guarded f.pre) t.words).head?).getD 0
/-- `vtos`: per-team (R179). An immediate lane past the team's is found whatever the guard, a scalar one when the guard holds (R88,
log 105). -/
def execVtos (f : V3) (s : State) : Out :=
  let wide := f.ty == 2
  let sd := field f.vd 0 6
  let n := if wide then 2 else 1
  perTeam f.pre { reads := v3ScalarB f wide, writes := if wide then [sd, sd + 1] else [sd] }
    (fun _ t s => do
      noMaps f false false
      illegalIf ((f.ty != 0 && f.ty != 2) || bit f.rm 1) 1
      (if f.rm == 0 then kindB f [1, 2] else pure ())
      illegalIf ((wide && bit f.vd 0) || !(s.recOf t).vecOk f.va.toNat n n ||
        (f.rm == 0 && f.bk == 1 && wide && bit f.vb 0)) 2
      illegalIf (f.rm == 0 && f.bk == 2 && decide (t.lanes ≤ vtosLane f t)) 5)
    (fun _ t s =>
      let l := vtosLane f t
      if t.lanes ≤ l then illegal 5
      else done (if wide then t.ws2 sd (t.rl2 f.va.toNat l) else t.ws sd (t.rl f.va.toNat l)) s) s

/-! ## Map slots (R180 to R182) -/

/-- Kinds of `mapgen`: the range of the parameter, none where there is none (Table 9-9). -/
def mapgenRange (kind : Nat) : Option (Int × Int) :=
  match kind with
  | 2 | 3 => some (1, 32)
  | 4 | 5 => some (-31, 31)
  | 6 => some (0, 31)
  | _ => none
/-- W[k, n]: 0, 1 or -1 (Table 9-9). -/
def mapgenEntry (kind : Nat) (q : Int) (k n : Nat) : Int :=
  let c := fun (p : Bool) => if p then (1 : Int) else 0
  match kind with
  | 1 => c (k == n)
  | 2 => c (decide ((k : Int) < q) && decide ((n : Int) < q) && (k : Int) + n == q - 1)
  | 3 => c (decide ((k : Int) < q) && decide ((n : Int) < q))
  | 4 => c ((k : Int) == n - q)
  | 5 => c ((k : Int) == ((n : Int) - q) % 32)
  | 6 => c ((k : Int) == q)
  | 7 => c (decide (k ≤ n))
  | 8 => if popcount 5 (k &&& n) % 2 == 0 then 1 else -1
  | _ => 0
/-- The slot `mapgen` writes (R180). -/
def mapgenSlot (kind : Nat) (q : Int) (int : Bool) : Slot :=
  let word := fun (e : Int) =>
    if int then BitVec.ofNat 32 (wrap 32 e)
    else if e == 0 then 0#32 else if e == 1 then 0x3F800000#32 else 0xBF800000#32
  { cols := (List.range 32).map (fun n => (n, rowOf (fun k => word (mapgenEntry kind q k n)))),
    tag := plainTag (if int then .i32 else .f32), set := true }

/-- Writes a slot of a team's block (R158). -/
def State.putSlot (s : State) (_k : Nat) (t : Team) (n : Nat) (v : Slot) : State :=
  s.setBlock t.blk ((s.blockOf t).writeSlot t.uid n v)

/-- A slot number named in ka or kb: not 0, and in the window (R157, R173). -/
def slotNamed (n : BitVec 4) (t : Team) (s : State) : Act Unit := do
  illegalIf (n == 0) 1
  illegalIf (!(s.recOf t).slotOk n.toNat) 2

/-- `mapgen` (R180). An immediate parameter outside its range is found whatever the guard, a scalar one when the guard holds (R88,
log 105). -/
def execMapgen (f : V3) (s : State) : Out :=
  let kind := f.vc.toNat
  perTeam f.pre { reads := if (mapgenRange kind).isSome then v3ScalarB f false else [] }
    (fun _ t s => do
      noMaps f true false
      illegalIf (decide (9 ≤ kind) || bit f.ty 1 || f.rm != 0) 1
      (if (mapgenRange kind).isSome then kindB f [1, 2] else pure ())
      slotNamed f.ka t s
      illegalIf (f.bk == 2 && (match mapgenRange kind with
        | some (lo, hi) => decide (sval 8 f.vb.toNat < lo) || decide (hi < sval 8 f.vb.toNat)
        | none => false)) 5)
    (fun k t s =>
      let q : Int := if f.bk == 1 then sval 32 (t.rs (field f.vb 0 6)).toNat else sval 8 f.vb.toNat
      match mapgenRange kind with
      | some (lo, hi) =>
        if q < lo ∨ hi < q then illegal 5 else done t (s.putSlot k t f.ka.toNat (mapgenSlot kind q (f.ty == 1)))
      | none => done t (s.putSlot k t f.ka.toNat (mapgenSlot kind 0 (f.ty == 1)))) s
/-- `mapz`: the slot as at allocation (R181). -/
def execMapz (f : V3) (s : State) : Out :=
  perTeam f.pre {}
    (fun _ t s => do
      noMaps f true false
      illegalIf (f.rm != 0) 1
      slotNamed f.ka t s)
    (fun k t s => done t (s.putSlot k t f.ka.toNat {})) s
/-- `mapmov` (R181). -/
def execMapmov (f : V3) (s : State) : Out :=
  perTeam f.pre {}
    (fun _ t s => do
      noMaps f true true
      illegalIf (f.rm != 0) 1
      slotNamed f.ka t s
      slotNamed f.kb t s)
    (fun k t s =>
      if f.ka == f.kb then done t s
      else done t (s.putSlot k t f.ka.toNat (s.mapSlot k t f.kb.toNat))) s
/-- The word of `mapinfo` (R182). -/
def slotInfo (sl : Slot) (sel : Nat) : Word :=
  match sel, sl.tag.rot with
  | 0, r => BitVec.ofNat 32 (sl.tag.fmt.code + (if r == .none then 0 else 256) + (if sl.set then 65536 else 0))
  | _, .none => 0
  | _, .h32 seed => seed
/-- `mapinfo` (R182). -/
def execMapinfo (f : V3) (s : State) : Out :=
  perLane f.pre {}
    (fun _ t s => do
      noMaps f true false
      illegalIf (f.bk != 2 || decide (2 ≤ f.vb.toNat) || f.rm != 0) 1
      slotNamed f.ka t s
      illegalIf (!(s.recOf t).vecOk f.vd.toNat 1 1) 2)
    (fun k act t s =>
      let w := slotInfo (s.mapSlot k t f.ka.toNat) f.vb.toNat
      done (t.wlanes f.vd.toNat act (plainTag .i32) (fun _ => w)) s) s

end Sys2Proof.Machine
end

