-- ==== Sys2Proof/WellFormed.lean ====
section
/-! DEFINITION. Sys2Proof/WellFormed.lean: step 2 of R88, the reserved values of a word: bk 0b11, spc, sz
0b101 to 0b111, aop 11 to 31, yk 0b11, and every non-zero bit in a field that the format or the
instruction requires to be zero. An event is well formed when its operands name a unit the part has. -/
namespace Sys2Proof

/-- The unused one of sb and imm8 is zero (R80). -/
def S3.wfB (f : S3) : Bool := if f.bk then f.sb == 0#6 else f.imm == 0#8
/-- Source b is absent: bk, sb and imm8 are zero (R99). -/
def S3.wfNoB (f : S3) : Bool := !f.bk && f.sb == 0#6 && f.imm == 0#8
/-- `smovi`: sa and sb are unused (R99); with bk 0 imm8 is unused as well (R80). -/
def S3.wfImm (f : S3) : Bool := f.sa == 0#6 && f.sb == 0#6 && (f.bk || f.imm == 0#8)

/-- V3 reserved values (R77, R88). The flags say which operand fields the instruction uses: vd, va, vb
(source b), vc, ty; `intClass`: class 001, whose rm is unused. A scalar source b leaves bits 33:32
zero unless vb is 0xFF (Table 5-3). -/
def V3.wf (f : V3) (d a b c ty intClass : Bool) : Bool :=
  f.bk != 3#2 && (d || f.vd == 0#8) && (a || f.va == 0#8) && (c || f.vc == 0#8) &&
  (b || (f.vb == 0#8 && f.bk == 0#2)) && (ty || f.ty == 0#2) && (!intClass || f.rm == 0#2) &&
  (f.bk != 1#2 || f.vb == 0xFF#8 || field f.vb 6 2 == 0)

/-- Whether a `mapgen` kind has a parameter (Table 9-9); a code outside the table is left to step 3. -/
def mapgenHasParam (vc : BitVec 8) : Bool := !(vc == 0#8 || vc == 1#8 || vc == 7#8 || vc == 8#8)
/-- Whether an `fcvt` kind reads vb (Table 11-3). -/
def fcvtHasB (vc : BitVec 8) : Bool := vc == 2#8 || vc == 3#8

/-- M reserved values (R88): spc, sz and aop. -/
def MF.wf (f : MF) : Bool := f.spc.toNat < 5 && f.sz.toNat < 5 && f.aop.toNat < 11
/-- mx holds the offset register of am 0b10 and is zero otherwise (Table 5-8). -/
def MF.mxOffsetOnly (f : MF) : Bool := f.am == 2#2 || f.mx == 0#8
/-- var bit 12: the line form of the queue instructions (Table 17-1). -/
def EF.lineForm (f : EF) : Bool := bit f.var 12

/-- Edges of die `d`: 0 E, 1 W, 2 S, 3 N; only those with a neighbour exist (R14). -/
def edgeExists (die edge : Nat) : Bool :=
  die < 8 && (match edge with
    | 0 => die % 4 < 3
    | 1 => 0 < die % 4
    | 2 => die < 4
    | 3 => 4 ≤ die
    | _ => false)

/-- Step 2 of R88 for an instruction; for an event, that the units it names exist (R13 to R26). -/
def Instr.wellFormed : Instr → Bool
  | .sadd f => f.wfB
  | .ssub f => f.wfB
  | .smul f => f.wfB
  | .smulh f => f.wfB
  | .sdiv f => f.wfB
  | .srem f => f.wfB
  | .sand f => f.wfB
  | .sor f => f.wfB
  | .sxor f => f.wfB
  | .sshl f => f.wfB
  | .sshr f => f.wfB
  | .ssra f => f.wfB
  | .smin f => f.wfB
  | .smax f => f.wfB
  | .ssel f => f.wfB
  | .smov f => f.wfNoB
  | .smovi f => f.wfImm
  | .sldk f => f.wfB
  | .slea f => f.wfB
  | .spopc f => f.wfNoB
  | .sclz f => f.wfNoB
  | .sbrev f => f.wfNoB
  | .sbfx f => f.wfB
  | .sbfi f => f.wfB
  | .scmpEq f => f.wfB
  | .scmpNe f => f.wfB
  | .scmpLt f => f.wfB
  | .scmpLe f => f.wfB
  | .scmpGt f => f.wfB
  | .scmpGe f => f.wfB
  | .vadd f => f.wf true true true false true true
  | .vsub f => f.wf true true true false true true
  | .vmul f => f.wf true true true false true true
  | .vmulh f => f.wf true true true false true true
  | .vmad f => f.wf true true true true true true
  | .vand f => f.wf true true true false true true
  | .vor f => f.wf true true true false true true
  | .vxor f => f.wf true true true false true true
  | .vshl f => f.wf true true true false true true
  | .vshr f => f.wf true true true false true true
  | .vsra f => f.wf true true true false true true
  | .vmin f => f.wf true true true false true true
  | .vmax f => f.wf true true true false true true
  | .vabs f => f.wf true true false false true true
  | .vsel f => f.wf true true true true true true
  | .vmov f => f.wf true true false false true true
  | .vmovi f => f.wf true false true false true true
  | .vsplat f => f.wf true false true false true true
  | .vpopc f => f.wf true true false false true true
  | .vclz f => f.wf true true false false true true
  | .vbrev f => f.wf true true false false true true
  | .vbfx f => f.wf true true true false true true
  | .vcmpEq f => f.wf true true true false true true
  | .vcmpNe f => f.wf true true true false true true
  | .vcmpLt f => f.wf true true true false true true
  | .vcmpLe f => f.wf true true true false true true
  | .vcmpGt f => f.wf true true true false true true
  | .vcmpGe f => f.wf true true true false true true
  | .vdot4 f => f.wf true true true true true true
  | .vdot8 f => f.wf true true true true true true
  | .fadd f => f.wf true true true false true false
  | .fsub f => f.wf true true true false true false
  | .fmul f => f.wf true true true false true false
  | .ffma f => f.wf true true true true true false
  | .fmin f => f.wf true true true false true false
  | .fmax f => f.wf true true true false true false
  | .fabs f => f.wf true true false false true false
  | .fneg f => f.wf true true false false true false
  | .fcmpEq f => f.wf true true true false true false
  | .fcmpNe f => f.wf true true true false true false
  | .fcmpLt f => f.wf true true true false true false
  | .fcmpLe f => f.wf true true true false true false
  | .fcmpGt f => f.wf true true true false true false
  | .fcmpGe f => f.wf true true true false true false
  | .fcmpUn f => f.wf true true true false true false
  | .fclass f => f.wf true true false false true false
  | .fdiv f => f.wf true true true false true false
  | .fsqrt f => f.wf true true false false true false
  | .frcp f => f.wf true true false false true false
  | .frsq f => f.wf true true false false true false
  | .fexp2 f => f.wf true true false false true false
  | .flog2 f => f.wf true true false false true false
  | .fsumerr f => f.wf true true true false true false
  | .osmx f => f.wf true true false false true false
  | .osmxf f => f.wf true true false true true false
  | .lshf f => f.wf true true true false true false
  | .lred f => f.wf true true false true true false
  | .lscan f => f.wf true true false true true false
  | .vote f => f.wf true true false false false false
  | .vtos f => f.wf true true (f.rm != 1#2) false true false && field f.vd 6 2 == 0
  | .mapgen f => f.wf false false (mapgenHasParam f.vc) true true false
  | .mapz f => f.wf false false false false false false
  | .mapinfo f => f.wf true false true false false false
  | .mapmov f => f.wf false false false false false false
  | .cvtn f => f.wf true true false true false false
  | .cvtw f => f.wf true true false true false false
  | .fcvt f => f.wf true true (fcvtHasB f.vc) true false false && f.bk == 0#2
  | .fcvti f => f.wf true true false true true false
  | .icvtf f => f.wf true true false true true false
  | .vld f => f.wf && f.aop == 0#5 && f.mxOffsetOnly
  | .vst f => f.wf && f.aop == 0#5 && f.mxOffsetOnly
  | .sld f => f.wf && f.aop == 0#5 && f.mx == 0#8
  | .sst f => f.wf && f.aop == 0#5 && f.mx == 0#8
  | .ldsc f => f.wf && f.aop == 0#5 && field f.mx 3 5 == 0
  | .stsc f => f.wf && f.aop == 0#5 && field f.mx 3 5 == 0
  | .vprf f => f.wf && f.md == 0#8 && f.ord == 0#2 && f.aop == 0#5 && f.mxOffsetOnly
  | .scwb f => f.wf && f.imm == 0#8 && f.ord == 0#2 && f.evp == 0#3 && f.aop == 0#5 && f.mx == 0#8
  | .bankq f => f.wf && f.ord == 0#2 && f.evp == 0#3 && f.sz == 0#3 && f.aop == 0#5 && f.mx == 0#8
  | .vatom f => f.wf && (f.aop == 7#5 || f.mxOffsetOnly)
  | .vatomNr f => f.wf && f.md == 0#8
  | .satom f => f.wf && (f.aop == 7#5 || f.mx == 0#8)
  | .satomNr f => f.wf && f.md == 0#8
  | .fence f => f.md == 0#8 && f.ma == 0#8 && f.imm == 0#8 && f.spc == 0#3 && f.evp == 0#3 && f.sz == 0#3 && f.am == 0#2 && f.aop == 0#5 && f.mx == 0#8
  | .flrenew f => f.wf && f.md == 0#8 && f.ord == 0#2 && f.evp == 0#3 && f.aop == 0#5 && f.mxOffsetOnly
  | .fllife f => f.wf && f.ord == 0#2 && f.evp == 0#3 && f.aop == 0#5 && f.mxOffsetOnly
  | .cpy f => f.op == 0#4 && f.qb == 0#8 && f.fs == 0#3 && field f.var 6 7 == 0
  | .cpyt f => f.op == 0#4 && f.cn == 0#6 && f.qb == 0#8 && f.fs == 0#3 && f.var == 0#13
  | .gat f => f.op == 0#4 && f.qb == 0#8 && f.fs == 0#3 && f.var == 0#13
  | .sct f => f.op == 0#4 && f.qb == 0#8 && f.fs == 0#3 && f.var == 0#13
  | .lay f => f.op == 0#4 && f.cn == 0#6 && f.qb == 0#8 && f.fs == 0#3 && f.var == 0#13
  | .mapld f => f.op == 0#4 && f.qb == 0#8 && field f.var 8 5 == 0
  | .mapst f => f.op == 0#4 && f.qb == 0#8 && f.fs == 0#3 && field f.var 8 5 == 0
  | .seal f => f.op == 0#4 && f.tk == 0#6 && f.dp == 0#6 && f.cn == 0#6 && f.eng == 0#4 && f.fs == 0#3 && f.var == 0#13
  | .waitb f => f.op == 0#4 && f.tk == 0#6 && f.dp == 0#6 && f.cn == 0#6 && f.eng == 0#4 && f.fs == 0#3 && f.var == 0#13
  | .escld f => f.op == 0#4 && f.cn == 0#6 && f.eng == 0#4 && f.qb == 0#8 && f.fs == 0#3 && f.var == 0#13
  | .qpush f => f.op == 0#4 && f.tk == 0#6 && f.dp == 0#6 && f.eng == 0#4 && f.fs == 0#3 && field f.var 8 4 == 0 && (f.lineForm || field f.var 0 8 == 0)
  | .qpop f => f.op == 0#4 && f.dp == 0#6 && f.eng == 0#4 && f.fs == 0#3 && field f.var 8 4 == 0 && (if f.lineForm then f.tk == 0#6 else f.cn == 0#6 && field f.var 0 8 == 0)
  | .bra f => f.variant == 0#26
  | .brx f => field f.variant 0 20 == 0
  | .call f => field f.variant 0 20 == 0
  | .ret f => f.yk != 3#2 && f.yb == 0#8 && f.yc == 0#8 && f.sel == 0#8 && f.idx == 0#6
  | .join f => f.variant == 0#26
  | .sync f => f.yk != 3#2 && f.ya == 0#8 && f.yb == 0#8 && f.yc == 0#8 && f.sel == 0#8 && f.idx == 0#6
  | .exit f => f.yk != 3#2 && f.ya == 0#8 && f.yb == 0#8 && f.yc == 0#8 && f.sel == 0#8 && f.idx == 0#6
  | .regroup f => f.yk != 3#2 && f.yc == 0#8 && f.sel == 0#8 && f.idx == 0#6 && (f.yk != 0#2 || (f.ya == 0#8 && f.yb == 0#8))
  | .bar f => f.yk != 3#2 && f.ya == 0#8 && f.yb == 0#8 && f.yc == 0#8 && f.idx == 0#6
  | .bara f => f.yk != 3#2 && f.ya == 0#8 && f.yb == 0#8 && f.yc == 0#8 && f.idx == 0#6
  | .barw f => f.yk != 3#2 && f.ya == 0#8 && f.yb == 0#8 && f.yc == 0#8 && f.idx == 0#6
  | .park f => f.yk != 3#2 && f.sel == 0#8 && f.idx == 0#6
  | .wake f => f.yk != 3#2 && f.yb == 0#8 && f.yc == 0#8 && f.sel == 0#8 && f.idx == 0#6
  | .nop f => f.yk != 3#2 && f.ya == 0#8 && f.yb == 0#8 && f.yc == 0#8 && f.sel == 0#8 && f.idx == 0#6
  | .srd f => f.yk != 3#2 && f.yb == 0#8 && f.yc == 0#8
  | .swr f => f.yk != 3#2 && f.yb == 0#8 && f.yc == 0#8 && f.idx == 0#6
  | .trap f => f.yk != 3#2 && f.ya == 0#8 && f.yb == 0#8 && f.yc == 0#8 && f.idx == 0#6
  | .cmtwait f => f.yk != 3#2 && f.ya == 0#8 && f.yb == 0#8 && f.yc == 0#8 && f.sel == 0#8 && f.idx == 0#6
  | .cmtpass f => f.yk != 3#2 && f.ya == 0#8 && f.yb == 0#8 && f.yc == 0#8 && f.sel == 0#8 && f.idx == 0#6
  | .dlaunch f => f.op == 0#4 && f.eng == 0#4 && f.qb == 0#8 && f.fs == 0#3 && f.var == 0#13
  | .slotWriteApply blk _ => blk < 8192
  | .storeRegistration core _ => core < 512
  | .cpyTransfer cl ch _ => cl < 16 && ch < 16
  | .cpytTransfer cl ch _ => cl < 16 && ch < 16
  | .layTransfer cl ch _ => cl < 16 && ch < 16
  | .gatTransfer cl ch _ => cl < 16 && ch < 16
  | .sctTransfer cl ch _ => cl < 16 && ch < 16
  | .mapldTransfer cl ch => cl < 16 && ch < 16
  | .mapstTransfer cl ch => cl < 16 && ch < 16
  | .escldBind cl => cl < 16
  | .escDoneProcess cl => cl < 16
  | .parkTimeout t => t < 16384
  | .commitBufferDrain t => t < 16384
  | .illegalInstruction _ => true
  | .trapTaken => true
  | .resumePop => true
  | .runArbitration core pipe => core < 512 && pipe < 2
  | .capEvaluation core => core < 512
  | .waitConditionMet t => t < 16384
  | .lineFillReturn core _ => core < 512
  | .blockDispatch _ places _ => places.all (fun p => p.2 < 512)
  | .teamReload _ => true
  | .sweepVisit blk tile => blk < 8192 && tile < 32768
  | .fleetSoftError blk tile line => blk < 8192 && tile < 32768 && line < 16
  | .bkctlReqWrite cl bank _ => cl < 16 && bank < 32
  | .bankModeChange cl bank => cl < 16 && bank < 32
  | .dfwCloseWrite die edge _ => edgeExists die edge
  | .dfwDrainComplete die edge => edgeExists die edge
  | .dfwDomWrite die dom => die < 8 && dom < 16
  | .notify fn ⟨_, n⟩ _ => fn.all (· < 64) && (n == 1 || n == 2 || n == 4 || n == 8)
  | .pendingNotifyTimeout part queue => part < 64 && queue < 4096
  | .slotRelease slot => slot < 512
  | .launchRecord part queue => part < 64 && queue < 4096
  | .evset part queue => part < 64 && queue < 4096
  | .evclr part queue => part < 64 && queue < 4096
  | .mark part queue => part < 64 && queue < 4096
  | .unknownType part queue => part < 64 && queue < 4096
  | .admission _ => true
  | .leasePrewalk _ => true
  | .taskCommit _ => true
  | .xlctlRetry part => part < 64
  | .xlctlAbort part => part < 64
  | .invctlGo part _ _ => part < 64
  | .invalidationAck part _ => part < 64
  | .taskFaultEnd _ => true
  | .taskkill part _ => part < 64
  | .sliceEnd dom => dom < 8
  | .pstateHaltWrite part _ => part < 64
  | .partitionHalted part => part < 64
  | .gangSliceStart dom => dom < 8
  | .ready dom port _ => dom < 8 && port < 32
  | .forfeit dom _ => dom < 8
  | .gangGraceExpiry dom => dom < 8
  | .railOpUpdate rails _ powers withheld => rails.length == 4 && powers.all (·.1 < 64) && withheld.all (fun e => e.1 < 64 && e.2 ≤ 16)
  | .droopStretch cl => cl < 16
  | .stageTwoFreeze cl => cl < 16
  | .freezeExpiry cl => cl < 16
  | .clusterResume _ _ cl => cl < 16
  | .tickAlignStep _ => true
  | .watchdogReport core part => core < 512 && part < 64
  | .attest fn => fn.all (· < 64)
  | .pcreate => true
  | .pdestroy => true
  | .domain => true
  | .migrate _ => true
  | .fwload => true
  | .hostAp1Access ⟨link, fn⟩ _ n _ => fn.all (fun p => p < 64 && link == p / 32) && link < 2 && (n == 1 || n == 2 || n == 4 || n == 8)
  | .peerAccess port _ _ => port < 32
  | .functionLevelReset part => part < 64
  | .coldReset => true
  | .patrolScrub _ _ _ => true
  | .registerWrite fn _ _ => fn.all (· < 64)
  | .packageTick => true
  | .droopEnd cl => cl < 16
  | .isscapModeWrite part _ => part < 64

end Sys2Proof
end

