-- ==== Sys2Proof/Machine/Engine.lean ====
section
/-! DEFINITION. Sys2Proof/Machine/Engine.lean: class 110 at issue (R256 to R280), the Drover's accesses and transfers, the
Escapement (R275 to R278), queues, and the completion of commands. -/
namespace Sys2Proof.Machine

/-! ## Completion of a command (R259, R271) -/

/-- The team that issued a command, while it lives. -/
def State.issuer (s : State) (uid : Nat) : Option (Nat × Team) := s.teams.find? (fun e => e.2.uid == uid)
/-- A scalar register of a team is written, in the registers of its checkpoint too while it is in Outrider state (R66, R259). -/
def Team.wsBoth (t : Team) (i : Nat) (v : Word) : Team :=
  { t.ws i v with out := t.out.map (fun o => { o with s := if i = 0 then o.s else Tab.set o.s i v }) }
/-- Writes a completion value into a token register of a team, with the signature of the command when it
completed without error (R246, R259). -/
def State.writeToken (s : State) (uid tok : Nat) (v : Word) (g : Option Sig) : State :=
  match s.issuer uid with
  | none => s
  | some (key, t) =>
    if tok = 0 then s
    else
      let t := { t.wsBoth tok v with pendTok := t.pendTok.filter (fun i => i != tok) }
      s.setTeam key (match g with
        | some g => { t with tokSig := Tab.set t.tokSig tok g }
        | none => t)
/-- A Drover command has completed: its token, its batch, the freeing it held up; what it wrote precedes what
follows the commit of its task (R239, R259, R271, R274). -/
def State.finishCmd (s : State) (c : Cmd) (v : Word) : State :=
  let s := s.writeToken c.uid c.tok v (if v == 1 then some c.sig else none)
  let s := match s.task? c.task with
    | none => s
    | some tk => s.setTask c.task { tk with endSig := tk.endSig ||| c.sig }
  let s := match s.issuer c.uid with
    | none => s
    | some (key, t) => s.setTeam key { t with
        cmds := Tab.set t.cmds c.id { done := true, sig := c.sig, underToken := c.underToken } }
  s.freeBlock c.blk

/-- A fault raised by a command or an Escapement access: a fault of the issuing task, whose team passes no token after it
(R262, R298, R338). -/
def State.engineFault (s : State) (uid task blockNo teamNo : Nat) (pc : DWord) (cls detail : Nat) (addr : DWord)
    (edge : Option (Nat × Nat)) : State :=
  let s := s.countRefusal edge
  let s := match s.issuer uid with
    | none => s
    | some (key, t) => s.setTeam key { t with engFault := true }
  match s.task? task with
  | none => s
  | some tk => s.setTask task { tk with faults := tk.faults ++
      [{ cls := cls, detail := detail, pc := pc, addr := addr, eng := true, block := blockNo, team := teamNo }] }

/-! ## Channels (R260) -/

def Cluster.channel (c : Cluster) (ch : Nat) : List Cmd := Tab.get c.channels [] ch
def State.setChannel (s : State) (cl ch : Nat) (l : List Cmd) : State :=
  let c := s.cluster cl
  s.setCluster cl { c with channels := Tab.set c.channels ch l }

/-- Issues a Drover command: the release of step 2 of R258, the token, the channel. A team that holds the commit token drains
its buffer first (R295). A command that has nothing to do completes at once. -/
def issueCmd (k : Nat) (f : EF) (kind : CmdKind) (empty : Bool) (t : Team) (s : State) : Act Done :=
  let cl := clusterOf (coreOf k)
  let ch := f.eng.toNat
  let tok := f.tk.toNat
  let id := t.nextCmd
  let t' := { t with nextCmd := id + 1, unsealed := t.unsealed ++ [id] }
  if t.held && !t.buffer.isEmpty then waitOn k t s (.commit true)
  else if empty then
    done { t'.ws tok 1 with cmds := Tab.set t.cmds id { done := true, underToken := t.held },
                            tokSig := if tok = 0 then t.tokSig else Tab.set t.tokSig tok 0 } (s.release k)
  else if 16 ≤ ((s.cluster cl).channel ch).length then waitOn k t s (.channel ch)
  else
    let s := s.release k
    let c : Cmd := { kind := kind, uid := t.uid, task := t.task, blk := t.blk, blockNo := t.block,
                     teamNo := t.team, id := id, tok := tok, pc := t.pc, underToken := t.held }
    let t' := { t' with
      pendTok := if tok = 0 then t.pendTok else insertNew t.pendTok tok,
      cmds := Tab.set t.cmds id { underToken := t.held } }
    done t' (s.setChannel cl ch ((s.cluster cl).channel ch ++ [c]))

/-- The token and operand registers of an E word. -/
def eScalars (f : EF) (dps : Nat) (cn : Bool) : Scalars :=
  { reads := (List.range dps).map (f.dp.toNat + ·) ++ (if cn then [f.cn.toNat] else []), writes := [f.tk.toNat] }
/-- A Drover word's descriptor or address registers: a multiple of the alignment (Table 17-1, R85). -/
def dpCheck (f : EF) (al : Nat) : Act Unit := illegalIf (f.dp.toNat % al != 0) 2
/-- A space code is 0, 1 or 2 (Table 17-1). -/
def spcCheck (n : Nat) : Act Unit := illegalIf (decide (2 < n)) 1
/-- The memory fault of R262 at issue. -/
def needAligned (a : DWord) (al : Nat) : Act Unit := if a.toNat % al ≠ 0 then faultAt 1 2 a else pure ()

/-- `cpy` (R263). -/
def execCpy (f : EF) (s : State) : Out :=
  perTeam f.pre (eScalars f 4 true)
    (fun _ _ _ => do
      spcCheck (field f.var 0 3)
      spcCheck (field f.var 3 3)
      dpCheck f 4)
    (fun k t s => do
      let dst := t.rs2 f.dp.toNat
      let src := t.rs2 (f.dp.toNat + 2)
      let n := (t.rs f.cn.toNat).toNat
      needAligned dst 4
      needAligned src 4
      needAligned (BitVec.ofNat 64 n) 4
      issueCmd k f (.cpy (field f.var 3 3) (field f.var 0 3) dst.toNat src.toNat n) (n == 0) t s) s
/-- `cpyt` (R264). -/
def execCpyt (f : EF) (s : State) : Out :=
  perTeam f.pre (eScalars f 2 false) (fun _ _ _ => dpCheck f 2)
    (fun k t s => issueCmd k f (.cpyt (t.rs2 f.dp.toNat).toNat) false t s) s
/-- `gat` (R266). -/
def execGat (f : EF) (s : State) : Out :=
  perTeam f.pre (eScalars f 2 true) (fun _ _ _ => dpCheck f 2)
    (fun k t s => let n := (t.rs f.cn.toNat).toNat
      issueCmd k f (.gat (t.rs2 f.dp.toNat).toNat n) (n == 0) t s) s
/-- `sct` (R266). -/
def execSct (f : EF) (s : State) : Out :=
  perTeam f.pre (eScalars f 2 true) (fun _ _ _ => dpCheck f 2)
    (fun k t s => let n := (t.rs f.cn.toNat).toNat
      issueCmd k f (.sct (t.rs2 f.dp.toNat).toNat n) (n == 0) t s) s
/-- `lay` (R264). -/
def execLay (f : EF) (s : State) : Out :=
  perTeam f.pre (eScalars f 2 false) (fun _ _ _ => dpCheck f 2)
    (fun k t s => issueCmd k f (.lay (t.rs2 f.dp.toNat).toNat) false t s) s

/-- The slot, space and row mode of `mapld` and `mapst` (Table 17-1). -/
def mapSlotCheck (f : EF) (t : Team) (s : State) : Act Unit := do
  spcCheck (field f.var 5 3)
  illegalIf (field f.var 0 4 == 0) 1
  illegalIf (!(s.recOf t).slotOk (field f.var 0 4)) 2
  dpCheck f 2
/-- The alignment of base and stride: 8 for block-scaled chunks, 4 otherwise (R268). -/
def mapAlign (fmt : Fmt) (row : Bool) : Nat := if fmt.scaled && !row then 8 else 4
/-- `mapld` (R268). -/
def execMapld (f : EF) (s : State) : Out :=
  let row := bit f.var 4
  perTeam f.pre (eScalars f 2 true)
    (fun _ t s => do
      mapSlotCheck f t s
      illegalIf (row && (slotTag ((s.recOf t).fmtSlot f.fs.toNat)).fmt.scaled) 5)
    (fun k t s => do
      let base := t.rs2 f.dp.toNat
      let stride := t.rs f.cn.toNat
      let al := mapAlign (slotTag ((s.recOf t).fmtSlot f.fs.toNat)).fmt row
      needAligned base al
      needAligned (stride.setWidth 64) al
      issueCmd k f (.mapld (field f.var 0 4) (field f.var 5 3) row base.toNat stride.toNat f.fs.toNat) false t s) s
/-- `mapst` (R269): the slot's format at issue gives the alignment. -/
def execMapst (f : EF) (s : State) : Out :=
  let row := bit f.var 4
  perTeam f.pre (eScalars f 2 true) (fun _ t s => mapSlotCheck f t s)
    (fun k t s => do
      let base := t.rs2 f.dp.toNat
      let stride := t.rs f.cn.toNat
      let al := mapAlign (s.mapSlot k t (field f.var 0 4)).tag.fmt row
      needAligned base al
      needAligned (stride.setWidth 64) al
      issueCmd k f (.mapst (field f.var 0 4) (field f.var 5 3) row base.toNat stride.toNat) false t s) s
/-- `seal` (R271). -/
def execSeal (f : EF) (s : State) : Out :=
  perTeam f.pre {} (fun _ _ _ => pure ())
    (fun _ t s => done { t with batches := Tab.upd t.batches [] f.qb.toNat (· ++ t.unsealed), unsealed := [] } s) s
/-- Every command of a batch has completed (R272). -/
def Team.batchDone (t : Team) (n : Nat) : Bool :=
  (Tab.get t.batches [] n).all (fun i => (Tab.get t.cmds {} i).done)
/-- `waitb` (R272). On an empty batch it completes at once, and performs no invalidations of R244 and R246: no signature is ORed
into the carried one (the model's choice, log 148). -/
def execWaitb (f : EF) (s : State) : Out :=
  perTeam f.pre {} (fun _ _ _ => pure ())
    (fun k t s =>
      let n := f.qb.toNat
      if (Tab.get t.batches [] n).isEmpty then done t s
      else if !t.batchDone n then waitOn k t s (.batch n)
      else
        let g := (Tab.get t.batches [] n).foldl (fun g i => g ||| (Tab.get t.cmds {} i).sig) 0
        let t := { t with carried := t.carried ||| g, batches := Tab.erase t.batches n }
        done t (s.acquire (coreOf k) t.carried)) s
/-- `escld`: handed to the Escapement of the cluster (R258, R276). -/
def execEscld (f : EF) (s : State) : Out :=
  perTeam f.pre (eScalars f 2 false)
    (fun _ _ _ => do
      illegalIf (f.tk == 0) 1
      dpCheck f 2)
    (fun k t s =>
      if t.held && !t.buffer.isEmpty then waitOn k t s (.commit true) else
      let s := s.release k
      let cl := clusterOf (coreOf k)
      let c := s.cluster cl
      let e : EscLoad := { uid := t.uid, task := t.task, blockNo := t.block, teamNo := t.team,
                           tok := f.tk.toNat, pc := t.pc, desc := (t.rs2 f.dp.toNat).toNat }
      done { t with pendTok := insertNew t.pendTok f.tk.toNat } (s.setCluster cl { c with escLoads := c.escLoads ++ [e] })) s

/-! ## Queues (R278 to R281) -/

/-- The binding of a queue register. -/
def Rec.queue (r : Rec) (q : Nat) : QBind := (r.qbind[q]?).getD { kind := 0, bank := 0 }
/-- Entries a FIFO holds at most (R209). -/
def fifoSize (line : Bool) : Nat := if line then 8192 else 262144
/-- The graph a launch has bound on a cluster. -/
def Cluster.graphOf (c : Cluster) (task : Nat) : Option Graph :=
  match c.graph with | some g => if g.task = task then some g else none | none => none
/-- R278. -/
def Graph.complete (g : Graph) : Bool := g.processed == g.count
/-- `%qlen` (R281). -/
def State.qlen (s : State) (k : Nat) (t : Team) (q : Nat) : Nat :=
  let b := (s.recOf t).queue q
  let c := s.cluster (clusterOf (coreOf k))
  match b.kind with
  | 1 | 2 => (c.bank b.bank).fifo.length
  | 3 => match c.graphOf t.task with | some g => g.ring.length | none => 0
  | 4 => match c.graphOf t.task with | some g => g.port.length | none => 0
  | _ => 0

/-- The checks of `qpush` and `qpop` that need no operand (R85, R280). -/
def queueCheck (f : EF) (bad : Nat) (t : Team) (s : State) : Act Unit := do
  illegalIf (decide (7 < f.qb.toNat)) 2
  illegalIf (f.lineForm && !(s.recOf t).vecOk (field f.var 0 8) 1 1) 2
  let b := (s.recOf t).queue f.qb.toNat
  illegalIf (b.kind == 0 || b.kind == bad || f.lineForm != (b.kind == 2)) 5

/-- A push on the done port (R278). -/
def pushDone (k : Nat) (q : Nat) (row : Nat) (t : Team) (s : State) : Act Done :=
  let cl := clusterOf (coreOf k)
  let c := s.cluster cl
  match c.graphOf t.task with
  | none => illegal 5
  | some g =>
    if g.count ≤ row ∨ !g.handed.contains row ∨ g.pushed.contains row then illegal 5
    else if 64 ≤ g.port.length then waitOn k t s (.queueFull q)
    else
      let s := s.release k
      let c := s.cluster cl
      done t (s.setCluster cl { c with
        graph := some { g with port := g.port ++ [(row, t.carried)], pushed := g.pushed ++ [row] } })

/-- `qpush` (R280). -/
def execQpush (f : EF) (s : State) : Out :=
  perTeam f.pre { reads := [f.cn.toNat] } (fun _ t s => queueCheck f 3 t s)
    (fun k t s => do
      let q := f.qb.toNat
      let b := (s.recOf t).queue q
      let cl := clusterOf (coreOf k)
      let v := t.rs f.cn.toNat
      illegalIf (f.lineForm && decide (t.words ≤ v.toNat)) 5
      if b.kind == 4 then pushDone k q v.toNat t s
      else if fifoSize f.lineForm ≤ ((s.cluster cl).bank b.bank).fifo.length then waitOn k t s (.queueFull q)
      else
        let s := s.release k
        let c := s.cluster cl
        let x := c.bank b.bank
        let row := if f.lineForm then (t.rv (field f.var 0 8) v.toNat).data else v.setWidth 1024
        done t (s.setCluster cl (c.setBank b.bank { x with fifo := x.fifo ++ [{ data := row, sig := t.carried }] }))) s

/-- A pop acquires with the signature of the push (R239, R246). -/
def popAcquire (k : Nat) (g : Sig) (t : Team) (s : State) : Act Done :=
  let t := { t with carried := t.carried ||| g }
  done t (s.acquire (coreOf k) t.carried)

/-- A pop of the ready port (R278); the ring stands in the bank with the counters (R275, R375). -/
def popReady (k : Nat) (q sd : Nat) (t : Team) (s : State) : Act Done :=
  let cl := clusterOf (coreOf k)
  let c := s.cluster cl
  match c.graphOf t.task with
  | none => waitOn k t s (.queueEmpty q)
  | some g =>
    match g.ring with
    | row :: rest => do
      if g.bad then faultAt 7 3 0
      popAcquire k (Tab.get g.sigs 0 row) (t.ws sd (BitVec.ofNat 32 row))
        (s.setCluster cl { c with graph := some { g with ring := rest, handed := insertNew g.handed row } })
    | [] => if g.complete then done (t.ws sd 0xFFFFFFFF#32) s else waitOn k t s (.queueEmpty q)

/-- `qpop` (R280). -/
def execQpop (f : EF) (s : State) : Out :=
  perTeam f.pre
    { reads := if f.lineForm then [f.cn.toNat] else [], writes := if f.lineForm then [] else [f.tk.toNat] }
    (fun _ t s => queueCheck f 4 t s)
    (fun k t s => do
      let q := f.qb.toNat
      let b := (s.recOf t).queue q
      let cl := clusterOf (coreOf k)
      let w := (t.rs f.cn.toNat).toNat
      illegalIf (f.lineForm && decide (t.words ≤ w)) 5
      if b.kind == 3 then popReady k q f.tk.toNat t s
      else
        let c := s.cluster cl
        let x := c.bank b.bank
        match x.fifo with
        | [] => waitOn k t s (.queueEmpty q)
        | e :: rest => do
          if e.bad then faultAt 7 3 0
          let s := s.setCluster cl (c.setBank b.bank { x with fifo := rest })
          let t := if f.lineForm then t.wv (field f.var 0 8) w { data := e.data, tag := plainTag .f32 }
            else t.ws f.tk.toNat (e.data.setWidth 32)
          popAcquire k e.sig t s) s

/-! ## The Drover's accesses (R261, R262) -/

/-- A word of a command's access is in a lease of its task, its own slice where that is sliced; one of a shared range asks that the
command was issued under the commit token (R206, R291, R292). -/
def leaseCheck (tk : Task) (c : Cmd) (write : Bool) (va : Nat) : Act Unit :=
  match tk.checkWord c.blockNo write va with
  | .error (x, d) => faultAt x d (BitVec.ofNat 64 va)
  | .ok l => if tk.det && l.shared && !c.underToken then faultAt 2 4 (BitVec.ofNat 64 va) else pure ()
/-- A located word of a command: a word number of device memory, of scratch or of fleeting space. A command waits on a scratch
line whose bank is in transition (R211). -/
def engPlace (s : State) (cl : Nat) (c : Cmd) (spc : Nat) (write : Bool) (addr : Nat) : Act Nat :=
  let a := addr % 2 ^ 64
  let ad := BitVec.ofNat 64 a
  match s.task? c.task with
  | none => faultAt 2 1 ad
  | some tk =>
    if a % 4 ≠ 0 then faultAt 1 2 ad else
    match spc with
    | 0 => do
      if !canonical ad then faultAt 1 1 ad
      leaseCheck tk c write a
      match s.locate tk a with
      | none => faultAt 1 5 ad
      | some loc =>
        s.reach (cl / 2) loc ad
        pure (loc / 4)
    | 1 => if tk.lr.scratchBytes < a + 4 then faultAt 1 3 ad
      else match (s.block? c.blk).bind (fun b => s.lineStall b (a / 128)) with
        | some n => .error (.wait s (.bank n))
        | none => pure (a / 4)
    | _ => if 2048 * tk.lr.fleet < a + 4 then faultAt 1 3 ad else pure (a / 4)

/-- The block of a command. -/
def State.blockOfCmd (s : State) (c : Cmd) : Block :=
  (s.block? c.blk).getD { task := c.task, block := c.blockNo, core := 0 }
/-- A word of device memory moved by a command counts (R364). -/
def State.countCmd (s : State) (c : Cmd) : State :=
  match s.task? c.task with | some tk => s.countFill tk.part | none => s
/-- A first touch of a mapped scratch line by a command fills it: a read of the backing line at its home (R213, R291, R292, R340,
R364, R375). -/
def engTouch (s : State) (cl : Nat) (c : Cmd) (write : Bool) (w : Nat) : Act State :=
  match s.task? c.task with
  | none => pure s
  | some tk =>
    let b := s.blockOfCmd c
    match tk.lr.regionLine (w / 32) with
    | none => pure s
    | some j =>
      if write && backingRo tk c.blockNo j then faultAt 2 2 (BitVec.ofNat 64 (4 * w))
      else if b.touched.contains (w / 32) then pure s
      else
        let va := tk.lr.backing c.blockNo j
        let ad := BitVec.ofNat 64 va
        match s.locate tk va with
        | none => faultAt 1 5 ad
        | some loc => do
          (List.range 32).forM (fun i => leaseCheck tk c false (va + 4 * i))
          s.reach (cl / 2) loc ad
          match (List.range 32).findSome? (fun i => Tab.get? s.poisoned (loc / 4 + i)) with
          | some d => faultAt 7 d ad
          | none => pure ()
          let s ← s.chargeLines c.task [loc / 4]
          let s := (s.shadowLine c.task (loc / 128)).countCmd c
          pure (s.setBlock c.blk { b with
            touched := insertNew b.touched (w / 32),
            scratch := (List.range 32).foldl (fun m i => Tab.set m (w / 32 * 32 + i) (s.peek (loc / 4 + i))) b.scratch })

/-- Reads one word for a command: the word, or zero and `true` for an expired fleeting word. -/
def engRead (s : State) (cl : Nat) (c : Cmd) (spc a : Nat) : Act (Word × Bool × State) := do
  let w ← engPlace s cl c spc false a
  match spc with
  | 0 =>
    match Tab.get? s.poisoned w with
    | some d => faultAt 7 d (BitVec.ofNat 64 a)
    | none => pure (s.peek w, false, s.countCmd c)
  | 1 =>
    let s ← engTouch s cl c false w
    if (s.blockOfCmd c).badWords.contains w then faultAt 7 3 (BitVec.ofNat 64 a)
    pure (Tab.get (s.blockOfCmd c).scratch 0 w, false, s)
  | _ =>
    match (s.blockOfCmd c).fleetLoad s.sample w with
    | some v => pure (v, false, s)
    | none =>
      let det := match s.task? c.task with | some tk => tk.det | none => false
      if det then faultAt 4 2 (BitVec.ofNat 64 a) else pure (0, true, s)

/-- Writes one whole word for a command: no registration, no owner mark; a version shadow, and the line in
its signature (R245, R340). -/
def engWrite (s : State) (cl : Nat) (c : Cmd) (spc a : Nat) (v : Word) : Act (Cmd × State) := do
  let w ← engPlace s cl c spc true a
  match spc with
  | 0 =>
    let s ← s.chargeLines c.task [w]
    pure ({ c with sig := c.sig ||| Config.sigOfLine (w / 32) }, (s.writeHome c.task w v).countCmd c)
  | 1 =>
    let s ← engTouch s cl c true w
    let r := match s.task? c.task with | some tk => tk.lr | none => {}
    pure (c, s.setBlock c.blk ((s.blockOfCmd c).scratchStore r w v))
  | _ => pure (c, s.setBlock c.blk ((s.blockOfCmd c).fleetStore s.sample w v 0))

/-- Copies `n` words, source then destination, word by word. -/
def engCopy (cl dspc sspc : Nat) (dst src : Nat) : Nat → Cmd → State → Act (Cmd × State)
  | 0, c, s => pure (c, s)
  | n + 1, c, s => do
    let (v, ex, s) ← engRead s cl c sspc src
    let (c, s) ← engWrite s cl { c with expired := c.expired || ex } dspc dst v
    engCopy cl dspc sspc (dst + 4) (src + 4) n c s

/-- Reads `n` consecutive words of global space, for a descriptor. -/
def engBytes (s : State) (cl : Nat) (c : Cmd) (spc a n : Nat) : Act (List Word × Cmd × State) :=
  (List.range n).foldlM (fun (r : List Word × Cmd × State) i => do
    let (v, ex, s) ← engRead r.2.2 cl r.2.1 spc (a + 4 * i)
    pure (r.1 ++ [v], { r.2.1 with expired := r.2.1.expired || ex }, s)) ([], c, s)
/-- Bytes of words. -/
def wordBytes (ws : List Word) : List Byte := ws.flatMap (fun w => bytesOf 4 w.toNat)

/-- The engines act for a task: it lives and no part of it is halted (R273, R325, R337, R345). -/
def State.engineRuns (s : State) (k : Nat) : Bool :=
  match s.task? k with
  | none => false
  | some tk => s.taskRuns k && s.partRuns tk.part
/-- A command may run. -/
def State.cmdRuns (s : State) (c : Cmd) : Bool := s.engineRuns c.task

/-- The first command of a channel that may run, with those before and after it: an earlier one of the same
team is of the same partition, so commands of one team keep their order (R260). -/
def takeRunnable (s : State) : List Cmd → Option (List Cmd × Cmd × List Cmd)
  | [] => none
  | c :: t =>
    if s.cmdRuns c then some ([], c, t)
    else match takeRunnable s t with
      | some (a, x, b) => some (c :: a, x, b)
      | none => none

/-- Steps the command a channel serves: `f` answers the command with its progress, and its
completion value when it has completed. A fault takes the command off its channel (R262). -/
def stepChannel (cl ch : Nat) (s : State) (f : Cmd → State → Act (Cmd × State × Option Word)) : State :=
  match takeRunnable s ((s.cluster cl).channel ch) with
  | none => s
  | some (before, c, rest) =>
    match f c s with
      | .ok (c', s', none) => s'.setChannel cl ch (before ++ c' :: rest)
      | .ok (c', s', some v) => (s'.setChannel cl ch (before ++ rest)).finishCmd c' v
      | .error (.fault x d a e) =>
        (s.setChannel cl ch (before ++ rest)).engineFault c.uid c.task c.blockNo c.teamNo c.pc x d a e
      | .error _ => s

/-- The completion value of a command that ran to its end (Table 17-2): an index skipped gives its value even where a word had
expired too (R267, log 120). -/
def Cmd.value (c : Cmd) : Word :=
  if c.skipped then 0x80000103#32 else if c.expired then 0x80000107#32 else 1

/-- Progress of a command as one count (R273). -/
def Cmd.count (c : Cmd) : Nat := c.done.headD 0

/-! ## Transfers -/

/-- CPY_TRANSFER: the first step reads the source; each writes the words named, those named none of which
is done yet; none named: all that remain (R263). -/
def cpyStep (cl : Nat) (order : List Nat) (c : Cmd) (s : State) : Act (Cmd × State × Option Word) :=
  match c.kind with
  | .cpy dspc sspc dst src bytes => do
    let n := bytes / 4
    let (c, s) ← if c.started then pure (c, s) else do
      let (ws, c, s) ← engBytes s cl c sspc src n
      pure ({ c with started := true, source := ws }, s)
    let todo := if order.isEmpty then (List.range n) else order
    let todo := todo.foldl (fun l i => if decide (i < n) && !c.done.contains i then insertNew l i else l) []
    let (c, s) ← todo.foldlM (fun (r : Cmd × State) i =>
      engWrite r.2 cl r.1 dspc (dst + 4 * i) ((r.1.source[i]?).getD 0)) (c, s)
    let c := { c with done := c.done ++ todo }
    pure (c, s, if c.done.length == n then some c.value else none)
  | _ => pure (c, s, none)
def execCpyTransfer (cl ch : Nat) (order : List Nat) (s : State) : Out := .next (stepChannel cl ch s (cpyStep cl order))

/-- Bytes of a descriptor as a number. -/
def fieldB (l : List Byte) (i n : Nat) : Nat := natOfBytes ((l.drop i).take n)
/-- Element size of a size code (R264). -/
def elemSize (esz : Nat) : Nat := if esz = 8 then 136 else 2 ^ esz
/-- The counts CNT0 to CNT4 of Table 17-3. -/
def cntOf (d : List Byte) (k : Nat) : Nat := fieldB d (20 + 4 * k) 4
/-- PERM of Table 17-3. -/
def permOf (d : List Byte) (j : Nat) : Nat := fieldB d (120 + j) 1

/-- The checks of R264 that give 0x8000_0102. -/
def stridedOk (lay : Bool) (d : List Byte) : Bool :=
  let nd := fieldB d 18 1
  let esz := fieldB d 19 1
  decide (1 ≤ nd) && decide (nd ≤ 5) && decide (2 ≤ esz) && decide (esz ≤ 8) &&
  (List.range 5).all (fun k => if k < nd then decide (1 ≤ cntOf d k) else cntOf d k == 1) &&
  decide (fieldB d 16 1 ≤ 2) && decide (fieldB d 17 1 ≤ 2) && fieldB d 125 3 == 0 &&
  (if lay then
    fieldB d 80 40 == 0 &&
    (List.range nd).all (fun k => (List.range nd).any (fun j => permOf d j == k)) &&
    (List.range 5).all (fun j => decide (j < nd) || permOf d j == j)
   else fieldB d 120 5 == 0)
/-- The alignments of R264, which raise the memory fault: the first address or stride that breaks them. -/
def stridedMisaligned (d : List Byte) : Option Nat :=
  let al := if fieldB d 19 1 = 8 then 8 else 4
  ([0, 8] ++ (List.range 10).map (fun i => 40 + 8 * i)).findSome? (fun o =>
    if fieldB d o 8 % al ≠ 0 then some (fieldB d o 8) else none)
/-- Index `k` of element number `e`, dimension 0 innermost. -/
def stridedIndex (d : List Byte) (e k : Nat) : Nat :=
  e / ((List.range k).foldl (fun p i => p * cntOf d i) 1) % cntOf d k
/-- Elements in all. -/
def stridedTotal (d : List Byte) : Nat := (List.range 5).foldl (fun p i => p * cntOf d i) 1
/-- Sum of index times signed stride, modulo 2^64. -/
def stridedAddr (d : List Byte) (base off e : Nat) : Nat :=
  wrap 64 ((List.range 5).foldl (fun a k => a + stridedIndex d e k * sval 64 (fieldB d (off + 8 * k) 8)) (base : Int))
/-- The destination of an element of `lay`: dense in the permuted order (R265). -/
def layAddr (d : List Byte) (e : Nat) : Nat :=
  let z := elemSize (fieldB d 19 1)
  let r := (List.range 5).foldl (fun (r : Nat × Nat) j =>
    (r.1 + stridedIndex d e (permOf d j) * r.2, r.2 * cntOf d (permOf d j))) (0, z)
  (fieldB d 0 8 + r.1) % 2 ^ 64

/-- Starts a command that has a descriptor: reads it once (R261); answers an error completion instead. One that breaks both a
rule of 0x8000_0102 and an alignment completes with 0x8000_0102 and raises no fault: the model's order (R264, log 140). -/
def startDesc (cl : Nat) (addr al words : Nat) (ok : List Byte → Bool) (bad : List Byte → Option Nat) (c : Cmd) (s : State) :
    Act (Cmd × State × Option Word) :=
  if c.started then pure (c, s, none)
  else if addr % al ≠ 0 then pure (c, s, some 0x80000101#32)
  else do
    let (ws, c, s) ← engBytes s cl c 0 addr words
    let d := wordBytes ws
    if !ok d then pure (c, s, some 0x80000102#32)
    else match bad d with
      | some a => faultAt 1 2 (BitVec.ofNat 64 a)
      | none => pure ({ c with started := true, desc := d, expired := false }, s, none)

/-- At most `n` elements of a command from element number `c.count`, of `total`. -/
def stepElems (total : Nat) (each : Nat → Cmd → State → Act (Cmd × State)) : Nat → Cmd → State → Act (Cmd × State × Option Word)
  | 0, c, s => pure (c, s, if c.count == total then some c.value else none)
  | n + 1, c, s =>
    if c.count = total then pure (c, s, some c.value)
    else do
      let (c', s) ← each c.count c s
      stepElems total each n { c' with done := [c.count + 1] } s

/-- CPYT_TRANSFER and LAY_TRANSFER: at most `n` elements (R265). -/
def stridedStep (cl : Nat) (lay : Bool) (n : Nat) (c : Cmd) (s : State) : Act (Cmd × State × Option Word) :=
  let go := fun (addr : Nat) => do
    let (c, s, v) ← startDesc cl addr 128 32 (stridedOk lay) stridedMisaligned c s
    if v.isSome then pure (c, s, v)
    else
      let d := c.desc
      stepElems (stridedTotal d) (fun e c s =>
        engCopy cl (fieldB d 16 1) (fieldB d 17 1) (if lay then layAddr d e else stridedAddr d (fieldB d 0 8) 80 e)
          (stridedAddr d (fieldB d 8 8) 40 e) (elemSize (fieldB d 19 1) / 4) c s) n c s
  match c.kind with
  | .cpyt a => if lay then pure (c, s, none) else go a
  | .lay a => if lay then go a else pure (c, s, none)
  | _ => pure (c, s, none)
def execCpytTransfer (cl ch n : Nat) (s : State) : Out := .next (stepChannel cl ch s (stridedStep cl false n))
def execLayTransfer (cl ch n : Nat) (s : State) : Out := .next (stepChannel cl ch s (stridedStep cl true n))

/-- The checks of R266. -/
def gatherOk (d : List Byte) : Bool :=
  let esz := fieldB d 31 1
  decide (2 ≤ esz) && decide (esz ≤ 8) && decide (fieldB d 28 1 ≤ 2) && decide (fieldB d 29 1 ≤ 2) &&
    decide (fieldB d 30 1 ≤ 2) && fieldB d 32 32 == 0
/-- IDX, DST and SRC alignments (R264, R266). -/
def gatherMisaligned (d : List Byte) : Option Nat :=
  let al := if fieldB d 31 1 = 8 then 8 else 4
  if fieldB d 16 8 % 4 ≠ 0 then some (fieldB d 16 8)
  else if fieldB d 0 8 % al ≠ 0 then some (fieldB d 0 8)
  else if fieldB d 8 8 % al ≠ 0 then some (fieldB d 8 8) else none
/-- One element of `gat` or `sct` (R267). -/
def gatherElem (cl : Nat) (sct : Bool) (d : List Byte) (i : Nat) (c : Cmd) (s : State) : Act (Cmd × State) := do
  let (w, ex, s) ← engRead s cl c (fieldB d 30 1) ((fieldB d 16 8 + 4 * i) % 2 ^ 64)
  let c := { c with expired := c.expired || ex }
  let x := w.toNat
  let lim := fieldB d 24 4
  if lim ≠ 0 ∧ lim ≤ x then pure ({ c with skipped := true }, s)
  else
    let z := elemSize (fieldB d 31 1)
    let (di, si) := if sct then (x, i) else (i, x)
    engCopy cl (fieldB d 28 1) (fieldB d 29 1) ((fieldB d 0 8 + di * z) % 2 ^ 64) ((fieldB d 8 8 + si * z) % 2 ^ 64) (z / 4) c s
/-- GAT_TRANSFER and SCT_TRANSFER: at most `n` elements (R266, R267). -/
def gatherStep (cl : Nat) (sct : Bool) (n : Nat) (c : Cmd) (s : State) : Act (Cmd × State × Option Word) :=
  let go := fun (addr total : Nat) => do
    let (c, s, v) ← startDesc cl addr 64 16 gatherOk gatherMisaligned c s
    if v.isSome then pure (c, s, v)
    else stepElems total (gatherElem cl sct c.desc) n c s
  match c.kind with
  | .gat a total => if sct then pure (c, s, none) else go a total
  | .sct a total => if sct then go a total else pure (c, s, none)
  | _ => pure (c, s, none)
def execGatTransfer (cl ch n : Nat) (s : State) : Out := .next (stepChannel cl ch s (gatherStep cl false n))
def execSctTransfer (cl ch n : Nat) (s : State) : Out := .next (stepChannel cl ch s (gatherStep cl true n))

/-! ## Map slot loads and stores (R268 to R270) -/

/-- Rows of W in row mode: K, and the bytes of an element (R268). -/
def rowShape (fmt : Fmt) : Nat × Nat := if fmt.count = 2 then (64, 2) else (32, 4)
/-- The slot 32 chunks or column images make. -/
def slotOfColumns (tag : Tag) (cols : List (List Word)) : Slot :=
  let idx := (List.range 32).zip cols
  if tag.fmt.scaled then
    { cols := idx.map (fun e => (e.1, rowOf (fun l => (e.2[l + 2]?).getD 0 &&& tag.fmt.used))),
      scales := idx.map (fun e => (e.1, ((e.2[1]?).getD 0 ++ (e.2[0]?).getD 0) &&& tag.fmt.usedScales)),
      tag := tag, set := true }
  else { cols := idx.map (fun e => (e.1, rowOf (fun l => (e.2[l]?).getD 0))), tag := tag, set := true }
/-- The slot K rows of 32 elements make: W[k, n] is element `k / 32` of lane `k % 32` of column `n` (R140). -/
def slotOfRows (tag : Tag) (rows : List (List Word)) : Slot :=
  let elem := fun (k n : Nat) =>
    let ws := (rows[k]?).getD []
    if tag.fmt.count = 2 then ((ws[n / 2]?).getD 0).toNat / 2 ^ (16 * (n % 2)) % 65536 else ((ws[n]?).getD 0).toNat
  { cols := (List.range 32).map (fun n => (n, rowOf (fun l =>
      if tag.fmt.count = 2 then BitVec.ofNat 32 (elem l n + 65536 * elem (32 + l) n) else BitVec.ofNat 32 (elem l n)))),
    tag := tag, set := true }
/-- The words of row `k` of a slot. -/
def rowOfSlot (sl : Slot) (k : Nat) : List Word :=
  let word := fun (n : Nat) => (rowWord (Tab.get sl.cols 0 n) (k % 32)).toNat / 2 ^ (16 * (k / 32))
  if sl.tag.fmt.count = 2 then
    (List.range 16).map (fun i => BitVec.ofNat 32 (word (2 * i) % 65536 + 65536 * (word (2 * i + 1) % 65536)))
  else (List.range 32).map (fun n => BitVec.ofNat 32 (word n))

/-- MAPLD_TRANSFER (R268): every source byte read, then the slot changed as a whole, then the token. -/
def mapldStep (cl : Nat) (c : Cmd) (s : State) : Act (Cmd × State × Option Word) :=
  match c.kind with
  | .mapld slot spc row base stride fs => do
    let r := match s.task? c.task with | some tk => tk.lr | none => {}
    let tag := slotTag (r.fmtSlot fs)
    let (n, words) := if row then ((rowShape tag.fmt).1, 8 * (rowShape tag.fmt).2)
      else (32, if tag.fmt.scaled then 34 else 32)
    let (rows, c, s) ← (List.range n).foldlM (fun (x : List (List Word) × Cmd × State) i => do
      let (ws, c, s) ← engBytes x.2.2 cl x.2.1 spc ((base + i * stride) % 2 ^ 64) words
      pure (x.1 ++ [ws], c, s)) (([] : List (List Word)), c, s)
    let sl := if row then slotOfRows tag rows else slotOfColumns tag rows
    pure (c, s.setBlock c.blk ((s.blockOfCmd c).writeSlot c.uid slot sl), some c.value)
  | _ => pure (c, s, none)
def execMapldTransfer (cl ch : Nat) (s : State) : Out := .next (stepChannel cl ch s (mapldStep cl))

/-- MAPST_TRANSFER (R269): one version of the slot, stored as chunks, column images or rows. -/
def mapstStep (cl : Nat) (c : Cmd) (s : State) : Act (Cmd × State × Option Word) :=
  match c.kind with
  | .mapst slot spc row base stride => do
    if (s.blockOfCmd c).badSlots.contains slot then faultAt 7 4 0
    let sl := (s.blockOfCmd c).slotFor c.uid slot
    if row && sl.tag.fmt.scaled then pure (c, s, some 0x80000104#32)
    else
      let lines := if row then (List.range (rowShape sl.tag.fmt).1).map (rowOfSlot sl)
        else (List.range 32).map (fun n =>
          let ws := (List.range 32).map (rowWord (Tab.get sl.cols 0 n))
          let sc := Tab.get sl.scales 0 n
          if sl.tag.fmt.scaled then sc.setWidth 32 :: sc.extractLsb' 32 32 :: ws else ws)
      let (c, s) ← ((List.range lines.length).zip lines).foldlM (fun (r : Cmd × State) e =>
        ((List.range e.2.length).zip e.2).foldlM (fun (r : Cmd × State) w =>
          engWrite r.2 cl r.1 spc ((base + e.1 * stride + 4 * w.1) % 2 ^ 64) w.2) r) (c, s)
      pure (c, s, some c.value)
  | _ => pure (c, s, none)
def execMapstTransfer (cl ch : Nat) (s : State) : Out := .next (stepChannel cl ch s (mapstStep cl))

/-! ## The Escapement (R275 to R278) -/

/-- The requirements of R277 on the three arrays. -/
def graphOk (count : Nat) (indeg sptr sidx : List Nat) : Bool :=
  sptr.headD 1 == 0 && (sptr.zip (sptr.drop 1)).all (fun e => decide (e.1 ≤ e.2)) &&
  sidx.all (fun j => decide (j < count)) &&
  ((List.range count).zip indeg).all (fun e => e.2 == (sidx.filter (· == e.1)).length)

/-- ESCLD_BIND: the oldest `escld` of a cluster whose task is not halted acts (R277). Its reads of a range leased `shared` need no commit
token: Table 19-1 asks it of loads and of Drover commands (R277, R291, log 134). A launch that binds no Escapement port binds its graph
all the same and completes with 1: the model's choice (R276, log 141). -/
def escBindStep (cl : Nat) (e : EscLoad) (s : State) : Act (Graph × State × Word) :=
  let c := s.cluster cl
  let none_ : Graph := { task := e.task, count := 0, succ := [], counters := [], ring := [] }
  let busy := match c.graph with
    | none => false
    | some g => g.task != e.task && (s.task? g.task).isSome
  let open_ := match c.graphOf e.task with | some g => !g.complete | none => false
  if busy then pure (none_, s, 0x80000105#32)
  else if open_ then pure (none_, s, 0x80000108#32)
  else if e.desc % 64 ≠ 0 then pure (none_, s, 0x80000101#32)
  else do
    let cmd : Cmd := { kind := .cpyt e.desc, uid := e.uid, task := e.task, blk := 0, blockNo := e.blockNo,
                       teamNo := e.teamNo, id := 0, tok := e.tok, pc := e.pc, underToken := true }
    let (ws, _, s) ← engBytes s cl cmd 0 e.desc 16
    let d := wordBytes ws
    let count := fieldB d 24 4
    if count = 0 ∨ 131072 < count ∨ fieldB d 28 36 ≠ 0 then pure (none_, s, 0x80000102#32)
    else
      let (indeg, _, s) ← engBytes s cl cmd 0 (fieldB d 0 8) count
      let (sptr, _, s) ← engBytes s cl cmd 0 (fieldB d 8 8) (count + 1)
      let total := ((sptr[count]?).getD 0).toNat
      let (sidx, _, s) ← engBytes s cl cmd 0 (fieldB d 16 8) total
      let n := fun (l : List Word) => l.map (·.toNat)
      if !graphOk count (n indeg) (n sptr) (n sidx) then pure (none_, s, 0x80000106#32)
      else
        let succ := (List.range count).map (fun r =>
          let a := ((sptr[r]?).getD 0).toNat
          let b := ((sptr[r + 1]?).getD 0).toNat
          (r, ((n sidx).drop a).take (b - a)))
        pure ({ task := e.task, count := count, succ := succ, counters := (List.range count).zip (n indeg),
                ring := (List.range count).filter (fun r => ((indeg[r]?).getD 0) == 0), load := e }, s, 1)
def execEscldBind (cl : Nat) (s : State) : Out :=
  let old := s
  let c := s.cluster cl
  match c.escLoads.find? (fun e => s.engineRuns e.task) with
  | none => .next s
  | some e =>
    let s := s.setCluster cl { c with escLoads := c.escLoads.erase e }
    match escBindStep cl e s with
    | .ok (g, s, v) =>
      let c := s.cluster cl
      .next (if v == 1 then
          (((s.setCluster cl { c with graph := some g }).writeToken e.uid e.tok v (some 0)).endHalts.readiedFrom old)
        else s.writeToken e.uid e.tok v none)
    | .error (.fault x d a ed) => .next (s.engineFault e.uid e.task e.blockNo e.teamNo e.pc x d a ed)
    | .error _ => .next s

/-- The Escapement processes the oldest done entry: each successor's counter is decremented in successor-list
order, and each that reaches zero joins the ready ring (R278). -/
def Graph.processDone (g : Graph) : Graph :=
  match g.port with
  | [] => g
  | (row, c) :: rest =>
    (Tab.get g.succ [] row).foldl (fun (g : Graph) r =>
      let n := Tab.get g.counters 0 r - 1
      { g with counters := Tab.set g.counters r n, sigs := Tab.upd g.sigs 0 r (· ||| c),
               ring := if n = 0 then g.ring ++ [r] else g.ring })
      { g with port := rest, processed := g.processed + 1 }
/-- The Escapement of a cluster has its bank, in scratch mode (R275). -/
def State.escReady (s : State) (cl : Nat) : Bool :=
  match (s.cluster cl).escBank with
  | some b => ((s.cluster cl).bank b).mode == .scratch
  | none => false
/-- The Escapement of a cluster has the bank that a launch needs: the one its counters in the save area stood in, else any (R275,
R347). -/
def State.escServes (s : State) (key cl : Nat) : Bool :=
  s.escReady cl && (match (s.cluster cl).graph with
    | some g => !(g.task == key && g.spilled) || (s.cluster cl).escBank == some g.bank
    | none => true)
/-- ESC_DONE_PROCESS: it pauses while the counter bank is spilled or not yet held (R278, R282). A counter in error is a fault of
the task that bound the graph (R375, log 125). -/
def execEscDoneProcess (cl : Nat) (s : State) : Out :=
  let c := s.cluster cl
  match c.graph with
  | none => .next s
  | some g =>
    if !s.engineRuns g.task || g.spilled || !s.escReady cl then .next s
    else if g.bad && !g.port.isEmpty then
      .next ((s.setCluster cl { c with graph := some { g with port := g.port.drop 1 } }).engineFault g.load.uid g.task
        g.load.blockNo g.load.teamNo g.load.pc 7 3 0 none)
    else .next (s.setCluster cl { c with graph := some g.processDone })

end Sys2Proof.Machine
end

