-- ==== Sys2Proof/Machine/Control.lean ====
section
/-! DEFINITION. Sys2Proof/Machine/Control.lean: class 111, branches, reconvergence, `regroup`, barriers, `park` and `wake`,
special registers, `trap`, the commit token and `dlaunch` (R102 to R123). -/
namespace Sys2Proof.Machine

/-! ## Branches (R82, R102 to R104) -/

/-- The target of a B word (R82). -/
def branchTarget (f : BF) (pc : DWord) : DWord := pc + 8 * f.disp.signExtend 64
/-- The register field of `brx` and `call`. -/
def branchReg (f : BF) : Nat := field f.variant 20 6
/-- Frame of a branch: the guard is the condition. -/
def branchFrame (p : Pre) (r : Scalars) (check : Act Unit) (body : Nat → Mask → Team → State → Act Done) (s : State) : Out :=
  issueWith p r (fun _ _ _ => check) (fun t => t.guarded p) body s

/-- `bra` (R103). -/
def execBra (f : BF) (s : State) : Out :=
  branchFrame f.pre {} (pure ())
    (fun k m t s =>
      let target := branchTarget f t.pc
      if m == t.active then jump t s target
      else do
        let (t, s) ← pushEntry k (Entry.make target kindPend m) t s
        done { t with active := t.active &&& ~~~m } s) s

/-- The register of `brx`, `call` and `ret` is not s0, and even (R102). -/
def linkCheck (r : Nat) : Act Unit := do
  illegalIf (r == 0) 1
  illegalIf (r % 2 != 0 || decide (63 < r)) 2
/-- The jump of R104: a uniform guard, a target that is a multiple of 8. -/
def uniformJump (m : Mask) (target : DWord) (t u : Team) (s : State) : Act Done :=
  if m != t.active then illegal 5
  else if target &&& 7#64 != 0 then faultAt 1 7 target
  else jump u s target

/-- `brx` (R104). -/
def execBrx (f : BF) (s : State) : Out :=
  let r := branchReg f
  branchFrame f.pre { reads := [r, r + 1] } (linkCheck r)
    (fun _ m t s => uniformJump m (t.rs2 r + 8 * f.disp.signExtend 64) t t s) s
/-- `call` (R104). -/
def execCall (f : BF) (s : State) : Out :=
  let r := branchReg f
  branchFrame f.pre { writes := [r, r + 1] } (linkCheck r)
    (fun _ m t s => uniformJump m (branchTarget f t.pc) t (t.ws2 r (t.pc + 8)) s) s
/-- `ret` (R104). -/
def execRet (f : YF) (s : State) : Out :=
  let r := f.ya.toNat
  branchFrame f.pre { reads := [r, r + 1] }
    (do
      illegalIf (f.yk != 0) 1
      linkCheck r)
    (fun _ m t s => uniformJump m (t.rs2 r) t t s) s

/-! ## Reconvergence (R105 to R107) -/

/-- `join` (R106). -/
def execJoin (f : BF) (s : State) : Out :=
  perTeam f.pre {} (fun _ _ _ => pure ())
    (fun k t s => do
      let (t, s) ← pushEntry k (Entry.make (branchTarget f t.pc) kindJoin t.active) t s
      done t s) s
/-- yk 0b00 is the only value accepted (R84, R88). -/
def ykZero (f : YF) : Act Unit := illegalIf (f.yk != 0) 1
/-- `sync`, which is also the return from a trap (R106, R58, R332). -/
def execSync (f : YF) (s : State) : Out :=
  perTeam f.pre {} (fun _ _ _ => ykZero f)
    (fun k t s => do
      reloadCheck k t s
      match popSync k t s with
      | none => illegal 3
      | some u => pure { t := u, s := s.countReload t, pc := some u.pc, did := u.did }) s
/-- `exit` (R107): `complete` takes the trap, the implied `sync` or the team's end from there. -/
def execExit (f : YF) (s : State) : Out :=
  perLane f.pre {} (fun _ _ _ => ykZero f)
    (fun _ m t s => done { t with retired := t.retired ||| m, active := t.active &&& ~~~m } s) s

/-! ## Regroup (R108, R109) -/

/-- A mask in the new numbering. -/
def renumber (o : List Nat) (m : Mask) : Mask :=
  maskOf (((List.range o.length).zip o).filterMap (fun e => if bit m e.2 then some e.1 else none))
/-- A register's rows with its lanes in the new numbering, zero from `c` on; tags kept, scale words zero. -/
def Team.migrate (t : Team) (old : Team) (o : List Nat) (r : Nat) : Team :=
  (List.range t.words).foldl (fun (t : Team) w =>
    t.wv r w { data := rowOf (fun i => match o[32 * w + i]? with | some l => old.rl r l | none => 0),
               tag := (old.rv r w).tag, scale := 0 }) t
/-- The entries spilled to private space, their masks renumbered; each request counts (R364). -/
def renumberSpilled (k : Nat) (o : List Nat) (t : Team) (s : State) : State :=
  (List.range t.spilledEntries).foldl (fun s i =>
    match s.spilledEntry k t i, s.imageLocs k t i with
    | some e, some locs => (s.storeEntry locs { e with mask := renumber o e.mask }).countFill t.part
    | _, _ => s) s
/-- The team after `regroup` of registers `va` to `vb` (R109). -/
def regroupTeam (o : List Nat) (regs : List Nat) (t : Team) : Team :=
  let c := o.length
  let u := regs.foldl (fun (u : Team) r => u.migrate t o r) t
  { u with
    p := (List.range 7).map (fun i => (i, renumber o (t.rp i))),
    olane := (List.range t.lanes).map (fun j =>
      (j, match o[j]? with
        | some l => Tab.get t.olane (BitVec.ofNat 32 l) l
        | none => Tab.get t.olane (BitVec.ofNat 32 j) j)),
    active := renumber o t.active,
    tlanes := renumber o t.tlanes,
    stack := t.stack.map (fun e => { e with mask := renumber o e.mask }),
    retired := t.all &&& ~~~(lanesBelow c) }
/-- `regroup` (R108, R109). -/
def execRegroup (f : YF) (s : State) : Out :=
  perTeam f.pre {}
    (fun _ t s => do
      illegalIf (decide (2 ≤ f.yk.toNat)) 1
      illegalIf (f.yk == 1 && (decide (f.yb.toNat < f.ya.toNat) || decide ((s.recOf t).regs ≤ f.yb.toNat))) 2)
    (fun k t s => do
      (List.range t.spilledEntries).forM (s.spillCheck k t true)
      let es := allEntries k t s
      illegalIf (es.any (fun e => e.kind == kindPend || e.kind == kindResume)) 5
      let regs := if f.yk == 1 then (List.range (f.yb.toNat - f.ya.toNat + 1)).map (f.ya.toNat + ·) else []
      illegalIf (regs.any (fun r => (List.range t.words).any (fun w => !(t.rv r w).tag.plain))) 5
      let j := es.foldl (fun m e => m ||| e.mask) 0
      let live := (t.active ||| j ||| t.tlanes) &&& ~~~t.retired
      let o := lanesOf live t.words
      done (regroupTeam o regs t) (renumberSpilled k o t s)) s

/-! ## Barriers (R110, R111) -/

/-- The checks of a barrier: the slot exists and is bound (R50, R110). -/
def barrierCheck (f : YF) (t : Team) (s : State) : Act Unit := do
  ykZero f
  illegalIf (decide (4 ≤ f.sel.toNat)) 1
  match s.task? t.task with
  | none => illegal 5
  | some tk => illegalIf (tk.groupSlot t.block t.team f.sel.toNat).isNone 5
/-- The group in a group slot of a team. -/
def State.groupOf (s : State) (t : Team) (i : Nat) : Nat :=
  ((s.task? t.task).bind (fun tk => tk.groupSlot t.block t.team i)).getD 0
/-- `bara`: a release, the held slot writes take effect, the arrival (R111, R158). -/
def arriveAt (k slot : Nat) (t : Team) (s : State) : Act (Team × State) := do
  illegalIf (Tab.get? t.arrived slot).isSome 5
  let g := s.groupOf t slot
  let s := s.release k
  let s := s.setBlock t.blk ((s.blockOf t).applyWrites t.uid)
  match s.task? t.task with
  | none => pure (t, s)
  | some tk =>
    let gen := (Tab.get tk.gstate {} g).gen
    pure ({ t with arrived := Tab.set t.arrived slot gen }, s.arrive t.task g (tk.teamId t.block t.team) t.carried)
/-- `barw`: the wait, then the acquire (R111, R246). -/
def awaitAt (k slot : Nat) (t : Team) (s : State) : Act Done :=
  match Tab.get? t.arrived slot with
  | none => illegal 5
  | some gen =>
    let g := s.groupOf t slot
    if s.generationDone t.task g gen (clusterOf (coreOf k)) then
      let t := { t with arrived := Tab.erase t.arrived slot, carried := t.carried ||| s.generationSig t.task g }
      done t (s.acquire (coreOf k) t.carried)
    else waitOn k t s (.barrier g gen)

/-- `bara` (R111). -/
def execBara (f : YF) (s : State) : Out :=
  perTeam f.pre {} (fun _ t s => barrierCheck f t s)
    (fun k t s => do
      let (t, s) ← arriveAt k f.sel.toNat t s
      done t s) s
/-- `barw` (R111). -/
def execBarw (f : YF) (s : State) : Out :=
  perTeam f.pre {} (fun _ t s => barrierCheck f t s) (fun k t s => awaitAt k f.sel.toNat t s) s
/-- `bar`: both as one instruction; phase 1 once it has arrived (R111). -/
def execBar (f : YF) (s : State) : Out :=
  perTeam f.pre {} (fun _ t s => barrierCheck f t s)
    (fun k t s =>
      if t.phase == 1 then awaitAt k f.sel.toNat t s
      else do
        let (t, s) ← arriveAt k f.sel.toNat t s
        awaitAt k f.sel.toNat { t with phase := 1 } s) s

/-! ## Park and wake (R112 to R115) -/

/-- The checks of `park` and `wake`, whatever the guard (R115, R125, log 105). -/
def parkCheck (f : YF) (t : Team) (s : State) : Act Unit := do
  ykZero f
  illegalIf (f.ya.toNat % 2 != 0 || decide (63 < f.ya.toNat) || decide (63 < f.yb.toNat) || decide (63 < f.yc.toNat)) 2
  illegalIf (s.detOf t) 5
/-- The word a `park` or `wake` names: one word of global space, checked as a load. -/
def parkWord (k : Nat) (f : YF) (t : Team) (s : State) : Act Nat := do
  let p ← resolve k t s 0 false 4 4 (t.rs2 f.ya.toNat)
  pure (p.words.headD 0)
/-- An acquire load of the word at its home, which leaves no older copy in the core's caches and counts (R113, R246, R248, R364). -/
def parkLoad (k w : Nat) (a : DWord) (t : Team) (s : State) : Act (Word × Team × State) := do
  s.reach (dieOf (coreOf k)) (4 * w) a
  match Tab.get? s.poisoned w with
  | some d => faultAt 7 d a
  | none =>
    let s := ((s.ordered k [w]).refresh k [w]).countFill t.part
    let t := { t with carried := t.carried ||| s.releasedAt [w] }
    pure (s.peek w, t, s.acquire (coreOf k) t.carried)
/-- `park` (R113): phase 1 once it has waited; then the end load is made. -/
def execPark (f : YF) (s : State) : Out :=
  perTeam f.pre { reads := [f.ya.toNat, f.ya.toNat + 1, f.yb.toNat, f.yc.toNat] } (fun _ t s => parkCheck f t s)
    (fun k t s => do
      let w ← parkWord k f t s
      let (v, t', s') ← parkLoad k w (t.rs2 f.ya.toNat) t s
      if t.phase == 1 then done t' s'
      else
        let e := t.rs f.yb.toNat
        let st := t.rs f.yc.toNat
        if v != e then done t' s'
        else if st == 0 then done t' s'
        else
          let dl := if st == 0xFFFFFFFF#32 then none else some (s.tick + st.setWidth 64)
          waitOn k { t' with phase := 1 } s' (.park (t.rs2 f.ya.toNat) w e dl)) s
/-- A team waits in `park` on a word. -/
def Team.parkedOn (t : Team) (part w : Nat) : Bool :=
  t.part == part && (match t.wait with | some (.park _ pw _ _) => pw == w | _ => false)
/-- `wake`: its request reaches the word's home; a release; every `park` of the partition on the word ends, and its end load finds
the signature (R33, R114, R239). -/
def execWake (f : YF) (s : State) : Out :=
  perTeam f.pre { reads := [f.ya.toNat, f.ya.toNat + 1] } (fun _ t s => parkCheck f t s)
    (fun k t s => do
      let w ← parkWord k f t s
      s.reach (dieOf (coreOf k)) (4 * w) (t.rs2 f.ya.toNat)
      let s := (s.release k).countFill t.part
      let any := s.teams.any (fun e => e.2.parkedOn t.part w)
      let ts := Tab.mapVals s.teams (fun u => if u.parkedOn t.part w then { u with wait := some .over } else u)
      done t { s with relSig := if any then Tab.upd s.relSig 0 w (· ||| t.carried) else s.relSig, teams := ts }) s

/-! ## System instructions (R116 to R121) -/

/-- `nop` (R117). -/
def execNop (f : YF) (s : State) : Out :=
  perTeam f.pre {} (fun _ _ _ => ykZero f) (fun _ t s => done t s) s

/-- The greatest index of a special register, none for a number outside Table 3-5. -/
def specialIndex (n : Nat) : Option Nat :=
  if n = 0x0D then some 32 else if n = 0x10 ∨ n = 0x11 then some 7 else if n = 0x12 then some 15
  else if n ≤ 0x12 then some 0 else none
/-- 64-bit registers: `%tick` and `%cycle`. -/
def specialWide (n : Nat) : Bool := n == 0x08 || n == 0x09
/-- `%cmt` (Table 3-9, R73). -/
def cmtWord (t : Team) (det : Bool) : Word :=
  if det then BitVec.ofNat 32 (256 * t.buffer.length + 2 + (if t.held then 1 else 0)) else 0
/-- The team value of a special register (Table 3-5). -/
def specialValue (k : Nat) (t : Team) (s : State) (n idx : Nat) : DWord :=
  let w := fun (x : Nat) => BitVec.ofNat 64 x
  let r := s.recOf t
  match n with
  | 0x02 => w t.team
  | 0x03 => w t.block
  | 0x04 => w r.grid
  | 0x05 => w ((s.part t.part).vcluster (clusterOf (coreOf k)))
  | 0x06 => w (coreOf k % 32)
  | 0x07 => 32
  | 0x08 => s.tick + (s.part t.part).tickOff
  | 0x09 => (s.core (coreOf k)).cycle
  | 0x0A => t.fflags.setWidth 64
  | 0x0B => t.fmode.setWidth 64
  | 0x0C => t.tcause.setWidth 64
  | 0x0D => (if idx < 32 then maskWord t.tlanes idx else summary t.tlanes).setWidth 64
  | 0x0E => t.pix.setWidth 64
  | 0x0F => (cmtWord t (s.detOf t)).setWidth 64
  | 0x10 => w (s.qlen k t idx)
  | 0x11 => (r.fmtSlot idx).setWidth 64 &&& 0xFFFFFFFF#64
  | 0x12 => w (field (r.fmtSlot (idx / 2)) (64 + 32 * (idx % 2)) 32)
  | _ => 0
/-- `srd` (R70, R118). -/
def execSrd (f : YF) (s : State) : Out :=
  let n := f.sel.toNat
  let wide := specialWide n
  let vec := f.yk == 1
  let c := if wide then 2 else 1
  issueWith f.pre { writes := if vec then [] else if wide then [f.ya.toNat, f.ya.toNat + 1] else [f.ya.toNat] }
    (fun _ t s => do
      illegalIf (decide (2 ≤ f.yk.toNat)) 1
      match specialIndex n with
      | none => illegal 1
      | some m => illegalIf (decide (m < f.idx.toNat)) 1
      illegalIf (!vec && decide (n < 2)) 1
      illegalIf (if vec then !(s.recOf t).vecOk f.ya.toNat c c else decide (63 < f.ya.toNat) || (wide && bit f.ya 0)) 2)
    (fun t => t.guarded f.pre)
    (fun k act t s =>
      let v := specialValue k t s n f.idx.toNat
      if vec then
        let lv := fun (l : Nat) => match n with
          | 0 => BitVec.ofNat 64 l
          | 1 => (Tab.get t.olane (BitVec.ofNat 32 l) l).setWidth 64
          | _ => v
        done (if wide then t.wlanes2 f.ya.toNat act (plainTag .i32) lv
          else t.wlanes f.ya.toNat act (plainTag .i32) (fun l => (lv l).setWidth 32)) s
      else done (if wide then t.ws2 f.ya.toNat v else t.ws f.ya.toNat (v.setWidth 32)) s) s
/-- `swr` (R119). -/
def execSwr (f : YF) (s : State) : Out :=
  perTeam f.pre { reads := [f.ya.toNat] }
    (fun _ _ _ => do
      ykZero f
      illegalIf (f.sel != 0x0A && f.sel != 0x0B && f.sel != 0x0C) 1
      illegalIf (decide (63 < f.ya.toNat)) 2)
    (fun _ t s =>
      let v := t.rs f.ya.toNat
      match f.sel.toNat with
      | 0x0A => done { t with fflags := v &&& 0x1F#32 } s
      | 0x0B => done { t with fmode := v &&& 0x11F#32 } s
      | _ => done { t with tcause := v &&& 0x1FFF03#32 } s) s
/-- `trap` (R120): its lanes join `%tlanes` when it completes. -/
def execTrap (f : YF) (s : State) : Out :=
  perLane f.pre {} (fun _ _ _ => ykZero f)
    (fun _ m t s => pure { t := t, s := s, traps := m, cause := causeTrap f.sel.toNat }) s

/-! ## The commit token (R121) -/

/-- `cmtwait` (R121). -/
def execCmtwait (f : YF) (s : State) : Out :=
  perTeam f.pre {} (fun _ _ _ => ykZero f)
    (fun k t s =>
      if !s.detOf t then done t s
      else if t.passed then illegal 5
      else if t.held then done t s
      else waitOn k t s (.commit false)) s
/-- `cmtpass` (R121, R288). -/
def execCmtpass (f : YF) (s : State) : Out :=
  perTeam f.pre {} (fun _ _ _ => ykZero f)
    (fun k t s =>
      if !s.detOf t then done t s
      else if t.passed then illegal 5
      else if !t.canPass then waitOn k t s .ending
      else
        let (t, s) := passToken k t s
        done t s) s

/-! ## Dynamic launch (R122, R123) -/

/-- `dlaunch`: a child launch goes to the Starter; its record must lie in the parent's leases. The leases are checked of a record at a
multiple of 512 alone: one that is misaligned is submitted and refused by its token, wherever it lies (R123, log 117). It is a release;
a team that holds the commit token drains its buffer first (R239, R243, R295). -/
def execDlaunch (f : EF) (s : State) : Out :=
  perTeam f.pre (eScalars f 2 true)
    (fun _ _ _ => do
      illegalIf (f.tk == 0 || f.dp == 0) 1
      illegalIf (bit f.dp 0) 2)
    (fun k t s => do
      let a := t.rs2 f.dp.toNat
      (if a.toNat % 512 = 0 then (do let _ ← resolve k t s 0 false 512 4 a; pure ()) else pure ())
      if t.held && !t.buffer.isEmpty then waitOn k t s (.commit true)
      let s := s.release k
      let b := s.blockOf t
      let src := Source.child t.task t.uid t.block b.calls f.tk.toNat (t.rs f.cn.toNat).toNat
      let l : Launch := { part := t.part, addr := a, eligible := true, wait := some 0, src := src, sig := t.carried }
      let s := s.setBlock t.blk { b with calls := b.calls + 1 }
      let s := match s.task? t.task with
        | none => s
        | some tk => s.setTask t.task { tk with calls := Tab.upd tk.calls 0 t.block (· + 1) }
      let u := { t with pendTok := insertNew t.pendTok f.tk.toNat }
      let n := s.nextLaunch
      done u { s with launches := Tab.set s.launches n l, nextLaunch := n + 1 }) s

end Sys2Proof.Machine
end

