-- ==== Sys2Proof/Machine/Convert.lean ====
section
/-! DEFINITION. Sys2Proof/Machine/Convert.lean: the rotation stage, scale choice, narrowing and widening of blocks (R136 to
R139) and the conversion instructions (R186 to R195). -/
namespace Sys2Proof.Machine

/-! ## The rotation stage -/

/-- H[i, j] is -1 (R136). -/
def hadNeg (i j : Nat) : Bool := popcount 5 (i &&& j) % 2 == 1
/-- One butterfly stage over positions at distance `h`. -/
def butterfly {α : Type} (add sub : α → α → α) (d : α) (h : Nat) (l : List α) : List α :=
  (List.range 32).map (fun i =>
    if i / h % 2 == 0 then add ((l[i]?).getD d) ((l[i + h]?).getD d)
    else sub ((l[i - h]?).getD d) ((l[i]?).getD d))
/-- The five stages. -/
def butterflies {α : Type} (add sub : α → α → α) (d : α) (l : List α) : List α :=
  [1, 2, 4, 8, 16].foldl (fun l h => butterfly add sub d h l) l

/-- RD(log2 |x|) of a non-zero dyadic. -/
def Dy.log (x : Dy) : Int := (Nat.log2 x.n.natAbs : Int) + x.e
/-- The greatest RD(log2 |x|) of a list, none when all are zero. -/
def maxLog (l : List Dy) : Option Int :=
  l.foldl (fun (m : Option Int) (x : Dy) => if x.n == 0 then m else match m with
    | none => some x.log
    | some y => some (if y < x.log then x.log else y)) none

/-- A narrowed block: scale byte, elements and flags by position. -/
structure Narrow where
  scale : Nat
  elems : List FRes

/-- Table 8-4. -/
def Fmt.maxExp : Fmt → Int
  | .e4m3 => 8 | .e5m2 => 15 | .e3m2 => 4 | .q8 => 6 | _ => 2

/-- One element of a scaled value, RNE and saturating, with its flags (R137). -/
def narrowElement (f : Fmt) (zneg : Bool) (w : Dy) : FRes :=
  match f with
  | .q8 | .q4 =>
    let b := f.bits
    let (t, nx) := w.toInt 0
    let lo : Int := -(2 ^ (b - 1))
    let hi : Int := 2 ^ (b - 1) - 1
    if t < lo then { bits := wrap b lo, flags := flagOF ||| flagNX }
    else if hi < t then { bits := wrap b hi, flags := flagOF ||| flagNX }
    else { bits := wrap b t, flags := (if nx then flagNX else 0) ||| (if t == 0 && w.n != 0 then flagUF else 0) }
  | _ => f.float.roundDy 0 true zneg w

/-- A zero element of a sign. -/
def zeroElement (f : Fmt) (neg : Bool) : FRes :=
  match f with | .q8 | .q4 => { bits := 0 } | _ => { bits := f.float.sign neg }

/-- Scale choice and elements (R137); `nx` are the lanes that raised NX in the rotation. -/
def chooseScale (f : Fmt) (ws : List (Bool × Dy)) (nx : List Bool) : Narrow :=
  let x : Int := match maxLog (ws.map (·.2)) with
    | none => -127
    | some l => let y := l - f.maxExp; if y < -127 then -127 else if 127 < y then 127 else y
  { scale := (x + 127).toNat,
    elems := (List.range 32).map (fun i =>
      let w := (ws[i]?).getD (false, Dy.zero)
      let r := narrowElement f w.1 { w.2 with e := w.2.e - x }
      { r with flags := r.flags ||| (if (nx[i]?).getD false then flagNX else 0) }) }

/-- A block into a block-scaled format (R136 to R138). -/
def narrowBlock (tag : Tag) (vs : List FV) : Narrow :=
  if vs.any FV.special then
    { scale := 255, elems := vs.map (fun v => { bits := 0, flags := if v.special then flagNV else 0 }) }
  else if vs.all FV.isZero then
    let signs := match tag.rot with
      | .none => vs.map FV.isNeg
      | .h32 seed => butterflies (fun a b => a && b) (fun a b => a && !b) false
          ((List.range 32).map (fun i => xor (bit seed i) ((vs[i]?.map FV.isNeg).getD false)))
    { scale := 0, elems := signs.map (zeroElement tag.fmt) }
  else match tag.rot with
    | .none => chooseScale tag.fmt (vs.map (fun v => (v.isNeg, v.dy))) []
    | .h32 seed =>
      let emax := match maxLog (vs.map FV.dy) with | some l => l + 1 | none => 0
      let al := (List.range 32).map (fun i =>
        let v := ((vs[i]?).getD (.fin false 0 0)).dy
        let v := if bit seed i then v.neg else v
        ({ v with e := v.e - (emax - 31) } : Dy).toInt 0)
      let bs := butterflies (fun a b : Int => a + b) (fun a b => a - b) 0 (al.map (·.1))
      chooseScale tag.fmt (bs.map (fun a => (false, { n := a, e := emax - 31 }))) (al.map (·.2))

/-- The members of block `e` of a lane block (R133). -/
def membersOf (f : Fmt) (x : VReg) (e : Nat) : List FV :=
  (List.range 32).map (fun i => f.member (rowWord x.data i) x.scale e)

/-- A block widened to binary32, by position, with flags (R139). -/
def widenBlock (tag : Tag) (ys : List FV) : List FRes :=
  if ys.any FV.isNaN then ys.map (fun _ => { bits := binary32.canonNaN })
  else match tag.rot with
    | .none => ys.map (binary32.roundV 0 false)
    | .h32 seed => (List.range 32).map (fun i =>
      let terms := (List.range 32).map (fun j =>
        let y := (ys[j]?).getD (.fin false 0 0)
        if xor (bit seed i) (hadNeg i j) then y.neg else y)
      let pos := terms.any (fun y => y == .inf false)
      let neg := terms.any (fun y => y == .inf true)
      if pos && neg then { bits := binary32.canonNaN, flags := flagNV }
      else if pos then { bits := binary32.infBits false }
      else if neg then { bits := binary32.infBits true }
      else
        let d := terms.foldl (fun a y => Dy.add a y.dy) Dy.zero
        binary32.roundDy 0 false (terms.all (fun y => y.zeroOf true)) { d with e := d.e - 5 })

/-! ## The instructions -/

/-- The checks common to the conversions: no map field, the mode, registers of source and destination. -/
def convCheck (f : V3) (rms : List (BitVec 2)) (d a b : Nat × Nat) (t : Team) (s : State) : Act Unit := do
  let r := s.recOf t
  noMaps f false false
  illegalIf (!rms.contains f.rm) 1
  illegalIf (!r.vecOk f.vd.toNat d.1 d.2 || !r.vecOk f.va.toNat a.1 a.2 || (b.1 != 0 && !r.vecOk f.vb.toNat b.1 b.2)) 2

/-- A format slot index with a block-scaled format (R188, R191). -/
def scaledSlot (n : Nat) (t : Team) (s : State) : Act Tag := do
  illegalIf (decide (8 ≤ n)) 1
  let tag := slotTag ((s.recOf t).fmtSlot n)
  illegalIf (!tag.fmt.scaled) 5
  pure tag

/-- `cvtn` on one lane block: the register it leaves and the flags by position (R189, R190). -/
def cvtnBlock (tag : Tag) (t : Team) (va w : Nat) (m : Word) : VReg × (Nat → Flags) :=
  let ns := (List.range tag.fmt.count).map (fun e => narrowBlock tag ((List.range 32).map (fun i =>
    if bit m i then binary32.value (rowWord (t.rv (va + e) w).data i).toNat else .fin false 0 0)))
  let elem := fun (e i : Nat) => ((ns[e]?).bind (fun n => n.elems[i]?)).getD { bits := 0 }
  ({ data := rowOf (fun i => (List.range tag.fmt.count).foldl (fun v e =>
        v ||| BitVec.ofNat 32 ((elem e i).bits * 2 ^ (tag.fmt.bits * e))) 0),
     tag := tag,
     scale := (List.range tag.fmt.count).foldl (fun v e =>
        v ||| BitVec.ofNat 64 ((((ns[e]?).map (·.scale)).getD 0) * 2 ^ (8 * e))) 0 },
   fun i => (List.range tag.fmt.count).foldl (fun g e => g ||| (elem e i).flags) 0)

/-- `cvtn` (R188 to R190). Of several illegal operations the FMT of the slot is reported first, then map fields, rounding mode and
registers: the model's order (R187, log 138). -/
def execCvtn (f : V3) (s : State) : Out :=
  perLane f.pre {}
    (fun _ t s => do
      let tag ← scaledSlot f.vc.toNat t s
      convCheck f [0] (1, 1) (tag.fmt.count, 1) (0, 1) t s)
    (fun k act t s =>
      let tag := slotTag ((s.recOf t).fmtSlot f.vc.toNat)
      sweep k act [] t s (fun m u s =>
        let bs : Tab (VReg × (Nat → Flags)) := (passesOf m u.words).map (fun w =>
          (w, cvtnBlock tag t f.va.toNat w (maskWord act w)))
        pure (bs.foldl (fun (u : Team) e => u.wv f.vd.toNat e.1 e.2.1) u, s,
          fun l => match Tab.get? bs (l / 32) with | some x => x.2 (l % 32) | none => 0))) s

/-- `cvtw` (R191, R192). Of several illegal operations the FMT of the slot is reported first, as of `cvtn` (log 138). -/
def execCvtw (f : V3) (s : State) : Out :=
  perLane f.pre {}
    (fun _ t s => do
      let tag ← scaledSlot f.vc.toNat t s
      convCheck f [0] (tag.fmt.count, 1) (1, 1) (0, 1) t s)
    (fun k act t s =>
      let tag := slotTag ((s.recOf t).fmtSlot f.vc.toNat)
      if t.intr.isNone && !tagsMatch t act f.va.toNat tag then faultAt 3 2 0
      else sweep k act [] t s (fun m u s =>
        let bs : Tab (List (List FRes)) := (passesOf m u.words).map (fun w =>
          (w, (List.range tag.fmt.count).map (fun e => widenBlock tag (membersOf tag.fmt (t.rv f.va.toNat w) e))))
        let get := fun (e l : Nat) => ((Tab.get? bs (l / 32)).bind (fun es => (es[e]?).bind (fun r => r[l % 32]?))).getD { bits := 0 }
        pure ((List.range tag.fmt.count).foldl (fun (u : Team) e =>
            u.wlanes (f.vd.toNat + e) m (plainTag .f32) (fun l => BitVec.ofNat 32 (get e l).bits)) u, s,
          fun l => (List.range tag.fmt.count).foldl (fun g e => g ||| (get e l).flags) 0))) s

/-- The result of `fcvt` in a lane (Table 11-3). -/
def fcvtLane (f : V3) (t : Team) (l : Nat) : FRes :=
  let a := (t.rl f.va.toNat l).toNat
  let pack := fun (F : FloatFmt) =>
    let lo := convertF binary32 F f.rm a
    let hi := convertF binary32 F f.rm (t.rl f.vb.toNat l).toNat
    ({ bits := lo.bits + 65536 * hi.bits, flags := lo.flags ||| hi.flags } : FRes)
  match f.vc.toNat with
  | 0 => convertF binary64 binary32 f.rm (t.rl2 f.va.toNat l).toNat
  | 1 => convertF binary32 binary64 0 a
  | 2 => pack bf16
  | 3 => pack f16
  | 4 => convertF bf16 binary32 0 (a % 65536)
  | 5 => convertF bf16 binary32 0 (a / 65536)
  | 6 => convertF f16 binary32 0 (a % 65536)
  | _ => convertF f16 binary32 0 (a / 65536)

/-- A conversion by lanes: results, a pair destination or not, the tag written. -/
def convRun (k : Nat) (f : V3) (act : Mask) (wide : Bool) (tag : Tag) (t : Team) (s : State) (g : Nat → FRes) : Act Done :=
  sweep k act [] t s (fun m u s =>
    let rs := laneTable u m g
    pure (writeFloat u wide f.vd.toNat m tag (fun l => (Tab.get rs { bits := 0 } l).bits), s,
      fun l => (Tab.get rs { bits := 0 } l).flags))

/-- `fcvt` (R193). -/
def execFcvt (f : V3) (s : State) : Out :=
  let kind := f.vc.toNat
  let tag := plainTag (match kind with | 1 => .f64 | 2 => .bf16 | 3 => .f16 | _ => .f32)
  perLane f.pre {}
    (fun _ t s => do
      illegalIf (decide (8 ≤ kind)) 1
      convCheck f (if kind == 0 || kind == 2 || kind == 3 then anyRm else [0])
        (if kind == 1 then (2, 2) else (1, 1)) (if kind == 0 then (2, 2) else (1, 1))
        (if fcvtHasB f.vc then (1, 1) else (0, 1)) t s)
    (fun k act t s => convRun k f act (kind == 1) tag t s (fcvtLane f t)) s

/-- `fcvti` (R194). -/
def execFcvti (f : V3) (s : State) : Out :=
  let src64 := f.vc == 1
  let wide := bit f.ty 1
  let w := tyWidth f.ty
  let lo : Int := if tySigned f.ty then -(2 ^ (w - 1)) else 0
  let hi : Int := if tySigned f.ty then 2 ^ (w - 1) - 1 else 2 ^ w - 1
  perLane f.pre {}
    (fun _ t s => do
      illegalIf (decide (2 ≤ f.vc.toNat)) 1
      convCheck f anyRm (if wide then (2, 2) else (1, 1)) (if src64 then (2, 2) else (1, 1)) (0, 1) t s)
    (fun k act t s => convRun k f act wide (plainTag .i32) t s (fun l =>
      let x := if src64 then binary64.value (t.rl2 f.va.toNat l).toNat else binary32.value (t.rl f.va.toNat l).toNat
      let r := toIntR x f.rm lo hi
      { bits := wrap w r.1, flags := r.2 })) s

/-- `icvtf` (R195). -/
def execIcvtf (f : V3) (s : State) : Out :=
  let dst64 := f.vc == 1
  let wide := bit f.ty 1
  perLane f.pre {}
    (fun _ t s => do
      illegalIf (decide (2 ≤ f.vc.toNat)) 1
      convCheck f anyRm (if dst64 then (2, 2) else (1, 1)) (if wide then (2, 2) else (1, 1)) (0, 1) t s)
    (fun k act t s => convRun k f act dst64 (plainTag (if dst64 then .f64 else .f32)) t s (fun l =>
      (if dst64 then binary64 else binary32).ofInt f.rm
        (tyVal f.ty (if wide then (t.rl2 f.va.toNat l).toNat else (t.rl f.va.toNat l).toNat)))) s

end Sys2Proof.Machine
end

