-- ==== Sys2Proof/Machine/Wait.lean ====
section
/-! DEFINITION. Sys2Proof/Machine/Wait.lean: the ends of the waits of R62, line fills, registration, held slot writes,
park timeouts, the drain of a commit buffer, the resumption of clusters after a barrier. -/
namespace Sys2Proof.Machine

/-- The condition that broke a team's run is met (R62). A wait for another team, a queue, a barrier or the commit token has no other
end: no timeout ends it, and nothing detects that it cannot be met (R290). -/
def State.waitMet (s : State) (k : Nat) (t : Team) : Bool :=
  let c := s.cluster (clusterOf (coreOf k))
  match t.wait with
  | none => false
  | some w =>
    match w with
    | .fill lines _ _ => lines.isEmpty
    | .bank b => (c.bank b).mode == .scratch
    | .region => true
    | .token regs => (t.tokensPending regs).isEmpty
    | .queueFull q =>
      let b := (s.recOf t).queue q
      if b.kind == 4 then decide (s.qlen k t q < 64) else decide (s.qlen k t q < fifoSize (b.kind == 2))
    | .queueEmpty q =>
      let b := (s.recOf t).queue q
      s.qlen k t q != 0 || (b.kind == 3 && (match c.graphOf t.task with | some g => g.complete | none => false))
    | .channel ch => decide ((c.channel ch).length < 16)
    | .barrier g gen => s.generationDone t.task g gen (clusterOf (coreOf k))
    | .park _ _ _ _ => false
    | .batch n => t.batchDone n
    | .commit drained => t.held && (!drained || t.buffer.isEmpty)
    | .ending => t.passed || t.canPass
    | .over => true

/-- A team becomes ready (R62). -/
def State.makeReady (s : State) (k : Nat) (t : Team) : State :=
  (s.setTeam k { t with wait := none, readyAt := s.moment }).progress (coreOf k) t.part

/-- WAIT_CONDITION_MET (R62). -/
def execWaitConditionMet (k : Nat) (s : State) : Out :=
  match s.team? k with
  | none => .next s
  | some t => if s.waitMet k t then .next (s.makeReady k t) else .next s

/-- PARK_TIMEOUT: the wait of a `park` is over at its deadline (R113). -/
def execParkTimeout (k : Nat) (s : State) : Out :=
  match s.team? k with
  | none => .next s
  | some t =>
    match t.wait with
    | some (.park _ _ _ (some d)) =>
      if decide (d ≤ s.tick) then .next (s.setTeam k { t with wait := some .over }) else .next s
    | _ => .next s

/-- A line's data reaches a waiting team: words returned to it alone at eviction priority 7, and no longer
missing; with its last line it is ready, and Outrider ends (R45, R68, R214). -/
def Team.lineBack (t : Team) (line : Nat) (row : Row) (good : Word) (now : Nat) : Team :=
  match t.wait with
  | some (.fill lines sent evp) =>
    if lines.contains line then
      let rest := lines.filter (fun l => l != line)
      let fills := if evp = 7 then ((List.range 32).filter (bit good ·)).foldl
          (fun m i => Tab.set m (32 * line + i) (rowWord row i)) t.fills
        else t.fills
      if rest.isEmpty then { t.restore with wait := none, readyAt := now, fills := fills }
      else { t with wait := some (.fill rest sent evp), fills := fills }
    else t
  | _ => t

/-- A line comes back to a team: with its last line the wait is over, and a run in Outrider state gives up its pipe (R46, R68,
R363). -/
def State.lineBackTo (s : State) (k : Nat) (t : Team) (line : Nat) (row : Row) (good : Word) : State :=
  let u := t.lineBack line row good s.moment
  let s := s.setTeam k u
  if u.wait.isSome then s
  else
    let s := if t.out.isSome then s.setCore (coreOf k) ((s.core (coreOf k)).dropTeam k) else s
    s.progress (coreOf k) t.part
/-- LINE_FILL_RETURN: the walks of prefetches of the line end (R326); then the line comes to the teams that wait for it, from its home
where a request was sent for it, else from the cluster's cache (R33, R45, R62, R214). -/
def execLineFillReturn (c line : Nat) (s : State) : Out :=
  let here := s.teams.filter (fun e => coreOf e.1 == c && (match e.2.wait with
    | some (.fill lines _ _) => lines.contains line
    | _ => false))
  let s := s.endRefills c line
  match here.head? with
  | none => .next s
  | some e0 =>
    let home := here.any (fun e => match e.2.wait with | some (.fill _ sent _) => sent.contains line | _ => false)
    let row := s.nextLevel c line home
    let good := s.goodWords c line home
    let kept := here.find? (fun e => match e.2.wait with | some (.fill _ _ v) => v != 7 | _ => false)
    let s := match kept with
      | some e => s.bringLine c line (match e.2.wait with | some (.fill _ _ v) => v | _ => 0) (slotOf e.1) home
      | none => (s.touchL2 c line 7).renewCopies c line row good
    let s := here.foldl (fun (s : State) e => s.lineBackTo e.1 e.2 line row good) s
    .next (if home then s.countFill e0.2.part else s)

/-- STORE_REGISTRATION: a store of a core's queue that no older one goes before (R242, R243). -/
def execStoreRegistration (c idx : Nat) (s : State) : Out :=
  let l := (s.core c).stores
  match l[idx]? with
  | none => .next s
  | some p =>
    if (l.take idx).any (fun q => q.before p) then .next s
    else
      let rest := l.take idx ++ l.drop (idx + 1)
      let s := s.setCore c { s.core c with stores := rest }
      .next (s.registerStore c p rest)

/-- SLOT_WRITE_APPLY: a held write of a block takes effect, the oldest of its slot, when no stopped instruction
of the block has fetched the slot (R158). -/
def execSlotWriteApply (bk idx : Nat) (s : State) : Out :=
  match s.block? bk with
  | none => .next s
  | some b =>
    match b.heldWrites[idx]? with
    | none => .next s
    | some h =>
      let held := s.teams.any (fun e => e.2.blk == bk && (match e.2.intr with
        | some i => i.slots.any (fun x => x.1 == h.slot)
        | none => false))
      if held || (b.heldWrites.take idx).any (fun g => g.slot == h.slot) then .next s
      else .next (s.setBlock bk ({ b with heldWrites := b.heldWrites.take idx ++ b.heldWrites.drop (idx + 1) }.applyWrite h))

/-- The words of a store entry of a commit buffer, located, as the team then holds their other bytes; the first address that has no
translation (R249, R294). -/
def State.entryWords (s : State) (c : Nat) (tk : Task) (bytes : List (Nat × Byte)) : Except Nat (List (Nat × Word)) :=
  bytes.foldlM (fun (m : Tab Word) e =>
    match s.locate tk e.1 with
    | none => .error e.1
    | some loc => .ok (Tab.upd m (s.viewWord c (loc / 4)) (loc / 4) (fun w => setByteIn w loc e.2))) []

/-- One entry of a commit buffer, translated now, performed and registered as a store or atomic of the team, after the core's older
stores to its words (R248, R285, R295, R324); a release side first registers the team's prior stores (R243). An entry holds no eviction
priority: its words take priority 0 (R294, log 131). -/
def drainEntry (k : Nat) (t : Team) (s : State) (e : CommitEntry) : Act State :=
  let c := coreOf k
  match s.task? t.task, e with
  | none, _ => pure s
  | some tk, .store _ bytes rel => do
    let va := BitVec.ofNat 64 (bytes.headD (0, 0)).1
    let ws ← match s.entryWords c tk bytes with
      | .ok ws => pure ws
      | .error a => faultAt 1 5 (BitVec.ofNat 64 a)
    ws.forM (fun w => s.reach (dieOf c) (4 * w.1) va)
    let part := fun w => ((bytes.filter (fun b => (s.locate tk b.1).any (fun l => l / 4 == w))).length < 4)
    match ws.findSome? (fun w => if part w.1 && (cached (s.core c).l1 w.1).isNone && s.badFor c w.1
        then Tab.get? s.poisoned w.1 else none) with
    | some d => faultAt 7 d va
    | none => pure ()
    let s ← s.chargeLines t.task (ws.map (·.1))
    let s := if rel.isSome then s.release k else s
    let s := ws.foldl (fun s w => s.queueStore k t 0 rel [w]) s
    pure (s.registerIf c (fun p => p.words.any (fun e => ws.any (fun w => w.1 == e.1))))
  | some tk, .atomic _ aop wide addr v rel => do
    let va := BitVec.ofNat 64 addr
    let loc ← match s.locate tk addr with
      | some l => pure l
      | none => faultAt 1 5 va
    let ws := if wide then [loc / 4, loc / 4 + 1] else [loc / 4]
    s.reach (dieOf c) loc va
    match ws.findSome? (Tab.get? s.poisoned) with
    | some d => faultAt 7 d va
    | none => pure ()
    let s ← s.chargeLines t.task ws
    let s := if rel.isSome then s.release k else s
    pure (atomicMem k t s aop wide rel ws v.toNat 0).2

/-- COMMIT_BUFFER_DRAIN: the token has arrived; the oldest entry is performed (R295); a fault of it is reported at the store or atomic
it is of, wherever the team is by then (R285, R338). -/
def execCommitBufferDrain (k : Nat) (s : State) : Out :=
  match s.team? k with
  | none => .next s
  | some t =>
    match t.buffer with
    | [] => .next s
    | e :: rest =>
      if !t.held || t.fault.isSome || !s.partRuns t.part || !s.taskRuns t.task then .next s
      else match drainEntry k t s e with
        | .ok s =>
          match s.team? k with
          | none => .next s
          | some u => .next (s.setTeam k { u with buffer := rest })
        | .error (.fault x d a g) => .next (s.raiseAt e.pc k t x d a g)
        | .error _ => .next s

/-- CLUSTER_RESUME: the members of the cluster of rank `j` resume no earlier than `j` times SLEW ticks after the
completion, and after the clusters of lower rank (R358). -/
def execClusterResume (k g cl : Nat) (s : State) : Out :=
  match s.task? k with
  | none => .next s
  | some tk =>
    let gs := Tab.get tk.gstate {} g
    match gs.done with
    | none => .next s
    | some d =>
      let j := d.resumed.length
      if d.clusters[j]? == some cl && decide (d.tick + BitVec.ofNat 64 (j * s.slew) ≤ s.tick) then
        let gs := { gs with done := some { d with resumed := d.resumed ++ [cl] } }
        .next (s.setTask k { tk with gstate := Tab.set tk.gstate g gs })
      else .next s

end Sys2Proof.Machine
end

