-- ==== Sys2Proof/Machine/Starter.lean ====
section
/-! DEFINITION. Sys2Proof/Machine/Starter.lean: software queues, notify pages and hardware queue slots (R306 to R312), the
event vector (R313), the checks of a launch record, and admission (R301 to R304, R314, R317). -/
namespace Sys2Proof.Machine

/-! ## Queue descriptors and command records (R306, R307) -/

/-- A queue descriptor (Table 21-2). -/
structure QDesc where
  va : Nat
  ring : Nat
  logn : Nat
  prio : Nat
  weight : Nat
  en : Bool
  npre : Bool
  head : Nat
  tail : Nat

/-- QTSIZE as it is taken (Table 21-9). -/
def Part.queueCount (p : Part) : Nat := min 4096 p.qtsize.toNat

/-- The descriptor of a queue; none past QTSIZE or where the table cannot be read. LOGN, PRIO and RING are used as they stand, a
LOGN outside 1 to 16, a PRIO above 3 and a RING that is not a multiple of 64 too (R306 gives the ranges alone; the model's choice,
log 149). -/
def State.qdesc (s : State) (p q : Nat) : Option QDesc :=
  let x := s.part p
  if x.queueCount ≤ q then none
  else
    let va := x.qtbase.toNat + 32 * q
    (s.vread p va 32).map (fun l =>
      { va := va, ring := fieldB l 0 8, logn := fieldB l 8 1, prio := fieldB l 9 1,
        weight := max 1 (min 16 (fieldB l 10 1)), en := fieldB l 11 1 % 2 == 1, npre := fieldB l 11 1 / 2 % 2 == 1,
        head := fieldB l 12 4, tail := fieldB l 16 4 })
/-- The Starter reads a queue's descriptor: errors in it are found (R375). -/
def State.sawDesc (s : State) (p q : Nat) : State :=
  let x := s.part p
  if x.queueCount ≤ q then s else s.vsaw p (x.qtbase.toNat + 32 * q) 32
/-- The virtual address of command record `k` (R307). -/
def QDesc.record (d : QDesc) (k : Nat) : Nat := d.ring + 64 * (k % 2 ^ d.logn)
/-- What the Starter keeps of a queue: before its first record, the next one is at HEAD. After a rewrite of QTBASE or an FLR it
goes on from the number it holds, whatever the new descriptor's HEAD: the model's choice (R309, log 143). -/
def State.qstate (s : State) (p : Nat) (q : Nat) (d : QDesc) : QueueState :=
  (Tab.get? (s.part p).queues q).getD { next := d.head }
def State.setQstate (s : State) (p q : Nat) (x : QueueState) : State :=
  s.updPart p (fun y => { y with queues := Tab.set y.queues q x })

/-! ## Hardware queue slots (R310, R311) -/

/-- The slot a queue holds. -/
def State.slotOfQueue (s : State) (p q : Nat) : Option Nat :=
  (s.hwSlots.find? (fun e => e.2.part == p && e.2.queue == q)).map (·.1)
/-- A queue takes a slot: its credit is its weight, its latch is cleared. -/
def State.takeSlot (s : State) (slot p q : Nat) (d : QDesc) : State :=
  let s := { s with hwSlots := Tab.set s.hwSlots slot { part := p, queue := q, credit := d.weight } }
  s.updPart p (fun x => { x with pnmap := Tab.erase x.pnmap q })
/-- A notify is latched; a bit already set keeps its timing (R310, R311). -/
def State.latch (s : State) (p q : Nat) : State :=
  s.updPart p (fun x => if (Tab.get? x.pnmap q).isSome then x else { x with pnmap := Tab.set x.pnmap q (some s.tick) })
/-- A record of the queue is between admission and completion. -/
def State.inFlight (s : State) (p q : Nat) : Bool :=
  s.tasks.any (fun e => e.2.part == p && (match e.2.record with | some r => r.1 == q | none => false))
/-- A slot's queue may be unmapped: NPRE 0, no record between admission and completion (R310, step 2). -/
def State.mayUnmap (s : State) (h : HwSlot) : Bool :=
  !s.inFlight h.part h.queue && (match s.qdesc h.part h.queue with | some d => !d.npre | none => false)
/-- A slot whose queue may be unmapped: of several, the first in slot order (R310, log 122). -/
def State.unmappable (s : State) : Option (Nat × HwSlot) := s.hwSlots.find? (fun e => s.mayUnmap e.2)
/-- The lowest free slot. -/
def State.freeSlot (s : State) : Option Nat :=
  (List.range Config.queueSlots).find? (fun i => (Tab.get? s.hwSlots i).isNone)
/-- A notified queue: one whose EN is 0 is latched, whether it holds a slot or not; one that holds a slot keeps it (R310, R311). -/
def State.mapQueue (s : State) (p q : Nat) (d : QDesc) : State :=
  if !d.en then s.latch p q
  else if (s.slotOfQueue p q).isSome then s
  else match s.freeSlot with
    | some i => s.takeSlot i p q d
    | none =>
      match s.unmappable with
      | some (i, h) => (s.latch h.part h.queue).takeSlot i p q d
      | none => s.latch p q
/-- A queue with HEAD = TAIL gives up its slot (R310). -/
def State.releaseSlot (s : State) (p q : Nat) : State :=
  match s.qdesc p q, s.slotOfQueue p q with
  | some d, some i => if d.head = d.tail then { s with hwSlots := Tab.erase s.hwSlots i } else s
  | _, _ => s

/-- A notify of queue `q` of a partition: its TAIL is set; too far beyond HEAD it stops the queue with vector 1; else the queue
takes a slot or is latched, and with nothing pending gives its slot up (R308, R310). A notify that overruns is latched when EN was 0
already (R311); one that stops the queue by itself takes no slot and is not latched: the manual says neither (log 129). -/
def State.notifyQueue (s : State) (p q : Nat) (tail : Word) : State :=
  match s.qdesc p q with
  | none => s.sawDesc p q
  | some d =>
    let s := (s.sawDesc p q).vwrite p (d.va + 16) (bytesOf 4 tail.toNat)
    if 2 ^ d.logn < (tail.toNat + 2 ^ 32 - d.head) % 2 ^ 32 then
      let flags := match s.vread p (d.va + 11) 1 with | some (b :: _) => b | _ => 0
      let s := (s.vwrite p (d.va + 11) [flags &&& ~~~1#8]).irq (some p) 1
      if d.en then s else s.latch p q
    else (s.mapQueue p q d).releaseSlot p q

/-- The part answers the host: firmware runs (R372, R373). -/
def State.up (s : State) : Bool := s.boot == .running
/-- The partition and queue that a write to AP2 notifies: 32 bits at offset 8q of notify page p, of 64 KiB; a virtual function has
its own page alone (R308, R367). -/
def notified (fn : Option Nat) (off n : Nat) : Option (Nat × Nat) :=
  let p := fn.getD (off / 65536)
  if n = 4 ∧ off % 8 = 0 ∧ p < 64 ∧ (fn = none ∨ off < 65536) then some (p, off % 65536 / 8) else none
/-- NOTIFY: an access to AP2. Other writes are ignored, reads return zero (R308). -/
def execNotify (fn : Option Nat) (span : Span) (data : Option DWord) (s : State) : Out :=
  match data, notified fn span.offset span.n with
  | none, _ => .next { s with hostRead := some (0, 0) }
  | some v, some (p, q) => if s.up then .next (s.notifyQueue p q (v.setWidth 32)) else .next s
  | some _, none => .next s

/-- PENDING_NOTIFY_TIMEOUT: once for a latching (R311). -/
def execPendingNotifyTimeout (p q : Nat) (s : State) : Out :=
  let x := s.part p
  match Tab.get? x.pnmap q with
  | some (some t0) =>
    if decide (t0 + x.ntmo.setWidth 64 ≤ s.tick) then
      .next ((s.setPart p { x with pnmap := Tab.set x.pnmap q none }).irq (some p) 1)
    else .next s
  | _ => .next s

/-- The latched queue a freed slot goes to: the next partition in round-robin order, its lowest queue that is
enabled (R311). -/
def State.nextLatched (s : State) : Option (Nat × Nat × QDesc) :=
  ((List.range Config.partitions).map (fun i => (s.lastServed + 1 + i) % Config.partitions)).findSome? (fun p =>
    (s.part p).pnmap.findSome? (fun e =>
      match s.qdesc p e.1 with
      | some d => if d.en then some (p, e.1, d) else none
      | none => none))
/-- A queue is latched no more. -/
def State.unlatch (s : State) (p q : Nat) : State := s.updPart p (fun x => { x with pnmap := Tab.erase x.pnmap q })
/-- A slot goes to a latched queue, which with nothing pending gives it up at once; a queue that holds one already is latched no
more (R310, R311). -/
def State.giveSlot (s : State) (slot p q : Nat) (d : QDesc) : State :=
  ({ (s.sawDesc p q).takeSlot slot p q d with lastServed := p }).releaseSlot p q
/-- SLOT_RELEASE: a free slot, or one whose queue may now be unmapped, goes to a latched queue (R310, R311). -/
def execSlotRelease (slot : Nat) (s : State) : Out :=
  if Config.queueSlots ≤ slot then .next s
  else match s.nextLatched, Tab.get? s.hwSlots slot with
    | none, _ => .next s
    | some (p, q, d), x =>
      if (s.slotOfQueue p q).isSome then .next (s.unlatch p q)
      else match x with
        | none => .next (s.giveSlot slot p q d)
        | some h => if s.mayUnmap h then .next ((s.latch h.part h.queue).giveSlot slot p q d) else .next s

/-! ## Completion of a command record (R309) -/

/-- HEAD moves past every record all of whose predecessors have completed. -/
def advance : Nat → Nat → List Nat → Nat × List Nat
  | 0, h, l => (h, l)
  | n + 1, h, l => if l.contains h then advance n ((h + 1) % 2 ^ 32) (l.filter (fun x => x != h)) else (h, l)
/-- A record completes: its STATUS is written, then HEAD advances; an idle queue gives up its slot. -/
def State.completeRecord (s : State) (p q k : Nat) (status : Word) : State :=
  match s.qdesc p q with
  | none => s.sawDesc p q
  | some d =>
    let s := (s.sawDesc p q).vwrite p (d.record k + 4) (bytesOf 4 status.toNat)
    let x := s.qstate p q d
    let (h, l) := advance (x.done.length + 1) d.head (insertNew x.done k)
    let s := s.vwrite p (d.va + 12) (bytesOf 4 h)
    (s.setQstate p q { x with done := l }).releaseSlot p q

/-- The head record of a queue, when it may proceed (R309): its descriptor, number, bytes. -/
def State.recordReady (s : State) (p q : Nat) : Option (QDesc × Nat × List Byte) :=
  match s.qdesc p q with
  | some d =>
    let x := s.qstate p q d
    if !d.en || x.next == d.tail then none
    else match s.vread p (d.record x.next) 64 with
      | none => none
      | some l =>
        let waiting := s.launches.any (fun e => e.2.part == p && (match e.2.src with | .queue r _ => r == q | _ => false))
        let may := match fieldB l 0 1 with
          | 1 => !waiting
          | 2 | 3 | 4 => x.next == d.head
          | _ => true
        if may then some (d, x.next, l) else none
  | none => none
/-- The same of a queue that holds a slot. -/
def State.headReady (s : State) (p q : Nat) : Option (QDesc × Nat × List Byte) :=
  if (s.slotOfQueue p q).isSome then s.recordReady p q else none

/-- The Starter's choice falls on a slot: the numerically lowest PRIO of those that may proceed, then weighted
round-robin (R312). Answers the part with the credit taken. -/
def State.choose (s : State) (slot : Nat) : Option State :=
  let ready := s.hwSlots.filterMap (fun e =>
    (s.headReady e.2.part e.2.queue).map (fun r => (e.1, e.2, r.1)))
  match ready.find? (fun e => e.1 == slot) with
  | none => none
  | some (_, h, d) =>
    if ready.any (fun e => decide (e.2.2.prio < d.prio)) then none
    else
      let level := ready.filter (fun e => e.2.2.prio == d.prio)
      if 0 < h.credit then some { s with hwSlots := Tab.set s.hwSlots slot { h with credit := h.credit - 1 } }
      else if level.any (fun e => decide (0 < e.2.1.credit)) then none
      else
        let slots := level.foldl (fun m e => Tab.set m e.1 { e.2.1 with credit := e.2.2.weight }) s.hwSlots
        some { s with hwSlots := Tab.set slots slot { h with credit := d.weight - 1 } }

/-- The Starter reads command record `k` of a queue: errors in it and its descriptor are found (R375). -/
def State.sawRecord (s : State) (p q : Nat) (d : QDesc) (k : Nat) : State := (s.sawDesc p q).vsaw p (d.record k) 64
/-- Begins the head record of a queue when it is of a type and the choice falls on it; the queue is serviced, so that its latch is
cleared (R311). The fields of a record that Table 21-3 marks zero for its type are ignored, whatever they hold (R307 gives no effect;
the model's choice, log 150). -/
def recordStep (p q : Nat) (type : Nat → Bool) (s : State) (f : Nat → List Byte → State → State) : Out :=
  match s.slotOfQueue p q, s.headReady p q with
  | some slot, some (d, k, l) =>
    if !type (fieldB l 0 1) then .next s
    else match s.choose slot with
      | none => .next s
      | some s =>
        let x := s.qstate p q d
        .next (f k l (((s.sawRecord p q d k).setQstate p q { x with next := (k + 1) % 2 ^ 32 }).unlatch p q))
  | _, _ => .next s

/-! ## The event vector (R313) -/

/-- A 256-bit mask of a record (Table 21-3). -/
def maskOfRecord (l : List Byte) : BitVec 256 := BitVec.ofNat 256 (fieldB l 32 32)
/-- Launches whose WAIT is set in this reading of the vector become eligible; eligibility is latched (R313). -/
def State.wakeLaunches (s : State) (p : Nat) : State :=
  let v := (s.part p).evec
  { s with launches := Tab.mapVals s.launches (fun l =>
      if l.part == p && (match l.wait with | some w => w &&& v == w | none => false) then { l with eligible := true } else l) }
/-- EVSET (R309). -/
def execEvset (p q : Nat) (s : State) : Out :=
  recordStep p q (· == 2) s (fun k l s =>
    let s := s.updPart p (fun x => { x with evec := x.evec ||| maskOfRecord l })
    (s.wakeLaunches p).completeRecord p q k 1)
/-- EVCLR (R309). -/
def execEvclr (p q : Nat) (s : State) : Out :=
  recordStep p q (· == 3) s (fun k l s =>
    (s.updPart p (fun x => { x with evec := x.evec &&& ~~~maskOfRecord l })).completeRecord p q k 1)
/-- MARK: the store, a release, then the record, then the vector (R309). A team that acquires the word takes every
signature with it. An ADDR that is not a multiple of 8 is stored to as it stands, with STATUS 1: the model's choice (log 144). -/
def execMark (p q : Nat) (s : State) : Out :=
  recordStep p q (· == 4) s (fun k l s =>
    let a := fieldB l 16 8
    let s := match s.vloc p a with
      | none => s.sawWalk p a
      | some loc =>
        let s := (s.sawWalk p a).foreignBytes loc ((l.drop 24).take 8)
        { s with relSig := Tab.set (Tab.set s.relSig (loc / 4) (BitVec.allOnes 512)) (loc / 4 + 1) (BitVec.allOnes 512) }
    let s := s.completeRecord p q k 1
    if fieldB l 1 1 % 2 = 1 then s.irq (some p) 0 else s)
/-- UNKNOWN_TYPE (R309). -/
def execUnknownType (p q : Nat) (s : State) : Out :=
  recordStep p q (fun n => n == 0 || decide (4 < n)) s (fun k _ s => s.completeRecord p q k 0x80000003#32)

/-- Reads the WAIT mask of a launch record; a misaligned record waits for nothing, since it will be refused. WAIT is read as the LAUNCH
record is begun, for eligibility needs it, and the rest at admission (R301, R313, log 130). -/
def State.readWait (s : State) (n : Nat) (l : Launch) : State :=
  let put := fun (w : BitVec 256) (s : State) =>
    { s with launches := Tab.set s.launches n { l with wait := some w, eligible := w &&& (s.part l.part).evec == w } }
  if l.addr.toNat % 512 ≠ 0 then put 0 s
  else match s.vread l.part (l.addr.toNat + 256) 32 with
    | some b => put (BitVec.ofNat 256 (natOfBytes b)) (s.vsaw l.part (l.addr.toNat + 256) 32)
    | none =>
      let s := s.sawWalk l.part (l.addr.toNat + 256)
      let s := { s with launches := Tab.set s.launches n { l with failed := true } }
      s.holdAt l.part l.addr.toNat
/-- LAUNCH_RECORD: the record waits for its events, then for admission (R309, R313). -/
def execLaunchRecord (p q : Nat) (s : State) : Out :=
  recordStep p q (· == 1) s (fun k l s =>
    let n := s.nextLaunch
    { s with nextLaunch := n + 1 }.readWait n { part := p, src := .queue q k, addr := BitVec.ofNat 64 (fieldB l 16 8) })

/-! ## The launch record (R301 to R304) -/

/-- The fields of Table 21-1 of the 512 bytes of a record. -/
def parseRec (l : List Byte) : Rec :=
  let d := fun i => BitVec.ofNat 64 (fieldB l i 8)
  let n := fun i k => fieldB l i k
  { entry := d 0, grid := n 8 4, teams := n 12 1, det := n 13 1 % 2 == 1, outr := n 13 1 / 2 % 2 == 1, lanes := n 14 2,
    regs := n 16 2, maps := n 18 1, prio := n 19 1, scratch := n 20 4, fleet := n 24 4, fmode := BitVec.ofNat 32 (n 28 4),
    privBase := d 32, privSize := n 40 4, floor := n 73 1, dlDepth := n 74 1, dlMax := n 76 4, trapVec := d 80,
    vbudget := n 88 8, undo := d 96, msBase := d 104, msStride := d 112, msOff := n 120 4, msLines := n 124 4,
    fmts := (List.range 8).map (fun i => BitVec.ofNat 128 (n (128 + 16 * i) 16)),
    waitMask := BitVec.ofNat 256 (n 256 32), setMask := BitVec.ofNat 256 (n 288 32),
    qbind := (List.range 8).map (fun i => { kind := n (320 + 4 * i) 1, bank := n (321 + 4 * i) 1 % 32 }) }

/-- Bytes of a partition, or the virtual address whose walk fails (R321). -/
def State.vreadOr (s : State) (p va n : Nat) : Except Nat (List Byte) :=
  match s.vread p va n with | some l => .ok l | none => .error va
/-- A table of `n` elements of `z` bytes, read element by element; the address of the first that cannot be read. -/
def State.readTable (s : State) (p va n z : Nat) : Except Nat (List (List Byte)) :=
  (List.range n).mapM (fun i => s.vreadOr p (va + z * i) z)

/-- A table that may be misaligned, whose elements may then cross a page. -/
def State.readBytewise (s : State) (p va n z : Nat) : Except Nat (List (List Byte)) :=
  (List.range n).mapM (fun i => ((List.range z).mapM (fun j => s.vreadOr p (va + z * i + j) 1)).map List.flatten)

/-- The record and its tables, as the Starter reads them once (R301). A group table or a lease list is read as its count and pointer
say, be they outside Table 21-1, since every check is made (R314); no check looks at a constant. -/
structure RawRec where
  bytes : List Byte
  consts : List (List Byte)
  groups : List (List Byte)
  leases : List (List Byte)
def State.readRecord (s : State) (p va : Nat) : Except Nat RawRec := do
  let l ← s.vreadOr p va 512
  let table := fun (n ptr z : Nat) => if ptr % z ≠ 0 then s.readBytewise p ptr n z else s.readTable p ptr n z
  let cs ← if 1024 < fieldB l 44 2 ∨ fieldB l 48 8 % 4 ≠ 0 then .ok [] else table (fieldB l 44 2) (fieldB l 48 8) 4
  let gs ← table (fieldB l 46 2) (fieldB l 56 8) 16
  let ls ← table (fieldB l 72 1) (fieldB l 64 8) 32
  pure { bytes := l, consts := cs, groups := gs, leases := ls }
/-- The Starter reads the `n` elements of `z` bytes of a table, byte by byte where it is misaligned: errors in them are found. -/
def State.sawTable (s : State) (p : Nat) (t : Nat × Nat × Nat) : State :=
  let (n, va, z) := t
  if va % z ≠ 0 then (List.range (n * z)).foldl (fun s i => s.vsaw p (va + i) 1) s
  else (List.range n).foldl (fun s i => s.vsaw p (va + z * i) z) s
/-- The tables of a record that are read: the constants where their count and place are in range, the groups, the leases. -/
def recordTables (l : List Byte) : List (Nat × Nat × Nat) :=
  (if 1024 < fieldB l 44 2 ∨ fieldB l 48 8 % 4 ≠ 0 then [] else [(fieldB l 44 2, fieldB l 48 8, 4)]) ++
  [(fieldB l 46 2, fieldB l 56 8, 16), (fieldB l 72 1, fieldB l 64 8, 32)]
/-- The Starter reads a launch record and its tables: errors in them are found (R375). -/
def State.sawLaunch (s : State) (p va : Nat) : State :=
  match s.vread p va 512 with
  | none => s.sawWalk p va
  | some l => (recordTables l).foldl (fun s t => s.sawTable p t) (s.vsaw p va 512)

def parseGroup (l : List Byte) : Group :=
  { first := fieldB l 0 4, count := fieldB l 4 4, stride := fieldB l 8 4, teams := BitVec.ofNat 8 (fieldB l 12 1) }
def parseLease (l : List Byte) : Lease :=
  let a := fieldB l 16 4
  { base := fieldB l 0 8, len := fieldB l 8 8, rw := a % 2 == 1, excl := a / 2 % 2 == 1, shared := a / 4 % 2 == 1,
    sliced := a / 8 % 2 == 1 }
def RawRec.lr (r : RawRec) : Rec := parseRec r.bytes
def RawRec.groupTable (r : RawRec) : List Group := r.groups.map parseGroup
def RawRec.leaseList (r : RawRec) : List Lease := r.leases.map parseLease

/-! ## The checks of admission (R314), one for each refusal code -/

/-- The blocks of a group that holds a team. -/
def Group.blocks (g : Group) (T : Nat) : List Nat :=
  if (List.range T).any (fun t => bit g.teams t) then (List.range g.count).map (fun i => g.first + i * g.stride) else []
/-- Adds to a set of blocks those linked to it by a group that spans more than one (R52). -/
def linkBlocks (gs : List Group) (T : Nat) (l : List Nat) : List Nat :=
  gs.foldl (fun l g =>
    let b := g.blocks T
    if b.length ≤ 1 ∨ !b.any (fun x => l.contains x) then l else b.foldl insertNew l) l
/-- The gang of a block (R52). -/
def gangOf (gs : List Group) (T b : Nat) : List Nat := gs.foldl (fun l _ => linkBlocks gs T l) [b]

/-- Group table: counts and strides of at least 1, blocks inside the grid, at most four groups a team (R49, R50). -/
def groupsOk (r : Rec) (gs : List Group) : Bool :=
  gs.all (fun g => decide (1 ≤ g.count) && decide (1 ≤ g.stride) && decide (g.first + (g.count - 1) * g.stride < r.grid)) &&
  (decide (gs.length ≤ 4) || gs.all (fun g => (g.blocks r.teams).all (fun b => (List.range r.teams).all (fun t =>
    decide ((gs.filter (fun h => h.has b t)).length ≤ 4)))))

/-- A quotient, or a bound without one. -/
def divOr (a b : Nat) : Nat := if b = 0 then a else a / b
/-- Scratch lines of a block. -/
def Rec.scratchLines (r : Rec) : Nat := ceilDiv r.scratch 128
/-- Lines of a cluster that blocks of a launch can use for scratch. -/
def Rec.lineRoom (r : Rec) : Nat :=
  Config.linesPerBank * (32 - r.fifoBanks.length - (if r.bindsEsc then 1 else 0))
/-- Vector rows of a block (Table 3-2). -/
def Rec.rows (r : Rec) : Nat := r.teams * (r.regs * ceilDiv r.lanes 32)
/-- R54: a block fits an empty core of an empty cluster. -/
def fitsEmpty (r : Rec) : Bool :=
  decide (r.rows ≤ Config.rowsPerCore) && decide (r.teams ≤ Config.teamSlots) && decide (r.maps ≤ Config.mapSlotsPerCore) &&
  decide (r.scratchLines ≤ r.lineRoom) && decide (r.fleet ≤ Config.tilesPerCluster)
/-- Blocks of a launch that the cores of a partition hold resident at once (R52). -/
def coResident (r : Rec) (ncl : Nat) : Nat :=
  let core := min Config.blockSlots (min (divOr Config.teamSlots r.teams)
    (min (divOr Config.rowsPerCore r.rows) (divOr Config.mapSlotsPerCore r.maps)))
  ncl * min (Config.coresPerCluster * core) (min (divOr r.lineRoom r.scratchLines) (divOr Config.tilesPerCluster r.fleet))
/-- R52: every gang can be co-resident. A block that no group links to another is no gang. -/
def gangsOk (r : Rec) (gs : List Group) (ncl : Nat) : Bool :=
  gs.all (fun g => (g.blocks r.teams).all (fun b =>
    let n := (gangOf gs r.teams b).length
    decide (n ≤ 1) || decide (n ≤ coResident r ncl)))

/-- R150. -/
def formatOk (f : BitVec 128) : Bool :=
  let fmt := field f 0 8
  let rot := field f 8 8
  decide (fmt ≤ 9) && decide (rot ≤ 1) && field f 16 8 == 0 && field f 24 40 == 0 &&
  (rot == 0 || decide (4 ≤ fmt)) && (rot == 1 || field f 64 64 == 0)

/-- One lease entry (R302), and in a deterministic launch R291 and R292. -/
def leaseOk (r : Rec) (raw : List Byte) (l : Lease) : Bool :=
  let top := l.base + l.len - 1
  fieldB raw 16 4 / 16 == 0 && fieldB raw 20 12 == 0 && l.base % 4 == 0 && l.len % 4 == 0 && decide (4 ≤ l.len) &&
  decide (top < 2 ^ 64) && canonical (BitVec.ofNat 64 l.base) && canonical (BitVec.ofNat 64 top) &&
  l.base / 2 ^ 56 == top / 2 ^ 56 &&
  (!r.det || (!(l.shared && l.sliced) && !((l.shared || l.sliced) && !l.rw) &&
    (!l.sliced || (l.len % r.grid == 0 && l.len / r.grid != 0 && l.len / r.grid % 128 == 0))))
/-- Two ranges have a byte in common; an empty range meets none. -/
def meetsRange (a n b m : Nat) : Bool := decide (0 < n) && decide (0 < m) && decide (a < b + m) && decide (b < a + n)
def Lease.meets (a b : Lease) : Bool := meetsRange a.base a.len b.base b.len
/-- No two ranges of a list overlap. -/
def leasesApart : List Lease → Bool
  | [] => true
  | l :: t => t.all (fun m => !l.meets m) && leasesApart t
/-- The lease list (R302, R291, R292). -/
def leaseListOk (r : Rec) (raw : List (List Byte)) (ls : List Lease) : Bool :=
  (raw.zip ls).all (fun e => leaseOk r e.1 e.2) && leasesApart ls

/-- A range lies in a lease. -/
def Lease.holds (l : Lease) (a n : Nat) : Bool := decide (l.base ≤ a) && decide (a + n ≤ l.base + l.len)
/-- The mapped region (R213, R314) and the private areas (R304). -/
def regionsOk (r : Rec) (ls : List Lease) (ncl : Nat) : Bool :=
  (r.msLines == 0 || (decide (r.msOff + 128 * r.msLines ≤ r.scratchBytes) &&
    (List.range r.grid).all (fun b => ls.any (fun l => l.holds (r.backing b 0) (128 * r.msLines))))) &&
  ls.any (fun l => l.rw && l.holds r.privBase.toNat (1024 * r.privSize * ncl))

/-- A contract's share (Table 25-3). -/
def State.share (s : State) (f : Nat) : Nat := min 256 (field (Tab.get s.floors 0 f) 0 9)
/-- A contract that an admitted task names (R359). -/
def State.floorActive (s : State) (f : Nat) : Bool := s.tasks.any (fun e => e.2.lr.floor == f)
/-- R360. -/
def State.floorOk (s : State) (p f : Nat) : Bool :=
  f == 0 || (s.share f != 0 && field (Tab.get s.floors 0 f) 9 6 == p &&
    (s.floorActive f ||
      decide (s.share f + (s.floors.filter (fun e => s.floorActive e.1)).foldl (fun n e => n + s.share e.1) 0 ≤ 256)))

/-- The other fields of Table 21-1, its zero fields, and the undo area against the leases (R341). -/
def fieldsOk (raw : RawRec) (r : Rec) (ls : List Lease) : Bool :=
  let l := raw.bytes
  r.entry.toNat % 8 == 0 && decide (1 ≤ r.grid) && decide (1 ≤ r.teams) && decide (r.teams ≤ 8) && fieldB l 13 1 / 4 == 0 &&
  decide (1 ≤ r.lanes) && decide (r.lanes ≤ 1024) && decide (1 ≤ r.regs) && decide (r.regs ≤ 256) && decide (r.maps ≤ 15) &&
  decide (r.prio ≤ 3) && decide (r.scratch ≤ 33554432) && decide (r.fleet ≤ 32768) && r.fmode &&& ~~~0x11F#32 == 0 &&
  r.privBase.toNat % 128 == 0 && r.privSize % 128 == 0 && decide (36864 ≤ r.privSize) && decide (fieldB l 44 2 ≤ 1024) &&
  decide (fieldB l 46 2 ≤ 256) && fieldB l 48 8 % 4 == 0 && fieldB l 56 8 % 16 == 0 && fieldB l 64 8 % 32 == 0 &&
  decide (fieldB l 72 1 ≤ 64) && decide (r.dlDepth ≤ 7) && fieldB l 75 1 == 0 && decide (r.dlMax ≤ 65535) &&
  r.trapVec.toNat % 8 == 0 && r.vbudget % 128 == 0 && r.undo.toNat % 128 == 0 && r.msBase.toNat % 128 == 0 &&
  r.msStride.toNat % 128 == 0 && r.msOff % 128 == 0 && fieldB l 352 160 == 0 && raw.groups.all (fun g => fieldB g 13 3 == 0) &&
  ls.all (fun m => !meetsRange r.undo.toNat r.vbudget m.base m.len)

/-- Queue bindings (R303). -/
def bindingsOk (raw : RawRec) (r : Rec) : Bool :=
  (List.range 8).all (fun i =>
    let w := fieldB raw.bytes (320 + 4 * i) 4
    decide (w % 256 ≤ 4) && w / 2 ^ 13 == 0 && (w % 256 == 1 || w % 256 == 2 || w / 256 == 0)) &&
  r.qbind.all (fun a => r.qbind.all (fun b =>
    !((a.kind == 1 && b.kind == 2) && a.bank == b.bank)))

/-- The refusal codes that apply to a record (Table 21-5, R314); the grid is the child's own count where
`dlaunch` gave one (R123). -/
def State.refusals (s : State) (p : Nat) (raw : RawRec) (r : Rec) : List Word :=
  let gs := raw.groupTable
  let ls := raw.leaseList
  let ncl := (s.part p).ncl
  (if groupsOk r gs then [] else [0x80000010#32]) ++
  (if gangsOk r gs ncl then [] else [0x80000011#32]) ++
  (if fitsEmpty r then [] else [0x80000012#32]) ++
  (if r.fmts.all formatOk then [] else [0x80000013#32]) ++
  (if leaseListOk r raw.leases ls then [] else [0x80000014#32]) ++
  (if regionsOk r ls ncl then [] else [0x80000015#32]) ++
  (if s.floorOk p r.floor then [] else [0x80000016#32]) ++
  (if fieldsOk raw r ls then [] else [0x80000017#32]) ++
  (if bindingsOk raw r then [] else [0x80000018#32])

/-! ## Admission (R314, R317, R319) -/

/-- A launch held by a failed walk is refused by an abort: a queue's record takes 0x8000_0019; the token of a child not yet
accepted takes 0x8000_0002, that of an accepted one keeps its 1 (R123, R321, log 107). -/
def State.abortLaunch (s : State) (n : Nat) (l : Launch) : State :=
  let s := { s with launches := Tab.erase s.launches n }
  match l.src with
  | .queue q k => s.completeRecord l.part q k 0x80000019#32
  | .child _ uid _ _ tok _ => if l.read.isSome then s else s.writeToken uid tok 0x80000002#32 none
/-- The launch is refused: the status, or the parent's token, and it is gone. -/
def State.refuse (s : State) (n : Nat) (l : Launch) (v : Word) : State :=
  let s := { s with launches := Tab.erase s.launches n }
  match l.src with
  | .queue q k => s.completeRecord l.part q k v
  | .child _ uid _ _ tok _ => s.writeToken uid tok v none

/-- The parent's limit refuses every further `dlaunch`: its DLDEPTH is 0, or its block's count reaches DLMAX (R317). -/
def limitReached (parent : Task) (call : Nat) : Bool := parent.lr.dlDepth == 0 || decide (parent.lr.dlMax ≤ call)
/-- R317: the refusals of a child whose record is read, lowest first. -/
def childRefusals (parent : Task) (codes : List Word) (r : Rec) (ls : List Lease) : List Word :=
  (if codes != [] || r.waitMask != 0 || (parent.det && !r.det) then [0x80000002#32] else []) ++
  (if parent.lr.dlDepth ≤ r.dlDepth then [0x80000003#32] else []) ++
  (if ls.all (fun l => parent.leases.any (fun q => q.holds l.base l.len && (q.rw || !l.rw))) then [] else [0x80000004#32])

/-- The Starter reads the record and its tables, once, and makes every check: the launch is refused, or goes
on to its walks; an accepted child's token is written (R301, R314, R317). Of several outcomes of a `dlaunch` the parent's limit goes
before a misaligned record, and that before the checks of the record; an aligned record outside the leases has faulted at issue (R123,
log 117). The count that a `dlaunch` gives replaces the record's before the check of GRID, so that a record of GRID 0 is then accepted
(R123 against R314; the model's choice, log 151). -/
def State.checkLaunch (s : State) (n : Nat) (l : Launch) : State :=
  let limit := match l.src with
    | .queue _ _ => false
    | .child pk _ _ call _ _ => match s.task? pk with | some pt => limitReached pt call | none => false
  if limit then s.refuse n l 0x80000003#32
  else if l.addr.toNat % 512 ≠ 0 then s.refuse n l 0x80000001#32
  else match s.readRecord l.part l.addr.toNat with
    | .error va =>
      let s := s.sawLaunch l.part l.addr.toNat
      let s := { s with launches := Tab.set s.launches n { l with failed := true } }
      s.holdAt l.part va
    | .ok raw =>
      let s := s.sawLaunch l.part l.addr.toNat
      let r := raw.lr
      let r := match l.src with
        | .child _ _ _ _ _ c => if c = 0 then r else { r with grid := c }
        | .queue _ _ => r
      let ls := raw.leaseList
      let codes := s.refusals l.part raw r
      let codes := match l.src with
        | .queue _ _ => codes
        | .child pk _ _ _ _ _ =>
          match s.task? pk with
          | none => [0x80000002#32]
          | some pt => childRefusals pt codes r ls
      match codes with
      | v :: _ => s.refuse n l v
      | [] =>
        let cs := raw.consts.map (fun b => BitVec.ofNat 32 (natOfBytes b))
        let s := { s with launches := Tab.set s.launches n { l with read := some (r, cs, raw.groupTable, ls) } }
        match l.src with
        | .queue _ _ => s
        | .child _ uid _ _ tok _ => s.writeToken uid tok 1 (some 0)

/-- The root of the family a launch belongs to (R318). -/
def State.rootOf (s : State) (l : Launch) : Option Nat :=
  match l.src with
  | .queue _ _ => none
  | .child pk _ _ _ _ _ => (s.task? pk).map (·.root)
/-- The holds of R297 and R343 against the partition's tasks outside the family, whose leases are ranges of one virtual space, and
the lease table (R314, R319). -/
def State.held (s : State) (l : Launch) (r : Rec) (ls : List Lease) : Bool :=
  let root := s.rootOf l
  s.tasks.any (fun e => e.2.part == l.part && (match root with | some k => e.2.root != k | none => true) &&
    ls.any (fun a => e.2.leases.any (fun b => a.meets b &&
      ((e.2.det && a.rw) || (r.det && b.rw) || a.excl || b.excl)))) ||
  decide (4096 < ls.length +
    (s.tasks.filter (fun e => e.2.part == l.part)).foldl (fun n e => n + e.2.leases.length) 0)

/-- A request for a mode of a bank (R211): REQ reads it; in a transition or a reservation it waits for its end. -/
def Bank.request (b : Bank) (m : BankMode) : Bank :=
  if b.esc || b.trans then { b with req := m, next := some m }
  else if m = b.mode then { b with req := m }
  else { b with req := m, aim := m, trans := true }
/-- The Starter asks for a bank that a launch binds: FIFO mode with the bound width (R211, R279). A bank in FIFO mode
with the other width first leaves it. While a switch to FIFO mode is pending, the width asked for first stands. -/
def Bank.askFifo (b : Bank) (line : Bool) : Bank :=
  if (b.trans && b.aim == .fifo) || b.next == some .fifo then b else
  let b := { b with fw := line }
  if b.mode = .fifo && b.width != line && !b.trans && !b.esc then
    { b with req := .fifo, aim := .cache, trans := true, next := some .fifo }
  else b.request .fifo
/-- The banks a launch binds, asked for on a cluster. -/
def State.askBanks (s : State) (r : Rec) (cl : Nat) : State :=
  s.setCluster cl (r.qbind.foldl (fun (c : Cluster) q =>
    if q.kind == 1 || q.kind == 2 then
      let b := c.bank q.bank
      if b.mode = .fifo && b.width == (q.kind == 2) && !b.trans then c else c.setBank q.bank (b.askFifo (q.kind == 2))
    else c) (s.cluster cl))

/-- What the teams of a launch have acquired when they start: a child what its parent carried, a launch that waits on events what the
commits that set them carried; else nothing (R246, Table 15-1, log 96). -/
def Launch.startSig (l : Launch) (events : Sig) : Sig :=
  l.sig ||| (match l.wait with | some w => if w = 0 then 0 else events | none => 0)
/-- Admits a launch whose pages are pinned and that nothing holds: an identifier, TASK written, the task (R314). -/
def State.admitLaunch (s : State) (n : Nat) (l : Launch) (r : Rec) (cs : List Word) (gs : List Group) (ls : List Lease)
    (pins : List Pin) : State :=
  let key := s.nextKey
  let id := (s.part l.part).nextTask
  let s := { s with nextKey := key + 1, launches := Tab.erase s.launches n }
  let s := s.updPart l.part (fun x => { x with nextTask := id + 1 })
  let base : Task :=
    { startSig := l.startSig (s.part l.part).evSig, part := l.part, id := id, lr := r, consts := cs, groups := gs, leases := ls, pins := pins, root := key }
  let tk := match l.src with
    | .queue q k => { base with record := some (q, k) }
    | .child pk _ b call _ _ =>
      { base with parent := some pk, number := (b, call), root := ((s.task? pk).map (·.root)).getD key }
  let s := s.setTask key tk
  let s := match l.src with
    | .queue q k =>
      match s.qdesc l.part q with
      | some d => (s.sawDesc l.part q).vwrite l.part (d.record k + 8) (bytesOf 8 id.toNat)
      | none => s.sawDesc l.part q
    | _ => s
  (s.part l.part).clusterList.foldl (fun s cl => s.askBanks r cl) s

/-- ADMISSION: an eligible launch is checked, then held until its walks are done and nothing overlaps, then admitted;
or refused (R314). -/
def execAdmission (n : Nat) (s : State) : Out :=
  match Tab.get? s.launches n with
  | none => .next s
  | some l =>
    if l.failed then .next s
    else if l.wait.isNone then .next (s.readWait n l)
    else if !l.eligible then .next s
    else match l.read, l.pins with
      | none, _ => .next (s.checkLaunch n l)
      | some (r, cs, gs, ls), some pins => if s.held l r ls then .next s else .next (s.admitLaunch n l r cs gs ls pins)
      | some _, none => .next s

end Sys2Proof.Machine
end

