-- ==== Sys2Proof/Machine/Place.lean ====
section
/-! DEFINITION. Sys2Proof/Machine/Place.lean: dispatch of blocks (R36, R39, R52 to R54, R275, R279, R286, R296, R315), claims
on halted teams (R346) and the reload of spilled items (R347). -/
namespace Sys2Proof.Machine

/-! ## What is free (Table 3-2) -/

/-- Rows in use on a core: its resident teams', but those in the save area. -/
def State.rowsUsed (s : State) (c : Nat) : Nat :=
  s.teams.foldl (fun n e => if !isSpilled e.1 && !e.2.rowsSpilled && coreOf e.1 == c then n + e.2.regs * e.2.words else n) 0
/-- Map slots in use on a core. -/
def State.slotsUsed (s : State) (c : Nat) : Nat :=
  s.blocks.foldl (fun n e => if e.2.core == c && !e.2.slotsSpilled then
    n + (match s.task? e.2.task with | some tk => tk.lr.maps | none => 0) else n) 0
/-- Fleeting tiles in use on a cluster; they are never claimed (R346). -/
def State.tilesUsed (s : State) (cl : Nat) : Nat :=
  s.blocks.foldl (fun n e => if clusterOf e.2.core == cl then n + e.2.tiles.length else n) 0
/-- Scratch lines in use in a bank. -/
def State.linesUsed (s : State) (cl b : Nat) : Nat :=
  s.blocks.foldl (fun n e => if clusterOf e.2.core == cl && !e.2.linesSpilled then
    n + (e.2.banks.filter (fun x => x.1 == b)).foldl (fun m x => m + x.2) 0 else n) 0
/-- The free team slots of a core, as keys, lowest first. -/
def State.freeTeamSlots (s : State) (c : Nat) : List Nat :=
  ((List.range Config.teamSlots).map (32 * c + ·)).filter (fun k => (s.team? k).isNone)
/-- The free block slot of a core, as a key. -/
def State.freeBlockSlot (s : State) (c : Nat) : Option Nat :=
  ((List.range Config.blockSlots).map (16 * c + ·)).find? (fun k => (s.block? k).isNone)

/-! ## Banks -/

/-- The partition of a block. -/
def State.partOfBlock (s : State) (b : Block) : Nat := match s.task? b.task with | some tk => tk.part | none => 0
/-- A FIFO bank is bound by a launch with a block resident on the cluster. -/
def State.bankBound (s : State) (cl b : Nat) : Bool :=
  s.blocks.any (fun e => clusterOf e.2.core == cl &&
    (match s.task? e.2.task with | some tk => tk.lr.fifoBanks.contains b | none => false))
/-- A FIFO bank is bound by an admitted launch of a partition whose cluster table includes the cluster (R275). -/
def State.bankNamed (s : State) (cl b : Nat) : Bool :=
  s.bankBound cl b || s.tasks.any (fun e => e.2.lr.fifoBanks.contains b && (s.part e.2.part).clusterList.contains cl)
/-- The bank takes scratch lines: in scratch mode, or in transition toward it with REQ still scratch, and not reserved (R211,
R275). -/
def Bank.takesLines (b : Bank) : Bool :=
  !b.esc && ((b.mode == .scratch && !b.trans) || (b.trans && b.aim == .scratch && b.req == .scratch))
/-- Takes `n` scratch lines from banks, first those that hold or are to hold scratch, then banks in cache
mode, then those in FIFO mode, that no launch names, which are asked to switch (R209, R211). -/
def State.takeLines (s : State) (cl : Nat) (n : Nat) : Option (List (Nat × Nat) × State) :=
  let c := s.cluster cl
  let all := List.range 32
  let ready := all.filter (fun b => (c.bank b).takesLines)
  let spare := fun (m : BankMode) => all.filter (fun b =>
    (c.bank b).mode == m && !(c.bank b).trans && !(c.bank b).esc && !s.bankNamed cl b)
  let (left, got, c) := (ready ++ spare .cache ++ spare .fifo).foldl (fun (r : Nat × List (Nat × Nat) × Cluster) b =>
    let room := min r.1 (Config.linesPerBank - s.linesUsed cl b)
    if room = 0 then r
    else
      let x := r.2.2.bank b
      (r.1 - room, r.2.1 ++ [(b, room)], if x.takesLines then r.2.2 else r.2.2.setBank b (x.request .scratch))) (n, [], c)
  if left = 0 then some (got, s.setCluster cl c) else none

/-- A bank in FIFO mode with the bound width, whatever switch waits there: it is deferred while a resident launch binds the bank (R211,
R279). -/
def Bank.boundAs (b : Bank) (line : Bool) : Bool := b.mode == .fifo && b.width == line
/-- Every bank a launch binds is so on a cluster. -/
def State.banksReady (s : State) (r : Rec) (cl : Nat) : Bool :=
  r.qbind.all (fun q => !(q.kind == 1 || q.kind == 2) || ((s.cluster cl).bank q.bank).boundAs (q.kind == 2))
/-- The resident blocks of a partition bind a FIFO bank of a cluster. -/
def State.partBinds (s : State) (cl b q : Nat) : Bool :=
  s.blocks.any (fun e => clusterOf e.2.core == cl &&
    (match s.task? e.2.task with | some tk => tk.part == q && tk.lr.fifoBanks.contains b | none => false))
/-- A partition other than one named that runs binds a FIFO bank by a resident block: the FIFO is shared with it, and its entries
stay (R279). -/
def State.bankShared (s : State) (p cl b : Nat) : Bool :=
  s.blocks.any (fun e => clusterOf e.2.core == cl &&
    (match s.task? e.2.task with | some tk => tk.part != p && tk.lr.fifoBanks.contains b && s.partRuns tk.part | none => false))
/-- The partitions whose resident blocks bind a FIFO bank. -/
def State.binders (s : State) (cl b : Nat) : List Nat :=
  s.blocks.foldl (fun l e => if clusterOf e.2.core == cl then
    (match s.task? e.2.task with | some tk => if tk.lr.fifoBanks.contains b then insertNew l tk.part else l | none => l) else l) []
/-- The entries of a bank go to its owner's save area (R346). -/
def Bank.handOver (b : Bank) : Bank :=
  match b.owner with
  | some q => { b with owner := none, fifo := [], saved := Tab.set b.saved q (b.width, b.fifo) }
  | none => b
/-- Halted partitions give up a FIFO bank: its entries to the owner's save area; another binder that shared them finds none of its
own when it comes back (R346, log 109). -/
def State.handBank (s : State) (p cl b : Nat) : Bank :=
  let y := ((s.cluster cl).bank b).handOver
  ((s.binders cl b).filter (fun q => q != p && (Tab.get? y.saved q).isNone)).foldl
    (fun (y : Bank) q => { y with saved := Tab.set y.saved q (y.width, []) }) y
/-- Entries of a halted partition must leave a FIFO bank before a launch of another uses it: the bank has the other width, the other's
own entries come back, or the other is new to it (R279, R346). A bank that a running partition binds too is shared as it is. -/
def State.mustHand (s : State) (p cl b : Nat) (line : Bool) : Bool :=
  let x := (s.cluster cl).bank b
  x.mode == .fifo && !s.bankShared p cl b &&
  (match x.owner with
   | none => false
   | some q => q != p && (x.width != line || (Tab.get? x.saved p).isSome ||
       (s.partBinds cl b q && !s.partBinds cl b p)))
/-- A launch of a partition takes a bank it binds that is in FIFO mode with the bound width: its own entries come back, else those
that stand there stay (R279, R347). -/
def Bank.takenBy (b : Bank) (p : Nat) (keeps : Bool) : Bank :=
  match Tab.get? b.saved p with
  | some m => { b with owner := some p, fifo := m.2, saved := Tab.erase b.saved p }
  | none => if b.owner.isSome && keeps then b else { b with owner := some p }
/-- Every task of a partition takes the fault of its save area, once (R349). -/
def State.saveFault (s : State) (p detail : Nat) : State :=
  let r : FaultRec := { cls := 7, detail := detail }
  { s with tasks := Tab.mapVals s.tasks (fun tk =>
      if tk.part == p && !tk.faults.contains r then { tk with faults := tk.faults ++ [r] } else tk) }
/-- The detail of an uncorrectable word of the save area of a partition (R349). -/
def State.saveBad (s : State) (p : Nat) : Option Nat :=
  let x := s.part p
  (s.poisoned.find? (fun e =>
    decide (x.saveBase.toNat ≤ 4 * e.1) && decide (4 * e.1 < x.saveBase.toNat + x.saveSize.toNat * 2 ^ 20))).map (·.2)
/-- The fault of a partition whose save area, or an item written to it, holds an uncorrectable error (R349). -/
def State.saveMeets (s : State) (p : Nat) (bad : Option Nat) : State :=
  match s.saveBad p, bad with
  | some d, _ => s.saveFault p d
  | none, some d => s.saveFault p d
  | none, none => s
/-- A partition's entries of a FIFO bank are in the save area while a running partition uses the bank: they cannot come back (log
109). -/
def State.bankBusy (s : State) (p cl b : Nat) : Bool :=
  (Tab.get? ((s.cluster cl).bank b).saved p).isSome && s.bankShared p cl b
/-- The bound banks of a cluster are a partition's to use: entries of halted ones leave, its own come back (R279, R346, R347); an
error that the spill or the reload meets is a fault of the entries' owner (R349). -/
def State.claimBanks (s : State) (p : Nat) (r : Rec) (cl : Nat) : State :=
  r.fifoBanks.foldl (fun (s : State) b =>
    let x := (s.cluster cl).bank b
    let line := r.qbind.any (fun q => q.kind == 2 && q.bank == b)
    if x.mode != .fifo || s.bankShared p cl b then s
    else
      let hand := s.mustHand p cl b line
      let usable := x.boundAs line
      let s := match x.owner with
        | some q => if hand then s.saveMeets q (if x.fifo.any (·.bad) then some 3 else none) else s
        | none => s
      let s := if usable && (Tab.get? x.saved p).isSome then s.saveMeets p none else s
      let x := if hand then s.handBank p cl b else x
      let keeps := match x.owner with | some q => s.partBinds cl b q | none => false
      s.setCluster cl ((s.cluster cl).setBank b (if usable then x.takenBy p keeps else x))) s

/-- A bank can serve the Escapement: in cache mode or in scratch mode, without lines, no switch pending toward FIFO mode (R211,
R275). Lines may already be placed in a bank in cache mode that is in transition: it is not chosen, for the bank is to be empty (log 154). -/
def State.escBankFits (s : State) (cl b : Nat) : Bool :=
  let x := (s.cluster cl).bank b
  !(x.trans && x.aim == .fifo) && x.next != some .fifo &&
  (x.mode == .cache || x.mode == .scratch) && s.linesUsed cl b == 0
/-- A bank the Starter may reserve for the Escapement: no launch names it, and it can serve (R275). -/
def State.escBankFree (s : State) (r : Rec) (cl b : Nat) : Bool :=
  !s.bankNamed cl b && !r.fifoBanks.contains b && s.escBankFits cl b
/-- ESCAPEMENT_BANK_RESERVE: the highest bank that may be reserved; for a launch whose counters are in the save area the one they stood
in (R275, R347). -/
def State.reserveEsc (s : State) (key : Nat) (r : Rec) (cl : Nat) : State :=
  let c := s.cluster cl
  let all := match c.graph with
    | some g => if g.task = key && g.spilled then [g.bank].filter (s.escBankFits cl)
      else (List.range 32).filter (s.escBankFree r cl)
    | none => (List.range 32).filter (s.escBankFree r cl)
  if c.escBank.isSome then s
  else
    match all.getLast? with
    | none => s
    | some b =>
      let x := c.bank b
      let x := if x.mode = .cache && !x.trans then x.request .scratch else x
      s.setCluster cl { c.setBank b { x with esc := true } with escBank := some b }
/-- The counters of a launch's graph come back when the Escapement has their bank; an error of the save area is a fault of their owner
(R282, R347, R349). -/
def State.countersBack (s : State) (key cl : Nat) : State :=
  match (s.cluster cl).graph, s.task? key with
  | some g, some tk =>
    if g.task = key && g.spilled && s.escServes key cl then
      let s := s.saveMeets tk.part none
      s.setCluster cl { s.cluster cl with graph := some { g with spilled := false } }
    else s
  | _, _ => s

/-! ## Placing one block (R53, R54) -/

/-- The state of a team at its first issue (R39). -/
def startTeam (tk : Task) (key uid blk b j now : Nat) : Team :=
  { uid := uid, task := key, blk := blk, block := b, team := j, part := tk.part, lanes := tk.lr.lanes, regs := tk.lr.regs,
    pc := tk.lr.entry, active := lanesBelow tk.lr.lanes, s := ((List.range 63).zip tk.consts).map (fun e => (e.1 + 1, e.2)),
    fmode := tk.lr.fmode, readyAt := now, runEnd := now, carried := tk.startSig }

/-- Every clean word leaves the caches of a core and its cluster, and every word its instruction cache: what the host and
committed tasks wrote before the launch is seen (R89, R255). -/
def State.freshCaches (s : State) (c : Nat) : State :=
  let s := s.onCaches c (keepOwned [] c)
  s.setCore c { s.core c with icache := [] }

/-- The current cap of R47 of a partition is 16 at its first team on a core. -/
def Core.firstCaps (x : Core) (p : Nat) : Core := { x with caps := Tab.set (Tab.set x.caps (2 * p) 16) (2 * p + 1) 16 }
/-- A team of the partition resides on the core. -/
def State.partOnCore (s : State) (p c : Nat) : Bool :=
  s.teams.any (fun e => e.2.part == p && coreOf e.1 == c && !isSpilled e.1)

/-- Places a block on a core, when every resource is free there in full (R54). The manual says not which free team slots, and so
which pipes, its teams take: here the lowest, in team order (log 103). -/
def State.placeBlock (s : State) (key b c : Nat) : Option State := do
  let tk ← s.task? key
  let r := tk.lr
  let cl := clusterOf c
  let slots := s.freeTeamSlots c
  let bk ← s.freeBlockSlot c
  if !(s.part tk.part).clusterList.contains cl || decide (Config.rowsPerCore < s.rowsUsed c + r.rows) ||
      decide (slots.length < r.teams) || decide (Config.mapSlotsPerCore < s.slotsUsed c + r.maps) ||
      decide (Config.tilesPerCluster < s.tilesUsed cl + r.fleet) || !s.banksReady r cl || (r.bindsEsc && !s.escServes key cl) ||
      r.fifoBanks.any (s.bankBusy tk.part cl)
  then none
  else
    let (banks, s) ← s.takeLines cl r.scratchLines
    let s := s.claimBanks tk.part r cl
    let s := if r.bindsEsc then s.countersBack key cl else s
    let s := if s.partOnCore tk.part c then s else s.setCore c ((s.core c).firstCaps tk.part)
    let s := s.freshCaches c
    let x : Block := { task := key, block := b, core := c, banks := banks,
                       tiles := (List.range r.fleet).map (fun i => (i, { birth := s.sample, visit := s.tick })) }
    let s := s.setBlock bk x
    let uid := s.nextKey
    let s := ((List.range r.teams).zip slots).foldl (fun (s : State) e =>
      s.setTeam e.2 (startTeam tk key (uid + e.1) bk b e.1 s.moment)) { s with nextKey := uid + r.teams }
    let s := s.setTask key { (s.task? key).getD tk with dispatched := insertNew tk.dispatched b }
    some (((List.range r.teams).zip slots).foldl (fun (s : State) e =>
      if tk.det && tk.teamId b e.1 == tk.tokenAt && s.tokenStarts tk then s.tokenArrives key e.2 tk.tokenSig else s) s)

/-! ## Claims (R346, R349) -/

/-- Items of a partition, with the detail of an uncorrectable error among them if any, are written to its save area; or its tasks
take the fault (R349). -/
def State.saved (s : State) (p : Nat) (bad : Option Nat) (f : State → State) : State :=
  if (s.saveBad p).isSome || bad.isSome then s.saveMeets p bad else f s

/-- A team whose items a partition may claim: halted or parked, of another partition; of its own, parked, when it reloads (R64,
R346). -/
def State.claimable (s : State) (p : Nat) (own : Bool) (k : Nat) (t : Team) : Bool :=
  !isSpilled k && (if t.part = p then own && t.parked else s.inPlace t || t.parked)
/-- A block whose map slots and scratch lines a partition may claim: another's, no team of which can issue. -/
def State.blockClaimable (s : State) (p blk : Nat) (b : Block) : Bool :=
  match s.task? b.task with
  | none => false
  | some tk => tk.part != p && s.teams.all (fun e => e.2.blk != blk || s.inPlace e.2 || e.2.parked)

/-- A team as its rows go to the save area: at its checkpoint. A parked team of a partition that runs is evicted, not halted: once its
own items are back it waits for no team of its block (R64, R345, R347). -/
def State.evicted (s : State) (t : Team) (rows : Bool) : Team :=
  { t.restore with halted := t.halted || s.inPlace t, awaitsBlock := t.awaitsBlock || s.inPlace t, rowsSpilled := rows }
/-- Spills a team to its partition's save area: its rows and its slot are free. Its stores are registered first (R253). -/
def State.spill (s : State) (k : Nat) (t : Team) : State :=
  let s := s.release k
  let s := { s with teams := Tab.set (Tab.erase s.teams k) (spillKey t.uid k) (s.evicted t false) }
  s.setCore (coreOf k) ((s.core (coreOf k)).dropTeam k)
/-- The counters of a cluster's Escapement go to the save area; their bank is free, and a switch asked for meanwhile starts (R275,
R346). -/
def State.spillCounters (s : State) (cl : Nat) (g : Graph) : State :=
  let c := s.cluster cl
  match c.escBank with
  | none => s
  | some b => s.setCluster cl { c.setBank b (c.bank b).unreserve with
      graph := some { g with spilled := true, bank := b }, escBank := none }
/-- One claim (R346); an item that is not there, or may not be claimed, stays. -/
def State.claimOne (s : State) (p : Nat) (own : Bool) (c : Claim) : State :=
  match c with
  | .team k =>
    match s.team? k with
    | some t => if s.claimable p own k t then s.saved t.part (if t.bad.isEmpty then none else some 4) (·.spill k t) else s
    | none => s
  | .rows k =>
    match s.team? k with
    | some t => if s.claimable p own k t && !t.rowsSpilled then s.saved t.part (if t.bad.isEmpty then none else some 4) (fun s =>
        (s.release k).setTeam k (s.evicted t true)) else s
    | none => s
  | .slots blk =>
    match s.block? blk with
    | some b => if s.blockClaimable p blk b then s.saved (s.partOfBlock b) (if b.badSlots.isEmpty then none else some 4)
        (·.setBlock blk { b with slotsSpilled := true }) else s
    | none => s
  | .lines blk =>
    match s.block? blk with
    | some b => if s.blockClaimable p blk b then s.saved (s.partOfBlock b) (if b.badWords.isEmpty then none else some 3)
        (·.setBlock blk { b with linesSpilled := true }) else s
    | none => s
  | .counters cl =>
    match (s.cluster cl).graph with
    | some g =>
      match s.task? g.task with
      | some tk => if tk.part != p && !s.partRuns tk.part && !g.spilled then
          s.saved tk.part (if g.bad then some 3 else none) (·.spillCounters cl g) else s
      | none => s
    | none => s
/-- The claims of a partition, in order. -/
def State.claim (s : State) (p : Nat) (own : Bool) (l : List Claim) : State := l.foldl (fun s c => s.claimOne p own c) s

/-! ## The Starter's order (R52, R286, R296, R315) -/

/-- A lower-numbered child can no longer arise, and every one there is has been dispatched (R296). -/
def State.childDispatches (s : State) (tk : Task) : Bool :=
  match tk.parent with
  | none => true
  | some pk =>
    match s.task? pk with
    | none => false
    | some pt =>
      !pt.det ||
      ((List.range tk.number.1).all (fun b => pt.exited.contains b) && decide (tk.number.2 ≤ Tab.get pt.calls 0 tk.number.1) &&
      s.tasks.all (fun e => e.2.parent != some pk || !numberBefore e.2.number tk.number ||
        decide (e.2.dispatched.length = e.2.lr.grid)) &&
      s.launches.all (fun e => match e.2.src with
        | .child qk _ b call _ _ => qk != pk || !numberBefore (b, call) tk.number
        | .queue _ _ => true))
/-- The lowest block not dispatched. -/
def Task.nextBlock (tk : Task) : Option Nat :=
  ((List.range (tk.dispatched.length + 1)).find? (fun b => !tk.dispatched.contains b)).bind
    (fun b => if b < tk.lr.grid then some b else none)
/-- Blocks go to the cores named. -/
def State.placeAll (s : State) (key : Nat) (l : List (Nat × Nat)) : Option State :=
  l.foldlM (fun s e => s.placeBlock key e.1 e.2) s
/-- The cores of a partition. -/
def Part.cores (p : Part) : List Nat := p.clusterList.flatMap (fun cl => (List.range 32).map (32 * cl + ·))
/-- The first core a block fits on. -/
def State.coreFor (s : State) (key b : Nat) : Option (Nat × State) :=
  match s.task? key with
  | none => none
  | some tk => (s.part tk.part).cores.findSome? (fun c => (s.placeBlock key b c).map (fun s' => (c, s')))
/-- Places for blocks that go together, taking cores in order; none when they do not all fit. -/
def State.findPlaces (s : State) (key : Nat) : List Nat → Option (List (Nat × Nat))
  | [] => some []
  | b :: rest =>
    match s.coreFor key b with
    | none => none
    | some (c, s') => (s'.findPlaces key rest).map (fun l => (b, c) :: l)
/-- What a launch dispatches next: the gang of its lowest block left, with every block between in a deterministic launch. -/
def Task.nextGang (tk : Task) : List Nat :=
  match tk.nextBlock with
  | none => []
  | some b =>
    let g := gangOf tk.groups tk.lr.teams b
    if tk.det then
      let top := g.foldl max b
      let span := (List.range (top + 1 - b)).map (b + ·)
      let g := span.foldl (fun l x => (gangOf tk.groups tk.lr.teams x).foldl insertNew l) []
      (List.range (g.foldl max b + 1 - b)).map (b + ·)
    else g
/-- The lowest block left that no group of more than one block holds. -/
def Task.loneBlock (tk : Task) : List Nat :=
  let linked := tk.groups.flatMap (fun g => let b := g.blocks tk.lr.teams; if b.length ≤ 1 then [] else b)
  ((List.range (tk.dispatched.length + linked.length + 1)).find? (fun b =>
    !tk.dispatched.contains b && !linked.contains b && decide (b < tk.lr.grid))).toList
/-- The gangs a launch may dispatch: in a deterministic launch the next alone; in another the lowest block that stands for itself, which
fits where any such block does, and every gang of a group that is left (R52, R286, R315). -/
def Task.nextGangs (tk : Task) : List (List Nat) :=
  if tk.det then [tk.nextGang].filter (· != [])
  else tk.loneBlock.map ([·]) ++ tk.groups.filterMap (fun g => match g.blocks tk.lr.teams with
    | b :: _ :: _ => if tk.dispatched.contains b then none else some (gangOf tk.groups tk.lr.teams b)
    | _ => none)
/-- The gang that a launch dispatches now, with its places: of those that fit the one with the lowest block (R315). -/
def State.fittingGang (s : State) (key : Nat) (tk : Task) : Option (List (Nat × Nat)) :=
  (tk.nextGangs.filterMap (fun g => (s.findPlaces key g).map (fun l => (g.foldl min (g.headD 0), l)))).foldl (fun m e =>
    match m with
    | none => some e
    | some x => if e.1 < x.1 then some e else some x) none |>.map (·.2)
/-- A launch may dispatch, and a gang of its blocks fits. -/
def State.dispatchable (s : State) (key : Nat) : Bool :=
  match s.task? key with
  | none => false
  | some tk => s.partRuns tk.part && s.taskRuns key && s.childDispatches tk && (s.fittingGang key tk).isSome
/-- A launch goes before another: a lower PRIO, or the same and admitted first (R315). -/
def State.goesBefore (s : State) (j key : Nat) : Bool :=
  match s.task? j, s.task? key with
  | some a, some b => a.part == b.part && (decide (a.lr.prio < b.lr.prio) || (a.lr.prio == b.lr.prio && decide (j < key)))
  | _, _ => false

/-- The blocks named may be dispatched together now: whole gangs, none dispatched; in a deterministic launch no
block before a lower one; in another, gangs go in the order of their lowest blocks, and a block left behind below is one
that does not fit (R52, R285, R286, R315). -/
def State.inOrder (s : State) (key : Nat) (tk : Task) (l : List Nat) : Bool :=
  let bs := l.foldl insertNew []
  !l.isEmpty && bs.length == l.length && l.all (fun b => decide (b < tk.lr.grid) && !tk.dispatched.contains b) &&
  l.all (fun b => (gangOf tk.groups tk.lr.teams b).all (fun x => l.contains x)) &&
  (let left := fun top => (List.range top).filter (fun b => !tk.dispatched.contains b && !l.contains b)
   if tk.det then (left (l.foldl max 0)).isEmpty
   else (left ((l.map (fun b => (gangOf tk.groups tk.lr.teams b).foldl min b)).foldl max 0)).all (fun b =>
      (s.findPlaces key (gangOf tk.groups tk.lr.teams b)).isNone))

/-- BLOCK_DISPATCH: claims, then the blocks whole on their cores, all or none (R52, R54, R346). Where a bank is not yet as
the launch binds it, the Starter asks for it, and for the Escapement's (R211, R275, R279); a bank of the other width passes from
a halted owner first. Teams whose entries or counters so come back are ready from then on (R46). -/
def execBlockDispatch (key : Nat) (places : List (Nat × Nat)) (claims : List Claim) (s : State) : Out :=
  match s.task? key with
  | none => .next s
  | some tk =>
    if !s.partRuns tk.part || !s.taskRuns key || !s.childDispatches tk || !s.inOrder key tk (places.map (·.1)) ||
        s.tasks.any (fun e => s.goesBefore e.1 key && s.dispatchable e.1)
    then .next s
    else
      let s1 := s.claim tk.part false claims
      let cls := places.foldl (fun l e => insertNew l (clusterOf e.2)) []
      let lacking := cls.filter (fun cl => !s1.banksReady tk.lr cl || (tk.lr.bindsEsc && !s1.escServes key cl))
      if lacking != [] then
        .next ((lacking.foldl (fun (s : State) cl =>
          let s := (s.claimBanks tk.part tk.lr cl).askBanks tk.lr cl
          if tk.lr.bindsEsc then s.reserveEsc key tk.lr cl else s) s1).endHalts.readiedFrom s)
      else match s1.placeAll key places with
        | some s' => .next (s'.endHalts.readiedFrom s)
        | none => .next s

/-! ## Reload (R347, R349, R64) -/

/-- The slice entry that runs in a domain. -/
def Domain.entry (d : Domain) : Option Word := d.index.map (Tab.get d.slices 0)
/-- A partition's gang slice has begun here and waits for its start (R350). -/
def State.gangPending (s : State) (p : Nat) : Bool :=
  let d := s.domain (s.part p).dom
  match d.entry, d.gang with
  | some e, some g => field e 0 6 == p && !g.running && !g.forfeited
  | _, _ => false
/-- The spilled items of a partition may come back: its slice runs, or its gang slice waits for its start (R347, R350). -/
def State.mayReload (s : State) (p : Nat) : Bool := s.partRuns p || (!(s.part p).haltBit && s.gangPending p)

/-- A running partition binds a FIFO bank by a resident block. -/
def State.bankLive (s : State) (cl b : Nat) : Bool := (s.binders cl b).any s.partRuns
/-- Asks for what a reload lacks on a cluster: the launch's FIFO banks, its Escapement bank, and scratch mode of the banks
that hold the block's lines, when they are free or no running partition binds them (R211, R347, R352). -/
def State.askReload (s : State) (key : Nat) (r : Rec) (b : Block) (cl : Nat) : State :=
  let s := s.askBanks r cl
  let s := if r.bindsEsc then s.reserveEsc key r cl else s
  s.setCluster cl (b.banks.foldl (fun (c : Cluster) x =>
    let y := c.bank x.1
    if y.takesLines || y.mode == .scratch || y.trans || y.esc || s.bankLive cl x.1 then c else c.setBank x.1 (y.request .scratch)) (s.cluster cl))

/-- Something of a team or its block is to come back before the team issues. -/
def State.needsReload (s : State) (k : Nat) (t : Team) : Bool := isSpilled k || t.rowsSpilled || s.blockOut t

/-- Claims, one by one, while a test says that too little is free. -/
def State.claimWhile (s : State) (p : Nat) (l : List Claim) (short : State → Bool) : State :=
  l.foldl (fun s c => if short s then s.claimOne p true c else s) s
/-- The bank that counters of a task in the save area come back to (R347). -/
def Cluster.counterBank (c : Cluster) (task : Nat) : List Nat :=
  match c.graph with | some g => if g.task = task && g.spilled then [g.bank] else [] | none => []
/-- A FIFO bank of halted partitions gives up its entries for a partition that needs it in another mode (R346, R347, R349). -/
def State.freeFifo (s : State) (p cl b : Nat) : State :=
  let x := (s.cluster cl).bank b
  if x.mode != .fifo || s.bankLive cl b then s
  else
    let s := match x.owner with
      | some q => s.saveMeets q (if x.fifo.any (·.bad) then some 3 else none)
      | none => s
    s.setCluster cl ((s.cluster cl).setBank b (s.handBank p cl b))
/-- A resident team gives up its items for the reload of a team where its partition is another. Of the own partition a team in `park`
does; but one whose block waits for all its teams does so for a block with a lower number alone, so that of two such blocks one is
whole at last (R64, R347, log 155). -/
def State.yields (s : State) (t u : Team) : Bool := u.part != t.part || !s.blockAwaits u.blk || decide (t.blk < u.blk)
/-- What a reload takes back from halted and parked teams: the slot, then rows, map slots, the banks that its scratch lines and
counters stood in, and scratch lines, as far as they lack (R64, R347). -/
def State.makeRoom (s : State) (k : Nat) (t : Team) (b : Block) (rows maps : Nat) : State :=
  let c := coreOf k
  let cl := clusterOf c
  let there := s.teams.filter (fun e => !isSpilled e.1 && coreOf e.1 == c && e.1 != k && s.yields t e.2)
  let blocks := s.blocks.filter (fun e => e.2.core == c)
  let near := s.blocks.filter (fun e => clusterOf e.2.core == cl)
  let s := match isSpilled k, s.team? (k % slotKeys) with
    | true, some u => if s.yields t u then s.claimOne t.part true (.team (k % slotKeys)) else s
    | _, _ => s
  let s := s.claimWhile t.part (there.map (fun e => Claim.rows e.1)) (fun s => decide (Config.rowsPerCore < s.rowsUsed c + rows))
  let s := s.claimWhile t.part (blocks.map (fun e => Claim.slots e.1)) (fun s => decide (Config.mapSlotsPerCore < s.slotsUsed c + maps))
  let mine := if b.linesSpilled then b.banks else []
  let back := (s.cluster cl).counterBank t.task
  let s := (mine.map (·.1) ++ back).foldl (fun s n => s.freeFifo t.part cl n) s
  let s := if mine.any (fun x => ((s.cluster cl).bank x.1).esc) then s.claimOne t.part true (.counters cl) else s
  s.claimWhile t.part (near.map (fun e => Claim.lines e.1)) (fun s =>
    mine.any (fun x => decide (Config.linesPerBank < s.linesUsed cl x.1 + x.2) || !((s.cluster cl).bank x.1).takesLines) ||
    ((s.recOf t).fifoBanks ++ back).any (fun n => ((s.cluster cl).bank n).mode == .scratch && s.linesUsed cl n != 0))
/-- TEAM_RELOAD: what is spilled of a team and its block comes back, for a team of a partition whose slice runs or a parked one
whose wait is over or whose block awaits it: the team to its slot, its rows, its block's map slots and scratch lines, the FIFO entries of its banks, the
Escapement's counters; items that others hold are claimed. Where a bank is lacking it is asked for; teams whose FIFO entries come back
meanwhile are ready from then on (R46). -/
def execTeamReload (k : Nat) (s : State) : Out :=
  match s.team? k with
  | none => .next s
  | some t =>
    let home := k % slotKeys
    let c := coreOf k
    let cl := clusterOf c
    if !s.needsReload k t || !s.mayReload t.part || !s.taskRuns t.task || (t.parked && !s.blockAwaits t.blk) then .next s
    else match s.saveBad t.part, s.block? t.blk with
      | some d, _ => .next (s.saveFault t.part d)
      | none, none => .next s
      | none, some b =>
        let r := s.recOf t
        let maps := if b.slotsSpilled then r.maps else 0
        let rows := if isSpilled k || t.rowsSpilled then t.regs * t.words else 0
        let s1 := (s.makeRoom k t b rows maps).claimBanks t.part r cl
        if !s1.banksReady r cl || (r.bindsEsc && !s1.escServes t.task cl) ||
            (b.linesSpilled && b.banks.any (fun x => !((s1.cluster cl).bank x.1).takesLines))
        then .next ((s1.askReload t.task r b cl).endHalts.readiedFrom s)
        else if (isSpilled k && (s1.team? home).isSome) || decide (Config.rowsPerCore < s1.rowsUsed c + rows) ||
            decide (Config.mapSlotsPerCore < s1.slotsUsed c + maps) || r.fifoBanks.any (s1.bankBusy t.part cl) ||
            (b.linesSpilled && b.banks.any (fun x => decide (Config.linesPerBank < s1.linesUsed cl x.1 + x.2)))
        then .next s
        else
          let s2 := (s1.setBlock t.blk { b with slotsSpilled := false, linesSpilled := false }).countersBack t.task cl
          .next (({ s2 with teams := Tab.erase s2.teams k }.setTeam home { t with rowsSpilled := false }).endHalts.readiedFrom s)

end Sys2Proof.Machine
end

