-- ==== Sys2Proof/Machine/Ending.lean ====
section
/-! DEFINITION. Sys2Proof/Machine/Ending.lean: the end of a task: its commit with its family (R316, R318), and its end by a
fault (R336 to R339, R342), an abort of a translation hold (R321, R325). -/
namespace Sys2Proof.Machine

/-! ## Families (R316, R318) -/

/-- The tasks of a family. -/
def State.family (s : State) (root : Nat) : List (Nat × Task) := s.tasks.filter (fun e => e.2.root == root)
/-- A command or an `escld` of a task is in flight. -/
def State.cmdInFlight (s : State) (k : Nat) : Bool :=
  s.clusters.any (fun c => c.2.channels.any (fun ch => ch.2.any (fun m => m.task == k)) || c.2.escLoads.any (fun e => e.task == k))
/-- A launch by `dlaunch` of a task waits for its check or its admission. -/
def State.childPending (s : State) (k : Nat) : Bool :=
  s.launches.any (fun e => match e.2.src with | .child pk _ _ _ _ _ => pk == k | .queue _ _ => false)
/-- A task completes: every block exited, every command done, every accepted child complete; eight levels of
children at most (R316, R317). -/
def State.completes (s : State) : Nat → Nat → Bool
  | 0, _ => false
  | n + 1, k =>
    match s.task? k with
    | none => false
    | some tk => decide (tk.exited.length = tk.lr.grid) && tk.faults.isEmpty && !s.cmdInFlight k && !s.childPending k &&
        s.tasks.all (fun e => e.2.parent != some k || s.completes n e.1)

/-- Every store of the tasks of a family is registered: the accesses already sent are performed (R239, R337). -/
def State.registerFamily (s : State) (ks : List Nat) : State :=
  s.cores.foldl (fun s e => s.registerIf e.1 (fun p => ks.contains p.task)) s
/-- The Escapement graphs of the tasks are released (R275, R337). -/
def State.releaseGraphs (s : State) (ks : List Nat) : State :=
  { s with clusters := Tab.mapVals s.clusters (fun c =>
      match c.graph with
      | some g => if ks.contains g.task then { c with graph := none } else c
      | none => c) }
/-- Tasks are gone: leases, undo areas and shadows with them (R316, R342). -/
def State.dropTasks (s : State) (ks : List Nat) : State := { s with tasks := s.tasks.filter (fun e => !ks.contains e.1) }

/-- TASK_COMMIT: a root task that completes commits with its whole family: the shadows are dropped, the SET masks
applied, STATUS written, the leases released; a launch the events make eligible follows what the family did (R239, R316). -/
def execTaskCommit (k : Nat) (s : State) : Out :=
  match s.task? k with
  | none => .next s
  | some tk =>
    if tk.root != k || !s.completes 9 k then .next s
    else
      let fam := s.family k
      let ks := fam.map (·.1)
      let s := s.registerFamily ks
      let set := fam.foldl (fun v e => v ||| e.2.lr.setMask) 0
      let sig := fam.foldl (fun g e => g ||| e.2.endSig) 0
      let s := s.updPart tk.part (fun x => { x with evec := x.evec ||| set, evSig := if set = 0 then x.evSig else x.evSig ||| sig })
      let s := s.wakeLaunches tk.part
      let s := (s.releaseGraphs ks).dropTasks ks
      match tk.record with
      | some (q, n) => .next (s.completeRecord tk.part q n 1)
      | none => .next s

/-! ## Faults (R335 to R338) -/

/-- A team is live (R336): ready, halted in place, or in a wait that ends without another team, an engine command or a child launch; one
whose issue throttling withholds is ready, or waits as any other. -/
def State.live (s : State) (k : Nat) (t : Team) : Bool :=
  t.fault.isNone && (t.out.isSome || s.inPlace t || s.waitMet k t ||
    (match t.wait with
      | none => true
      | some (.fill ..) | some (.bank _) | some .region | some .over => true
      | some (.commit _) | some .ending => t.held
      | _ => false))

/-- The fault a task reports now, if it ends now (R285, R336): in a launch without the deterministic flag the first
received; in a deterministic launch that of the earliest faulted team, once every earlier team has passed the
token, exited or faulted, or nothing of the task can go on. Of several faults of that team and its commands, the first received (log
121). -/
def State.reported (s : State) (k : Nat) (tk : Task) : Option FaultRec :=
  if !tk.det then tk.faults.head?
  else
    let id := fun (f : FaultRec) => tk.teamId f.block f.team
    match tk.faults with
    | [] => none
    | f :: rest =>
      let first := rest.foldl (fun a b => if id b < id a then b else a) f
      let earlier := (List.range (id first)).all (fun i => decide (i < tk.tokenAt) || tk.exitedTeams.contains i)
      let still := !s.teams.any (fun e => e.2.task == k && s.live e.1 e.2) && !s.cmdInFlight k && !s.childPending k &&
        !s.tasks.any (fun e => e.2.parent == some k && !s.completes 9 e.1)
      if earlier || still then some first else none

/-- Records a fault of a task: a record held keeps it out and sets OVF (R338, Table 23-3). -/
def Part.record (p : Part) (id : DWord) (f : FaultRec) : Part :=
  match p.flt with
  | some _ => { p with fltOvf := true }
  | none =>
    let own := f.cls != 9 && f.cls != 10
    let f := { f with
      addr := if f.cls == 1 || f.cls == 2 || f.cls == 4 || f.cls == 7 then f.addr else 0,
      pc := if own then f.pc else 0, block := if own then f.block else 0, team := if own then f.team else 0 }
    { p with fltTask := id, flt := some f, fltLast := f }

/-- Teams, blocks, commands and child launches of tasks are gone; buffers are discarded, nothing is written back; Escapement
banks reserved for them alone are given up (R275; R337, steps 1 and 4). -/
def State.discard (s : State) (ks : List Nat) : State :=
  let gone := s.teams.filter (fun e => ks.contains e.2.task)
  let s := gone.foldl (fun (s : State) e => s.setCore (coreOf e.1) ((s.core (coreOf e.1)).dropTeam e.1)) s
  let escs := s.tasks.filter (fun e => ks.contains e.1 && e.2.lr.bindsEsc)
  let blocks := s.blocks.filter (fun e => escs.any (fun x => x.1 == e.2.task))
  let waits := s.tasks.any (fun e => !ks.contains e.1 && e.2.lr.bindsEsc)
  let cs := Tab.mapVals s.clusters (fun c => { c with
    channels := Tab.mapVals c.channels (fun l => l.filter (fun m => !ks.contains m.task)),
    escLoads := c.escLoads.filter (fun e => !ks.contains e.task) })
  let s := { s with
    clusters := cs,
    teams := s.teams.filter (fun e => !ks.contains e.2.task),
    blocks := s.blocks.filter (fun e => !ks.contains e.2.task),
    launches := s.launches.filter (fun e => match e.2.src with
      | .child pk _ _ _ _ _ => !ks.contains pk
      | .queue _ _ => true) }
  let cls := if waits then [] else escs.flatMap (fun e => (s.part e.2.part).clusterList)
  (blocks.map (fun e => clusterOf e.2.core) ++ cls).foldl (fun s cl => s.endEscReservation cl) s

/-- A task ends by a fault, and its family with it (R318, R337): teams and commands stop, what was sent is performed,
the shadows are restored, everything is freed, each LAUNCH record gets 0x8000_00FF, the fault is recorded; a
member without a fault of its own takes class 0x0A; vector 3 is raised. Teams that its walk held are ready from then on (R46,
R352). -/
def State.endByFault (s : State) (k : Nat) (tk : Task) (f : FaultRec) : State :=
  let old := s
  let fam := s.family tk.root
  let ks := fam.map (·.1)
  let s := (s.registerFamily ks).discard ks
  let s := s.releaseGraphs ks
  let shadows := (s.family tk.root).map (·.2)
  let s := s.restoreShadows shadows
  let s := (s.dropTasks ks).endHalts.readiedFrom old
  let s := fam.foldl (fun (s : State) e => match e.2.record with
    | some (q, n) => s.completeRecord e.2.part q n 0x800000FF#32
    | none => s) s
  let s := s.updPart tk.part (fun p => p.record tk.id f)
  let s := fam.foldl (fun (s : State) e =>
    if e.1 == k then s else s.updPart tk.part (fun p => p.record e.2.id { cls := 10, detail := 0 })) s
  s.irq (some tk.part) 3

/-- TASK_FAULT_END (R336, R337). -/
def execTaskFaultEnd (k : Nat) (s : State) : Out :=
  match s.task? k with
  | none => .next s
  | some tk =>
    match s.reported k tk with
    | some f => .next (s.endByFault k tk f)
    | none => .next s

/-- A task of a partition with an identifier. -/
def State.taskById (s : State) (p : Nat) (id : DWord) : Option (Nat × Task) :=
  s.tasks.find? (fun e => e.2.part == p && e.2.id == id)
/-- TASKKILL (R339). -/
def execTaskkill (p : Nat) (id : DWord) (s : State) : Out :=
  match s.taskById p id with
  | some (k, tk) => .next (s.endByFault k tk { cls := 9, detail := 1 })
  | none => .next s
/-- Every task of a partition ends with class 0x09 (R365). -/
def State.killAll (s : State) (p : Nat) : State :=
  ((s.tasks.filter (fun e => e.2.part == p)).map (·.1)).foldl (fun s k =>
    match s.task? k with
    | some tk => s.endByFault k tk { cls := 9, detail := 1 }
    | none => s) s

/-- XLCTL_ABORT: held launches of the partition are refused, tasks halted by a failed walk end with the memory
fault (R321, R325). -/
def execXlctlAbort (p : Nat) (s : State) : Out :=
  let s := (s.launches.filter (fun e => e.2.part == p && e.2.failed)).foldl
    (fun (s : State) e => s.abortLaunch e.1 e.2) s
  .next (((s.tasks.filter (fun e => e.2.part == p && e.2.walkFailed)).map (·.1)).foldl (fun (s : State) k =>
    match s.task? k with
    | some tk => s.endByFault k tk { cls := 1, detail := 5, addr := (s.part p).xladdr }
    | none => s) s)

end Sys2Proof.Machine
end

