-- ==== Sys2Proof/Decode.lean ====
section
/-! DEFINITION. Sys2Proof/Decode.lean: fields of the six formats (Tables 5-1 to 5-11), the opcode map
(Table 5-12), the decoder with its two rejections (R88, steps 1 and 2), and after it the encoder. -/
namespace Sys2Proof

/-- Bits 63:59 (Table 5-1). -/
def Pre.ofBits (w : DWord) : Pre := { run := bit w 63, g := w.extractLsb' 60 3, n := bit w 59 }

def S3.ofBits (w : DWord) : S3 :=
  { pre := Pre.ofBits w, sd := w.extractLsb' 44 6, sa := w.extractLsb' 38 6, sb := w.extractLsb' 32 6,
    imm := w.extractLsb' 24 8, ty := w.extractLsb' 22 2, bk := bit w 21 }

def V3.ofBits (w : DWord) : V3 :=
  { pre := Pre.ofBits w, vd := w.extractLsb' 42 8, va := w.extractLsb' 34 8, vb := w.extractLsb' 26 8,
    vc := w.extractLsb' 18 8, ka := w.extractLsb' 14 4, kb := w.extractLsb' 10 4, kc := w.extractLsb' 6 4,
    ty := w.extractLsb' 4 2, rm := w.extractLsb' 2 2, bk := w.extractLsb' 0 2 }

def MF.ofBits (w : DWord) : MF :=
  { pre := Pre.ofBits w, md := w.extractLsb' 42 8, ma := w.extractLsb' 34 8, imm := w.extractLsb' 26 8,
    ord := w.extractLsb' 24 2, spc := w.extractLsb' 21 3, evp := w.extractLsb' 18 3,
    sz := w.extractLsb' 15 3, am := w.extractLsb' 13 2, aop := w.extractLsb' 8 5, mx := w.extractLsb' 0 8 }

def BF.ofBits (w : DWord) : BF :=
  { pre := Pre.ofBits w, disp := w.extractLsb' 26 24, variant := w.extractLsb' 0 26 }

def EF.ofBits (w : DWord) : EF :=
  { pre := Pre.ofBits w, tk := w.extractLsb' 44 6, dp := w.extractLsb' 38 6, cn := w.extractLsb' 32 6,
    eng := w.extractLsb' 28 4, op := w.extractLsb' 24 4, qb := w.extractLsb' 16 8,
    fs := w.extractLsb' 13 3, var := w.extractLsb' 0 13 }

def YF.ofBits (w : DWord) : YF :=
  { pre := Pre.ofBits w, ya := w.extractLsb' 42 8, yb := w.extractLsb' 34 8, yc := w.extractLsb' 26 8,
    sel := w.extractLsb' 18 8, idx := w.extractLsb' 12 6, yk := w.extractLsb' 10 2 }

/-- Bits 58:50 (R74). -/
def opcodeOf (w : DWord) : Nat := field w 50 9

/-- Table 5-12: the instruction an opcode names; none for an unassigned one (R87). -/
def assemble (w : DWord) : Option Instr :=
  match opcodeOf w with
  | 0x001 => some (.sadd (S3.ofBits w))
  | 0x002 => some (.ssub (S3.ofBits w))
  | 0x003 => some (.smul (S3.ofBits w))
  | 0x004 => some (.smulh (S3.ofBits w))
  | 0x005 => some (.sdiv (S3.ofBits w))
  | 0x006 => some (.srem (S3.ofBits w))
  | 0x007 => some (.sand (S3.ofBits w))
  | 0x008 => some (.sor (S3.ofBits w))
  | 0x009 => some (.sxor (S3.ofBits w))
  | 0x00A => some (.sshl (S3.ofBits w))
  | 0x00B => some (.sshr (S3.ofBits w))
  | 0x00C => some (.ssra (S3.ofBits w))
  | 0x00D => some (.smin (S3.ofBits w))
  | 0x00E => some (.smax (S3.ofBits w))
  | 0x00F => some (.ssel (S3.ofBits w))
  | 0x010 => some (.smov (S3.ofBits w))
  | 0x011 => some (.smovi (S3.ofBits w))
  | 0x012 => some (.sldk (S3.ofBits w))
  | 0x013 => some (.slea (S3.ofBits w))
  | 0x014 => some (.spopc (S3.ofBits w))
  | 0x015 => some (.sclz (S3.ofBits w))
  | 0x016 => some (.sbrev (S3.ofBits w))
  | 0x017 => some (.sbfx (S3.ofBits w))
  | 0x018 => some (.sbfi (S3.ofBits w))
  | 0x019 => some (.scmpEq (S3.ofBits w))
  | 0x01A => some (.scmpNe (S3.ofBits w))
  | 0x01B => some (.scmpLt (S3.ofBits w))
  | 0x01C => some (.scmpLe (S3.ofBits w))
  | 0x01D => some (.scmpGt (S3.ofBits w))
  | 0x01E => some (.scmpGe (S3.ofBits w))
  | 0x040 => some (.vadd (V3.ofBits w))
  | 0x041 => some (.vsub (V3.ofBits w))
  | 0x042 => some (.vmul (V3.ofBits w))
  | 0x043 => some (.vmulh (V3.ofBits w))
  | 0x044 => some (.vmad (V3.ofBits w))
  | 0x045 => some (.vand (V3.ofBits w))
  | 0x046 => some (.vor (V3.ofBits w))
  | 0x047 => some (.vxor (V3.ofBits w))
  | 0x048 => some (.vshl (V3.ofBits w))
  | 0x049 => some (.vshr (V3.ofBits w))
  | 0x04A => some (.vsra (V3.ofBits w))
  | 0x04B => some (.vmin (V3.ofBits w))
  | 0x04C => some (.vmax (V3.ofBits w))
  | 0x04D => some (.vabs (V3.ofBits w))
  | 0x04E => some (.vsel (V3.ofBits w))
  | 0x04F => some (.vmov (V3.ofBits w))
  | 0x050 => some (.vmovi (V3.ofBits w))
  | 0x051 => some (.vsplat (V3.ofBits w))
  | 0x052 => some (.vpopc (V3.ofBits w))
  | 0x053 => some (.vclz (V3.ofBits w))
  | 0x054 => some (.vbrev (V3.ofBits w))
  | 0x055 => some (.vbfx (V3.ofBits w))
  | 0x056 => some (.vcmpEq (V3.ofBits w))
  | 0x057 => some (.vcmpNe (V3.ofBits w))
  | 0x058 => some (.vcmpLt (V3.ofBits w))
  | 0x059 => some (.vcmpLe (V3.ofBits w))
  | 0x05A => some (.vcmpGt (V3.ofBits w))
  | 0x05B => some (.vcmpGe (V3.ofBits w))
  | 0x05C => some (.vdot4 (V3.ofBits w))
  | 0x05D => some (.vdot8 (V3.ofBits w))
  | 0x080 => some (.fadd (V3.ofBits w))
  | 0x081 => some (.fsub (V3.ofBits w))
  | 0x082 => some (.fmul (V3.ofBits w))
  | 0x083 => some (.ffma (V3.ofBits w))
  | 0x084 => some (.fmin (V3.ofBits w))
  | 0x085 => some (.fmax (V3.ofBits w))
  | 0x086 => some (.fabs (V3.ofBits w))
  | 0x087 => some (.fneg (V3.ofBits w))
  | 0x088 => some (.fcmpEq (V3.ofBits w))
  | 0x089 => some (.fcmpNe (V3.ofBits w))
  | 0x08A => some (.fcmpLt (V3.ofBits w))
  | 0x08B => some (.fcmpLe (V3.ofBits w))
  | 0x08C => some (.fcmpGt (V3.ofBits w))
  | 0x08D => some (.fcmpGe (V3.ofBits w))
  | 0x08E => some (.fcmpUn (V3.ofBits w))
  | 0x08F => some (.fclass (V3.ofBits w))
  | 0x090 => some (.fdiv (V3.ofBits w))
  | 0x091 => some (.fsqrt (V3.ofBits w))
  | 0x092 => some (.frcp (V3.ofBits w))
  | 0x093 => some (.frsq (V3.ofBits w))
  | 0x094 => some (.fexp2 (V3.ofBits w))
  | 0x095 => some (.flog2 (V3.ofBits w))
  | 0x096 => some (.fsumerr (V3.ofBits w))
  | 0x097 => some (.osmx (V3.ofBits w))
  | 0x098 => some (.osmxf (V3.ofBits w))
  | 0x0C0 => some (.lshf (V3.ofBits w))
  | 0x0C1 => some (.lred (V3.ofBits w))
  | 0x0C2 => some (.lscan (V3.ofBits w))
  | 0x0C3 => some (.vote (V3.ofBits w))
  | 0x0C4 => some (.vtos (V3.ofBits w))
  | 0x0C5 => some (.mapgen (V3.ofBits w))
  | 0x0C6 => some (.mapz (V3.ofBits w))
  | 0x0C7 => some (.mapinfo (V3.ofBits w))
  | 0x0C8 => some (.mapmov (V3.ofBits w))
  | 0x0C9 => some (.cvtn (V3.ofBits w))
  | 0x0CA => some (.cvtw (V3.ofBits w))
  | 0x0CB => some (.fcvt (V3.ofBits w))
  | 0x0CC => some (.fcvti (V3.ofBits w))
  | 0x0CD => some (.icvtf (V3.ofBits w))
  | 0x100 => some (.vld (MF.ofBits w))
  | 0x101 => some (.vst (MF.ofBits w))
  | 0x102 => some (.sld (MF.ofBits w))
  | 0x103 => some (.sst (MF.ofBits w))
  | 0x104 => some (.ldsc (MF.ofBits w))
  | 0x105 => some (.stsc (MF.ofBits w))
  | 0x106 => some (.vprf (MF.ofBits w))
  | 0x107 => some (.scwb (MF.ofBits w))
  | 0x108 => some (.bankq (MF.ofBits w))
  | 0x140 => some (.vatom (MF.ofBits w))
  | 0x141 => some (.vatomNr (MF.ofBits w))
  | 0x142 => some (.satom (MF.ofBits w))
  | 0x143 => some (.satomNr (MF.ofBits w))
  | 0x144 => some (.fence (MF.ofBits w))
  | 0x145 => some (.flrenew (MF.ofBits w))
  | 0x146 => some (.fllife (MF.ofBits w))
  | 0x180 => some (.cpy (EF.ofBits w))
  | 0x181 => some (.cpyt (EF.ofBits w))
  | 0x182 => some (.gat (EF.ofBits w))
  | 0x183 => some (.sct (EF.ofBits w))
  | 0x184 => some (.lay (EF.ofBits w))
  | 0x185 => some (.mapld (EF.ofBits w))
  | 0x186 => some (.mapst (EF.ofBits w))
  | 0x187 => some (.seal (EF.ofBits w))
  | 0x188 => some (.waitb (EF.ofBits w))
  | 0x189 => some (.escld (EF.ofBits w))
  | 0x18A => some (.qpush (EF.ofBits w))
  | 0x18B => some (.qpop (EF.ofBits w))
  | 0x1C0 => some (.bra (BF.ofBits w))
  | 0x1C1 => some (.brx (BF.ofBits w))
  | 0x1C2 => some (.call (BF.ofBits w))
  | 0x1C3 => some (.ret (YF.ofBits w))
  | 0x1C4 => some (.join (BF.ofBits w))
  | 0x1C5 => some (.sync (YF.ofBits w))
  | 0x1C6 => some (.exit (YF.ofBits w))
  | 0x1C7 => some (.regroup (YF.ofBits w))
  | 0x1C8 => some (.bar (YF.ofBits w))
  | 0x1C9 => some (.bara (YF.ofBits w))
  | 0x1CA => some (.barw (YF.ofBits w))
  | 0x1CB => some (.park (YF.ofBits w))
  | 0x1CC => some (.wake (YF.ofBits w))
  | 0x1CD => some (.nop (YF.ofBits w))
  | 0x1CE => some (.srd (YF.ofBits w))
  | 0x1CF => some (.swr (YF.ofBits w))
  | 0x1D0 => some (.trap (YF.ofBits w))
  | 0x1D1 => some (.cmtwait (YF.ofBits w))
  | 0x1D2 => some (.cmtpass (YF.ofBits w))
  | 0x1D3 => some (.dlaunch (EF.ofBits w))
  | _ => none

/-- The bits a format requires to be zero: 20:0 of S3 (R80), 9:0 of Y (R84). -/
def padOk (w : DWord) : Bool :=
  let op := opcodeOf w
  if op < 0x040 then field w 0 21 == 0
  else if op == 0x1C3 || (0x1C5 ≤ op && op ≤ 0x1D2) then field w 0 10 == 0
  else true

/-- Why a word is no instruction (R88, steps 1 and 2). -/
inductive Reject where
  | unassigned
  | reserved
deriving DecidableEq, Repr

/-- The decoder: total, rejecting by name (R88). -/
def decode (w : DWord) : Except Reject Instr :=
  match assemble w with
  | none => .error .unassigned
  | some i => if padOk w && i.wellFormed then .ok i else .error .reserved

/-- The decoder's answer for the first word of the table's numbering: one 64-bit word (R74). -/
def decodeTableWord (nbits w : Nat) : Option Instr :=
  if nbits ≤ 64 then
    match decode (BitVec.ofNat 64 (w % 2 ^ nbits)) with
    | .ok i => some i
    | .error _ => none
  else none

def Pre.toBits (p : Pre) : BitVec 5 := BitVec.ofBool p.run ++ p.g ++ BitVec.ofBool p.n

def S3.toBits (f : S3) (op : BitVec 9) : DWord :=
  f.pre.toBits ++ op ++ f.sd ++ f.sa ++ f.sb ++ f.imm ++ f.ty ++ BitVec.ofBool f.bk ++ 0#21

def V3.toBits (f : V3) (op : BitVec 9) : DWord :=
  f.pre.toBits ++ op ++ f.vd ++ f.va ++ f.vb ++ f.vc ++ f.ka ++ f.kb ++ f.kc ++ f.ty ++ f.rm ++ f.bk

def MF.toBits (f : MF) (op : BitVec 9) : DWord :=
  f.pre.toBits ++ op ++ f.md ++ f.ma ++ f.imm ++ f.ord ++ f.spc ++ f.evp ++ f.sz ++ f.am ++ f.aop ++ f.mx

def BF.toBits (f : BF) (op : BitVec 9) : DWord := f.pre.toBits ++ op ++ f.disp ++ f.variant

def EF.toBits (f : EF) (op : BitVec 9) : DWord :=
  f.pre.toBits ++ op ++ f.tk ++ f.dp ++ f.cn ++ f.eng ++ f.op ++ f.qb ++ f.fs ++ f.var

def YF.toBits (f : YF) (op : BitVec 9) : DWord :=
  f.pre.toBits ++ op ++ f.ya ++ f.yb ++ f.yc ++ f.sel ++ f.idx ++ f.yk ++ 0#10

/-- The word of an instruction (Tables 5-1 to 5-12); an event has none. -/
def encode : Instr → Option DWord
  | .sadd f => some (f.toBits 0x001#9)
  | .ssub f => some (f.toBits 0x002#9)
  | .smul f => some (f.toBits 0x003#9)
  | .smulh f => some (f.toBits 0x004#9)
  | .sdiv f => some (f.toBits 0x005#9)
  | .srem f => some (f.toBits 0x006#9)
  | .sand f => some (f.toBits 0x007#9)
  | .sor f => some (f.toBits 0x008#9)
  | .sxor f => some (f.toBits 0x009#9)
  | .sshl f => some (f.toBits 0x00A#9)
  | .sshr f => some (f.toBits 0x00B#9)
  | .ssra f => some (f.toBits 0x00C#9)
  | .smin f => some (f.toBits 0x00D#9)
  | .smax f => some (f.toBits 0x00E#9)
  | .ssel f => some (f.toBits 0x00F#9)
  | .smov f => some (f.toBits 0x010#9)
  | .smovi f => some (f.toBits 0x011#9)
  | .sldk f => some (f.toBits 0x012#9)
  | .slea f => some (f.toBits 0x013#9)
  | .spopc f => some (f.toBits 0x014#9)
  | .sclz f => some (f.toBits 0x015#9)
  | .sbrev f => some (f.toBits 0x016#9)
  | .sbfx f => some (f.toBits 0x017#9)
  | .sbfi f => some (f.toBits 0x018#9)
  | .scmpEq f => some (f.toBits 0x019#9)
  | .scmpNe f => some (f.toBits 0x01A#9)
  | .scmpLt f => some (f.toBits 0x01B#9)
  | .scmpLe f => some (f.toBits 0x01C#9)
  | .scmpGt f => some (f.toBits 0x01D#9)
  | .scmpGe f => some (f.toBits 0x01E#9)
  | .vadd f => some (f.toBits 0x040#9)
  | .vsub f => some (f.toBits 0x041#9)
  | .vmul f => some (f.toBits 0x042#9)
  | .vmulh f => some (f.toBits 0x043#9)
  | .vmad f => some (f.toBits 0x044#9)
  | .vand f => some (f.toBits 0x045#9)
  | .vor f => some (f.toBits 0x046#9)
  | .vxor f => some (f.toBits 0x047#9)
  | .vshl f => some (f.toBits 0x048#9)
  | .vshr f => some (f.toBits 0x049#9)
  | .vsra f => some (f.toBits 0x04A#9)
  | .vmin f => some (f.toBits 0x04B#9)
  | .vmax f => some (f.toBits 0x04C#9)
  | .vabs f => some (f.toBits 0x04D#9)
  | .vsel f => some (f.toBits 0x04E#9)
  | .vmov f => some (f.toBits 0x04F#9)
  | .vmovi f => some (f.toBits 0x050#9)
  | .vsplat f => some (f.toBits 0x051#9)
  | .vpopc f => some (f.toBits 0x052#9)
  | .vclz f => some (f.toBits 0x053#9)
  | .vbrev f => some (f.toBits 0x054#9)
  | .vbfx f => some (f.toBits 0x055#9)
  | .vcmpEq f => some (f.toBits 0x056#9)
  | .vcmpNe f => some (f.toBits 0x057#9)
  | .vcmpLt f => some (f.toBits 0x058#9)
  | .vcmpLe f => some (f.toBits 0x059#9)
  | .vcmpGt f => some (f.toBits 0x05A#9)
  | .vcmpGe f => some (f.toBits 0x05B#9)
  | .vdot4 f => some (f.toBits 0x05C#9)
  | .vdot8 f => some (f.toBits 0x05D#9)
  | .fadd f => some (f.toBits 0x080#9)
  | .fsub f => some (f.toBits 0x081#9)
  | .fmul f => some (f.toBits 0x082#9)
  | .ffma f => some (f.toBits 0x083#9)
  | .fmin f => some (f.toBits 0x084#9)
  | .fmax f => some (f.toBits 0x085#9)
  | .fabs f => some (f.toBits 0x086#9)
  | .fneg f => some (f.toBits 0x087#9)
  | .fcmpEq f => some (f.toBits 0x088#9)
  | .fcmpNe f => some (f.toBits 0x089#9)
  | .fcmpLt f => some (f.toBits 0x08A#9)
  | .fcmpLe f => some (f.toBits 0x08B#9)
  | .fcmpGt f => some (f.toBits 0x08C#9)
  | .fcmpGe f => some (f.toBits 0x08D#9)
  | .fcmpUn f => some (f.toBits 0x08E#9)
  | .fclass f => some (f.toBits 0x08F#9)
  | .fdiv f => some (f.toBits 0x090#9)
  | .fsqrt f => some (f.toBits 0x091#9)
  | .frcp f => some (f.toBits 0x092#9)
  | .frsq f => some (f.toBits 0x093#9)
  | .fexp2 f => some (f.toBits 0x094#9)
  | .flog2 f => some (f.toBits 0x095#9)
  | .fsumerr f => some (f.toBits 0x096#9)
  | .osmx f => some (f.toBits 0x097#9)
  | .osmxf f => some (f.toBits 0x098#9)
  | .lshf f => some (f.toBits 0x0C0#9)
  | .lred f => some (f.toBits 0x0C1#9)
  | .lscan f => some (f.toBits 0x0C2#9)
  | .vote f => some (f.toBits 0x0C3#9)
  | .vtos f => some (f.toBits 0x0C4#9)
  | .mapgen f => some (f.toBits 0x0C5#9)
  | .mapz f => some (f.toBits 0x0C6#9)
  | .mapinfo f => some (f.toBits 0x0C7#9)
  | .mapmov f => some (f.toBits 0x0C8#9)
  | .cvtn f => some (f.toBits 0x0C9#9)
  | .cvtw f => some (f.toBits 0x0CA#9)
  | .fcvt f => some (f.toBits 0x0CB#9)
  | .fcvti f => some (f.toBits 0x0CC#9)
  | .icvtf f => some (f.toBits 0x0CD#9)
  | .vld f => some (f.toBits 0x100#9)
  | .vst f => some (f.toBits 0x101#9)
  | .sld f => some (f.toBits 0x102#9)
  | .sst f => some (f.toBits 0x103#9)
  | .ldsc f => some (f.toBits 0x104#9)
  | .stsc f => some (f.toBits 0x105#9)
  | .vprf f => some (f.toBits 0x106#9)
  | .scwb f => some (f.toBits 0x107#9)
  | .bankq f => some (f.toBits 0x108#9)
  | .vatom f => some (f.toBits 0x140#9)
  | .vatomNr f => some (f.toBits 0x141#9)
  | .satom f => some (f.toBits 0x142#9)
  | .satomNr f => some (f.toBits 0x143#9)
  | .fence f => some (f.toBits 0x144#9)
  | .flrenew f => some (f.toBits 0x145#9)
  | .fllife f => some (f.toBits 0x146#9)
  | .cpy f => some (f.toBits 0x180#9)
  | .cpyt f => some (f.toBits 0x181#9)
  | .gat f => some (f.toBits 0x182#9)
  | .sct f => some (f.toBits 0x183#9)
  | .lay f => some (f.toBits 0x184#9)
  | .mapld f => some (f.toBits 0x185#9)
  | .mapst f => some (f.toBits 0x186#9)
  | .seal f => some (f.toBits 0x187#9)
  | .waitb f => some (f.toBits 0x188#9)
  | .escld f => some (f.toBits 0x189#9)
  | .qpush f => some (f.toBits 0x18A#9)
  | .qpop f => some (f.toBits 0x18B#9)
  | .bra f => some (f.toBits 0x1C0#9)
  | .brx f => some (f.toBits 0x1C1#9)
  | .call f => some (f.toBits 0x1C2#9)
  | .ret f => some (f.toBits 0x1C3#9)
  | .join f => some (f.toBits 0x1C4#9)
  | .sync f => some (f.toBits 0x1C5#9)
  | .exit f => some (f.toBits 0x1C6#9)
  | .regroup f => some (f.toBits 0x1C7#9)
  | .bar f => some (f.toBits 0x1C8#9)
  | .bara f => some (f.toBits 0x1C9#9)
  | .barw f => some (f.toBits 0x1CA#9)
  | .park f => some (f.toBits 0x1CB#9)
  | .wake f => some (f.toBits 0x1CC#9)
  | .nop f => some (f.toBits 0x1CD#9)
  | .srd f => some (f.toBits 0x1CE#9)
  | .swr f => some (f.toBits 0x1CF#9)
  | .trap f => some (f.toBits 0x1D0#9)
  | .cmtwait f => some (f.toBits 0x1D1#9)
  | .cmtpass f => some (f.toBits 0x1D2#9)
  | .dlaunch f => some (f.toBits 0x1D3#9)
  | _ => none

end Sys2Proof
end

