-- ==== Sys2Proof/Machine/Fetch.lean ====
section
/-! DEFINITION. Sys2Proof/Machine/Fetch.lean: instruction fetch (R89), words that are no instruction (R88), the points at which
a trap is taken (R331), RESUME entries (R58), and the choice of the next run of a pipe (R46 to R48, R61). -/
namespace Sys2Proof.Machine

/-! ## Fetch (R89) -/

/-- The location of the word at a team's pc, checked as a load of global space. -/
def State.fetchPlace (s : State) (t : Team) : Act Nat := do
  if !canonical t.pc then faultAt 1 1 t.pc
  match s.task? t.task with
  | none => faultAt 2 1 t.pc
  | some tk =>
    match tk.checkWord t.block false t.pc.toNat, tk.checkWord t.block false (t.pc.toNat + 4) with
    | .ok _, .ok _ =>
      match s.locate tk t.pc.toNat with
      | none => faultAt 1 5 t.pc
      | some loc => pure loc
    | .error (c, d), _ => faultAt c d t.pc
    | _, .error (c, d) => faultAt c d t.pc
/-- The word at a location as an instruction cache holds it. -/
def Core.code (c : Core) (loc : Nat) : Option DWord :=
  match cached c.icache (loc / 4), cached c.icache (loc / 4 + 1) with
  | some lo, some hi => some (hi ++ lo)
  | _, _ => none
/-- The word at a team's pc: the instruction cache's, else memory's, by a request to its home (R33, R89). -/
def State.fetchWord (s : State) (k : Nat) (t : Team) : Act DWord := do
  let loc ← s.fetchPlace t
  match (s.core (coreOf k)).code loc with
  | some w => pure w
  | none => do
    s.reach (dieOf (coreOf k)) loc t.pc
    match (List.range 2).findSome? (fun i => Tab.get? s.poisoned (loc / 4 + i)) with
    | some d => faultAt 7 d t.pc
    | none => pure (s.peek2 loc)
/-- Brings a line into an instruction cache, whole, in place of the line least recently used when it is full (R18, log 14). -/
def State.bringCode (s : State) (core line slot : Nat) : State :=
  let c := s.core core
  let old := Tab.erase c.icache line
  let room := if old.length < Config.icacheLines then old
    else match victimOf old with | some v => Tab.erase old v.1 | none => old
  let good := (List.range 32).foldl (fun m i => if (Tab.get? s.poisoned (32 * line + i)).isSome then m else m ||| (1#32 <<< i)) 0
  s.setCore core { c with icache := fillLine room line (s.peekLine line) good 0 s.moment slot 0 }
/-- The instruction cache holds the word fetched: a line used now, or brought by the fetch (R18, R89, R364). -/
def State.keepCode (s : State) (k : Nat) (t : Team) : State :=
  match s.fetchPlace t with
  | .error _ => s
  | .ok loc =>
    let c := s.core (coreOf k)
    if (c.code loc).isSome then
      s.setCore (coreOf k) { c with icache := Tab.upd c.icache {} (loc / 128) (fun l => { l with used := s.moment }) }
    else (s.bringCode (coreOf k) (loc / 128) (slotOf k)).countFill t.part
/-- A line leaves an instruction cache. -/
def State.dropCode (s : State) (core line : Nat) : State :=
  let c := s.core core
  s.setCore core { c with icache := Tab.erase c.icache line }

/-! ## Traps before issue (R331, R332) -/

/-- An opcode of a lane-acting instruction of class 001, 100 or 101, or of `exit`. -/
def laneOnly (op : Nat) : Bool :=
  op / 64 == 1 || op == 0x100 || op == 0x101 || op == 0x104 || op == 0x105 || op == 0x106 || op == 0x140 || op == 0x141 ||
    op == 0x145 || op == 0x146 || op == 0x1C6
/-- A pending trap of a team is taken now (R331). -/
def State.trapDue (s : State) (k : Nat) (t : Team) : Bool :=
  t.pend.isSome && (t.active == 0 || t.broke || (t.intr.isNone && ((s.part t.part).breaksAt t.pc ||
    match s.fetchWord k t with
      | .error _ => true
      | .ok w => match decode w with
        | .error _ => true
        | .ok _ => !laneOnly (opcodeOf w))))
/-- TRAP_TAKEN for the issuing team; the entry to the handler is a run boundary (R43, R332). Where taking the trap itself
faults, FLTPC is the address of the next instruction to issue (R338 names no faulting instruction there; the model's choice, log 152). -/
def execTrapTaken (s : State) : Out :=
  match s.cur with
  | none => .fault .noIssuingTeam
  | some k =>
    match s.team? k with
    | none => .fault .noIssuingTeam
    | some t =>
      match t.pend with
      | none => .next s
      | some p =>
        if !s.trapDue k t then .next s
        else .next (settle k t s (do
          let (u, s) ← takeTrap k p (s.recOf t).trapVec t s
          pure ((s.setTeam k { u with broke := false }).runStep k true)))

/-- The top entry is a RESUME entry whose pc is the team's (R58). -/
def Team.resumeDue (t : Team) : Bool :=
  match t.stack with
  | e :: _ => e.kind == kindResume && e.pc == t.pc
  | [] => false
/-- RESUME_POP for the issuing team: the entry's lanes, less the retired ones, join the active mask (R58, R332). -/
def execResumePop (s : State) : Out :=
  match s.cur with
  | none => .fault .noIssuingTeam
  | some k =>
    match s.team? k with
    | none => .fault .noIssuingTeam
    | some t =>
      if !t.resumeDue then .next s
      else .next (settle k t s (do
        reloadCheck k t s
        match popEntry k t s with
        | none => pure s
        | some (e, u) => pure ((s.countReload t).setTeam k { u.takeUp e with active := u.active ||| (e.mask &&& ~~~u.retired) })))

/-- ILLEGAL_INSTRUCTION: the word that reached issue of the issuing team is no instruction (R88, steps 1 and 2). -/
def execIllegalInstruction (w : BitVec 64) (s : State) : Out :=
  match s.cur with
  | none => .fault .noIssuingTeam
  | some k =>
    match s.team? k with
    | none => .fault .noIssuingTeam
    | some t =>
      match decode w with
      | .ok _ => .next s
      | .error .unassigned => .next (s.raise k t 5 1 0 none)
      | .error .reserved => .next (s.raise k t 5 2 0 none)

/-! ## The next run (R43, R46, R47, R66, R355, R357) -/

/-- A class 011 word typed `.f64`, `.i64`, `.n64`, `.bf16x2` or `.f16x2`: a shuffle, reduction, scan or `vtos` of a 64-bit type, a
conversion from or to one of these (Table 9-7, Table 11-3, R194, R195, R357, log 34). -/
def frozenCross (op : Nat) (f : V3) : Bool :=
  match op with
  | 0xC0 | 0xC4 => f.ty == 2
  | 0xC1 | 0xC2 => redWide f.vc.toNat f.ty
  | 0xCB => decide (f.vc.toNat < 4)
  | 0xCC | 0xCD => bit f.ty 1 || f.vc == 1
  | _ => false
/-- A kind of instruction that stage two freezes: a mapped source, or a vector instruction of a 64-bit or packed type (R357). -/
def frozenKind (w : DWord) : Bool :=
  let f := V3.ofBits w
  match opcodeOf w / 64 with
  | 3 => frozenCross (opcodeOf w) f
  | 1 => f.ka != 0 || f.kb != 0 || f.kc != 0 || bit f.ty 1
  | 2 => f.ka != 0 || f.kb != 0 || f.kc != 0 || f.ty != 0
  | _ => false
/-- The next instruction of a team is frozen. -/
def State.frozenNext (s : State) (k : Nat) (t : Team) : Bool :=
  (s.cluster (clusterOf (coreOf k))).reg.freezes &&
    (match s.fetchWord k t with | .ok w => frozenKind w | .error _ => false)
/-- The team may issue at all, no issue withheld (R355). -/
def State.able (s : State) (k : Nat) (t : Team) : Bool := s.stands k t && !s.withheld (coreOf k) t.part
/-- A team is waiting (R46): ready, its next instruction able to issue. -/
def State.waiting (s : State) (k : Nat) (t : Team) : Bool :=
  s.able k t && t.wait.isNone && t.out.isNone && !s.frozenNext k t
/-- The reference point of R46. -/
def Team.ref (t : Team) : Nat := max t.readyAt t.runEnd
/-- The teams of a pipe, lowest slot first. -/
def State.pipeTeams (s : State) (core pipe : Nat) : List (Nat × Team) :=
  s.teams.filter (fun e => !isSpilled e.1 && coreOf e.1 == core && slotOf e.1 % 2 == pipe)

/-- The next run of a team holds a memory instruction: its words up to one with B or a control transfer, 24 at most. -/
def State.runHasMemory (s : State) (k : Nat) : Nat → Team → Bool
  | 0, _ => false
  | n + 1, t =>
    match s.fetchWord k t with
    | .error _ => false
    | .ok w =>
      let op := opcodeOf w
      op / 64 == 4 || op / 64 == 5 ||
        (!(bit w 63 || (0x1C0 ≤ op && op ≤ 0x1C3) || op == 0x1C5) && s.runHasMemory k n { t with pc := t.pc + 8 })
/-- The cap of a partition on a pipe of a core; none when locality-aware throttling is off (R47). -/
def State.capOf (s : State) (core pipe p : Nat) : Option Nat :=
  let x := s.part p
  match x.capMode with
  | 1 => some (max 1 (min 16 x.cap))
  | 2 => some (Tab.get (s.core core).caps 16 (2 * p + pipe))
  | _ => none
/-- The cap admits a team: it is among the `cap` teams of its partition on the pipe with the lowest scores, lower slots
first, or its next run holds no memory instruction (R47). -/
def State.capAdmits (s : State) (core pipe : Nat) (k : Nat) (t : Team) : Bool :=
  match s.capOf core pipe t.part with
  | none => true
  | some cap =>
    decide (((s.pipeTeams core pipe).filter (fun e => e.2.part == t.part &&
      (decide (e.2.score < t.score) || (e.2.score == t.score && decide (e.1 < k))))).length < cap) ||
    !s.runHasMemory k 24 t

/-- The best of some candidates: priority, then reference point, then slot (R46, step 2). -/
def State.bestOf (s : State) : List (Nat × Team) → Option (Nat × Team)
  | [] => none
  | e :: rest =>
    match s.bestOf rest with
    | none => some e
    | some b =>
      let p := (s.part e.2.part).iprio
      let q := (s.part b.2.part).iprio
      if p < q || (p == q && (decide (e.2.ref < b.2.ref) || (e.2.ref == b.2.ref && decide (e.1 < b.1)))) then some e
      else some b
/-- A team outside Outrider state is ready or waiting on a pipe (R66). -/
def State.pipeReady (s : State) (core pipe : Nat) : Bool :=
  (s.pipeTeams core pipe).any (fun e => s.stands e.1 e.2 && e.2.wait.isNone && e.2.out.isNone)
/-- The team whose run a pipe issues next (R46); with none ready or waiting, a team in Outrider state: of several, the lowest slot,
for the manual gives them no order (R66, log 100). -/
def State.nextRun (s : State) (core pipe : Nat) : Option (Nat × Team) :=
  let ts := s.pipeTeams core pipe
  let ws := ts.filter (fun e => s.waiting e.1 e.2)
  let deferred := fun (u : Nat × Team) => u.2.started && ws.any (fun t => t.1 != u.1 && decide (t.2.ref < u.2.runEnd))
  let free := ws.filter (fun e => !deferred e)
  match s.bestOf (free.filter (fun e => s.capAdmits core pipe e.1 e.2)) with
  | some e => some e
  | none =>
    match s.bestOf free with
    | some e => some e
    | none => if s.pipeReady core pipe then none
      else (ts.filter (fun e => s.able e.1 e.2 && e.2.out.isSome && !s.frozenNext e.1 e.2)).head?
/-- RUN_ARBITRATION (R46). -/
def execRunArbitration (core pipe : Nat) (s : State) : Out :=
  let c := s.core core
  if (c.pipe pipe).team.isSome then .next s
  else match s.nextRun core pipe with
    | none => .next s
    | some (k, _) => .next (s.setCore core (c.setPipe pipe { team := some k }))

/-- The next current cap of a partition on a pipe of a core in adaptive mode; the key is twice the partition, plus the pipe (R47). -/
def State.nextCap (s : State) (core key cap : Nat) : Nat :=
  let p := s.part (key / 2)
  let top := (s.pipeTeams core (key % 2)).foldl (fun m x => if x.2.part = key / 2 then max m x.2.score else m) 0
  if p.capMode ≠ 2 then cap
  else if p.thresh ≤ top then max (max 1 (min 16 p.cap)) (cap - 1)
  else if top < p.thresh / 2 then min 16 (cap + 1)
  else cap
/-- CAP_EVALUATION, every 4,096 cycles of a core: the current caps of adaptive mode, then every score is halved (R47). -/
def execCapEvaluation (core : Nat) (s : State) : Out :=
  let c := s.core core
  if c.capClock < 4096 then .next s
  else
    let here := s.teams.filter (fun e => !isSpilled e.1 && coreOf e.1 == core)
    let keys := here.foldl (fun l e => insertNew l (2 * e.2.part + slotOf e.1 % 2)) (c.caps.map (·.1))
    let caps := keys.foldl (fun m n => Tab.set m n (s.nextCap core n (Tab.get c.caps 16 n))) c.caps
    let ts := s.teams.map (fun e => if !isSpilled e.1 && coreOf e.1 == core then (e.1, { e.2 with score := e.2.score / 2 }) else e)
    .next ({ s with teams := ts }.setCore core { c with caps := caps, capClock := c.capClock - 4096 })

end Sys2Proof.Machine
end

