-- ==== Sys2Proof/Machine/Fabric.lean ====
section
/-! DEFINITION. Sys2Proof/Machine/Fabric.lean: firewall edges (R31 to R34), banks (R210, R211), fleeting tiles (R218), rails,
the Regulator, time and the watchdog (R354 to R363), patrol scrub (R375). -/
namespace Sys2Proof.Machine

/-! ## The D2D firewall (R31 to R34) -/

/-- The die across an edge. -/
def neighbour (d e : Nat) : Nat :=
  match e with | 0 => d + 1 | 1 => d - 1 | 2 => d + 4 | _ => d - 4
/-- A route from a die to another crosses the boundary at an edge; at most four hops (R16). -/
def crosses (die edge t : Nat) : Nat → Nat → Bool
  | 0, _ => false
  | n + 1, d =>
    if d = t then false
    else
      let (e, d') := hop d t
      (d == die && e == edge) || (d' == die && opposite e == edge) || crosses die edge t n d'
/-- A request from a die to a location, or its response, crosses the boundary at an edge: each goes column first on its own way
(R16). -/
def onWay (die edge src loc : Nat) : Bool :=
  crosses die edge (dieOfLoc loc) 5 src || crosses die edge src 5 (dieOfLoc loc)
/-- A request already accepted across a boundary is not yet complete with its response: a store that waits to be registered, a line
on its way to a team (R32). -/
def State.inTransit (s : State) (die edge : Nat) : Bool :=
  s.cores.any (fun c => c.2.stores.any (fun p => p.words.any (fun w => onWay die edge (dieOf c.1) (4 * w.1)))) ||
  s.teams.any (fun e => match e.2.wait with
    | some (.fill _ sent _) => sent.any (fun l => onWay die edge (dieOf (coreOf e.1)) (128 * l))
    | _ => false)

/-- CLOSE as it is written (R32). -/
def Edge.writeClose (x : Edge) (close : Bool) : Edge :=
  match x.state, close with
  | .opened, true => { x with close := true, state := .draining }
  | .closed, false => { x with close := false, state := .opened }
  | _, _ => { x with close := close }
/-- DFW_CLOSE_WRITE: the Yardmaster writes CLOSE, or clears OVF (R32, Table 1-7). -/
def execDfwCloseWrite (die edge : Nat) (w : EdgeWrite) (s : State) : Out :=
  let x := s.edge die edge
  match w with
  | .close v => .next (s.setEdge die edge (x.writeClose v))
  | .clearOvf => .next (s.setEdge die edge { x with ovf := false })
/-- DFW_DRAIN_COMPLETE: every accepted request has completed; the edge is closed, and then as CLOSE now says (R32). -/
def execDfwDrainComplete (die edge : Nat) (s : State) : Out :=
  let x := s.edge die edge
  if x.state ≠ .draining ∨ s.inTransit die edge then .next s
  else .next (s.setEdge die edge { x with state := if x.close then .closed else .opened })
/-- The edges of a die. -/
def edgesOf (die : Nat) : List Nat := (List.range 4).filter (fun e => edgeExists die e)
/-- CLOSE reads 1 and STATE closed on every edge of a die (R34). -/
def State.dieShut (s : State) (die : Nat) : Bool :=
  (edgesOf die).all (fun e => (s.edge die e).close && (s.edge die e).state == .closed)
/-- A partition has a cluster, a GiB of its window, or a part of its save area on a die (R24, R29, R34, R348). -/
def State.dieUsed (s : State) (i : Nat) : Bool :=
  (List.range Config.partitions).any (fun p =>
    let x := s.part p
    x.ncl != 0 && (x.clusterList.any (fun c => c / 2 == i) || (List.range 128).any (fun g => bit x.window (128 * i + g)) ||
      meetsRange x.saveBase.toNat (x.saveSize.toNat * 2 ^ 20) (i * 2 ^ 37) (2 ^ 37)))
/-- DFW_DOM_WRITE: only on a die whose edges are all closed and from which every partition has been carried (R34). -/
def execDfwDomWrite (die dom : Nat) (s : State) : Out :=
  if s.dieShut die && !s.dieUsed die then .next { s with dieDom := Tab.set s.dieDom die dom } else .next s

/-! ## Banks (R210, R211, Table 13-2) -/

/-- A mode of its code; 0b11 is none. -/
def BankMode.ofCode : Nat → Option BankMode
  | 0 => some .cache | 1 => some .scratch | 2 => some .fifo | _ => none
/-- BKCTL_REQ_WRITE: FW and REQ are set; a REQ of 0b11 is ignored. -/
def execBkctlReqWrite (cl bank : Nat) (v : Word) (s : State) : Out :=
  let c := s.cluster cl
  let x := { c.bank bank with fw := bit v 12 }
  let x := match BankMode.ofCode (field v 8 2) with
    | some m => x.request m
    | none => x
  .next (s.setCluster cl (c.setBank bank x))
/-- A switch may end: no scratch line is left in the bank; no resident launch binds it, but those of partitions whose entries are in
a save area (R211, R346). -/
def State.mayLeave (s : State) (cl bank : Nat) (x : Bank) : Bool :=
  match x.mode with
  | .cache => true
  | .scratch => s.linesUsed cl bank == 0
  | .fifo => (s.binders cl bank).all (fun q => (Tab.get? x.saved q).isSome)
/-- The bank in its new mode, empty; entries in the save area of a halted partition that binds it are kept, then a request made
meanwhile takes effect (R211, R346). One reserved for the Escapement goes on to scratch mode, a request waiting for the end of the
reservation; one reserved with a switch to cache mode pending passes through cache mode first, which is the model's choice (R275, log
142). -/
def State.bankAfter (s : State) (cl bank : Nat) (x : Bank) : Bank :=
  let y : Bank := { x with
                    mode := x.aim, trans := false, next := none, fifo := [], owner := none,
                    saved := x.saved.filter (fun e => s.partBinds cl bank e.1),
                    width := if x.aim = .fifo then x.fw else x.width }
  if y.esc then
    let y : Bank := { y with next := x.next }
    if y.mode = .cache then { y with aim := .scratch, trans := true, req := if x.next.isSome then y.req else .scratch } else y
  else match x.next with
    | some m => y.request m
    | none => y
/-- BANK_MODE_CHANGE: the bank leaves its mode and enters the one asked for. The dirty words of the lines it held as cache are
written back, their stores registered; the lines leave the cluster cache (R211). -/
def execBankModeChange (cl bank : Nat) (s : State) : Out :=
  let x := (s.cluster cl).bank bank
  if !x.trans || !s.mayLeave cl bank x then .next s
  else
    let lines := if x.mode = .cache then (s.cluster cl).l2.filter (fun e => e.2.bank == bank) else []
    let s := s.flushL2 cl (fun _ => true) (lines.flatMap (fun e => lineWords e.1))
    let c := s.cluster cl
    .next (s.setCluster cl { c.setBank bank (s.bankAfter cl bank x) with
    l2 := if x.mode = .cache then c.l2.filter (fun e => e.2.bank != bank) else c.l2 })

/-! ## Fleeting tiles (Table 13-3) -/

/-- The sweep visits a tile at a tick. -/
def Tile.swept (t : Tile) (now : DWord) : Tile :=
  if t.live (now.setWidth 16) then { t with visit := now } else { t with exp := true, valid := 0, visit := now }
/-- SWEEP_VISIT. -/
def execSweepVisit (bk tile : Nat) (s : State) : Out :=
  match s.block? bk with
  | none => .next s
  | some b =>
    match Tab.get? b.tiles tile with
    | none => .next s
    | some t => .next (s.setBlock bk { b with tiles := Tab.set b.tiles tile (t.swept s.tick) })
/-- Every tile the sweep has not visited for 16,384 ticks is visited now (R218). -/
def State.sweepDue (s : State) : State :=
  { s with blocks := Tab.mapVals s.blocks (fun b => { b with
      tiles := Tab.mapVals b.tiles (fun t => if 16384 ≤ s.tick - t.visit then t.swept s.tick else t) }) }
/-- FLEET_SOFT_ERROR: the line's valid bits clear. -/
def execFleetSoftError (bk tile line : Nat) (s : State) : Out :=
  match s.block? bk with
  | none => .next s
  | some b =>
    match Tab.get? b.tiles tile with
    | none => .next s
    | some t =>
      let m := (0xFFFFFFFF#512) <<< (32 * line)
      .next (s.setBlock bk { b with tiles := Tab.set b.tiles tile { t with valid := t.valid &&& ~~~m } })

/-! ## Rails and throttling (R354, R355, R361) -/

/-- The ceiling of a rail in W (Table 25-1). -/
def railCeiling : Nat → Nat
  | 0 => 750 | 1 => 500 | 2 => 450 | _ => 600
/-- The lowest OP at which a power measured at OP `k`, scaled with the clock, lies within the ceiling; else 7. -/
def railOp (ceiling power k : Nat) : Nat :=
  ((List.range 8).find? (fun j => decide (power * (16 - j) ≤ ceiling * (16 - k)))).getD 7
/-- The throttling of an update: of how many cycles in sixteen each partition's issue is withheld, as chosen, but for partitions
under their floors; above the package limit every other partition of the part yields at least one (R2, R355, R361, log 13). -/
def State.throttling (s : State) (package : Nat) (chosen : List (Nat × Nat)) : Tab Nat :=
  (List.range Config.partitions).foldl (fun (m : Tab Nat) p =>
    let n := min 16 (Tab.get chosen 0 p)
    let n := if Config.packageLimit < package ∧ (s.part p).ncl ≠ 0 then max 1 n else n
    if n = 0 ∨ s.floored p then m else Tab.set m p n) []
/-- RAIL_OP_UPDATE, every 1,024 ticks: PWR and OP of each rail, package power, the powers of the partitions, throttling, vector 3
when THR becomes 1 (R354, R355, R361). -/
def execRailOpUpdate (rails : List Nat) (package : Nat) (powers withheld : List (Nat × Nat)) (s : State) : Out :=
  if s.tick - s.railAt < 1024 then .next s
  else
    let rs := (List.range 4).foldl (fun (m : Tab Rail) r =>
      let w := (rails[r]?).getD 0
      Tab.set m r { pwr := w, op := railOp (railCeiling r) w (Tab.get m {} r).op }) s.rails
    let s := { s with powers := powers.foldl (fun (m : Tab Nat) (e : Nat × Nat) => Tab.set m e.1 e.2) [] }
    let th := s.throttling package withheld
    let s' := { s with rails := rs, pkgPwr := package, pkgThr := !th.isEmpty, throttled := th, railAt := s.tick }
    .next (if !th.isEmpty && !s.pkgThr then s'.irq none 3 else s')

/-! ## The Regulator (R356, R357) -/

/-- FRZ as it is taken (Table 25-2). -/
def Cluster.freezeCycles (c : Cluster) : Nat := max 16 (min 4096 c.frz)
/-- DROOP_STRETCH: stage one; cycles are stretched, no state of a program changes. -/
def execDroopStretch (cl : Nat) (s : State) : Out :=
  let c := s.cluster cl
  .next (s.setCluster cl { c with reg := { c.reg with droop := true, count := if c.reg.frozen then c.reg.count else 0 } })
/-- DROOP_END. -/
def execDroopEnd (cl : Nat) (s : State) : Out :=
  let c := s.cluster cl
  .next (s.setCluster cl { c with reg := { c.reg with droop := false } })
/-- STAGE_TWO_FREEZE: droop has persisted beyond 64 cycles. -/
def execStageTwoFreeze (cl : Nat) (s : State) : Out :=
  let c := s.cluster cl
  if c.reg.droop && !c.reg.frozen && decide (64 < c.reg.count) then
    .next (s.setCluster cl { c with reg := { c.reg with frozen := true, count := 0 } })
  else .next s
/-- FREEZE_EXPIRY: FRZ cycles have passed; droop that persists renews the freeze. -/
def execFreezeExpiry (cl : Nat) (s : State) : Out :=
  let c := s.cluster cl
  if c.reg.frozen && decide (c.freezeCycles ≤ c.reg.count) then
    .next (s.setCluster cl { c with reg := { c.reg with frozen := c.reg.droop, count := 0 } })
  else .next s

/-! ## Time (R6, R71, R362, R363) -/

/-- A peer with the `%tick` of the partitions that are there one tick on (R71). -/
def Peer.ticked (x : Peer) : Peer := { x with parcels := x.parcels.map (fun q => { q with tick := q.tick + 1 }) }
/-- PACKAGE_TICK; the sweep visits what is due (R218). -/
def execPackageTick (s : State) : Out :=
  .next ({ s with tick := s.tick + 1, peers := Tab.mapVals s.peers Peer.ticked }.sweepDue)
/-- TICK_ALIGN_STEP, every 65,536 ticks: with ALIGN 1 and no admitted task the tick steps forward to the reference; ahead by more
than one, it stays, ERR is set and vector 4 of the physical function raised (R362, log 11). -/
def execTickAlignStep (reference : DWord) (s : State) : Out :=
  if !s.tsyncAlign || !s.tasks.isEmpty || decide (s.tick - s.alignAt < 65536) then .next s
  else if s.tick ≤ reference then .next { s with tick := reference, alignAt := reference }
  else if s.tick - reference ≤ 1 then .next { s with alignAt := s.tick }
  else .next ({ s with tsyncErr := true, alignAt := s.tick }.irq none 4)

/-- A team halted in place that cannot issue again yet: its task or an item of its block is missing (R325, R347). -/
def State.stillHalted (s : State) (k : Nat) (t : Team) : Bool := t.awaitsBlock && !s.stands k { t with fault := none }
/-- A cycle of a core that counts for a partition, in which no team of it gets on, is progress-free (R363). -/
def State.progressFree (s : State) (core p : Nat) : Bool :=
  let ts := s.teams.filter (fun e => coreOf e.1 == core && !isSpilled e.1 && e.2.part == p && !s.stillHalted e.1 e.2)
  !ts.isEmpty && !ts.any (·.2.parked)
/-- `n` cycles of a core count: the evaluation clock of R47, the Regulator's count, the progress-free counts of R363, to which those
cycles alone that count add, and which one of them that is not progress-free resets. -/
def State.countCycles (s : State) (core n : Nat) : State :=
  let c := s.core core
  let ps := (List.range Config.partitions).filter (fun p => (s.part p).ncl != 0 || (Tab.get? c.wd p).isSome)
  let wd := ps.foldl (fun (m : Tab Nat) p =>
    let k := s.cyclesCounted core p n
    if k = 0 then m else if s.progressFree core p then Tab.upd m 0 p (· + k) else Tab.erase m p) c.wd
  let s := s.setCore core { c with capClock := c.capClock + n, wd := wd }
  if core % 32 = 0 then
    let y := s.cluster (clusterOf core)
    s.setCluster (clusterOf core) { y with reg := { y.reg with count := y.reg.count + n } }
  else s
/-- `%cycle` of a core moves on. -/
def State.addCycles (s : State) (core n : Nat) : State :=
  let c := s.core core
  s.setCore core { c with cycle := c.cycle + BitVec.ofNat 64 n }
/-- `n` cycles of a core pass without an instruction retired on it. -/
def State.passCycles (s : State) (core n : Nat) : State := (s.countCycles core n).addCycles core n
/-- LOG2W as it is taken (Table 25-4). -/
def Part.window2 (p : Part) : Nat := 2 ^ max 16 p.log2w
/-- WATCHDOG_REPORT: the count has reached the window; it starts again, vector 6 is raised, WDREC is set when free (R363). -/
def execWatchdogReport (core p : Nat) (s : State) : Out :=
  let c := s.core core
  let x := s.part p
  if Tab.get c.wd 0 p < x.window2 then .next s
  else
    let s := s.setCore core { c with wd := Tab.erase c.wd p }
    let x := if x.wdValid then x else { x with wdValid := true, wdCore := core % 32, wdCluster := x.vcluster (clusterOf core) }
    .next ((s.setPart p x).irq (some p) 6)

/-! ## Errors (R375) -/

/-- The virtual address a task pins a location at; 0 without one. -/
def State.vaOf (s : State) (tk : Task) (loc : Nat) : DWord :=
  let at_ := fun (q : Pin) => peerLoc (s.part tk.part).peerWin q.dpa
  match tk.pins.find? (fun q => decide (at_ q ≤ loc) && decide (loc < at_ q + q.size)) with
  | some q => BitVec.ofNat 64 (q.va + (loc - at_ q))
  | none => 0
/-- The fault of a store in error whose team has exited: of its task, with the team's block and number (R375, log 98). -/
def State.storeLost (s : State) (tk : Task) (p : PStore) (a : DWord) : State :=
  s.setTask p.task { tk with faults := tk.faults ++ [{ cls := 7, detail := 3, addr := a, block := p.block, team := p.teamNo }] }
/-- A dirty word of a core is lost in error: its stores with it, and the team that stored it faults, or its task once the team has
exited (R235, R375). A resident team's fault is reported at its present pc: the model's choice (R338, log 98). -/
def State.loseWord (s : State) (core w : Nat) : State :=
  let c := s.core core
  let lost := c.stores.filter (fun p => p.words.any (fun e => e.1 == w))
  let y := s.cluster (clusterOf core)
  let s := if dirtyBy y.l2 w = some core then s.setCluster (clusterOf core) { y with l2 := dropWord (cleanWord y.l2 w) w } else s
  let s := s.setCore core { c with
    l1 := dropWord (cleanWord c.l1 w) w,
    stores := (c.stores.map (fun p => { p with words := p.words.filter (fun e => e.1 != w) })).filter (fun p => p.words != []) }
  match lost.head? with
  | none => s
  | some p =>
    match s.task? p.task with
    | none => s
    | some tk =>
      let a := s.vaOf tk (4 * w)
      match s.team? p.team with
      | some t => if t.uid != p.uid then s.storeLost tk p a else if t.fault.isNone then s.raise p.team t 7 3 a none else s
      | none => s.storeLost tk p a
/-- An uncorrectable word of an L1: clean, it is fetched again; dirty, it is lost (R375). -/
def State.badL1 (s : State) (core w : Nat) : State :=
  let c := s.core core
  if dirtyIn c.l1 w then s.loseWord core w else s.setCore core { c with l1 := dropWord c.l1 w }
/-- The same of a cluster cache. -/
def State.badL2 (s : State) (cl w : Nat) : State :=
  let y := s.cluster cl
  match dirtyBy y.l2 w with
  | some core => s.loseWord core w
  | none => s.setCluster cl { y with l2 := dropWord y.l2 w }
/-- A word of HBM or of the LLC is poisoned, what it held is lost; the patrol that meets it finds it: vector 2 of the physical function
is raised. Else whoever reads it first outside any task does (R375, log 7). -/
def State.poison (s : State) (w detail : Nat) (scrub : Bool) : State :=
  let s := s.poke w (Config.lostWord s.fresh)
  let s := { s with fresh := s.fresh + 1, poisoned := Tab.set s.poisoned w detail, unfound := insertNew s.unfound w }
  if scrub then s.finds (· == w) else s
/-- An entry of a FIFO with an uncorrectable error. -/
def Bank.spoil (b : Bank) (i : Nat) : Bank :=
  { b with fifo := ((List.range b.fifo.length).zip b.fifo).map (fun e => if e.1 = i then { e.2 with bad := true } else e.2) }
/-- An uncorrectable error at a place (R235, R375). In HBM and the LLC it poisons the word; in a cache a clean word is fetched again
and a dirty one lost; elsewhere the task that reads it faults. -/
def State.spoil (s : State) (e : ErrorPlace) : State :=
  match e with
  | .hbm w scrub => s.poison w 1 scrub
  | .llc w scrub => s.poison w 2 scrub
  | .l1 core w => s.badL1 core w
  | .l2 cl w => s.badL2 cl w
  | .scratch bk w => match s.block? bk with
    | some b => s.setBlock bk { b with badWords := insertNew b.badWords w }
    | none => s
  | .fifo cl n i => s.setCluster cl ((s.cluster cl).setBank n (((s.cluster cl).bank n).spoil i))
  | .reg k r => match s.team? k with
    | some t => s.setTeam k { t with bad := if t.bad.contains r then t.bad else t.bad ++ [r] }
    | none => s
  | .slot bk n => match s.block? bk with
    | some b => s.setBlock bk { b with badSlots := insertNew b.badSlots n }
    | none => s
  | .const k w => match s.task? k with
    | some tk => s.setTask k { tk with badConsts := insertNew tk.badConsts w }
    | none => s
  | .counters cl => match (s.cluster cl).graph with
    | some g => s.setCluster cl { s.cluster cl with graph := some { g with bad := true } }
    | none => s
/-- PATROL_SCRUB: a check of one word finds it good, or with a corrected error, which is counted, with vector 1 at every 65,536,
or with an uncorrectable one (R375). -/
def execPatrolScrub (place : ErrorPlace) (corrected uncorrectable : Bool) (s : State) : Out :=
  if uncorrectable then .next (s.spoil place)
  else if corrected then
    let n := s.cecnt + 1
    let s := { s with cecnt := n }
    .next (if n.setWidth 16 == 0#16 then s.irq none 1 else s)
  else .next s

end Sys2Proof.Machine
end

