-- ==== Sys2Proof/Machine/MemoryInstr.lean ====
section
/-! DEFINITION. Sys2Proof/Machine/MemoryInstr.lean: classes 100 and 101, the memory, atomic, fleeting and fence
instructions (R222 to R234). -/
namespace Sys2Proof.Machine

/-! ## Checks (Table 13-5, R85) -/

/-- The sets of field values an instruction accepts (Table 13-5). -/
structure MSpec where
  ords : List (BitVec 2) := [0]
  spcs : List (BitVec 3) := [0, 1, 2, 3, 4]
  szs : List (BitVec 3) := [0, 1, 2, 3, 4]
  ams : List (BitVec 2) := [0, 1, 2, 3]

/-- The address register pair, and the offset register of am 0b10 (Table 5-8, R85). -/
def addrRegsOk (f : MF) (r : Rec) : Bool :=
  (if f.am == 0 then r.vecOk f.ma.toNat 2 2 else f.ma.toNat % 2 == 0 && decide (f.ma.toNat < 64)) &&
    (f.am != 2 || r.vecOk f.mx.toNat 1 1)
/-- Values outside the accepted sets; registers. -/
def mCheck (f : MF) (sp : MSpec) (t : Team) (s : State) : Act Unit := do
  illegalIf (!sp.ords.contains f.ord || !sp.spcs.contains f.spc || !sp.szs.contains f.sz || !sp.ams.contains f.am) 1
  illegalIf (!addrRegsOk f (s.recOf t)) 2
/-- Vector data registers of an access: one, a pair, or a group of four (R222). -/
def dataRegs (sz : BitVec 3) : Nat := match sz.toNat with | 3 => 2 | 4 => 4 | _ => 1
/-- A vector md. -/
def mdVector (f : MF) (t : Team) (s : State) : Act Unit :=
  illegalIf (!(s.recOf t).vecOk f.md.toNat (dataRegs f.sz) (dataRegs f.sz)) 2
/-- A scalar register field: 0 to 63, even for 64 bits. -/
def scalarOk (r : BitVec 8) (wide : Bool) : Bool := decide (r.toNat < 64) && (!wide || !bit r 0)
def mdScalar (f : MF) (r : BitVec 8) : Act Unit := illegalIf (!scalarOk r (f.sz == 3)) 2
/-- The scalar registers of a data operand. -/
def dataScalars (r : BitVec 8) (wide : Bool) : List Nat := if wide then [r.toNat, r.toNat + 1] else [r.toNat]

/-- Lanes of a mask with their accesses, for the passes of a sweep. -/
def lanesFor (k : Nat) (t : Team) (s : State) (f : MF) (write : Bool) (m : Mask) : Act (List LaneAcc) :=
  resolveLanes k t s f write (accessSize f) (accessSize f) (lanesOf m t.words)

/-! ## Loads -/

/-- Writes loaded numbers by lane (R223): md, a pair, or four registers, with the tags of R223. -/
def writeLoaded (f : MF) (t : Team) (m : Mask) (v : Nat → Nat) : Team :=
  let d := f.md.toNat
  match dataRegs f.sz with
  | 1 => t.wlanes d m (plainTag .f32) (fun l => BitVec.ofNat 32 (v l))
  | 2 => t.wlanes2 d m (plainTag .f64) (fun l => BitVec.ofNat 64 (v l))
  | _ => (List.range 4).foldl (fun (t : Team) i =>
      t.wlanes (d + i) m (plainTag .f32) (fun l => BitVec.ofNat 32 (v l / 2 ^ (32 * i)))) t

/-- The numbers the accesses return by lane; none where expired. -/
def loadedLanes (k : Nat) (t : Team) (s : State) (z : Nat) (accs : List LaneAcc) : Tab (Option Nat) :=
  accs.map (fun a => (a.lane, (readWords k t s a.place).map (fun ws => bytesIn ws a.addr.toNat z)))

/-- `vld` (R223). -/
def execVld (f : MF) (s : State) : Out :=
  perLane f.pre { reads := addrScalars f }
    (fun _ t s => do
      mCheck f { ords := [0, 1] } t s
      mdVector f t s)
    (fun k act t s =>
      let last := (t.nextPass act).isNone
      sweep k act [] t s (fun m u s => do
        let accs ← lanesFor k u s f false m
        loadReady k u s (f.ord == 1) f.evp.toNat accs
        let (u, s) := beforeRead k u s (f.ord == 1) accs
        let vs := loadedLanes k u s (accessSize f) accs
        let v := fun l => Tab.get vs none l
        let u' := writeLoaded f u m (fun l => (v l).getD 0)
        let u' := if f.spc == 2 then u'.wp 6 m (maskWhere m u.words (fun l => (v l).isNone)) else u'
        let (u', s') := afterRead k u' s (f.ord == 1) last f.evp.toNat accs
        pure (u', s', fun _ => 0))) s

/-- The one access of a per-team instruction (am 0b11, R225). -/
def teamAccess (k : Nat) (t : Team) (s : State) (f : MF) (write : Bool) (z al : Nat) : Act LaneAcc := do
  let a := laneAddr f t z 0
  let p ← resolve k t s f.spc.toNat write z al a
  pure { lane := 0, addr := a, place := p }

/-- `sld` (R225). -/
def execSld (f : MF) (s : State) : Out :=
  let wide := f.sz == 3
  perTeam f.pre { reads := addrScalars f, writes := dataScalars f.md wide }
    (fun _ t s => do
      mCheck f { ords := [0, 1], szs := [0, 1, 2, 3], ams := [3] } t s
      mdScalar f f.md)
    (fun k t s => do
      let a ← teamAccess k t s f false (accessSize f) (accessSize f)
      loadReady k t s (f.ord == 1) f.evp.toNat [a]
      let (t, s) := beforeRead k t s (f.ord == 1) [a]
      let r := (readWords k t s a.place).map (fun ws => bytesIn ws a.addr.toNat (accessSize f))
      let v := r.getD 0
      let u := if wide then t.ws2 f.md.toNat (BitVec.ofNat 64 v) else t.ws f.md.toNat (BitVec.ofNat 32 v)
      let act := t.guarded f.pre
      let u := if f.spc == 2 then u.wp 6 act (if r.isNone then act else 0) else u
      let (u, s) := afterRead k u s (f.ord == 1) true f.evp.toNat [a]
      done u s) s

/-! ## Stores -/

/-- The number a lane stores: the low `z` bytes of its register, pair or group (R224). -/
def storedLane (f : MF) (t : Team) (l : Nat) : Nat :=
  natOfWords ((List.range (dataRegs f.sz)).map (fun i => t.rl (f.md.toNat + i) l)) % 2 ^ (8 * accessSize f)

/-- The commit-buffer entries of the pass of a mask word, for stores that a function gives (R294). -/
def entriesOf (z : Nat) (act : Mask) (t : Team) (s : State) (data : Team → State → Mask → Act (List (LaneAcc × Nat)))
    (w : Nat) : Nat :=
  match data t s (maskSpan act w (w + 1)) with
  | .ok l => (bufferEntries t.pc z l none).length
  | .error _ => 0

/-- The stores of the lanes of a mask by `vst`, in lane order: accesses and data; of 128 bits, two doublewords (R224, R237). -/
def vstData (k : Nat) (f : MF) (t : Team) (s : State) (m : Mask) : Act (List (LaneAcc × Nat)) := do
  let accs ← lanesFor k t s f true m
  let each ← accs.mapM (fun a => do
    let units ← unitsOf k t s f true a
    pure (((List.range units.length).zip units).map (fun u => (u.2, storedLane f t a.lane / 2 ^ (64 * u.1) % 2 ^ 64))))
  pure each.flatten
/-- `vst` (R224). -/
def execVst (f : MF) (s : State) : Out :=
  perLane f.pre { reads := addrScalars f }
    (fun _ t s => do
      mCheck f { ords := [0, 2], spcs := [0, 1, 2, 3] } t s
      mdVector f t s)
    (fun k act t s =>
      sweepStores k act t s (entriesOf (unitSize (accessSize f)) act t s (vstData k f)) (fun m u s => do
        let accs ← vstData k f u s m
        let (u, s) ← storeLanes k u s f.evp.toNat (f.ord == 2) (unitSize (accessSize f)) accs
        pure (u, s, fun _ => 0))) s

/-- `sst` (R225). -/
def execSst (f : MF) (s : State) : Out :=
  let wide := f.sz == 3
  perTeam f.pre { reads := addrScalars f ++ dataScalars f.md wide }
    (fun _ t s => do
      mCheck f { ords := [0, 2], spcs := [0, 1, 2, 3], szs := [0, 1, 2, 3], ams := [3] } t s
      mdScalar f f.md)
    (fun k t s => do
      let a ← teamAccess k t s f true (accessSize f) (accessSize f)
      let (t, s) ← storeLanes k t s f.evp.toNat (f.ord == 2) (accessSize f)
        [(a, t.scalar wide f.md.toNat % 2 ^ (8 * accessSize f))]
      done t s) s

/-! ## Scaled chunks (R198, R199, R226) -/

/-- The address of the chunk of mask word `w` (R226). -/
def chunkAddr (f : MF) (t : Team) (w : Nat) : DWord :=
  t.rs2 f.ma.toNat + BitVec.ofInt 64 (136 * (sval 8 f.imm.toNat + w))
/-- The accesses of the 34 words of a chunk at an address aligned to 8: each word is one access, with its own place (R206, R226,
R237). -/
def chunkOf (k : Nat) (t : Team) (s : State) (f : MF) (write : Bool) (lane : Nat) (a : DWord) : Act (List LaneAcc) := do
  if a.toNat % 8 ≠ 0 then
    let _ ← resolve k t s f.spc.toNat write 8 8 a
  (List.range 34).mapM (fun i => do
    let b := a + BitVec.ofNat 64 (4 * i)
    let p ← resolve k t s f.spc.toNat write 4 4 b
    pure { lane := lane, addr := b, place := p })
/-- The chunk accesses of the lane blocks of a mask, lane block by lane block. -/
def chunkAccs (k : Nat) (t : Team) (s : State) (f : MF) (write : Bool) (m : Mask) : Act (List (Nat × List LaneAcc)) :=
  (passesOf m t.words).mapM (fun w => do
    let l ← chunkOf k t s f write (32 * w) (chunkAddr f t w)
    pure (w, l))
/-- The words of a chunk; none when any is expired (R219). -/
def chunkRead (k : Nat) (t : Team) (s : State) (l : List LaneAcc) : Option (List Word) :=
  (l.mapM (fun a => readWords k t s a.place)).map (·.flatten)
/-- The format slot of `ldsc` and `stsc`. -/
def chunkTag (f : MF) (t : Team) (s : State) : Tag := slotTag ((s.recOf t).fmtSlot f.mx.toNat)

/-- The register a chunk's 34 words make (R132, R199). -/
def chunkReg (tag : Tag) (ws : List Word) : VReg :=
  { data := rowOf (fun i => (ws[i + 2]?).getD 0 &&& tag.fmt.used), tag := tag,
    scale := ((ws[1]?).getD 0 ++ (ws[0]?).getD 0) &&& tag.fmt.usedScales }
/-- The words of a register's chunk (R132). -/
def chunkWords (x : VReg) : List Word :=
  x.scale.setWidth 32 :: x.scale.extractLsb' 32 32 :: (List.range 32).map (rowWord x.data)

/-- `ldsc` (R199, R226). -/
def execLdsc (f : MF) (s : State) : Out :=
  perLane f.pre { reads := addrScalars f }
    (fun _ t s => do
      mCheck f { ords := [0, 1], szs := [2], ams := [1] } t s
      mdVector f t s
      illegalIf (!(chunkTag f t s).fmt.scaled) 5)
    (fun k act t s =>
      let tag := chunkTag f t s
      let last := (t.nextPass act).isNone
      sweep k act [] t s (fun m u s => do
        let chunks ← chunkAccs k u s f false m
        let accs := chunks.flatMap (·.2)
        loadReady k u s (f.ord == 1) f.evp.toNat accs
        let (u, s) := beforeRead k u s (f.ord == 1) accs
        let u' := chunks.foldl (fun (v : Team) c =>
          let w := c.1
          let blk := maskSpan m w (w + 1)
          match chunkRead k u s c.2 with
          | some ws =>
            let v := v.wv f.md.toNat w (chunkReg tag ws)
            if f.spc == 2 then v.wp 6 blk 0 else v
          | none => (v.wv f.md.toNat w { tag := tag }).wp 6 blk blk) u
        let (u', s') := afterRead k u' s (f.ord == 1) last f.evp.toNat accs
        pure (u', s', fun _ => 0))) s

/-- The stores of the lane blocks of a mask by `stsc`: each word of a chunk is one access (R226, R237). -/
def stscData (k : Nat) (f : MF) (t : Team) (s : State) (m : Mask) : Act (List (LaneAcc × Nat)) := do
  let chunks ← chunkAccs k t s f true m
  pure (chunks.flatMap (fun c => c.2.zip ((chunkWords (t.rv f.md.toNat c.1)).map (·.toNat))))
/-- The tags that `stsc` admits: of every active lane block, scaled and that of the format slot; a plain tag is a mismatch (R198). -/
def chunkTagsOk (t : Team) (act : Mask) (r : Nat) (tag : Tag) : Bool :=
  (passesOf act t.words).all (fun w => (t.rv r w).tag.fmt.scaled) && tagsMatch t act r tag
/-- `stsc` (R198, R226). -/
def execStsc (f : MF) (s : State) : Out :=
  perLane f.pre { reads := addrScalars f }
    (fun _ t s => do
      mCheck f { ords := [0, 2], spcs := [0, 1, 2, 3], szs := [2], ams := [1] } t s
      mdVector f t s)
    (fun k act t s =>
      if t.intr.isNone && !chunkTagsOk t act f.md.toNat (chunkTag f t s) then faultAt 3 3 0
      else
        sweepStores k act t s (entriesOf 4 act t s (stscData k f)) (fun m u s => do
          let each ← stscData k f u s m
          let (u, s) ← storeLanes k u s f.evp.toNat (f.ord == 2) 4 each
          pure (u, s, fun _ => 0))) s

/-! ## Prefetch, write-back, bank query, fence (R227 to R230) -/

/-- `vprf`: lines into the caches, once their walks have ended; an access that would fault is dropped, and so is one whose walk fails or
whose request is refused at an edge (R227, R326, log 104). -/
def execVprf (f : MF) (s : State) : Out :=
  perLane f.pre { reads := addrScalars f }
    (fun _ t s => mCheck f { spcs := [0, 3] } t s)
    (fun k act t s =>
      sweep k act [] t s (fun m u s => do
        let vas := (lanesOf m u.words).flatMap (fun l =>
          let a := laneAddr f u (accessSize f) l
          match resolve k u s f.spc.toNat false (accessSize f) (accessSize f) a with
          | .ok _ => accessVas k u s f.spc.toNat (accessSize f) a
          | .error _ => [])
        let (s, lost) := s.prefetchWords k u.part f.evp.toNat vas
        pure ({ u with score := u.scoreAfter lost }, s, fun _ => 0))) s

/-- `scwb`: the mapped region's dirty words in a scratch range, stored to their backing by the team (R228). A dirty word that lies in
the range in part is written back whole: the manual does not say (log 127). -/
def execScwb (f : MF) (s : State) : Out :=
  perTeam f.pre { reads := addrScalars f ++ [f.md.toNat] }
    (fun _ t s => do
      mCheck f { spcs := [1], szs := [2], ams := [3] } t s
      illegalIf (!scalarOk f.md false) 2)
    (fun k t s => do
      let o := (t.rs2 f.ma.toNat).toNat
      let n := (t.rs f.md.toNat).toNat
      let b := s.blockOf t
      let r := s.recOf t
      if n == 0 then done t s
      else if r.scratchBytes < o + n then faultAt 1 3 (t.rs2 f.ma.toNat)
      else
        let ws := (b.dirty.flatMap (fun e => ((List.range 32).filter (fun i => bit e.2 i)).map (32 * e.1 + ·))).filter
          (fun w => decide (o < 4 * w + 4) && decide (4 * w < o + n))
        match ws.findSome? (fun w => s.lineStall b (w / 32)) with
        | some n => waitOn k t s (.bank n)
        | none => pure ()
        if let some w := ws.find? (fun w => b.badWords.contains w) then faultAt 7 3 (BitVec.ofNat 64 (4 * w))
        let accs ← ws.mapM (fun w => do
          let a := BitVec.ofNat 64 (r.backing t.block ((r.regionLine (w / 32)).getD 0) + 4 * (w % 32))
          let p ← globalWords t s true a 4
          pure ((({ lane := 0, addr := a, place := p } : LaneAcc), (Tab.get b.scratch 0 w).toNat)))
        let (t, s) ← storeLanes k t s 0 false 4 accs
        let b := s.blockOf t
        let clean := ws.foldl (fun d w => Tab.upd d 0 (w / 32) (· &&& ~~~(1#32 <<< (w % 32)))) b.dirty
        done t (s.setBlock t.blk { b with dirty := clean })) s

/-- `bankq`: BKCTL bits 13:0 of a bank of the team's cluster (R229). -/
def execBankq (f : MF) (s : State) : Out :=
  perTeam f.pre { reads := addrScalars f, writes := [f.md.toNat] }
    (fun _ t s => do
      mCheck f { spcs := [1], szs := [0], ams := [3] } t s
      illegalIf (!scalarOk f.md false) 2
      illegalIf (s.detOf t) 5)
    (fun k t s =>
      let n := (laneAddr f t 1 0).toNat
      if 31 < n then illegal 5
      else done (t.ws f.md.toNat (((s.cluster (clusterOf (coreOf k))).bank n).ctl &&& 0x3FFF#32)) s) s

/-- `fence` (R230, R239). -/
def execFence (f : MF) (s : State) : Out :=
  perTeam f.pre {}
    (fun _ _ _ => illegalIf (f.ord == 0) 1)
    (fun k t s =>
      let s := if bit f.ord 1 then s.release k else s
      let t := if bit f.ord 1 then { t with relFence := t.carried } else t
      if bit f.ord 0 then
        let t := { t with carried := t.carried ||| t.acqPend }
        done t (s.acquire (coreOf k) t.carried)
      else done t s) s

/-! ## Fleeting memory (R231, R232) -/

/-- `flrenew`: the tiles the active lanes address, each once, in ascending order (R231). -/
def execFlrenew (f : MF) (s : State) : Out :=
  perLane f.pre { reads := addrScalars f }
    (fun _ t s => mCheck f { spcs := [2], szs := [2] } t s)
    (fun k act t s => do
      let accs ← lanesFor k t s f true act
      let tiles := accs.foldl (fun l a => insertNew l ((a.place.words.headD 0) / 512)) []
      let b := s.blockOf t
      done t (s.setBlock t.blk { b with
        tiles := tiles.foldl (fun m i => Tab.upd m {} i (fun x => x.renew s.sample)) b.tiles })) s
/-- `fllife` (R232). -/
def execFllife (f : MF) (s : State) : Out :=
  perLane f.pre { reads := addrScalars f }
    (fun _ t s => do
      mCheck f { spcs := [2], szs := [2] } t s
      mdVector f t s
      illegalIf (s.detOf t) 5)
    (fun k act t s => do
      let accs ← lanesFor k t s f false act
      let vs : Tab Nat := accs.map (fun a =>
        (a.lane, (Tab.get (s.blockOf t).tiles {} ((a.place.words.headD 0) / 512)).life s.sample))
      done (t.wlanes f.md.toNat act (plainTag .i32) (fun l => BitVec.ofNat 32 (Tab.get vs 0 l))) s) s

/-! ## Atomics (R233, R234) -/

/-- The accepted values of the atomics; cas with am 0b10, floating-point widths (Tables 5-13, 13-5). -/
def atomCheck (f : MF) (nr scalar : Bool) (t : Team) (s : State) : Act Unit := do
  mCheck f { ords := if nr then [0, 2] else [0, 1, 2, 3], spcs := [0, 1, 3], szs := [2, 3],
             ams := if scalar then [3] else if nr then [0, 1, 3] else [0, 1, 2, 3] } t s
  illegalIf ((nr && f.aop == 7) || (f.aop == 7 && f.am == 2)) 1

/-- `vatom` (R233). -/
def execVatom (f : MF) (s : State) : Out :=
  let wide := f.sz == 3
  let n := if wide then 2 else 1
  perLane f.pre { reads := addrScalars f }
    (fun _ t s => do
      atomCheck f false false t s
      mdVector f t s
      illegalIf (f.aop == 7 && !(s.recOf t).vecOk f.mx.toNat n n) 2)
    (fun k act t s =>
      let last := (t.nextPass act).isNone
      sweep k act [] t s (fun m u s => do
        let accs ← lanesFor k u s f true m
        let get := fun (r l : Nat) => if wide then (u.rl2 r l).toNat else (u.rl r l).toNat
        let (olds, u', s') ← atomicLanes k u s f.aop.toNat wide true (bit f.ord 0) last (bit f.ord 1)
          (accs.map (fun a => (a, get f.md.toNat a.lane, if f.aop == 7 then get f.mx.toNat a.lane else 0)))
        pure (writeLoaded f u' m (fun l => Tab.get olds 0 l), s', fun _ => 0))) s
/-- The commit-buffer entries of the pass of a mask word by `vatom.nr` (R294). -/
def nrEntries (k : Nat) (f : MF) (act : Mask) (t : Team) (s : State) (w : Nat) : Nat :=
  match lanesFor k t s f true (maskSpan act w (w + 1)) with
  | .ok l => (l.filter (·.place.shared)).length
  | .error _ => 0
/-- `vatom.nr` (R233). -/
def execVatomNr (f : MF) (s : State) : Out :=
  let wide := f.sz == 3
  let n := if wide then 2 else 1
  perLane f.pre { reads := addrScalars f }
    (fun _ t s => do
      atomCheck f true false t s
      illegalIf (!(s.recOf t).vecOk f.mx.toNat n n) 2)
    (fun k act t s =>
      sweepStores k act t s (nrEntries k f act t s) (fun m u s => do
        let accs ← lanesFor k u s f true m
        let get := fun (r l : Nat) => if wide then (u.rl2 r l).toNat else (u.rl r l).toNat
        let (_, u', s') ← atomicLanes k u s f.aop.toNat wide false false true (bit f.ord 1)
          (accs.map (fun a => (a, get f.mx.toNat a.lane, 0)))
        pure (u', s', fun _ => 0))) s
/-- `satom` (R233). -/
def execSatom (f : MF) (s : State) : Out :=
  let wide := f.sz == 3
  perTeam f.pre
    { reads := addrScalars f ++ dataScalars f.md wide ++ (if f.aop == 7 then dataScalars f.mx wide else []),
      writes := dataScalars f.md wide }
    (fun _ t s => do
      atomCheck f false true t s
      mdScalar f f.md
      illegalIf (f.aop == 7 && !scalarOk f.mx wide) 2)
    (fun k t s => do
      let a ← teamAccess k t s f true (accessSize f) (accessSize f)
      let c := if f.aop == 7 then t.scalar wide f.mx.toNat else 0
      let (olds, t, s) ← atomicLanes k t s f.aop.toNat wide true (bit f.ord 0) true (bit f.ord 1)
        [(a, t.scalar wide f.md.toNat, c)]
      let old := Tab.get olds 0 0
      done (if wide then t.ws2 f.md.toNat (BitVec.ofNat 64 old) else t.ws f.md.toNat (BitVec.ofNat 32 old)) s) s
/-- `satom.nr` (R233). -/
def execSatomNr (f : MF) (s : State) : Out :=
  let wide := f.sz == 3
  perTeam f.pre { reads := addrScalars f ++ dataScalars f.mx wide }
    (fun _ t s => do
      atomCheck f true true t s
      illegalIf (!scalarOk f.mx wide) 2)
    (fun k t s => do
      let a ← teamAccess k t s f true (accessSize f) (accessSize f)
      let (_, t, s) ← atomicLanes k t s f.aop.toNat wide false false true (bit f.ord 1)
        [(a, t.scalar wide f.mx.toNat, 0)]
      done t s) s

end Sys2Proof.Machine
end

