-- ==== Sys2Proof/Machine/Slices.lean ====
section
/-! DEFINITION. Sys2Proof/Machine/Slices.lean: slices, halting in place and gang slices (R344, R345, R350, R351). -/
namespace Sys2Proof.Machine

/-- The partitions of a domain. -/
def State.domainParts (s : State) (d : Nat) : List Nat :=
  (List.range Config.partitions).filter (fun p => (s.part p).ncl != 0 && (s.part p).dom == d)

/-- Of a domain only the partitions named issue; the others halt in place (R344, R345). -/
def State.sliceTo (s : State) (d : Nat) (on : Nat → Bool) : State :=
  let ps := s.domainParts d
  let off := ps.filter (fun p => !on p && !(s.part p).sliceOff)
  let s' := ps.foldl (fun (s : State) p => s.updPart p (fun x =>
    if on p then { x with sliceOff := false, haltedBit := x.haltedBit && x.haltBit } else { x with sliceOff := true })) s
  (s'.haltTeams (fun t => off.contains t.part)).endHalts.readiedFrom s

/-- The entry that follows entry `i - 1`: the first from `i` on that names a partition of the domain, before an entry with
LEN 0, where the table starts again (R344). -/
def State.entryFrom (s : State) (d : Nat) (x : Domain) : Nat → Nat → Option Nat
  | 0, _ => none
  | n + 1, i =>
    let e := Tab.get x.slices 0 i
    if 64 ≤ i ∨ field e 8 24 = 0 then none
    else if (s.domainParts d).contains (field e 0 6) then some i
    else s.entryFrom d x n (i + 1)
/-- The next entry: from the one after the present, else from entry 0. -/
def State.nextEntry (s : State) (d : Nat) (x : Domain) : Option Nat :=
  match x.index with
  | some i => match s.entryFrom d x 64 (i + 1) with
    | some j => some j
    | none => s.entryFrom d x 64 0
  | none => s.entryFrom d x 64 0

/-- PSTATE_HALT_WRITE: IPRIO and HALT are set; a 1 in HALT halts the partition's teams in place (R345, R348). -/
def execPstateHaltWrite (p : Nat) (v : Word) (s : State) : Out :=
  let h := bit v 0
  let s' := s.updPart p (fun x => { x with
    iprio := field v 2 2, haltBit := h, haltedBit := x.haltedBit && (h || x.sliceOff) })
  .next (if h then s'.haltTeams (fun t => t.part == p) else s'.endHalts.readiedFrom s)
/-- HALTED as it reads: set, or every team of the partition is halted in place under R325, its stores registered (R345). -/
def State.haltedNow (s : State) (p : Nat) : Bool :=
  (s.part p).haltedBit ||
    (s.allInPlace p && !s.cores.any (fun c => c.2.stores.any (fun q => q.part == p)))
/-- PARTITION_HALTED: the teams of a halted partition have stopped and their stores are registered; HALTED reads 1,
with vector 5 after a write of HALT (R345, R353). -/
def execPartitionHalted (p : Nat) (s : State) : Out :=
  let x := s.part p
  let waiting := s.cores.any (fun c => c.2.stores.any (fun q => q.part == p))
  if (!x.haltBit && !x.sliceOff) || x.haltedBit || waiting then .next s
  else
    let s := s.setPart p { x with haltedBit := true }
    .next (if x.haltBit then s.irq (some p) 5 else s)

/-! ## Gang slices (R350, R351) -/

/-- The peer ports of a domain's gangs. -/
def Domain.ports (x : Domain) : Word := x.gangctl.setWidth 32
/-- GRACE. -/
def Domain.grace (x : Domain) : DWord := BitVec.ofNat 64 (field x.gangctl 32 16)
/-- A message is posted on every port of a mask. -/
def State.post (s : State) (ports : Word) (forfeit : Bool) (tick : DWord) : State :=
  { s with outbox := s.outbox ++ ((List.range 32).filter (fun i => bit ports i)).map (fun i =>
      { port := i, forfeit := forfeit, tick := tick }) }
/-- The partition of the running entry. -/
def Domain.slicePart (x : Domain) : Nat := match x.entry with | some e => field e 0 6 | none => 0

/-- A gang partition's teams can issue here: it is not held halted and nothing of it is to be reloaded but teams in `park`. -/
def State.canIssueHere (s : State) (p : Nat) : Bool :=
  !(s.part p).haltBit && s.teams.all (fun e => e.2.part != p || e.2.parked || !s.needsReload e.1 e.2)

/-- GANG_SLICE_START: READY is posted once the teams can issue here; with every port's READY received they start, no later than at
the end of GRACE. -/
def execGangSliceStart (d : Nat) (s : State) : Out :=
  let x := s.domain d
  match x.gang with
  | none => .next s
  | some g =>
    let p := x.slicePart
    if g.running || g.forfeited then .next s
    else if x.grace < s.tick - g.start then .next s
    else if !g.posted && !s.canIssueHere p then .next s
    else
      let s := if g.posted then s else s.post x.ports false g.start
      let g := { g with posted := true }
      if g.got &&& x.ports == x.ports then
        let s := (s.updPart p (fun y => { y with sliceOff := false, haltedBit := y.haltedBit && y.haltBit })).endHalts.readiedFrom s
        .next (s.setDomain d { x with gang := some { g with running := true } })
      else .next (s.setDomain d { x with gang := some g })

/-- A message for a slice that has not begun here is kept. -/
def Domain.keep (x : Domain) (port : Nat) (tick : DWord) : Domain :=
  if x.early.contains (port, tick) then x else { x with early := x.early ++ [(port, tick)] }
/-- The slice that a message names runs or waits here. -/
def Domain.names (x : Domain) (tick : DWord) : Bool := match x.gang with | some g => g.start == tick | none => false
/-- READY: a message for the slice that waits, within its grace, counts; one for a slice that has not begun here is kept; any other
is discarded. -/
def execReady (d port : Nat) (tick : DWord) (s : State) : Out :=
  let x := s.domain d
  if x.names tick then
    match x.gang with
    | none => .next s
    | some g =>
      if g.running || g.forfeited || decide (x.grace < s.tick - g.start) then .next s
      else .next (s.setDomain d { x with gang := some { g with got := g.got ||| (1#32 <<< port) } })
  else if s.tick ≤ tick then .next (s.setDomain d (x.keep port tick))
  else .next s

/-- A part forfeits: the gang partition stays halted, its vector 4 is raised, the partitions of BACKFILL run (R351). -/
def State.forfeitSlice (s : State) (d : Nat) (g : Gang) : State :=
  let x := s.domain d
  let p := x.slicePart
  let s := s.sliceTo d (fun q => q != p && bit x.backfill q)
  (s.setDomain d { x with gang := some { g with running := false, forfeited := true } }).irq (some p) 4

/-- Another part has forfeited: GLATE.REMOTE is set and this part forfeits (R350). -/
def State.remoteForfeit (s : State) (d : Nat) : State :=
  let x := s.domain d
  match x.gang with
  | some g => (s.setDomain d { x with glate := x.glate ||| (1#64 <<< 33) }).forfeitSlice d g
  | none => s
/-- FORFEIT: a message for the slice that waits or runs here; GLATE.REMOTE is set and this part forfeits. One for a slice that has
not begun here is kept. -/
def execForfeit (d : Nat) (tick : DWord) (s : State) : Out :=
  let x := s.domain d
  if x.names tick then
    match x.gang with
    | none => .next s
    | some g =>
      if g.forfeited then .next s
      else .next (s.remoteForfeit d)
  else if s.tick ≤ tick then .next (s.setDomain d (x.keep 32 tick))
  else .next s

/-- SLICE_END: the running entry's LEN has passed, or none runs yet, and the next one begins; with entry 0 of LEN 0 no
partition is halted by slices. A gang entry begins with its partition halted and the messages kept for it (R344, R350). -/
def execSliceEnd (d : Nat) (s : State) : Out :=
  let x := s.domain d
  if field (Tab.get x.slices 0 0) 8 24 = 0 then
    .next ((s.sliceTo d (fun _ => true)).setDomain d { x with index := none, gang := none })
  else if s.tick < x.ends then .next s
  else match s.nextEntry d x with
    | none => .next ((s.sliceTo d (fun _ => false)).setDomain d { x with index := none, gang := none, ends := s.tick + 1 })
    | some i =>
      let e := Tab.get x.slices 0 i
      let gang := bit e 7
      let s := s.sliceTo d (fun p => p == field e 0 6 && !gang)
      let got := x.early.foldl (fun m e => if e.2 = s.tick ∧ e.1 < 32 then m ||| (1#32 <<< e.1) else m) 0
      let s := s.setDomain d { x with
        index := some i, ends := s.tick + BitVec.ofNat 64 (field e 8 24), early := x.early.filter (fun e => decide (s.tick < e.2)),
        gang := if gang then some { start := s.tick, got := got } else none }
      .next (if gang && x.early.contains (32, s.tick) then s.remoteForfeit d else s)

/-- GANG_GRACE_EXPIRY: at the end of GRACE without a start, GLATE names the missing ports and SELF, FORFEIT is posted,
and this part forfeits. -/
def execGangGraceExpiry (d : Nat) (s : State) : Out :=
  let x := s.domain d
  match x.gang with
  | none => .next s
  | some g =>
    if g.running || g.forfeited || decide (s.tick - g.start < x.grace) ||
        (g.posted && g.got &&& x.ports == x.ports && decide (s.tick - g.start ≤ x.grace)) then .next s
    else
      let missing := x.ports &&& ~~~g.got
      let self : DWord := if g.posted then 0 else 1#64 <<< 32
      let late : DWord := missing.setWidth 64 ||| self
      let s := s.post x.ports true g.start
      .next ((s.setDomain d { x with glate := late }).forfeitSlice d g)

end Sys2Proof.Machine
end

