-- ==== Sys2Proof/Machine/Registers.lean ====
section
/-! DEFINITION. Sys2Proof/Machine/Registers.lean: the registers of aperture AP0 (R7, R8, R28, R327, R330, R338, R348, R354, R359,
R362 to R364, R367, R369, R371, R372): what a write does, and what a read returns. Offsets and fields are those of the tables. -/
namespace Sys2Proof.Machine

/-! ## Registers of a partition (R367) -/

/-- ISSCAP as written (Table 3-1). -/
def Part.writeIsscap (p : Part) (v : Word) : Part :=
  { p with capMode := field v 0 2, cap := field v 3 5, thresh := field v 16 8 }
/-- ISSCAP_MODE_WRITE: in adaptive mode each current cap starts at 16 when MODE becomes 0b10 (R47). -/
def execIsscapModeWrite (p : Nat) (v : Word) (s : State) : Out :=
  let was := (s.part p).capMode
  let s := s.updPart p (fun x => x.writeIsscap v)
  .next (if field v 0 2 = 2 ∧ was ≠ 2 then { s with cores := Tab.mapVals s.cores (fun c =>
    { c with caps := Tab.set (Tab.set c.caps (2 * p) 16) (2 * p + 1) 16 }) } else s)

/-- A mailbox as MBCTL is written: CODE is taken while BUSY reads 0 (R369). -/
def Mailbox.submit (m : Mailbox) (v : Word) : Mailbox :=
  if m.busy then m else { m with busy := true, code := v.setWidth 8 }
/-- Clears the write-one bits VALID and OVF of a fault record (Table 23-3). -/
def Part.clearFault (p : Part) (v : Word) : Part :=
  { p with flt := if bit v 0 then none else p.flt, fltOvf := p.fltOvf && !bit v 1 }

/-- A write at an offset of a partition's AP0. One write of XLCTL with RETRY and ABORT retries first, then aborts what has failed
again (R321, log 114). -/
def partWrite (p off : Nat) (v : DWord) (s : State) : Out :=
  let w : Word := v.setWidth 32
  let put := fun (f : Part → Part) => Host.Outcome.next (s.updPart p f)
  match off with
  | 0x200 => execIsscapModeWrite p w s
  | 0x400 => put (fun x => { x with qtbase := v })
  | 0x408 => put (fun x => { x with qtsize := w })
  | 0x40C => put (fun x => { x with ntmo := w })
  | 0x440 => put (fun x => { x with s1root := v })
  | 0x448 => put (fun x => { x with inv1 := { x.inv1 with addr := v } })
  | 0x450 => execInvctlGo p false w s
  | 0x468 =>
    match (if bit w 0 then execXlctlRetry p s else .next s) with
    | .next s => if bit w 1 then execXlctlAbort p s else .next s
    | r => r
  | 0x480 => put (fun x => { x with bkpt := Tab.set x.bkpt 0 (v &&& ~~~6#64) })
  | 0x488 => put (fun x => { x with bkpt := Tab.set x.bkpt 1 (v &&& ~~~6#64) })
  | 0x490 => put (fun x => { x with bkpt := Tab.set x.bkpt 2 (v &&& ~~~6#64) })
  | 0x498 => put (fun x => { x with bkpt := Tab.set x.bkpt 3 (v &&& ~~~6#64) })
  | 0x520 => execTaskkill p v s
  | 0x528 => put (fun x => x.clearFault w)
  | 0x680 => put (fun x => { x with log2w := field w 0 6 })
  | 0x688 => put (fun x => { x with wdValid := x.wdValid && !bit w 31 })
  | 0x700 => put (fun x => { x with mbox := { x.mbox with addr := v } })
  | 0x708 => put (fun x => { x with mbox := x.mbox.submit w })
  | _ => .next s

/-! ## Registers of the physical function -/

/-- PEERWIN as written: a write that enables a window whose LOCAL is outside the partition's window is ignored (R371). -/
def Part.writePeerWin (p : Part) (i : Nat) (v : DWord) : Part :=
  if bit v 63 && !bit p.window (field v 30 10) then p
  else { p with peerWin := Tab.set p.peerWin i (v &&& 0x80F800FFFFF00000#64) }
/-- A write in partition `p`'s block at 0x0003_0000 + 0x100 * p (R327, R348, R371). -/
def blockWrite (p off : Nat) (v : DWord) (s : State) : Out :=
  match off with
  | 0x00 => .next (s.updPart p (fun x => { x with s2root := v }))
  | 0x08 => .next (s.updPart p (fun x => { x with inv2 := { x.inv2 with addr := v } }))
  | 0x10 => execInvctlGo p true (v.setWidth 32) s
  | 0x18 => .next (s.updPart p (fun x => { x with fring := v }))
  | 0x20 => execPstateHaltWrite p (v.setWidth 32) s
  | _ => if 0x80 ≤ off ∧ off % 8 = 0 then .next (s.updPart p (fun x => x.writePeerWin ((off - 0x80) / 8) v)) else .next s

/-- A write of a domain's scheduling registers (Table 23-4). -/
def domainWrite (off : Nat) (v : DWord) (s : State) : State :=
  if off < 0x44000 then
    let d := (off - 0x40000) / 0x100
    let i := off % 0x100 / 4
    if 8 ≤ d ∨ off % 4 ≠ 0 then s else
    let x := s.domain d
    s.setDomain d { x with slices := Tab.set x.slices i (v.setWidth 32 &&& ~~~0x40#32) }
  else
    let d := (off - 0x44000) / 0x20
    if 8 ≤ d then s else
    let x := s.domain d
    match off % 0x20 with
    | 0x00 => s.setDomain d { x with backfill := v }
    | 0x08 => s.setDomain d { x with gangctl := v &&& 0xFFFFFFFFFFFF#64 }
    | 0x10 => s.setDomain d { x with glate := x.glate &&& ~~~v }
    | _ => s
/-- A write of the power and time registers, the floors and PEERACC (Tables 25-2, 25-3, R371). -/
def powerWrite (off : Nat) (v : DWord) (s : State) : State :=
  match off with
  | 0x50048 => { s with slew := field v 0 6 }
  | 0x50050 => { s with tsyncAlign := bit v 0, tsyncPort := field v 1 5, tsyncErr := s.tsyncErr && !bit v 6,
                         alignAt := if bit v 0 && !s.tsyncAlign then s.tick - 65536 else s.alignAt }
  | _ =>
    if 0x50100 ≤ off ∧ off < 0x50180 ∧ off % 8 = 0 then
      let cl := (off - 0x50100) / 8
      s.setCluster cl { s.cluster cl with frz := field v 0 13 }
    else if 0x50404 ≤ off ∧ off < 0x50800 ∧ off % 4 = 0 then
      let i := (off - 0x50400) / 4
      if s.floorActive i then s else { s with floors := Tab.set s.floors i (v.setWidth 32 &&& 0x7FFF#32) }
    else if 0x50800 ≤ off ∧ off < 0x50900 ∧ off % 8 = 0 then
      { s with peerAcc := Tab.set s.peerAcc ((off - 0x50800) / 8) (v &&& 0x800000FFFFF00000#64) }
    else s
/-- A write at an offset of the physical function's AP0. -/
def pfWrite (off : Nat) (v : DWord) (s : State) : Out :=
  if off = 0x700 then .next { s with pfBox := { s.pfBox with addr := v } }
  else if off = 0x708 then .next { s with pfBox := s.pfBox.submit (v.setWidth 32) }
  else if !s.up then .next s
  else if off < 0x20000 then .next s
  else if off < 0x30000 then
    let cl := (off - 0x20000) / 0x80
    if cl < 16 ∧ off % 4 = 0 then execBkctlReqWrite cl (off % 0x80 / 4) (v.setWidth 32) s else .next s
  else if off < 0x40000 then
    let p := (off - 0x30000) / 0x100
    if p < 64 then blockWrite p (off % 0x100) v s else .next s
  else if off < 0x50000 then .next (domainWrite off v s)
  else if off < 0x2000000 then .next (powerWrite off v s)
  else if off < 0x2400000 then partWrite ((off - 0x2000000) / 0x10000) (off % 0x10000) v s
  else .next s

/-- REGISTER_WRITE through AP0, by the physical function or by that of a partition (R7, R366, R367). -/
def execRegisterWrite (fn : Option Nat) (off : Nat) (v : DWord) (s : State) : Out :=
  match fn with
  | none => pfWrite off v s
  | some p => if s.up then partWrite p off v s else .next s

/-! ## Reads (R7, R8, R364) -/

/-- The true value of the delayed counters at a tick, from a history, latest first: 0 before it begins. -/
def counterAt (x : DWord) : List (DWord × DWord × DWord × DWord) → DWord × DWord × DWord
  | [] => (0, 0, 0)
  | e :: t => if e.1 ≤ x then e.2 else counterAt x t
/-- HBMB, LLCM and D2DF as a partition reads them: at tick `x` - 8,192, in units of 4,096 (R364). -/
def State.delayed (s : State) (p : Nat) : DWord × DWord × DWord :=
  let v := if s.tick.toNat < 8192 then (0, 0, 0) else counterAt (s.tick - 8192) (s.part p).hist
  let q := fun (x : DWord) => x / 4096 * 4096
  (q v.1, q v.2.1, q v.2.2)
/-- INVCTL as it reads (Table 21-8). -/
def Inval.ctl (i : Inval) : Word :=
  BitVec.ofNat 32 ((if i.busy then 2 ^ 31 else 0) + (if i.all then 256 else 0) + 4 * i.log2)
/-- MBCTL as it reads. -/
def Mailbox.ctl (m : Mailbox) : Word := if m.busy then 0x80000000#32 else 0
/-- Doubleword 0x0000_0508 of the fault record (Table 23-3). -/
def FaultRec.word (f : FaultRec) : DWord :=
  BitVec.ofNat 64 (f.block * 2 ^ 32 + f.team % 8 * 2 ^ 29 + f.detail * 2 ^ 16 + (if f.eng then 256 else 0) + f.cls)
/-- PSTATE as it reads (Table 23-5). -/
def Part.pstate (p : Part) (halted : Bool) : Word :=
  BitVec.ofNat 32 (p.ncl * 2 ^ 16 + p.dom * 2 ^ 12 + 4 * p.iprio + (if halted then 2 else 0) + (if p.haltBit then 1 else 0))
/-- PNMAP, 64 bits from queue `q` on. -/
def Part.pnWord (p : Part) (q : Nat) : DWord :=
  (List.range 64).foldl (fun v i => if (Tab.get? p.pnmap (q + i)).isSome then v ||| (1#64 <<< i) else v) 0
/-- What a read at an offset of a partition's AP0 returns; 32-bit registers in the low half. An access is of the register's own size
at its own offset, EVEC by doublewords, PNMAP from any of its bytes on: a read at the upper half of a 64-bit one returns 0 (R7,
log 115). -/
def State.readPart (s : State) (p off : Nat) : DWord :=
  let x := s.part p
  match off with
  | 0x10 => Config.geom
  | 0x200 => BitVec.ofNat 64 (x.thresh * 2 ^ 16 + x.cap * 8 + x.capMode)
  | 0x400 => x.qtbase
  | 0x408 => x.qtsize.setWidth 64
  | 0x40C => x.ntmo.setWidth 64
  | 0x420 => x.evec.extractLsb' 0 64
  | 0x428 => x.evec.extractLsb' 64 64
  | 0x430 => x.evec.extractLsb' 128 64
  | 0x438 => x.evec.extractLsb' 192 64
  | 0x440 => x.s1root
  | 0x448 => x.inv1.addr
  | 0x450 => x.inv1.ctl.setWidth 64
  | 0x460 => x.xladdr
  | 0x480 => Tab.get x.bkpt 0 0
  | 0x488 => Tab.get x.bkpt 0 1
  | 0x490 => Tab.get x.bkpt 0 2
  | 0x498 => Tab.get x.bkpt 0 3
  | 0x500 => x.fltTask
  | 0x508 => x.fltLast.word
  | 0x510 => x.fltLast.pc
  | 0x518 => x.fltLast.addr
  | 0x528 => BitVec.ofNat 64 ((if x.fltOvf then 2 else 0) + (if x.flt.isSome then 1 else 0))
  | 0x600 => x.instr
  | 0x608 => x.outr
  | 0x610 => x.mapp
  | 0x618 => (s.delayed p).1
  | 0x620 => (s.delayed p).2.1
  | 0x628 => (s.delayed p).2.2
  | 0x680 => BitVec.ofNat 64 x.log2w
  | 0x688 => BitVec.ofNat 64 ((if x.wdValid then 2 ^ 31 else 0) + x.wdCore * 16 + x.wdCluster)
  | 0x700 => x.mbox.addr
  | 0x708 => x.mbox.ctl.setWidth 64
  | 0x70C => x.mbox.stat.setWidth 64
  | _ => if 0x800 ≤ off ∧ off < 0xA00 then x.pnWord (8 * (off - 0x800)) else 0
/-- What a read in partition `p`'s block of the physical function returns. -/
def State.readBlock (s : State) (p off : Nat) : DWord :=
  let x := s.part p
  match off with
  | 0x00 => x.s2root
  | 0x08 => x.inv2.addr
  | 0x10 => x.inv2.ctl.setWidth 64
  | 0x18 => x.fring
  | 0x20 => (x.pstate (s.haltedNow p)).setWidth 64
  | 0x28 => x.cltab
  | 0x30 => x.saveBase
  | 0x38 => x.saveSize.setWidth 64
  | 0x40 => x.tickOff
  | _ => if 0x80 ≤ off ∧ off % 8 = 0 then Tab.get x.peerWin 0 ((off - 0x80) / 8) else 0
/-- BOOTST (R372). -/
def State.bootst (s : State) : Word :=
  BitVec.ofNat 32 (s.svn.toNat * 2 ^ 16 + (match s.boot with | .rom => 0 | .running => 1 | .recovery => 2))
/-- The power and time registers, the exact counters, CECNT, each at its own offset alone (Table 25-2, R7, R364, R375, log 115). -/
def State.readPower (s : State) (off : Nat) : DWord :=
  match off with
  | 0x50040 => BitVec.ofNat 64 ((if s.pkgThr then 2 ^ 16 else 0) + s.pkgPwr % 2 ^ 16)
  | 0x50048 => BitVec.ofNat 64 s.slew
  | 0x50050 => BitVec.ofNat 64 ((if s.tsyncErr then 64 else 0) + 2 * s.tsyncPort + (if s.tsyncAlign then 1 else 0))
  | 0x52000 => s.cecnt
  | _ =>
    if off < 0x50020 ∧ off % 8 = 0 then
      let r := Tab.get s.rails {} ((off - 0x50000) / 8)
      BitVec.ofNat 64 (r.pwr % 2 ^ 16 * 2 ^ 16 + r.op)
    else if 0x50100 ≤ off ∧ off < 0x50180 ∧ off % 8 = 0 then BitVec.ofNat 64 (s.cluster ((off - 0x50100) / 8)).frz
    else if 0x50404 ≤ off ∧ off < 0x50800 ∧ off % 4 = 0 then (Tab.get s.floors 0 ((off - 0x50400) / 4)).setWidth 64
    else if 0x50800 ≤ off ∧ off < 0x50900 ∧ off % 8 = 0 then Tab.get s.peerAcc 0 ((off - 0x50800) / 8)
    else if 0x51000 ≤ off ∧ off < 0x52000 then
      let x := s.part ((off - 0x51000) / 0x40)
      match off % 0x40 with
      | 0x00 => x.instr | 0x08 => x.outr | 0x10 => x.mapp | 0x18 => x.hbmb | 0x20 => x.llcm | 0x28 => x.d2df
      | _ => 0
    else 0
/-- What a read of AP0 returns: a register at its own offset, 0 at any other (R7, log 115). -/
def State.readRegister (s : State) (fn : Option Nat) (off : Nat) : DWord :=
  match fn with
  | some p => if s.up || off == 0x10 then s.readPart p off else 0
  | none =>
    if off = 0x10 then Config.geom
    else if off = 0x18 then s.bootst.setWidth 64
    else if off = 0x700 then s.pfBox.addr
    else if off = 0x708 then s.pfBox.ctl.setWidth 64
    else if off = 0x70C then s.pfBox.stat.setWidth 64
    else if !s.up then 0
    else if off < 0x20000 then 0
    else if off < 0x30000 then
      if off < 0x20800 ∧ off % 4 = 0 then (((s.cluster ((off - 0x20000) / 0x80)).bank (off % 0x80 / 4)).ctl).setWidth 64 else 0
    else if off < 0x40000 then (if off < 0x34000 then s.readBlock ((off - 0x30000) / 0x100) (off % 0x100) else 0)
    else if off < 0x44000 then
      if off % 4 = 0 then (Tab.get (s.domain ((off - 0x40000) / 0x100)).slices 0 (off % 0x100 / 4)).setWidth 64 else 0
    else if off < 0x50000 then
      let x := s.domain ((off - 0x44000) / 0x20)
      match off % 0x20 with
      | 0x00 => x.backfill | 0x08 => x.gangctl | 0x10 => x.glate | _ => 0
    else if off < 0x2000000 then s.readPower off
    else if off < 0x2400000 then s.readPart ((off - 0x2000000) / 0x10000) (off % 0x10000)
    else 0

end Sys2Proof.Machine
end

