-- ==== Sys2Proof/Machine/Scalar.lean ====
section
/-! DEFINITION. Sys2Proof/Machine/Scalar.lean: class 000, the scalar integer and address instructions (R98 to R101). Each
is per-team; `scalarRun` reads the sources, applies the effect and writes the destination. -/
namespace Sys2Proof.Machine

/-- Which operands are pairs in the 64-bit forms (Pairs column of Table 6-3), whether source b is present,
whether the old destination is read. -/
structure SSpec where
  d : Bool := true
  a : Bool := true
  b : Bool := true
  hasB : Bool := true
  readD : Bool := false
  signedImm : Bool := true

/-- An operand that is a pair, at this type. -/
def s3Pair (f : S3) (x : Bool) : Bool := x && bit f.ty 1
/-- The registers of an operand. -/
def s3Regs (pair : Bool) (r : BitVec 6) : List Nat := if pair then [r.toNat, r.toNat + 1] else [r.toNat]
/-- R85: an odd first register where a pair is required. -/
def s3Check (f : S3) (sp : SSpec) : Act Unit :=
  illegalIf ((s3Pair f sp.d && bit f.sd 0) || (s3Pair f sp.a && bit f.sa 0) ||
    (sp.hasB && !f.bk && s3Pair f sp.b && bit f.sb 0)) 2
/-- Writes the destination. -/
def s3Write (f : S3) (sp : SSpec) (t : Team) (v : Nat) : Team :=
  if s3Pair f sp.d then t.ws2 f.sd.toNat (BitVec.ofNat 64 v) else t.ws f.sd.toNat (BitVec.ofNat 32 v)

/-- The common course of class 000: `eff` maps the sources a and b and the old destination to the result. -/
def scalarRun (f : S3) (sp : SSpec) (eff : Nat → Nat → Nat → Nat) (s : State) : Out :=
  perTeam f.pre
    { reads := s3Regs (s3Pair f sp.a) f.sa ++
        (if sp.hasB && !f.bk then s3Regs (s3Pair f sp.b) f.sb else []) ++
        (if sp.readD then s3Regs (s3Pair f sp.d) f.sd else []),
      writes := s3Regs (s3Pair f sp.d) f.sd }
    (fun _ _ _ => s3Check f sp)
    (fun _ t s =>
      let a := t.scalar (s3Pair f sp.a) f.sa.toNat
      let b := s3B f t (s3Pair f sp.b) sp.signedImm (tyWidth f.ty)
      let d := t.scalar (s3Pair f sp.d) f.sd.toNat
      done (s3Write f sp t (eff a b d)) s) s

/-- `sadd` (R99, R100). -/
def execSadd (f : S3) (s : State) : Out :=
  scalarRun f {} (fun a b _ => intOp .add f.ty a b) s
/-- `ssub` (R99, R100). -/
def execSsub (f : S3) (s : State) : Out :=
  scalarRun f {} (fun a b _ => intOp .sub f.ty a b) s
/-- `smul` (R99, R100). -/
def execSmul (f : S3) (s : State) : Out :=
  scalarRun f {} (fun a b _ => intOp .mul f.ty a b) s
/-- `smulh` (R99, R100). -/
def execSmulh (f : S3) (s : State) : Out :=
  scalarRun f {} (fun a b _ => intOp .mulh f.ty a b) s
/-- `sdiv` (R99, R100). -/
def execSdiv (f : S3) (s : State) : Out :=
  scalarRun f {} (fun a b _ => intOp .div f.ty a b) s
/-- `srem` (R99, R100). -/
def execSrem (f : S3) (s : State) : Out :=
  scalarRun f {} (fun a b _ => intOp .rem f.ty a b) s
/-- `sand` (R99, R100). -/
def execSand (f : S3) (s : State) : Out :=
  scalarRun f { signedImm := false } (fun a b _ => intOp .and f.ty a b) s
/-- `sor` (R99, R100). -/
def execSor (f : S3) (s : State) : Out :=
  scalarRun f { signedImm := false } (fun a b _ => intOp .or f.ty a b) s
/-- `sxor` (R99, R100). -/
def execSxor (f : S3) (s : State) : Out :=
  scalarRun f { signedImm := false } (fun a b _ => intOp .xor f.ty a b) s
/-- `sshl`: the count is a single register (R99, R100). -/
def execSshl (f : S3) (s : State) : Out :=
  scalarRun f { b := false, signedImm := false } (fun a b _ => intOp .shl f.ty a b) s
/-- `sshr`: the count is a single register (R99, R100). -/
def execSshr (f : S3) (s : State) : Out :=
  scalarRun f { b := false, signedImm := false } (fun a b _ => intOp .shr f.ty a b) s
/-- `ssra`: the count is a single register (R99, R100). -/
def execSsra (f : S3) (s : State) : Out :=
  scalarRun f { b := false, signedImm := false } (fun a b _ => intOp .sra f.ty a b) s
/-- `smin` (R99). -/
def execSmin (f : S3) (s : State) : Out :=
  scalarRun f {} (fun a b _ => intOp .min f.ty a b) s
/-- `smax` (R99). -/
def execSmax (f : S3) (s : State) : Out :=
  scalarRun f {} (fun a b _ => intOp .max f.ty a b) s
/-- `ssel`: a when the old sd is not zero, else b (R100). -/
def execSsel (f : S3) (s : State) : Out :=
  scalarRun f { readD := true } (fun a b d => if d != 0 then a else b) s
/-- `smov` (R99). -/
def execSmov (f : S3) (s : State) : Out :=
  scalarRun f { hasB := false } (fun a _ _ => a) s
/-- `smovi`: imm8 sign-extended; bk 0 raises the illegal-operation fault (R99). -/
def execSmovi (f : S3) (s : State) : Out :=
  perTeam f.pre { writes := s3Regs (s3Pair f true) f.sd }
    (fun _ _ _ => do
      illegalIf (!f.bk) 1
      s3Check f { a := false, hasB := false })
    (fun _ t s => done (s3Write f {} t (immS (tyWidth f.ty) f.imm)) s) s
/-- `sldk`: one or two words of the constant table; an index outside it raises the memory fault, a word in error its own (R100,
R235). -/
def execSldk (f : S3) (s : State) : Out :=
  let wide := bit f.ty 1
  perTeam f.pre
    { reads := s3Regs false f.sa ++ (if f.bk then [] else s3Regs false f.sb), writes := s3Regs wide f.sd }
    (fun _ _ _ => s3Check f { a := false, b := false })
    (fun _ t s => do
      let i := t.scalar false f.sa.toNat + s3B f t false false 32
      constGood t s (BitVec.ofNat 64 (4 * i)) (if wide then [i, i + 1] else [i])
      let consts := match s.task? t.task with | some tk => tk.consts | none => []
      match consts[i]?, consts[i + 1]? with
      | some x, some y => done (if wide then t.ws2 f.sd.toNat (y ++ x) else t.ws f.sd.toNat x) s
      | some x, none => if wide then faultAt 1 6 (BitVec.ofNat 64 (4 * (i + 1))) else done (t.ws f.sd.toNat x) s
      | none, _ => faultAt 1 6 (BitVec.ofNat 64 (4 * i))) s
/-- `slea`: a 64-bit address plus an offset, signed for ty 0b00 and 0b10, unsigned for 0b01 and 0b11 (R100). -/
def execSlea (f : S3) (s : State) : Out :=
  let wide := bit f.ty 1
  let bw := if wide then 64 else 32
  perTeam f.pre
    { reads := s3Regs true f.sa ++ (if f.bk then [] else s3Regs wide f.sb), writes := s3Regs true f.sd }
    (fun _ _ _ => illegalIf (bit f.sd 0 || bit f.sa 0 || (!f.bk && wide && bit f.sb 0)) 2)
    (fun _ t s =>
      let b := s3B f t wide (tySigned f.ty) bw
      let o : Int := if tySigned f.ty then sval bw b else b
      done (t.ws2 f.sd.toNat (BitVec.ofNat 64 (wrap 64 ((t.rs2 f.sa.toNat).toNat + o)))) s) s
/-- `spopc` (R99): the 32-bit destination is written in full. -/
def execSpopc (f : S3) (s : State) : Out :=
  scalarRun f { d := false, hasB := false } (fun a _ _ => popcount (tyWidth f.ty) a) s
/-- `sclz` (R99). -/
def execSclz (f : S3) (s : State) : Out :=
  scalarRun f { d := false, hasB := false } (fun a _ _ => clz (tyWidth f.ty) a) s
/-- `sbrev` (R99). -/
def execSbrev (f : S3) (s : State) : Out :=
  scalarRun f { hasB := false } (fun a _ _ => brev (tyWidth f.ty) a) s
/-- `sbfx` (R101). -/
def execSbfx (f : S3) (s : State) : Out :=
  scalarRun f { b := false, signedImm := false } (fun a b _ => bfx f.ty a b) s
/-- `sbfi` (R101). -/
def execSbfi (f : S3) (s : State) : Out :=
  scalarRun f { b := false, signedImm := false, readD := true } (fun a b d => bfi f.ty d a b) s
/-- `scmp.eq` (R99). -/
def execScmpEq (f : S3) (s : State) : Out :=
  scalarRun f { d := false } (fun a b _ => if intCmp 0 f.ty a b then 1 else 0) s
/-- `scmp.ne` (R99). -/
def execScmpNe (f : S3) (s : State) : Out :=
  scalarRun f { d := false } (fun a b _ => if intCmp 1 f.ty a b then 1 else 0) s
/-- `scmp.lt` (R99). -/
def execScmpLt (f : S3) (s : State) : Out :=
  scalarRun f { d := false } (fun a b _ => if intCmp 2 f.ty a b then 1 else 0) s
/-- `scmp.le` (R99). -/
def execScmpLe (f : S3) (s : State) : Out :=
  scalarRun f { d := false } (fun a b _ => if intCmp 3 f.ty a b then 1 else 0) s
/-- `scmp.gt` (R99). -/
def execScmpGt (f : S3) (s : State) : Out :=
  scalarRun f { d := false } (fun a b _ => if intCmp 4 f.ty a b then 1 else 0) s
/-- `scmp.ge` (R99). -/
def execScmpGe (f : S3) (s : State) : Out :=
  scalarRun f { d := false } (fun a b _ => if intCmp 5 f.ty a b then 1 else 0) s

end Sys2Proof.Machine
end

