-- ==== Sys2Proof/Machine/System.lean ====
section
/-! DEFINITION. Sys2Proof/Machine/System.lean: mailbox requests (R29, R34, R348, R352, R369, R373, R374), accesses of the host
and of peers (R366, R371), function-level reset (R365) and cold reset (R9, R372, R373). -/
namespace Sys2Proof.Machine

/-! ## The mailbox (R369) -/

/-- The mailbox of a function. -/
def State.box (s : State) (fn : Option Nat) : Mailbox :=
  match fn with | none => s.pfBox | some p => (s.part p).mbox
def State.setBox (s : State) (fn : Option Nat) (m : Mailbox) : State :=
  match fn with | none => { s with pfBox := m } | some p => s.updPart p (fun x => { x with mbox := m })
/-- The location of a function's buffer: 4 KiB, device physical, or guest physical through stage two, where no page is moved, and the
partition's peer windows (R320, R371, log 66). -/
def State.bufferAt (s : State) (fn : Option Nat) : Option Nat :=
  let a := (s.box fn).addr.toNat
  if a % 4096 ≠ 0 then none
  else match fn with
    | none => if a < 2 ^ 40 then some a else none
    | some p => (s.stage2 p false a).1.bind (fun r =>
        let loc := peerLoc (s.part p).peerWin r.dpa
        if s.peerAdmits loc then some loc else none)
/-- The Yardmaster translates a function's buffer and reads its 4 KiB: errors in the entries and in the buffer are found (R369,
R375). -/
def State.sawBuffer (s : State) (fn : Option Nat) : State :=
  let a := (s.box fn).addr.toNat
  let s' := match fn with
    | none => s
    | some p => if a % 4096 ≠ 0 then s else (s.stage2 p false a).2
  match s.bufferAt fn with
  | none => s'
  | some loc => s'.findsAt loc 4096
/-- A request ends: MBSTAT, then BUSY, then the function's vector. -/
def State.answer (s : State) (fn : Option Nat) (stat : Word) : State :=
  (s.setBox fn { s.box fn with busy := false, stat := stat }).irq fn (if fn.isNone then 0 else 7)
/-- The part answers a request of a code: firmware runs; FWLOAD in recovery too (R373). -/
def State.answers (s : State) (code : Nat) : Bool := s.up || (code == 0x14 && s.boot == .recovery)
/-- Serves a pending request of a code: the buffer's bytes go to `f`, which answers the part and MBSTAT; with 0 the request goes
on. -/
def serve (fn : Option Nat) (code : Nat) (s : State) (f : Nat → List Byte → State → State × Word) : Out :=
  let m := s.box fn
  if !s.answers code || !m.busy || m.code.toNat != code then .next s
  else match s.bufferAt fn with
    | none => .next ((s.sawBuffer fn).answer fn 0x80000002#32)
    | some loc =>
      let r := f loc (s.peekBytes loc 352) (s.sawBuffer fn)
      .next (if r.2 = 0 then r.1 else r.1.answer fn r.2)
/-- Done. -/
def statDone : Word := 1#32
def statArgument : Word := 0x80000002#32
def statPresent : Word := 0x80000003#32
/-- A code is known and permitted to a function (Table 25-7). -/
def codeKnown (fn : Option Nat) (code : Nat) : Bool :=
  code == 1 || (fn.isNone && decide (0x10 ≤ code) && decide (code ≤ 0x14))

/-- A window as its 128 bytes hold it. -/
def windowBytes (w : BitVec 1024) : List Byte := bytesOf 128 w.toNat
/-- The attestation report of a function (Table 25-8). -/
def State.report (s : State) (fn : Option Nat) (nonce : List Byte) : List Byte :=
  let p := fn.getD 0
  let x : Part := match fn with | none => {} | some p => s.part p
  let name : List Byte := [0x53, 0x4B, 0x2D, 0x56, 0x47, 0x35, 0x31, 0x32, 0x2D, 0x31, 0x54, 0x00]
  let config := bytesOf 8 x.cltab.toNat ++ windowBytes x.window ++ bytesOf 8 x.saveBase.toNat ++ bytesOf 4 x.saveSize.toNat
  let body := bytesOf 4 1 ++ name ++
    [Config.geomStep, BitVec.ofNat 8 p, BitVec.ofNat 8 x.dom, BitVec.ofNat 8 x.ncl] ++
    bytesOf 4 (Config.imageSvn s.image).toNat ++ bytesOf 64 (Config.sha512 s.image).toNat ++ nonce ++
    bytesOf 64 (Config.sha512 config).toNat
  let cert := Config.certificate 0
  body ++ bytesOf 132 (Config.identitySign body s.fresh).toNat ++ bytesOf 4 cert.length ++ cert
/-- ATTEST, and the answer to a code that is unknown or not permitted to the function. -/
def execAttest (fn : Option Nat) (s : State) : Out :=
  let m := s.box fn
  if s.up && m.busy && !codeKnown fn m.code.toNat then .next (s.answer fn 0x80000001#32)
  else serve fn 1 s (fun loc b s =>
    ({ s.foreignBytes loc (s.report fn (b.take 64)) with fresh := s.fresh + 1 }, statDone))

/-! ## Partitions and domains -/

/-- A number of a hard domain. -/
def State.domainExists (s : State) (d : Nat) : Bool := (List.range 8).any (fun i => s.domOf i == d)
/-- A cluster, and a range of device memory, lie in a domain. -/
def State.clusterIn (s : State) (d cl : Nat) : Bool := decide (cl < 16) && s.domOf (cl / 2) == d
def State.rangeIn (s : State) (d a n : Nat) : Bool :=
  decide (a + n ≤ 2 ^ 40) && (List.range 8).all (fun i => s.domOf i == d || !meetsRange a n (i * 2 ^ 37) (2 ^ 37))
/-- A cluster table of `n` distinct clusters of a domain, its other bits zero (Table 23-5). -/
def State.cltabOk (s : State) (d n : Nat) (t : DWord) : Bool :=
  let cs := (List.range n).map (fun v => field t (4 * v) 4)
  cs.all (s.clusterIn d ·) && (cs.foldl insertNew []).length == n && t.toNat / 2 ^ (4 * n) == 0
/-- A window within a domain (R24). -/
def State.windowOk (s : State) (d : Nat) (w : BitVec 1024) : Bool :=
  (List.range 1024).all (fun i => !bit w i || s.domOf (i / 128) == d)
/-- A save area: a multiple of 64 MiB, at least 64 MiB a cluster, in the domain (Table 23-5). -/
def State.saveOk (s : State) (d n : Nat) (base : DWord) (mib : Nat) : Bool :=
  base.toNat % 2 ^ 26 == 0 && decide (64 * n ≤ mib) && s.rangeIn d base.toNat (mib * 2 ^ 20)

/-- In a domain whose slices run, or are to run, a partition that arises waits for its slice; but one that BACKFILL names runs in a
forfeited gang slice (R344, R351). -/
def State.sliceHolds (s : State) (d p : Nat) : Bool :=
  let x := s.domain d
  (x.index.isSome || field (Tab.get x.slices 0 0) 8 24 != 0) &&
    !((match x.gang with | some g => g.forfeited | none => false) && bit x.backfill p)
/-- PCREATE. -/
def execPcreate (s : State) : Out :=
  serve none 0x10 s (fun _ b s =>
    let p := fieldB b 0 1
    let d := fieldB b 1 1
    let n := fieldB b 2 1
    let cltab := BitVec.ofNat 64 (fieldB b 4 8)
    let base := BitVec.ofNat 64 (fieldB b 12 8)
    let size := fieldB b 20 4
    let window := BitVec.ofNat 1024 (fieldB b 48 128)
    if 64 ≤ p ∨ !s.domainExists d ∨ n = 0 ∨ 16 < n ∨ fieldB b 3 1 ≠ 0 ∨ !s.cltabOk d n cltab ∨ !s.saveOk d n base size ∨
        !s.windowOk d window then (s, statArgument)
    else if (s.part p).ncl ≠ 0 then (s, statPresent)
    else
      (s.updPart p (fun x => { x with
        ncl := n, dom := d, sliceOff := s.sliceHolds d p, cltab := cltab, saveBase := base, saveSize := BitVec.ofNat 32 size,
        fring := BitVec.ofNat 64 (fieldB b 24 8), tickOff := BitVec.ofNat 64 (fieldB b 32 8), window := window, evec := 0,
        instr := 0, outr := 0, mapp := 0, hbmb := 0, llcm := 0, d2df := 0, hist := [] }), statDone))

/-- A bank without a partition: the entries that it owned stay while another one's resident block binds the bank (R279, R337). -/
def State.leaveBank (s : State) (p cl n : Nat) (b : Bank) : Bank :=
  let mine := b.owner == some p
  { b with owner := if mine then none else b.owner,
           fifo := if mine && !(s.binders cl n).any (fun q => q != p) then [] else b.fifo, saved := Tab.erase b.saved p }
/-- A partition leaves the part: its clusters, window, save area, queue slots and FIFO entries are free, its launches gone, and no core
keeps a count of its cycles or a walk of its (R363, R326). -/
def State.dropPartition (s : State) (p : Nat) : State :=
  let s := s.updPart p (fun x => { x with
    ncl := 0, dom := 0, cltab := 0, saveBase := 0, saveSize := 0, tickOff := 0, fring := 0, window := 0, queues := [],
    pnmap := [], haltedBit := false, sliceOff := false })
  let cs := s.clusters.map (fun c => (c.1, { c.2 with banks := c.2.banks.map (fun b => (b.1, s.leaveBank p c.1 b.1 b.2)) }))
  let s := { s with
    clusters := cs,
    cores := Tab.mapVals s.cores (fun c => { c with wd := Tab.erase c.wd p, refills := c.refills.filter (fun r => r.part != p) }) }
  { s with launches := s.launches.filter (fun e => e.2.part != p), hwSlots := s.hwSlots.filter (fun e => e.2.part != p) }
/-- PDESTROY: refused while the partition has an admitted task. -/
def execPdestroy (s : State) : Out :=
  serve none 0x11 s (fun _ b s =>
    let p := fieldB b 0 1
    if 64 ≤ p ∨ (s.part p).ncl = 0 then (s, statArgument)
    else if s.tasks.any (fun e => e.2.part == p) then (s, statPresent)
    else (s.dropPartition p, statDone))

/-- The dies of a rectangle of `c` columns and `r` rows from die `d`. -/
def rectangle (d c r : Nat) : List Nat :=
  (List.range r).flatMap (fun i => (List.range c).map (fun j => d + 4 * i + j))
/-- A set of dies, rising, is a rectangle of the die grid (R29). -/
def isRectangle (l : List Nat) : Bool :=
  match l with
  | [] => true
  | d :: _ => (List.range 4).any (fun c => (List.range 2).any (fun r =>
      decide (d % 4 + c < 4) && decide (d / 4 + r < 2) && l == rectangle d (c + 1) (r + 1)))
/-- The domains after a rectangle becomes one: what is left of the others keeps together, under its lowest die. -/
def State.domainsWith (s : State) (dies : List Nat) (d : Nat) : List Nat :=
  let was := (List.range 8).map s.domOf
  (List.range 8).map (fun i =>
    if dies.contains i then d
    else ((List.range 8).find? (fun j => !dies.contains j && (was[j]?).getD 0 == (was[i]?).getD 0)).getD i)
/-- The edges of dies, and those across from them. -/
def edgesAt (dies : List Nat) : List (Nat × Nat) :=
  dies.flatMap (fun i => (edgesOf i).flatMap (fun e => [(i, e), (neighbour i e, opposite e)]))
/-- DOMAIN: every other shape is refused without a change of a firewall register; a die changes its domain only with no
partition on it and, once the edges around it have drained, with all of them closed; then boundaries inside are opened, those at
an edge closed (R29, R31, R32, R34). -/
def execDomain (s : State) : Out :=
  serve none 0x12 s (fun _ b s =>
    let d := fieldB b 0 1
    let c := fieldB b 1 1
    let r := fieldB b 2 1
    if c = 0 ∨ 4 < c ∨ r = 0 ∨ 2 < r ∨ 8 ≤ d ∨ 4 < d % 4 + c ∨ 2 < d / 4 + r then (s, statArgument)
    else
      let new := s.domainsWith (rectangle d c r) d
      let domNew := fun i => (new[i]?).getD i
      let parts := (List.range 8).map (fun x => (List.range 8).filter (fun i => domNew i == x))
      let moved := (List.range 8).filter (fun i => domNew i != s.domOf i)
      if !parts.all isRectangle then (s, statArgument)
      else if moved.any s.dieUsed then (s, statPresent)
      else if !moved.all s.dieShut then
        ((edgesAt moved).foldl (fun s e => s.setEdge e.1 e.2 ((s.edge e.1 e.2).writeClose true)) s, 0)
      else
        let s := { s with dieDom := (List.range 8).map (fun i => (i, domNew i)) }
        ((edgesAt (rectangle d c r ++ moved)).foldl (fun s e =>
          s.setEdge e.1 e.2 ((s.edge e.1 e.2).writeClose (domNew e.1 != domNew (neighbour e.1 e.2)))) s, statDone))

/-! ## Migration (R352) -/

/-- The rank of a GiB among those of a window. -/
def windowRank (w : BitVec 1024) (g : Nat) : Nat := ((List.range g).filter (fun i => bit w i)).length
/-- The GiB of a rank. -/
def windowAt (w : BitVec 1024) (n : Nat) : Nat := (((List.range 1024).filter (fun i => bit w i))[n]?).getD 0
/-- An address of a window by the rank of its GiB; others stay. -/
def packAddr (w : BitVec 1024) (a : Nat) : Nat :=
  if a < 2 ^ 40 ∧ bit w (a / 2 ^ 30) then windowRank w (a / 2 ^ 30) * 2 ^ 30 + a % 2 ^ 30 else a
/-- The address of a rank in a window; addresses of peers stay. -/
def unpackAddr (w : BitVec 1024) (a : Nat) : Nat :=
  if a < 2 ^ 40 then windowAt w (a / 2 ^ 30) * 2 ^ 30 + a % 2 ^ 30 else a
/-- An address lies in a window. -/
def inWindow (w : BitVec 1024) (a : Nat) : Bool := decide (a < 2 ^ 40) && bit w (a / 2 ^ 30)
/-- A table with entries added under moved keys. -/
def addKeys {α : Type} (f : Nat → Nat) (m t : Tab α) : Tab α := t.foldl (fun m e => Tab.set m (f e.1) e.2) m
/-- A tick of one part as another part that holds the same moment at another tick numbers it; ticks before its first are 0 (R71). -/
def shiftTick (here there t : DWord) : DWord := BitVec.ofNat 64 (there.toNat + t.toNat - here.toNat)
/-- The shadows and clusters of a task, moved. -/
def Task.moved (tk : Task) (line cl : Nat → Nat) : Task :=
  { tk with
    shadows := addKeys line [] tk.shadows, shadowLines := tk.shadowLines.map line,
    gstate := Tab.mapVals tk.gstate (fun g => { g with done := g.done.map (fun d =>
      { d with clusters := d.clusters.map cl, resumed := d.resumed.map cl }) }) }
/-- A word number that no memory has: a `park` that is carried waits under no translation until its page is walked again. -/
def noWord : Nat := 2 ^ 64
/-- A team as it is carried: halted, at its checkpoint; a miss is made again, a `park` has no translation. -/
def Team.moved (t : Team) (blk : Nat) : Team :=
  let wait := match t.wait with
    | some (.fill ..) => some .over
    | some (.park va _ e d) => some (.park va noWord e d)
    | w => w
  { t.restore with halted := true, awaitsBlock := true, wait := wait, fills := [], blk := blk, rowsSpilled := false }
/-- The virtual number of a core in a partition (R27). -/
def Part.vcore (x : Part) (c : Nat) : Nat := 32 * x.vcluster (c / 32) + c % 32
/-- The key of a block by the virtual number of its core. -/
def Part.vblock (x : Part) (k : Nat) : Nat := 16 * x.vcore (k / 16) + k % 16
/-- A task key names a task of a partition. -/
def State.mine (s : State) (p k : Nat) : Bool := match s.task? k with | some tk => tk.part == p | none => false

/-- What of a cluster belongs to a partition: commands, graph with its counters spilled, FIFO entries. -/
def State.packCluster (s : State) (p : Nat) (c : Cluster) : Cluster :=
  { channels := Tab.mapVals c.channels (fun l =>
      (l.filter (fun q => s.mine p q.task)).map (fun q => { q with blk := (s.part p).vblock q.blk })),
    escLoads := c.escLoads.filter (fun e => s.mine p e.task),
    graph := match c.graph with
      | some g => if s.mine p g.task then
          some { g with spilled := true, bank := if g.spilled then g.bank else c.escBank.getD 0 } else none
      | none => none,
    banks := (List.range 32).foldl (fun m i =>
      let b := c.bank i
      match (if b.owner == some p then some (b.width, b.fifo) else Tab.get? b.saved p) with
      | some h => Tab.set m i { saved := [(0, h)] }
      | none => m) [] }
/-- Everything of a partition that a migration carries, by virtual cluster and rank of GiB: items spilled, tiles expired, pins to
be walked again; a queue with records left is latched; the `%tick` it reads (R71, R352). -/
def State.pack (s : State) (p : Nat) : Parcel :=
  let x := s.part p
  let addr := packAddr x.window
  let pending := s.hwSlots.filter (fun e => e.2.part == p &&
    (match s.qdesc p e.2.queue with | some d => d.head != d.tail | none => false))
  { part := { x with pnmap := pending.foldl (fun m e => Tab.set m e.2.queue (some s.tick)) x.pnmap },
    tasks := (s.tasks.filter (fun e => e.2.part == p)).map (fun e =>
      (e.1, { e.2.moved (fun l => addr (128 * l) / 128) x.vcluster with
        pins := [], revoked := true, awaitsWalk := true })),
    launches := (s.launches.filter (fun e => e.2.part == p)).map (fun e => (e.1, { e.2 with pins := none, walked := none })),
    teams := (s.teams.filter (fun e => e.2.part == p)).foldl (fun m e =>
      Tab.set m (spillKey e.2.uid (32 * x.vcore (coreOf e.1) + slotOf e.1)) (e.2.moved (x.vblock e.2.blk))) [],
    blocks := (s.blocks.filter (fun e => s.mine p e.2.task)).foldl (fun m e =>
      Tab.set m (x.vblock e.1) { e.2 with
        core := x.vcore e.2.core, slotsSpilled := true, linesSpilled := true,
        tiles := Tab.mapVals e.2.tiles (fun t => { t with exp := true, valid := 0 }) }) [],
    clusters := (List.range x.ncl).map (fun v => (v, s.packCluster p (s.cluster (field x.cltab (4 * v) 4)))),
    mem := (s.mem.filter (fun e => inWindow x.window e.1)).map (fun e => (addr e.1, e.2)),
    relSig := addKeys (fun w => addr (4 * w) / 4) [] (s.relSig.filter (fun e => inWindow x.window (4 * e.1))),
    poisoned := addKeys (fun w => addr (4 * w) / 4) [] (s.poisoned.filter (fun e => inWindow x.window (4 * e.1))),
    tick := s.tick + x.tickOff }
/-- The detail of an uncorrectable error among the items that a migration of a partition spills (R349, R375). -/
def State.packBad (s : State) (p : Nat) : Option Nat :=
  let blocks := s.blocks.filter (fun e => s.mine p e.2.task)
  match s.saveBad p with
  | some d => some d
  | none =>
    if s.teams.any (fun e => e.2.part == p && !e.2.bad.isEmpty) || blocks.any (fun e => !e.2.badSlots.isEmpty) then some 4
    else if blocks.any (fun e => !e.2.badWords.isEmpty) ||
        s.clusters.any (fun c => (match c.2.graph with | some g => g.bad && s.mine p g.task | none => false) ||
          c.2.banks.any (fun b => b.2.owner == some p && b.2.fifo.any (·.bad))) then some 3
    else none

/-- No core of a cluster keeps a clean word. -/
def State.freshCluster (s : State) (c : Nat) : State :=
  ((List.range 32).map (32 * c + ·)).foldl (fun s k => s.freshCaches k) s
/-- Nothing of a partition is left in the part (R352). -/
def State.removePart (s : State) (p : Nat) : State :=
  let x := s.part p
  let out := fun (w : Nat) => !inWindow x.window (4 * w)
  let cs := Tab.mapVals s.clusters (fun c => { c with
    channels := Tab.mapVals c.channels (fun l => l.filter (fun q => !s.mine p q.task)),
    escLoads := c.escLoads.filter (fun e => !s.mine p e.task),
    banks := Tab.mapVals c.banks (fun b => if b.owner = some p then { b with owner := none, fifo := [] } else b),
    graph := match c.graph with | some g => if s.mine p g.task then none else some g | none => none })
  let s := { s with
    clusters := cs, teams := s.teams.filter (fun e => e.2.part != p), blocks := s.blocks.filter (fun e => !s.mine p e.2.task),
    tasks := s.tasks.filter (fun e => e.2.part != p), mem := s.mem.filter (fun e => !inWindow x.window e.1),
    relSig := s.relSig.filter (fun e => out e.1), poisoned := s.poisoned.filter (fun e => out e.1),
    unfound := s.unfound.filter out, owners := s.owners.filter (fun e => out e.1),
    peerShadows := Tab.mapVals s.peerShadows (fun m => m.filter (fun e => out (32 * e.1))) }
  let s := (s.dropPartition p).setPart p {}
  x.clusterList.foldl (fun (s : State) c => (s.endEscReservation c).freshCluster c) s

/-- A cluster with a partition's items added. -/
def Cluster.add (c q : Cluster) (p : Nat) (bk : Nat → Nat) : Cluster :=
  { c with
    channels := q.channels.foldl (fun m e => Tab.upd m [] e.1 (· ++ e.2.map (fun x => { x with blk := bk x.blk }))) c.channels,
    escLoads := c.escLoads ++ q.escLoads, graph := if q.graph.isSome then q.graph else c.graph,
    banks := q.banks.foldl (fun m e => Tab.upd m {} e.1 (fun b => { b with
      saved := match Tab.get? e.2.saved 0 with | some h => Tab.set b.saved p h | none => b.saved })) c.banks }
/-- The registers of a partition that arrives, the ticks they hold by this part's `tick`; its `%tick` goes on from what it reads
(R71, R352). -/
def Parcel.partAt (q : Parcel) (tick : DWord) : Part :=
  let at_ := shiftTick (q.tick - q.part.tickOff) tick
  { q.part with
    tickOff := q.tick - tick, pnmap := Tab.mapVals q.part.pnmap (fun o => o.map at_),
    hist := q.part.hist.map (fun e => (at_ e.1, e.2)) }
/-- The deadline of a `park` at another tick. -/
def Team.atTick (t : Team) (at_ : DWord → DWord) : Team :=
  match t.wait with
  | some (.park va w e (some d)) => { t with wait := some (.park va w e (some (at_ d))) }
  | _ => t
/-- The completions of a task's generations at another tick. -/
def Task.atTick (tk : Task) (at_ : DWord → DWord) : Task :=
  { tk with gstate := Tab.mapVals tk.gstate (fun g => { g with done := g.done.map (fun d => { d with tick := at_ d.tick }) }) }
/-- A parcel set down as partition `p` of domain `d` at a place; `bk` gives its blocks their slots. What the place held before is
gone: no core owns a word of it, none keeps a clean one (R253). -/
def State.unpack (s : State) (q : Parcel) (p d : Nat) (place : Placement) (bk : Nat → Nat) : State :=
  let cl := fun v => field place.cltab (4 * v) 4
  let core := fun c => 32 * cl (c / 32) + c % 32
  let addr := unpackAddr place.window
  let word := fun w => addr (4 * w) / 4
  let off := s.sliceHolds d p
  let at_ := shiftTick (q.tick - q.part.tickOff) s.tick
  let s := s.setPart p { q.partAt s.tick with
    dom := d, cltab := place.cltab, window := place.window, saveBase := place.saveBase, sliceOff := off,
    haltedBit := q.part.haltedBit && (q.part.haltBit || off) }
  let out := fun (w : Nat) => !inWindow place.window (4 * w)
  let s := { s with
    tasks := q.tasks.foldl (fun m e => Tab.set m e.1 { (e.2.moved (fun l => addr (128 * l) / 128) cl).atTick at_ with
      part := p }) s.tasks,
    launches := q.launches.foldl (fun m e => Tab.set m e.1 { e.2 with part := p }) s.launches,
    teams := q.teams.foldl (fun m e => Tab.set m (spillKey e.2.uid (32 * core (coreOf e.1) + slotOf e.1))
      { e.2.atTick at_ with part := p, blk := bk e.2.blk }) s.teams,
    blocks := q.blocks.foldl (fun m e => Tab.set m (bk e.1) { e.2 with
      core := core e.2.core, tiles := Tab.mapVals e.2.tiles (fun t => { t with visit := s.tick }) }) s.blocks,
    clusters := q.clusters.foldl (fun m e => Tab.upd m {} (cl e.1) (fun c => c.add e.2 p bk)) s.clusters,
    mem := q.mem.foldl (fun m e => Memory.put m (addr e.1) e.2) (s.mem.filter (fun e => !inWindow place.window e.1)),
    relSig := addKeys word (s.relSig.filter (fun e => out e.1)) q.relSig,
    poisoned := addKeys word (s.poisoned.filter (fun e => out e.1)) q.poisoned, unfound := s.unfound.filter out,
    owners := s.owners.filter (fun e => out e.1) }
  (List.range q.part.ncl).foldl (fun s v => s.freshCluster (cl v)) s

/-- New block slots for blocks, each on the core its team slots keep; none when a core has none free. -/
def State.blockKeys (s : State) (core : Nat → Nat) : List (Nat × Block) → List (Nat × Nat) → Option (List (Nat × Nat))
  | [], m => some m
  | e :: rest, m =>
    match ((List.range Config.blockSlots).map (16 * core e.2.core + ·)).find? (fun k =>
        (s.block? k).isNone && !m.any (fun x => x.2 == k)) with
    | none => none
    | some k => s.blockKeys core rest (m ++ [(e.1, k)])
/-- The place chosen fits a parcel: clusters, window of as many GiB, save area, tiles, an Escapement for each graph (R24, R29,
R352); the model's numbers of its tasks, launches and teams are free. -/
def State.placeOk (s : State) (q : Parcel) (d : Nat) (place : Placement) : Bool :=
  let n := q.part.ncl
  s.domainExists d && s.cltabOk d n place.cltab && s.windowOk d place.window &&
  windowRank place.window 1024 == windowRank q.part.window 1024 && s.saveOk d n place.saveBase q.part.saveSize.toNat &&
  (List.range n).all (fun v =>
    let c := field place.cltab (4 * v) 4
    let tiles := q.blocks.foldl (fun m e => if clusterOf e.2.core == v then m + e.2.tiles.length else m) 0
    decide (s.tilesUsed c + tiles ≤ Config.tilesPerCluster) &&
      ((Tab.get q.clusters {} v).graph.isNone || (s.cluster c).graph.isNone)) &&
  q.tasks.all (fun e => (s.task? e.1).isNone) && q.launches.all (fun e => (Tab.get? s.launches e.1).isNone) &&
  q.teams.all (fun e => s.teams.all (fun x => x.2.uid != e.2.uid))
/-- A parcel set down at the place chosen, where it fits. -/
def State.setDown (s : State) (q : Parcel) (p d : Nat) (place : Placement) : Option State :=
  if !s.placeOk q d place then none
  else (s.blockKeys (fun c => 32 * field place.cltab (4 * (c / 32)) 4 + c % 32) q.blocks []).map (fun m =>
    s.unpack q p d place (fun k => match m.find? (fun e => e.1 == k) with | some e => e.2 | none => k))
/-- The versions that tasks of peers hold in a window that moves (R340). -/
def movedShadows (old new : BitVec 1024) (t : Tab (Tab Shadow)) : Tab (Tab Shadow) :=
  Tab.mapVals t (fun m => addKeys (fun l => if inWindow old (128 * l) then unpackAddr new (packAddr old (128 * l)) / 128 else l) [] m)
/-- MIGRATE: to another domain of this part, or to a peer of equal GEOM.STEP, where the parcel then is; nothing is left at the
source. An error that the spills meet ends the partition's tasks first, one in a word that is carried is found (R349, R352, R375). -/
def execMigrate (place : Placement) (s : State) : Out :=
  serve none 0x13 s (fun _ b s =>
    let p := fieldB b 0 1
    let d := fieldB b 1 1
    let port := fieldB b 2 1
    let x := s.part p
    if 64 ≤ p ∨ x.ncl = 0 ∨ (32 ≤ port ∧ port ≠ 0xFF) then (s, statArgument)
    else if !s.haltedNow p then (s, statPresent)
    else if s.tasks.any (fun e => e.2.part == p) && (s.packBad p).isSome then (s.saveMeets p (s.packBad p), 0)
    else
      let s' := (s.finds (fun w => inWindow x.window (4 * w))).removePart p
      if port ≠ 0xFF then
        if (Tab.get s.peers {} port).step ≠ Config.geomStep then (s, statArgument)
        else ({ s' with peers := Tab.upd s'.peers {} port (fun y => { y with parcels := y.parcels ++ [s.pack p] }) }, statDone)
      else if !s.domainExists d ∨ d = x.dom then (s, statArgument)
      else match s'.setDown (s.pack p) p d place with
        | none => (s, statPresent)
        | some s'' => ({ s'' with peerShadows := movedShadows x.window place.window s.peerShadows }, statDone))
/-- A partition arrives from the part behind a port, of equal GEOM.STEP: the first of its parcels for this part, under a number that
is free, where the place fits (R352). -/
def State.arrives (s : State) (port p d : Nat) (place : Placement) : State :=
  let y := Tab.get s.peers {} port
  match y.parcels with
  | [] => s
  | q :: rest =>
    if 64 ≤ p ∨ (s.part p).ncl ≠ 0 ∨ y.step ≠ Config.geomStep then s
    else match s.setDown q p d place with
      | none => s
      | some s' => { s' with peers := Tab.set s'.peers port { y with parcels := rest } }

/-- FWLOAD: a verified image takes effect at the next cold reset (R373). -/
def execFwload (s : State) : Out :=
  serve none 0x14 s (fun _ b s =>
    let a := fieldB b 0 8
    let n := fieldB b 8 4
    if 2 ^ 40 < a + n then (s, statArgument)
    else
      let img := s.peekBytes a n
      let s := s.findsAt a n
      if Config.imageVerifies img && decide (s.svn.toNat ≤ (Config.imageSvn img).toNat) then
        ({ s with fwImage := some img }, statDone)
      else (s, statArgument))

/-! ## The host and peers (R365, R366, R371) -/

/-- The die of a PCI Express link, and that of a peer port (R25). -/
def linkDie (link : Nat) : Nat := if link = 0 then 0 else 7
def portDie (port : Nat) : Nat := port / 4
/-- The link that presents a function: both present the physical one (R365). -/
def linkOf (fn : Option Nat) (link : Nat) : Bool := match fn with | none => decide (link < 2) | some p => link == p / 32
/-- The location of one byte that a function names through AP1; none: an Unsupported Request. A write needs W in the stage-two
leaf (Table 21-6). Host accesses meet no edge between the link's die and the byte's: the manual lists failures of translation and of
the window alone (R25, R366, log 93). -/
def State.ap1 (s : State) (fn : Option Nat) (write : Bool) (a : Nat) : Option Nat :=
  match fn with
  | none => if a < 2 ^ 40 then some a else none
  | some p => (s.stage2 p false a).1.bind (fun r =>
      let loc := peerLoc (s.part p).peerWin r.dpa
      if (!write || r.w) && s.peerAdmits loc then some loc else none)
/-- The translations of a host access: errors in the entries read are found (R375). -/
def State.sawAp1 (s : State) (fn : Option Nat) (a n : Nat) : State :=
  match fn with
  | none => s
  | some p => (List.range n).foldl (fun s i => (s.stage2 p false (a + i)).2) s
/-- HOST_AP1_ACCESS: a plain access of `n` bytes over a link; as an Unsupported Request a write is discarded and a read returns all
ones (R366). An uncorrectable error in a word that the host reads, or in an entry of the translation, is found (R375). -/
def execHostAp1Access (source : HostFn) (addr : DWord) (n : Nat) (data : Option DWord) (s : State) : Out :=
  let locs := (List.range n).mapM (fun i => s.ap1 source.fn data.isSome (addr.toNat + i))
  let s := if s.up && linkOf source.fn source.link then s.sawAp1 source.fn addr.toNat n else s
  match s.up && linkOf source.fn source.link, locs, data with
  | true, some l, some v =>
    .next (s.foreignAt (((List.range n).zip l).map (fun e => (e.2, BitVec.ofNat 8 (v.toNat / 2 ^ (8 * e.1))))))
  | true, some l, none => .next { s.finds (fun w => l.any (fun a => a / 4 == w)) with
      hostRead := some (source.link, BitVec.ofNat 64 (natOfBytes (l.map s.peekByte))) }
  | _, _, some _ => .next s
  | _, _, none => .next { s with hostRead := some (source.link, BitVec.ofNat 64 (2 ^ (8 * n) - 1)) }

/-- PEERACC of a port covers an address of this part (R371). -/
def State.admitsPeer (s : State) (port a : Nat) : Bool :=
  let x := Tab.get s.peerAcc 0 port
  let g := a / 2 ^ 30
  bit x 63 && decide (a < 2 ^ 40) && decide (field x 30 10 ≤ g) && decide (g < field x 30 10 + field x 20 10)
/-- The key of the versions of a task of the part behind a port. -/
def peerTask (port task : Nat) : Nat := 32 * task + port
/-- A word written by a task of a peer: its version shadow, the word at its home, no owner among the cores of this part; a
`park` on it may end when a team wrote it (R113, R340, R371). -/
def State.peerWord (s : State) (key w : Nat) (v : Word) (team : Bool) : State :=
  let m := s.shadowOf (Tab.get s.peerShadows [] key) w
  let s := { s with peerShadows := Tab.set s.peerShadows key m }.foreignWord w v
  if team then s.endParks w v else s
/-- An admitted access of a peer at its home: a word, or the two words of an atomic of 64 bits (R247, R371). -/
def State.peerOp (s : State) (port a : Nat) (op : PeerOp) : State :=
  let w := a / 4
  match op with
  | .write task v team => s.peerWord (peerTask port task) w v team
  | .atomic task aop v c =>
    if 10 < aop.toNat then s
    else s.peerWord (peerTask port task) w (BitVec.ofNat 32 (atomicNew aop.toNat false (s.peek w).toNat v.toNat c.toNat)) true
  | .atomicWide task aop v c =>
    let w := a / 8 * 2
    if 10 < aop.toNat then s
    else
      let r := BitVec.ofNat 64 (atomicNew aop.toNat true (s.peek (w + 1) ++ s.peek w).toNat v.toNat c.toNat)
      (s.peerWord (peerTask port task) w (r.setWidth 32) true).peerWord (peerTask port task) (w + 1) (r.extractLsb' 32 32) true
  | _ => s
/-- The versions of tasks of a peer are gone. -/
def State.dropPeer (s : State) (port : Nat) (tasks : List Nat) : State :=
  { s with peerShadows := tasks.foldl (fun m t => Tab.erase m (peerTask port t)) s.peerShadows }
/-- PEER_ACCESS: performed at this part's LLC when PEERACC admits it and the edges on its way from the port's die are open; a
closed edge counts it; refused it has no other effect (R25, R33, R371). The tasks of a peer that commit drop their versions,
those that fault have them restored (R342). A partition that migrates here arrives (R352). -/
def execPeerAccess (port : Nat) (addr : DWord) (op : PeerOp) (s : State) : Out :=
  match op with
  | .commit tasks => .next (s.dropPeer port tasks)
  | .discard tasks => .next ((s.restoreLines (tasks.flatMap (fun t => Tab.get s.peerShadows [] (peerTask port t)))).dropPeer
      port tasks)
  | .arrive p d place => if s.up then .next (s.arrives port p d place) else .next s
  | op =>
    if !s.up || !s.admitsPeer port addr.toNat then .next s
    else match s.blockedEdge (dieOfLoc addr.toNat) 5 (portDie port) with
      | some e => .next (s.countRefusal (some e))
      | none => .next (s.peerOp port addr.toNat op)

/-- The RW registers of a partition at their reset values, but those marked `fw` (R365). -/
def Part.resetRw (x : Part) : Part :=
  { x with
    iprio := 0, haltBit := false, haltedBit := x.haltedBit && x.sliceOff, capMode := 0, cap := 0x10, thresh := 0x40,
    qtbase := 0, qtsize := 0, ntmo := 0x00010000#32, s1root := 0, s2root := 0, inv1 := { busy := x.inv1.busy },
    inv2 := { busy := x.inv2.busy }, bkpt := [], log2w := 0x18, mbox := { x.mbox with addr := 0 }, peerWin := [] }
/-- FUNCTION_LEVEL_RESET of the virtual function of a partition (R365). -/
def execFunctionLevelReset (p : Nat) (s : State) : Out := .next ((s.killAll p).updPart p Part.resetRw)

/-- COLD_RESET: every register at its reset value, the tick at 0; the boot ROM verifies the image in flash: a passing one
runs and its SVN is fused when higher, a failing one leaves recovery (R9, R362, R372, R373). -/
def execColdReset (s : State) : Out :=
  let img := s.fwImage.getD (Config.flashImage 0)
  let svn := Config.imageSvn img
  let ok := Config.imageVerifies img && decide (s.svn.toNat ≤ svn.toNat)
  .next { State.reset with
    agenda := s.agenda, moment := s.moment, fresh := s.fresh, nextKey := s.nextKey, nextLaunch := s.nextLaunch, peers := s.peers, fwImage := s.fwImage,
    image := if ok then img else [], svn := if ok then (if s.svn.toNat < svn.toNat then svn else s.svn) else s.svn,
    boot := if ok then .running else .recovery }

end Sys2Proof.Machine
end

