-- ==== Sys2Proof/Machine/VectorInt.lean ====
section
/-! DEFINITION. Sys2Proof/Machine/VectorInt.lean: class 001, the vector integer instructions (R155 to R163). -/
namespace Sys2Proof.Machine

/-- Writes integer results in the lanes of a mask, a pair at 64 bits, with the plain i32 tag (R160). -/
def writeInt (t : Team) (wide : Bool) (reg : Nat) (m : Mask) (g : Nat → Nat) : Team :=
  if wide then t.wlanes2 reg m (plainTag .i32) (fun l => BitVec.ofNat 64 (g l))
  else t.wlanes reg m (plainTag .i32) (fun l => BitVec.ofNat 32 (g l))

/-- The common course of class 001: `eff` maps the lane's sources a, b and c to its result. -/
def vecInt (f : V3) (sp : VSpec) (signedImm : Bool) (eff : Nat → Nat → Nat → Nat) (s : State) : Out :=
  let wide := bit f.ty 1
  perLane f.pre { reads := v3ScalarB f wide }
    (fun k t s => v3Check f { sp with intClass := true } k t s)
    (fun k act t s => do
      v3CheckTags f k act t s
      let src := fun l =>
        eff (if sp.a then intSource k t s act wide f.va f.ka l else 0)
          (if sp.bks.isEmpty then 0 else v3IntB f k t s act signedImm l)
          (if sp.c then intSource k t s act wide f.vc f.kc l else 0)
      sweepRegs k act (v3Slots f k t s) t (s.countMap f act t)
        (fun m u => writeInt u (wide && sp.wideD) f.vd.toNat m src)) s

/-- A compare: the predicate vd in each active lane (R162). -/
def vecCmp (f : V3) (c : Nat) (s : State) : Out :=
  let wide := bit f.ty 1
  perLane f.pre { reads := v3ScalarB f wide }
    (fun k t s => v3Check f { bks := [0, 1, 2], mapA := true, mapB := true, pred := true, intClass := true } k t s)
    (fun k act t s => do
      v3CheckTags f k act t s
      let v := maskWhere act t.words (fun l =>
        intCmp c f.ty (intSource k t s act wide f.va f.ka l) (v3IntB f k t s act true l))
      sweepRegs k act (v3Slots f k t s) t (s.countMap f act t) (fun m u => u.wp f.vd.toNat m v)) s

/-- `vadd` (R160). -/
def execVadd (f : V3) (s : State) : Out :=
  vecInt f { bks := [0, 1, 2], mapA := true, mapB := true } true (fun a b _ => intOp .add f.ty a b) s
/-- `vsub` (R160). -/
def execVsub (f : V3) (s : State) : Out :=
  vecInt f { bks := [0, 1, 2], mapA := true, mapB := true } true (fun a b _ => intOp .sub f.ty a b) s
/-- `vmul` (R160). -/
def execVmul (f : V3) (s : State) : Out :=
  vecInt f { bks := [0, 1, 2], mapA := true, mapB := true } true (fun a b _ => intOp .mul f.ty a b) s
/-- `vmulh` (R160). -/
def execVmulh (f : V3) (s : State) : Out :=
  vecInt f { bks := [0, 1, 2], mapA := true, mapB := true } true (fun a b _ => intOp .mulh f.ty a b) s
/-- `vmad` (Table 9-3). -/
def execVmad (f : V3) (s : State) : Out :=
  vecInt f { bks := [0, 1, 2], c := true, mapA := true, mapB := true, mapC := true } true
    (fun a b c => (a * b + c) % 2 ^ tyWidth f.ty) s
/-- `vand` (R160). -/
def execVand (f : V3) (s : State) : Out :=
  vecInt f { bks := [0, 1, 2], mapA := true, mapB := true } false (fun a b _ => intOp .and f.ty a b) s
/-- `vor` (R160). -/
def execVor (f : V3) (s : State) : Out :=
  vecInt f { bks := [0, 1, 2], mapA := true, mapB := true } false (fun a b _ => intOp .or f.ty a b) s
/-- `vxor` (R160). -/
def execVxor (f : V3) (s : State) : Out :=
  vecInt f { bks := [0, 1, 2], mapA := true, mapB := true } false (fun a b _ => intOp .xor f.ty a b) s
/-- A shift: the count of each lane is source b, a pair at 64 bits (R155, R160). -/
def vecShift (f : V3) (o : IntOp) (s : State) : Out :=
  vecInt f { bks := [0, 1, 2], mapA := true } false (fun a b _ => intOp o f.ty a b) s
/-- `vshl` (R160). -/
def execVshl (f : V3) (s : State) : Out :=
  vecShift f .shl s
/-- `vshr` (R160). -/
def execVshr (f : V3) (s : State) : Out :=
  vecShift f .shr s
/-- `vsra` (R160). -/
def execVsra (f : V3) (s : State) : Out :=
  vecShift f .sra s
/-- `vmin` (R160). -/
def execVmin (f : V3) (s : State) : Out :=
  vecInt f { bks := [0, 1, 2], mapA := true, mapB := true } true (fun a b _ => intOp .min f.ty a b) s
/-- `vmax` (R160). -/
def execVmax (f : V3) (s : State) : Out :=
  vecInt f { bks := [0, 1, 2], mapA := true, mapB := true } true (fun a b _ => intOp .max f.ty a b) s
/-- `vabs` (Table 9-3). -/
def execVabs (f : V3) (s : State) : Out :=
  vecInt f { tys := [0, 2], mapA := true } true (fun a _ _ => wrap (tyWidth f.ty) (sval (tyWidth f.ty) a).natAbs) s
/-- `vsel`: a where predicate p`vc` is true in the lane, else b (R161). -/
def execVsel (f : V3) (s : State) : Out :=
  let wide := bit f.ty 1
  perLane f.pre { reads := v3ScalarB f wide }
    (fun k t s => do
      v3Check f { bks := [0, 1, 2], intClass := true } k t s
      illegalIf (decide (8 ≤ f.vc.toNat)) 1)
    (fun k act t s =>
      let p := t.rp f.vc.toNat
      let src := fun l => if bit p l then intSource k t s act wide f.va 0 l else v3IntB f k t s act true l
      sweepRegs k act [] t s (fun m u => writeInt u wide f.vd.toNat m src)) s
/-- An unmapped `vmov` of one register: the source lane block's tag goes with it; a block-scaled lane block
is copied whole (R197). -/
def moveReg (src : Team) (d a : Nat) (m : Mask) (t : Team) : Team :=
  (passesOf m t.words).foldl (fun (t : Team) w =>
    let x := src.rv a w
    if x.tag.fmt.scaled then t.wv d w x
    else t.wv d w { data := rowMerge (t.rv d w).data (maskWord m w) (fun i => rowWord x.data i), tag := x.tag, scale := 0 }) t
/-- `vmov`: mapped, P(n) mod 2^32 with the plain i32 tag; unmapped, R197 (R161). -/
def execVmov (f : V3) (s : State) : Out :=
  let wide := bit f.ty 1
  perLane f.pre {}
    (fun k t s => v3Check f { mapA := true, intClass := true } k t s)
    (fun k act t s => do
      v3CheckTags f k act t s
      if f.ka != 0 then
        let src := intSource k t s act false f.va f.ka
        sweepRegs k act (v3Slots f k t s) t (s.countMap f act t) (fun m u => writeInt u wide f.vd.toNat m src)
      else sweepRegs k act [] t s (fun m u =>
        let u := moveReg t f.vd.toNat f.va.toNat m u
        if wide then moveReg t (f.vd.toNat + 1) (f.va.toNat + 1) m u else u)) s
/-- `vmovi`: imm8 sign-extended; bk must be 0b10 (R161). -/
def execVmovi (f : V3) (s : State) : Out :=
  vecInt f { bks := [2], a := false } true (fun _ b _ => b) s
/-- `vsplat`: the scalar, or the pair; bk must be 0b01 (R161). -/
def execVsplat (f : V3) (s : State) : Out :=
  vecInt f { bks := [1], a := false } true (fun _ b _ => b) s
/-- `vpopc`: one register at either width (R160). -/
def execVpopc (f : V3) (s : State) : Out :=
  vecInt f { wideD := false } true (fun a _ _ => popcount (tyWidth f.ty) a) s
/-- `vclz` (R160). -/
def execVclz (f : V3) (s : State) : Out :=
  vecInt f { wideD := false } true (fun a _ _ => clz (tyWidth f.ty) a) s
/-- `vbrev` (R160). -/
def execVbrev (f : V3) (s : State) : Out :=
  vecInt f {} true (fun a _ _ => brev (tyWidth f.ty) a) s
/-- `vbfx` (R101, R160). -/
def execVbfx (f : V3) (s : State) : Out :=
  vecInt f { bks := [0, 1, 2] } false (fun a b _ => bfx f.ty a (b % 2 ^ 32)) s
/-- `vcmp.eq` (R162). -/
def execVcmpEq (f : V3) (s : State) : Out :=
  vecCmp f 0 s
/-- `vcmp.ne` (R162). -/
def execVcmpNe (f : V3) (s : State) : Out :=
  vecCmp f 1 s
/-- `vcmp.lt` (R162). -/
def execVcmpLt (f : V3) (s : State) : Out :=
  vecCmp f 2 s
/-- `vcmp.le` (R162). -/
def execVcmpLe (f : V3) (s : State) : Out :=
  vecCmp f 3 s
/-- `vcmp.gt` (R162). -/
def execVcmpGt (f : V3) (s : State) : Out :=
  vecCmp f 4 s
/-- `vcmp.ge` (R162). -/
def execVcmpGe (f : V3) (s : State) : Out :=
  vecCmp f 5 s
/-- `vdot4` (R163). -/
def execVdot4 (f : V3) (s : State) : Out :=
  vecInt f { tys := [0], bks := [0, 1], c := true, mapC := true } true (fun a b c => dotBytes 4 8 c a b) s
/-- `vdot8` (R163). -/
def execVdot8 (f : V3) (s : State) : Out :=
  vecInt f { tys := [0], bks := [0, 1], c := true, mapC := true } true (fun a b c => dotBytes 8 4 c a b) s

end Sys2Proof.Machine
end

