-- ==== Sys2Proof/Machine/Dispatch.lean ====
section
/-! DEFINITION. Sys2Proof/Machine/Dispatch.lean: what each step of the table does, one arm per constructor. -/
namespace Sys2Proof.Machine

def exec (i : Instr) (s : State) : Host.Outcome State Fault Refusal :=
  match i with
  | .sadd f => Sys2Proof.Machine.execSadd f s
  | .ssub f => Sys2Proof.Machine.execSsub f s
  | .smul f => Sys2Proof.Machine.execSmul f s
  | .smulh f => Sys2Proof.Machine.execSmulh f s
  | .sdiv f => Sys2Proof.Machine.execSdiv f s
  | .srem f => Sys2Proof.Machine.execSrem f s
  | .sand f => Sys2Proof.Machine.execSand f s
  | .sor f => Sys2Proof.Machine.execSor f s
  | .sxor f => Sys2Proof.Machine.execSxor f s
  | .sshl f => Sys2Proof.Machine.execSshl f s
  | .sshr f => Sys2Proof.Machine.execSshr f s
  | .ssra f => Sys2Proof.Machine.execSsra f s
  | .smin f => Sys2Proof.Machine.execSmin f s
  | .smax f => Sys2Proof.Machine.execSmax f s
  | .ssel f => Sys2Proof.Machine.execSsel f s
  | .smov f => Sys2Proof.Machine.execSmov f s
  | .smovi f => Sys2Proof.Machine.execSmovi f s
  | .sldk f => Sys2Proof.Machine.execSldk f s
  | .slea f => Sys2Proof.Machine.execSlea f s
  | .spopc f => Sys2Proof.Machine.execSpopc f s
  | .sclz f => Sys2Proof.Machine.execSclz f s
  | .sbrev f => Sys2Proof.Machine.execSbrev f s
  | .sbfx f => Sys2Proof.Machine.execSbfx f s
  | .sbfi f => Sys2Proof.Machine.execSbfi f s
  | .scmpEq f => Sys2Proof.Machine.execScmpEq f s
  | .scmpNe f => Sys2Proof.Machine.execScmpNe f s
  | .scmpLt f => Sys2Proof.Machine.execScmpLt f s
  | .scmpLe f => Sys2Proof.Machine.execScmpLe f s
  | .scmpGt f => Sys2Proof.Machine.execScmpGt f s
  | .scmpGe f => Sys2Proof.Machine.execScmpGe f s
  | .vadd f => Sys2Proof.Machine.execVadd f s
  | .vsub f => Sys2Proof.Machine.execVsub f s
  | .vmul f => Sys2Proof.Machine.execVmul f s
  | .vmulh f => Sys2Proof.Machine.execVmulh f s
  | .vmad f => Sys2Proof.Machine.execVmad f s
  | .vand f => Sys2Proof.Machine.execVand f s
  | .vor f => Sys2Proof.Machine.execVor f s
  | .vxor f => Sys2Proof.Machine.execVxor f s
  | .vshl f => Sys2Proof.Machine.execVshl f s
  | .vshr f => Sys2Proof.Machine.execVshr f s
  | .vsra f => Sys2Proof.Machine.execVsra f s
  | .vmin f => Sys2Proof.Machine.execVmin f s
  | .vmax f => Sys2Proof.Machine.execVmax f s
  | .vabs f => Sys2Proof.Machine.execVabs f s
  | .vsel f => Sys2Proof.Machine.execVsel f s
  | .vmov f => Sys2Proof.Machine.execVmov f s
  | .vmovi f => Sys2Proof.Machine.execVmovi f s
  | .vsplat f => Sys2Proof.Machine.execVsplat f s
  | .vpopc f => Sys2Proof.Machine.execVpopc f s
  | .vclz f => Sys2Proof.Machine.execVclz f s
  | .vbrev f => Sys2Proof.Machine.execVbrev f s
  | .vbfx f => Sys2Proof.Machine.execVbfx f s
  | .vcmpEq f => Sys2Proof.Machine.execVcmpEq f s
  | .vcmpNe f => Sys2Proof.Machine.execVcmpNe f s
  | .vcmpLt f => Sys2Proof.Machine.execVcmpLt f s
  | .vcmpLe f => Sys2Proof.Machine.execVcmpLe f s
  | .vcmpGt f => Sys2Proof.Machine.execVcmpGt f s
  | .vcmpGe f => Sys2Proof.Machine.execVcmpGe f s
  | .vdot4 f => Sys2Proof.Machine.execVdot4 f s
  | .vdot8 f => Sys2Proof.Machine.execVdot8 f s
  | .fadd f => Sys2Proof.Machine.execFadd f s
  | .fsub f => Sys2Proof.Machine.execFsub f s
  | .fmul f => Sys2Proof.Machine.execFmul f s
  | .ffma f => Sys2Proof.Machine.execFfma f s
  | .fmin f => Sys2Proof.Machine.execFmin f s
  | .fmax f => Sys2Proof.Machine.execFmax f s
  | .fabs f => Sys2Proof.Machine.execFabs f s
  | .fneg f => Sys2Proof.Machine.execFneg f s
  | .fcmpEq f => Sys2Proof.Machine.execFcmpEq f s
  | .fcmpNe f => Sys2Proof.Machine.execFcmpNe f s
  | .fcmpLt f => Sys2Proof.Machine.execFcmpLt f s
  | .fcmpLe f => Sys2Proof.Machine.execFcmpLe f s
  | .fcmpGt f => Sys2Proof.Machine.execFcmpGt f s
  | .fcmpGe f => Sys2Proof.Machine.execFcmpGe f s
  | .fcmpUn f => Sys2Proof.Machine.execFcmpUn f s
  | .fclass f => Sys2Proof.Machine.execFclass f s
  | .fdiv f => Sys2Proof.Machine.execFdiv f s
  | .fsqrt f => Sys2Proof.Machine.execFsqrt f s
  | .frcp f => Sys2Proof.Machine.execFrcp f s
  | .frsq f => Sys2Proof.Machine.execFrsq f s
  | .fexp2 f => Sys2Proof.Machine.execFexp2 f s
  | .flog2 f => Sys2Proof.Machine.execFlog2 f s
  | .fsumerr f => Sys2Proof.Machine.execFsumerr f s
  | .osmx f => Sys2Proof.Machine.execOsmx f s
  | .osmxf f => Sys2Proof.Machine.execOsmxf f s
  | .lshf f => Sys2Proof.Machine.execLshf f s
  | .lred f => Sys2Proof.Machine.execLred f s
  | .lscan f => Sys2Proof.Machine.execLscan f s
  | .vote f => Sys2Proof.Machine.execVote f s
  | .vtos f => Sys2Proof.Machine.execVtos f s
  | .mapgen f => Sys2Proof.Machine.execMapgen f s
  | .mapz f => Sys2Proof.Machine.execMapz f s
  | .mapinfo f => Sys2Proof.Machine.execMapinfo f s
  | .mapmov f => Sys2Proof.Machine.execMapmov f s
  | .cvtn f => Sys2Proof.Machine.execCvtn f s
  | .cvtw f => Sys2Proof.Machine.execCvtw f s
  | .fcvt f => Sys2Proof.Machine.execFcvt f s
  | .fcvti f => Sys2Proof.Machine.execFcvti f s
  | .icvtf f => Sys2Proof.Machine.execIcvtf f s
  | .vld f => Sys2Proof.Machine.execVld f s
  | .vst f => Sys2Proof.Machine.execVst f s
  | .sld f => Sys2Proof.Machine.execSld f s
  | .sst f => Sys2Proof.Machine.execSst f s
  | .ldsc f => Sys2Proof.Machine.execLdsc f s
  | .stsc f => Sys2Proof.Machine.execStsc f s
  | .vprf f => Sys2Proof.Machine.execVprf f s
  | .scwb f => Sys2Proof.Machine.execScwb f s
  | .bankq f => Sys2Proof.Machine.execBankq f s
  | .vatom f => Sys2Proof.Machine.execVatom f s
  | .vatomNr f => Sys2Proof.Machine.execVatomNr f s
  | .satom f => Sys2Proof.Machine.execSatom f s
  | .satomNr f => Sys2Proof.Machine.execSatomNr f s
  | .fence f => Sys2Proof.Machine.execFence f s
  | .flrenew f => Sys2Proof.Machine.execFlrenew f s
  | .fllife f => Sys2Proof.Machine.execFllife f s
  | .cpy f => Sys2Proof.Machine.execCpy f s
  | .cpyt f => Sys2Proof.Machine.execCpyt f s
  | .gat f => Sys2Proof.Machine.execGat f s
  | .sct f => Sys2Proof.Machine.execSct f s
  | .lay f => Sys2Proof.Machine.execLay f s
  | .mapld f => Sys2Proof.Machine.execMapld f s
  | .mapst f => Sys2Proof.Machine.execMapst f s
  | .seal f => Sys2Proof.Machine.execSeal f s
  | .waitb f => Sys2Proof.Machine.execWaitb f s
  | .escld f => Sys2Proof.Machine.execEscld f s
  | .qpush f => Sys2Proof.Machine.execQpush f s
  | .qpop f => Sys2Proof.Machine.execQpop f s
  | .bra f => Sys2Proof.Machine.execBra f s
  | .brx f => Sys2Proof.Machine.execBrx f s
  | .call f => Sys2Proof.Machine.execCall f s
  | .ret f => Sys2Proof.Machine.execRet f s
  | .join f => Sys2Proof.Machine.execJoin f s
  | .sync f => Sys2Proof.Machine.execSync f s
  | .exit f => Sys2Proof.Machine.execExit f s
  | .regroup f => Sys2Proof.Machine.execRegroup f s
  | .bar f => Sys2Proof.Machine.execBar f s
  | .bara f => Sys2Proof.Machine.execBara f s
  | .barw f => Sys2Proof.Machine.execBarw f s
  | .park f => Sys2Proof.Machine.execPark f s
  | .wake f => Sys2Proof.Machine.execWake f s
  | .nop f => Sys2Proof.Machine.execNop f s
  | .srd f => Sys2Proof.Machine.execSrd f s
  | .swr f => Sys2Proof.Machine.execSwr f s
  | .trap f => Sys2Proof.Machine.execTrap f s
  | .cmtwait f => Sys2Proof.Machine.execCmtwait f s
  | .cmtpass f => Sys2Proof.Machine.execCmtpass f s
  | .dlaunch f => Sys2Proof.Machine.execDlaunch f s
  | .slotWriteApply blk idx => Sys2Proof.Machine.execSlotWriteApply blk idx s
  | .storeRegistration core idx => Sys2Proof.Machine.execStoreRegistration core idx s
  | .cpyTransfer cluster channel order => Sys2Proof.Machine.execCpyTransfer cluster channel order s
  | .cpytTransfer cluster channel n => Sys2Proof.Machine.execCpytTransfer cluster channel n s
  | .layTransfer cluster channel n => Sys2Proof.Machine.execLayTransfer cluster channel n s
  | .gatTransfer cluster channel n => Sys2Proof.Machine.execGatTransfer cluster channel n s
  | .sctTransfer cluster channel n => Sys2Proof.Machine.execSctTransfer cluster channel n s
  | .mapldTransfer cluster channel => Sys2Proof.Machine.execMapldTransfer cluster channel s
  | .mapstTransfer cluster channel => Sys2Proof.Machine.execMapstTransfer cluster channel s
  | .escldBind cluster => Sys2Proof.Machine.execEscldBind cluster s
  | .escDoneProcess cluster => Sys2Proof.Machine.execEscDoneProcess cluster s
  | .parkTimeout team => Sys2Proof.Machine.execParkTimeout team s
  | .commitBufferDrain team => Sys2Proof.Machine.execCommitBufferDrain team s
  | .illegalInstruction w => Sys2Proof.Machine.execIllegalInstruction w s
  | .trapTaken => Sys2Proof.Machine.execTrapTaken s
  | .resumePop => Sys2Proof.Machine.execResumePop s
  | .runArbitration core pipe => Sys2Proof.Machine.execRunArbitration core pipe s
  | .capEvaluation core => Sys2Proof.Machine.execCapEvaluation core s
  | .waitConditionMet team => Sys2Proof.Machine.execWaitConditionMet team s
  | .lineFillReturn core line => Sys2Proof.Machine.execLineFillReturn core line s
  | .blockDispatch task places claims => Sys2Proof.Machine.execBlockDispatch task places claims s
  | .teamReload team => Sys2Proof.Machine.execTeamReload team s
  | .sweepVisit blk tile => Sys2Proof.Machine.execSweepVisit blk tile s
  | .fleetSoftError blk tile line => Sys2Proof.Machine.execFleetSoftError blk tile line s
  | .bkctlReqWrite cluster bank v => Sys2Proof.Machine.execBkctlReqWrite cluster bank v s
  | .bankModeChange cluster bank => Sys2Proof.Machine.execBankModeChange cluster bank s
  | .dfwCloseWrite die edge w => Sys2Proof.Machine.execDfwCloseWrite die edge w s
  | .dfwDrainComplete die edge => Sys2Proof.Machine.execDfwDrainComplete die edge s
  | .dfwDomWrite die dom => Sys2Proof.Machine.execDfwDomWrite die dom s
  | .notify fn span data => Sys2Proof.Machine.execNotify fn span data s
  | .pendingNotifyTimeout part queue => Sys2Proof.Machine.execPendingNotifyTimeout part queue s
  | .slotRelease slot => Sys2Proof.Machine.execSlotRelease slot s
  | .launchRecord part queue => Sys2Proof.Machine.execLaunchRecord part queue s
  | .evset part queue => Sys2Proof.Machine.execEvset part queue s
  | .evclr part queue => Sys2Proof.Machine.execEvclr part queue s
  | .mark part queue => Sys2Proof.Machine.execMark part queue s
  | .unknownType part queue => Sys2Proof.Machine.execUnknownType part queue s
  | .admission launch => Sys2Proof.Machine.execAdmission launch s
  | .leasePrewalk launch => Sys2Proof.Machine.execLeasePrewalk launch s
  | .taskCommit task => Sys2Proof.Machine.execTaskCommit task s
  | .xlctlRetry part => Sys2Proof.Machine.execXlctlRetry part s
  | .xlctlAbort part => Sys2Proof.Machine.execXlctlAbort part s
  | .invctlGo part stage2 v => Sys2Proof.Machine.execInvctlGo part stage2 v s
  | .invalidationAck part stage2 => Sys2Proof.Machine.execInvalidationAck part stage2 s
  | .taskFaultEnd task => Sys2Proof.Machine.execTaskFaultEnd task s
  | .taskkill part id => Sys2Proof.Machine.execTaskkill part id s
  | .sliceEnd dom => Sys2Proof.Machine.execSliceEnd dom s
  | .pstateHaltWrite part v => Sys2Proof.Machine.execPstateHaltWrite part v s
  | .partitionHalted part => Sys2Proof.Machine.execPartitionHalted part s
  | .gangSliceStart dom => Sys2Proof.Machine.execGangSliceStart dom s
  | .ready dom port tick => Sys2Proof.Machine.execReady dom port tick s
  | .forfeit dom tick => Sys2Proof.Machine.execForfeit dom tick s
  | .gangGraceExpiry dom => Sys2Proof.Machine.execGangGraceExpiry dom s
  | .railOpUpdate rails package powers withheld => Sys2Proof.Machine.execRailOpUpdate rails package powers withheld s
  | .droopStretch cluster => Sys2Proof.Machine.execDroopStretch cluster s
  | .stageTwoFreeze cluster => Sys2Proof.Machine.execStageTwoFreeze cluster s
  | .freezeExpiry cluster => Sys2Proof.Machine.execFreezeExpiry cluster s
  | .clusterResume task group cluster => Sys2Proof.Machine.execClusterResume task group cluster s
  | .tickAlignStep reference => Sys2Proof.Machine.execTickAlignStep reference s
  | .watchdogReport core part => Sys2Proof.Machine.execWatchdogReport core part s
  | .attest fn => Sys2Proof.Machine.execAttest fn s
  | .pcreate => Sys2Proof.Machine.execPcreate s
  | .pdestroy => Sys2Proof.Machine.execPdestroy s
  | .domain => Sys2Proof.Machine.execDomain s
  | .migrate place => Sys2Proof.Machine.execMigrate place s
  | .fwload => Sys2Proof.Machine.execFwload s
  | .hostAp1Access source addr n data => Sys2Proof.Machine.execHostAp1Access source addr n data s
  | .peerAccess port addr op => Sys2Proof.Machine.execPeerAccess port addr op s
  | .functionLevelReset part => Sys2Proof.Machine.execFunctionLevelReset part s
  | .coldReset => Sys2Proof.Machine.execColdReset s
  | .patrolScrub place corrected uncorrectable => Sys2Proof.Machine.execPatrolScrub place corrected uncorrectable s
  | .registerWrite fn offset v => Sys2Proof.Machine.execRegisterWrite fn offset v s
  | .packageTick => Sys2Proof.Machine.execPackageTick s
  | .droopEnd cluster => Sys2Proof.Machine.execDroopEnd cluster s
  | .isscapModeWrite part v => Sys2Proof.Machine.execIsscapModeWrite part v s

end Sys2Proof.Machine
end

