-- ==== Sys2Proof/Machine/Uses.lean ====
section
/-! DEFINITION. Sys2Proof/Machine/Uses.lean: what a word reads and writes, for the invalid bits of Outrider state (R67) and for
uncorrectable errors of register files and map stores (R375). -/
namespace Sys2Proof.Machine

/-- Registers read and written: scalar, predicate, vector, map slots, side registers; `across`: a lane block's result
depends on every lane block; `block`: only on this one. -/
structure Uses where
  rs : List Nat := []
  rp : List Nat := []
  rv : List Nat := []
  slots : List Nat := []
  rside : Bool := false
  across : Bool := false
  block : Option Nat := none
  ws : List Nat := []
  wp : List Nat := []
  wv : List Nat := []
  wslots : List Nat := []
  wside : Bool := false

/-- `n` registers from `r` on. -/
def span (r n : Nat) : List Nat := (List.range n).map (r + ·)

/-- Class 000. -/
def s3Uses (op : Nat) (f : S3) : Uses :=
  let wide := bit f.ty 1
  let n := if wide then 2 else 1
  let a := if op = 0x11 then 0 else if op = 0x13 then 2 else if op = 0x12 then 1 else n
  let b := if f.bk ∨ op = 0x10 ∨ op = 0x14 ∨ op = 0x15 ∨ op = 0x16 ∨ op = 0x11 then 0
    else if op = 0x0A ∨ op = 0x0B ∨ op = 0x0C ∨ op = 0x12 ∨ op = 0x17 ∨ op = 0x18 then 1 else n
  let d := if op = 0x14 ∨ op = 0x15 ∨ 0x19 ≤ op then 1 else if op = 0x13 then 2 else n
  { rs := span f.sa.toNat a ++ span f.sb.toNat b ++ (if op = 0x0F ∨ op = 0x18 then span f.sd.toNat d else []),
    ws := span f.sd.toNat d }

/-- Source operands of a V3 word of classes 001 and 010, and its slots. -/
def v3Sources (f : V3) (a b c : Bool) (n : Nat) : Uses :=
  let reg := fun (v : BitVec 8) (kf : BitVec 4) => if kf != 0 then [v.toNat] else span v.toNat n
  { rv := (if a then reg f.va f.ka else []) ++ (if b && f.bk == 0 then reg f.vb f.kb else []) ++ (if c then reg f.vc f.kc else []),
    rs := if b then v3ScalarB f (n == 2) else [],
    slots := (v3Mapped f).map (·.2),
    rside := f.bk == 1 && f.vb == 0xFF }
/-- Class 001. -/
def vecUses (op : Nat) (f : V3) : Uses :=
  let n := if bit f.ty 1 then 2 else 1
  let alone := op == 0x4D || op == 0x4F || op == 0x52 || op == 0x53 || op == 0x54
  let u := v3Sources f (op != 0x50 && op != 0x51) (!alone) (op == 0x44 || op == 0x5C || op == 0x5D) n
  let u := if op = 0x4E then { u with rp := [f.vc.toNat] } else u
  if 0x56 ≤ op ∧ op ≤ 0x5B then { u with wp := [f.vd.toNat] }
  else { u with wv := span f.vd.toNat (if op = 0x52 ∨ op = 0x53 then 1 else n) }
/-- Class 010. -/
def floatUses (op : Nat) (f : V3) : Uses :=
  let n := if f.ty == 1 then 2 else 1
  let alone := op == 0x86 || op == 0x87 || op == 0x8F || (decide (0x91 ≤ op) && op != 0x96)
  let u := v3Sources f true (!alone) (op == 0x83) n
  if 0x88 ≤ op ∧ op ≤ 0x8E then { u with wp := [f.vd.toNat] }
  else if op = 0x97 ∨ op = 0x98 then
    { u with rside := true, wside := op == 0x97 || f.vc == 1, wv := [f.vd.toNat] }
  else { u with wv := span f.vd.toNat (if op = 0x96 then 2 * n else if op = 0x8F then 1 else n) }
/-- Class 011; `count` gives the elements of a format slot. -/
def crossUses (op : Nat) (f : V3) (count : Nat → Nat) : Uses :=
  let two := fun (b : Bool) => if b then 2 else 1
  let kind := f.vc.toNat
  match op with
  | 0xC0 => { v3Sources f true true false (two (f.ty == 2)) with wv := span f.vd.toNat (two (f.ty == 2)) }
  | 0xC1 | 0xC2 =>
    let n := two (redWide kind f.ty)
    { rv := span f.va.toNat n, wv := span f.vd.toNat n, across := bit f.rm 0 }
  | 0xC3 =>
    { rp := [f.va.toNat], across := true, wp := if f.rm.toNat < 2 then [f.vd.toNat] else [],
      wv := if f.rm.toNat < 2 then [] else [f.vd.toNat] }
  | 0xC4 =>
    let n := two (f.ty == 2)
    { rv := span f.va.toNat n, rs := v3ScalarB f (f.ty == 2), across := true, ws := span (field f.vd 0 6) n }
  | 0xC5 => { rs := v3ScalarB f false, wslots := [f.ka.toNat] }
  | 0xC6 => { wslots := [f.ka.toNat] }
  | 0xC7 => { slots := [f.ka.toNat], wv := [f.vd.toNat] }
  | 0xC8 => { slots := [f.kb.toNat], wslots := [f.ka.toNat] }
  | 0xC9 => { rv := span f.va.toNat (count kind), wv := [f.vd.toNat] }
  | 0xCA => { rv := [f.va.toNat], wv := span f.vd.toNat (count kind) }
  | 0xCB =>
    { rv := span f.va.toNat (two (kind == 0)) ++ (if fcvtHasB f.vc then [f.vb.toNat] else []),
      wv := span f.vd.toNat (two (kind == 1)) }
  | 0xCC => { rv := span f.va.toNat (two (kind == 1)), wv := span f.vd.toNat (two (bit f.ty 1)) }
  | _ => { rv := span f.va.toNat (two (bit f.ty 1)), wv := span f.vd.toNat (two (kind == 1)) }
/-- Classes 100 and 101. -/
def memUses (op : Nat) (f : MF) : Uses :=
  let addr : Uses :=
    if op = 0x144 then {}
    else { rs := addrScalars f,
           rv := (if f.am == 0 then span f.ma.toNat 2 else []) ++ (if f.am == 2 then [f.mx.toNat] else []) }
  let fleet := if f.spc == 2 then [6] else []
  let wide := f.sz == 3
  let n := if wide then 2 else 1
  let cmp := f.aop == 7
  match op with
  | 0x100 => { addr with wv := span f.md.toNat (dataRegs f.sz), wp := fleet }
  | 0x102 => { addr with ws := dataScalars f.md wide, wp := fleet }
  | 0x104 => { addr with wv := [f.md.toNat], wp := fleet }
  | 0x101 => { addr with rv := addr.rv ++ span f.md.toNat (dataRegs f.sz) }
  | 0x103 => { addr with rs := addr.rs ++ dataScalars f.md wide }
  | 0x105 => { addr with rv := addr.rv ++ [f.md.toNat] }
  | 0x107 => { addr with rs := addr.rs ++ [f.md.toNat] }
  | 0x108 => { addr with ws := [f.md.toNat] }
  | 0x140 => { addr with
      rv := addr.rv ++ span f.md.toNat n ++ (if cmp then span f.mx.toNat n else []), wv := span f.md.toNat n }
  | 0x141 => { addr with rv := addr.rv ++ span f.mx.toNat n }
  | 0x142 => { addr with
      rs := addr.rs ++ dataScalars f.md wide ++ (if cmp then dataScalars f.mx wide else []), ws := dataScalars f.md wide }
  | 0x143 => { addr with rs := addr.rs ++ dataScalars f.mx wide }
  | 0x146 => { addr with wv := [f.md.toNat] }
  | _ => addr
/-- Class 110, and `dlaunch`. -/
def engineUses (op : Nat) (f : EF) : Uses :=
  let dp := fun n => span f.dp.toNat n
  match op with
  | 0x180 => { rs := dp 4 ++ [f.cn.toNat], ws := [f.tk.toNat] }
  | 0x182 | 0x183 | 0x186 | 0x1D3 => { rs := dp 2 ++ [f.cn.toNat], ws := [f.tk.toNat] }
  | 0x185 => { rs := dp 2 ++ [f.cn.toNat], ws := [f.tk.toNat], wslots := [field f.var 0 4] }
  | 0x187 | 0x188 => {}
  | 0x18A => { rs := [f.cn.toNat], rv := if f.lineForm then [field f.var 0 8] else [] }
  | 0x18B => if f.lineForm then { rs := [f.cn.toNat], wv := [field f.var 0 8] } else { ws := [f.tk.toNat] }
  | _ => { rs := dp 2, ws := [f.tk.toNat] }
/-- Class 111. -/
def controlUses (op : Nat) (w : DWord) : Uses :=
  let r := field (BF.ofBits w).variant 20 6
  let y := YF.ofBits w
  let n := if y.sel == 8 || y.sel == 9 then 2 else 1
  match op with
  | 0x1C1 => { rs := span r 2 }
  | 0x1C2 => { ws := span r 2 }
  | 0x1C3 => { rs := span y.ya.toNat 2 }
  | 0x1CB => { rs := span y.ya.toNat 2 ++ [y.yb.toNat, y.yc.toNat] }
  | 0x1CC => { rs := span y.ya.toNat 2 }
  | 0x1CE => if y.yk == 1 then { wv := span y.ya.toNat n } else { ws := span y.ya.toNat n }
  | 0x1CF => { rs := [y.ya.toNat] }
  | 0x1D3 => engineUses op (EF.ofBits w)
  | _ => {}
/-- What a word that decodes uses. -/
def usesOf (w : DWord) (count : Nat → Nat) : Uses :=
  let op := opcodeOf w
  let u := match op / 64 with
    | 0 => s3Uses op (S3.ofBits w)
    | 1 => vecUses op (V3.ofBits w)
    | 2 => floatUses op (V3.ofBits w)
    | 3 => crossUses op (V3.ofBits w) count
    | 4 | 5 => memUses op (MF.ofBits w)
    | 6 => engineUses op (EF.ofBits w)
    | _ => controlUses op w
  { u with rp := (Pre.ofBits w).g.toNat :: u.rp }

/-- What a word of a team uses; `vtos` reads the lane block that holds its lane alone (R179). -/
def State.usesFor (s : State) (t : Team) (w : DWord) : Uses :=
  let u := usesOf w (fun n => (slotTag ((s.recOf t).fmtSlot n)).fmt.count)
  if opcodeOf w = 0xC4 then { u with across := false, block := some (vtosLane (V3.ofBits w) t / 32) } else u

/-! ## Uncorrectable errors (R375) -/

/-- The lanes an instruction acts in: those it stopped with, or those its guard gives now. -/
def Team.lanesOfWord (t : Team) (w : DWord) : Mask := match t.intr with | some i => i.act | none => t.guarded (Pre.ofBits w)
/-- A word would read a register or map slot with an uncorrectable error. -/
def State.readsBad (s : State) (t : Team) (w : DWord) (u : Uses) : Bool :=
  let act := t.lanesOfWord w
  t.bad.any (fun r => match r with
    | .p i => i == (Pre.ofBits w).g.toNat || (act != 0 && u.rp.contains i)
    | .s i => act != 0 && u.rs.contains i
    | .v r m => act != 0 && u.rv.contains r && (u.across || (match u.block with | some b => m == b | none => maskWord act m != 0))) ||
  (act != 0 && u.slots.any (fun n => (s.blockOf t).badSlots.contains n))
/-- The registers with an uncorrectable error after a word has written its own whole. -/
def Team.badAfter (t : Team) (w : DWord) (u : Uses) (bad : List RegPlace) : List RegPlace :=
  let act := t.lanesOfWord w
  bad.filter (fun r => match r with
    | .s i => !(act != 0 && u.ws.contains i)
    | .p i => !(act == t.all && u.wp.contains i)
    | .v r m => !(act != 0 && u.wv.contains r && maskWord act m == maskWord t.all m))

end Sys2Proof.Machine
end

