-- ==== Sys2Proof/Machine/Outrider.lean ====
section
/-! DEFINITION. Sys2Proof/Machine/Outrider.lean: one instruction issued in Outrider state (R65 to R69). What is performed is run
by `exec` on a copy of the part, of which the registers of R66 alone are kept. -/
namespace Sys2Proof.Machine

/-- How Outrider treats a word (R67, R68). -/
inductive Ahead where
  /-- Performed on the registers. -/
  | run
  /-- A load of memory: lines are prefetched, the destination is invalid. -/
  | load
  /-- Not performed: the destination is invalid. -/
  | skip
  /-- A branch: it ends Outrider when it depends on an invalid value or would diverge. -/
  | branch
  /-- Ends Outrider. -/
  | stop
deriving DecidableEq, Repr

/-- The treatment of an opcode; `spc` is the space of an M word. -/
def aheadOf (op spc : Nat) : Ahead :=
  if op < 0xC5 then .run
  else match op with
    | 0xC5 | 0xC6 | 0xC8 => .skip
    | 0x100 | 0x102 | 0x104 => if spc = 2 then .skip else if spc = 0 ∨ spc = 3 then .load else .run
    | 0x106 => .load
    | 0x108 => .run
    | 0x1C0 | 0x1C1 | 0x1C2 | 0x1C3 => .branch
    | 0x1C4 | 0x1C5 | 0x1C7 => .stop
    | 0x1C6 => .stop
    | 0x1CD | 0x1CE => .run
    | _ => if op < 0x100 then .run else .skip

/-- Mask words with an invalid source among the vector registers read. -/
def Outrider.badWords (o : Outrider) (u : Uses) (W : Nat) : List Nat :=
  (List.range W).filter (fun w => u.rv.any (fun r => o.invV.contains (32 * r + w)) || (u.rside && o.invSide.contains w))
/-- A source that serves every lane block is invalid. -/
def Outrider.badWhole (o : Outrider) (t : Team) (u : Uses) : Bool :=
  u.rs.any (fun r => o.invS.contains r || t.pendTok.contains r || (Tab.get? t.tokSig r).isSome) ||
  u.rp.any (fun r => o.invP.contains r) || u.slots.any (fun k => o.invSlot.contains k) ||
  (u.across && !(o.badWords u t.words).isEmpty) ||
  (match u.block with | some b => (o.badWords u t.words).contains b | none => false)
/-- Adds to a list, or takes from it. -/
def mark (l : List Nat) (bad : Bool) (ks : List Nat) : List Nat :=
  if bad then ks.foldl insertNew l else l.filter (fun x => !ks.contains x)
/-- The invalid bits after an instruction that is performed or passed over; a performed write clears the bit of a scalar and of a
lane block written in every lane, that of a predicate stays (R67, log 101): `words` are the mask words whose result is invalid, `whole` the mask words
written in every lane. -/
def Outrider.after (o : Outrider) (u : Uses) (bad : Bool) (words whole : List Nat) : Outrider :=
  let good := whole.filter (fun w => !words.contains w)
  let keys := fun (ws : List Nat) => u.wv.flatMap (fun r => ws.map (32 * r + ·))
  let o := { o with
    invS := mark o.invS bad (u.ws.filter (· != 0)),
    invP := if bad || !words.isEmpty then mark o.invP true (u.wp.filter (· != 7)) else o.invP,
    invV := mark (mark o.invV false (keys good)) true (keys words),
    invSlot := if bad then mark o.invSlot true u.wslots else o.invSlot }
  if u.wside then { o with invSide := mark (mark o.invSide false good) true words } else o
/-- The shadow rows that vector writes need: a row is copied on its first write (R66). -/
def Outrider.copied (o : Outrider) (u : Uses) (words : List Nat) : Outrider :=
  { o with shadow := (u.wv.flatMap (fun r => words.map (32 * r + ·))).foldl insertNew o.shadow }
/-- Shadow rows in use on a core. -/
def State.shadowRows (s : State) (c : Nat) : Nat :=
  s.teams.foldl (fun n e => if coreOf e.1 == c && !isSpilled e.1 then
    n + (match e.2.out with | some o => o.shadow.length | none => 0) else n) 0

/-- The words that the load of a word names by valid addresses, by virtual address; an access outside the leases, or whose translation fails, is
dropped (R67, R326); none for any other fault of an address, a fault condition (R68). A prefetch never faults, nor ends Outrider
(R227, R236). -/
def aheadWords (k : Nat) (t : Team) (s : State) (w : DWord) (act : Mask) : Option (List Nat) :=
  let f := MF.ofBits w
  let op := opcodeOf w
  let z := accessSize f
  let at_ := fun (z al : Nat) (a : DWord) => match resolve k t s f.spc.toNat false z al a with
    | .ok p => if op != 0x106 && p.shared && t.passed then none else some (accessVas k t s f.spc.toNat z a)
    | .error (.fault 2 _ _ _) => some []
    | .error (.fault 1 5 _ _) => some []
    | .error _ => if op = 0x106 then some [] else none
  let all := fun (l : List (Option (List Nat))) => (l.mapM id).map List.flatten
  if op = 0x102 then at_ z z (laneAddr f t z 0)
  else if op = 0x104 then all ((passesOf act t.words).map (fun m =>
    let a := chunkAddr f t m
    if a.toNat % 8 ≠ 0 then none else all ((List.range 34).map (fun i => at_ 4 4 (a + BitVec.ofNat 64 (4 * i))))))
  else all ((lanesOf act t.words).map (fun l => at_ z z (laneAddr f t z l)))

/-- Outrider ends (R68). -/
def State.endOutrider (s : State) (k : Nat) (t : Team) : State :=
  (s.setTeam k t.restore).setCore (coreOf k) ((s.core (coreOf k)).dropTeam k)
/-- The pipe is free after one instruction (R66), which OUTR counts. -/
def State.outriderDone (s : State) (k : Nat) (t : Team) : State :=
  let s := (s.setTeam k t).updPart t.part (fun p => { p with outr := p.outr + 1 })
  s.setCore (coreOf k) ((s.core (coreOf k)).dropTeam k)

/-- How an instruction run on a copy ends: Outrider ends, the access stalls on a scratch line, or the registers change. -/
inductive Ran where
  | ends
  | stalls
  | ran (t : Team)
/-- The registers of a team after an instruction run on a copy, when it left nothing else behind: no fault, trap, wait,
retired lane, stack entry or renumbering; `%fflags` does not change (R135). A scratch line that is not at hand stalls. -/
def kept (t u : Team) : Ran :=
  match u.wait with
  | some (.bank _) | some .region => .stalls
  | some _ => .ends
  | none =>
    if u.fault.isSome || u.pend != t.pend || u.tlanes != t.tlanes || u.retired != t.retired || u.stack != t.stack ||
        u.olane != t.olane || u.active != t.active then .ends
    else .ran { t with s := u.s, p := u.p, v := u.v, sides := u.sides, pc := u.pc }
/-- Runs an instruction on a copy, on the lanes given. -/
def State.runAhead (s : State) (k : Nat) (i : Instr) (t : Team) (act : Mask) : Ran :=
  let c := { t with out := none, wait := none, active := act, broke := false, pendTok := [], phase := 0, intr := none, did := 0, stopAt := none }
  match exec i ({ s with cur := some k }.setTeam k c) with
  | .next s' =>
    match s'.team? k with
    | none => .ends
    | some u =>
      match kept c u with
      | .ran x => .ran { t with s := x.s, p := x.p, v := x.v, sides := x.sides, pc := x.pc }
      | r => r
  | _ => .ends
/-- A word that decodes fails a check of R88 step 3 or of its operands, whatever its guard: run on a copy with no lane, it
faults. Slots that count as invalid are taken as set and of a fitting format: a mapped read of one gives an invalid destination
and ends nothing (R67, R184). -/
def State.checkFails (s : State) (k : Nat) (i : Instr) (t : Team) (lost : List Nat) (fmt : Fmt) : Bool :=
  let c := { t with out := none, wait := none, active := 0, phase := 0, intr := none, pend := none, broke := false, stack := [],
                    spilledEntries := 0 }
  let b := lost.foldl (fun (b : Block) n => b.writeSlot t.uid n { tag := plainTag fmt, set := true }) { s.blockOf t with dirty := [] }
  match exec i (({ s with cur := some k }.setBlock t.blk b).setTeam k c) with
  | .next s' => match s'.team? k with | some u => u.fault.isSome | none => false
  | _ => true

/-- Issues the word at the pc of a team in Outrider state. One whose guard is true in no active lane is passed over, a `join`, `sync` or
`regroup` too: it would change nothing (R68, R76, R125; Table 6-11 names no guard; log 128). -/
def State.outriderStep (s : State) (k : Nat) (t : Team) (o : Outrider) (w : DWord) (i : Instr) : State :=
  let op := opcodeOf w
  let u := s.usesFor t w
  let act := t.guarded (Pre.ofBits w)
  let bad := o.badWhole t u
  let words := if bad then passesOf act t.words else if u.block.isSome then []
    else (passesOf act t.words).filter (fun m => (o.badWords u t.words).contains m)
  let whole := (passesOf act t.words).filter (fun m => maskWord act m == maskWord t.all m)
  let next := fun (t : Team) (o : Outrider) => { t with pc := t.pc + 8, out := some o }
  let first := o.first
  let o := { o with first := false }
  let none_ := act == 0 && !bad
  let skipped := s.outriderDone k (next t (o.after u true (passesOf t.active t.words) []))
  let lanes := fun (m : Mask) => words.foldl (fun m w => m &&& ~~~(maskSpan (lanesBelow 1024) w (w + 1))) m
  let fmt := if op / 64 = 1 then Fmt.i32 else Fmt.f32
  if s.checkFails k i t (u.slots.filter (fun n => o.invSlot.contains n)) fmt || s.readsBad t w u then s.endOutrider k t
  else if none_ then s.outriderDone k (next t o)
  else match aheadOf op (MF.ofBits w).spc.toNat with
  | .stop => s.endOutrider k t
  | .skip => skipped
  | .load =>
    if first || bad then skipped
    else match aheadWords k t s w (lanes act) with
      | none => s.endOutrider k t
      | some ws =>
        let (s, lost) := s.prefetchWords k t.part (MF.ofBits w).evp.toNat ws
        s.outriderDone k { next t (o.after u true (passesOf t.active t.words) []) with score := t.scoreAfter lost }
  | .branch =>
    if bad then s.endOutrider k t
    else match s.runAhead k i t t.active with
      | .ran x =>
        let held := !(t.tokensPending u.ws).isEmpty
        s.outriderDone k { x with s := if held then t.s else x.s, out := some (o.after u held [] []) }
      | _ => s.endOutrider k t
  | .run =>
    if bad || !(t.tokensPending u.ws).isEmpty then skipped
    else
      let good := lanes t.active
      let o := (o.copied u (passesOf act t.words)).after u false words whole
      let rows := match t.out with | some x => x.shadow.length | none => 0
      if 256 < s.shadowRows (coreOf k) - rows + o.shadow.length then s.endOutrider k t
      else if good == 0 then s.outriderDone k (next t o)
      else match s.runAhead k i t good with
        | .ends => s.endOutrider k t
        | .stalls => skipped
        | .ran x => s.outriderDone k { x with out := some o }

/-- One issue of a team in Outrider state. It gives up the pipe to a team that is ready outside; a RESUME entry reached, a fetch or a
word that would fault, a breakpoint end it, a fetch refused at an edge counted there; it stays for a frozen instruction's wait (R33,
R66 to R68, R357). -/
def State.issueOutrider (s : State) (k : Nat) (t : Team) (o : Outrider) : State :=
  if s.pipeReady (coreOf k) (slotOf k % 2) then s.setCore (coreOf k) ((s.core (coreOf k)).dropTeam k)
  else if t.resumeDue || t.pend.isSome || (s.part t.part).breaksAt t.pc then s.endOutrider k t
  else match s.fetchWord k t with
    | .error (.fault _ _ _ edge) => (s.countRefusal edge).endOutrider k t
    | .error _ => s.endOutrider k t
    | .ok w =>
      if s.frozenNext k t then s
      else match decode w with
        | .error _ => s.endOutrider k t
        | .ok i => (s.keepCode k t).outriderStep k t o w i

end Sys2Proof.Machine
end

