-- ==== Sys2Proof/Machine/Issue.lean ====
section
/-! DEFINITION. Sys2Proof/Machine/Issue.lean: one issue of a pipe: the team whose run the pipe holds issues the instruction at
its pc, or takes the trap or the RESUME entry that comes first. -/
namespace Sys2Proof.Machine

/-- A step of the table run for a team. -/
def State.runAs (s : State) (k : Nat) (i : Instr) : Out :=
  match exec i { s with cur := some k } with
  | .next s' => .next { s' with cur := none }
  | .fault r => .fault r
  | .refused r => .refused r

/-- The cycles an issue takes: its passes, at least one (R41). -/
def Team.cycles (t : Team) : Nat := max 1 (passesOf t.active t.words).length

/-- A team that issues is not halted any more. -/
def Team.resumed (t : Team) : Team := if t.halted then { t with halted := false, awaitsBlock := false } else t
/-- A team halted in place issues again: its core invalidates for it and applies its C, and fetches its code anew, for the pages may
have moved (R89, R253, R347, R352). -/
def State.resume (s : State) (k : Nat) (t : Team) : State :=
  if t.halted then
    let s := (s.setTeam k t.resumed).acquire (coreOf k) t.carried
    s.setCore (coreOf k) { s.core (coreOf k) with icache := [] }
  else s

/-- What an instruction wrote whole holds no error any more, once it has completed (R375). -/
def mend (k : Nat) (t : Team) (w : DWord) (u : Uses) (r : Out) : Out :=
  if t.bad.isEmpty then r
  else match r with
    | .next s =>
      match s.team? k with
      | some x => if x.fault.isNone && x.wait.isNone && x.intr.isNone then .next (s.setTeam k { x with bad := t.badAfter w u x.bad })
        else r
      | none => r
    | r => r
/-- The word at the pc of a team is fetched, decoded and run; a register or map slot it reads with an uncorrectable error faults,
after the checks of the word itself (R88, R89, R335, R357, R375). -/
def State.issueWord (s : State) (k : Nat) (t : Team) (stopAt : Option Nat) : Out :=
  match s.fetchWord k t with
  | .error e => .next (settle k t s (.error e))
  | .ok w =>
    if (s.cluster (clusterOf (coreOf k))).reg.freezes && frozenKind w then .next s
    else match decode w with
      | .error _ => s.runAs k (.illegalInstruction w)
      | .ok i =>
        let u := s.usesFor t w
        let s := s.keepCode k t
        if s.readsBad t w u && !s.checkFails k i t [] .f32 then .next (s.raise k t 7 4 0 none)
        else mend k t w u ((s.setTeam k { t with stopAt := stopAt }).runAs k i)

/-- One issue of a team: in Outrider state R66; a pending trap with no lane left, a RESUME entry, a pending trap that is due,
and else the word at its pc (R58, R331, R332). -/
def State.issueTeam (s : State) (k : Nat) (t : Team) (stopAt : Option Nat) : Out :=
  match t.out with
  | some o => .next (s.issueOutrider k t o)
  | none =>
    if t.active == 0 && t.pend.isSome then s.runAs k .trapTaken
    else if t.resumeDue then s.runAs k .resumePop
    else if s.trapDue k t then s.runAs k .trapTaken
    else s.issueWord k t stopAt

/-- The team a pipe holds may issue now. -/
def State.mayIssue (s : State) (k : Nat) (t : Team) : Bool :=
  s.able k t && (t.wait.isNone || t.out.isSome)

/-- ONE ISSUE OF A PIPE. Its cycles count; `%cycle` is read as the instruction issues, before it moves on (R118). A pipe without a
team that may issue does nothing. -/
def State.issuePipe (s : State) (core pipe : Nat) (stopAt : Option Nat) : Out :=
  match ((s.core core).pipe pipe).team with
  | none => .next s
  | some k =>
    match s.team? k with
    | none => .next s
    | some t =>
      if !s.mayIssue k t then .next s
      else match ((s.countCycles core t.cycles).resume k t).issueTeam k t.resumed stopAt with
        | .next s' => .next (s'.addCycles core t.cycles)
        | r => r

end Sys2Proof.Machine
end

