-- ==== Sys2Proof/Machine/Schedule.lean ====
section
/-! DEFINITION. Sys2Proof/Machine/Schedule.lean: the order of moves the model takes when its agenda is empty (log 1): one
order of those the manual allows, in which every move that can be made is made in time. The agenda holds any other. -/
namespace Sys2Proof.Machine

/-- An operation of the part itself that changes its state now. -/
def State.effective (s : State) (i : Instr) : Bool :=
  match exec i s with
  | .next s' => s' != s
  | _ => false

/-- The channels of the cluster engines with a command, by kind of their first command that runs. -/
def State.transfers (s : State) : List Instr :=
  s.clusters.flatMap (fun c => c.2.channels.filterMap (fun ch =>
    match ch.2.find? s.cmdRuns with
    | none => none
    | some m => some (match m.kind with
      | .cpy .. => .cpyTransfer c.1 ch.1 []
      | .cpyt _ => .cpytTransfer c.1 ch.1 64
      | .lay _ => .layTransfer c.1 ch.1 64
      | .gat .. => .gatTransfer c.1 ch.1 64
      | .sct .. => .sctTransfer c.1 ch.1 64
      | .mapld .. => .mapldTransfer c.1 ch.1
      | .mapst .. => .mapstTransfer c.1 ch.1)))
/-- Operations for teams and caches: waits, fills, registrations, commit buffers, held slot writes. -/
def State.teamMoves (s : State) : List Instr :=
  List.flatten (α := Instr) [
    s.teams.flatMap (fun e => match e.2.wait with
    | some (.fill lines _ _) => lines.map (Instr.lineFillReturn (coreOf e.1))
    | some (.park ..) => [.parkTimeout e.1]
    | some _ => [.waitConditionMet e.1]
    | none => []),
    s.cores.flatMap (fun c => c.2.refills.map (fun r => .lineFillReturn c.1 r.line)),
    s.teams.map (fun e => .commitBufferDrain e.1),
    s.cores.flatMap (fun c => (List.range c.2.stores.length).map (Instr.storeRegistration c.1)),
    s.blocks.flatMap (fun b => (List.range b.2.heldWrites.length).map (Instr.slotWriteApply b.1)),
    s.blocks.flatMap (fun b => (b.2.tiles.filter (fun t => !t.2.exp && !t.2.live s.sample)).map (fun t => .sweepVisit b.1 t.1)),
    s.cores.map (fun c => .capEvaluation c.1)]
/-- Operations of clusters, edges and domains. -/
def State.unitMoves (s : State) : List Instr :=
  List.flatten (α := Instr) [
    s.clusters.map (fun c => .escldBind c.1),
    s.clusters.map (fun c => .escDoneProcess c.1),
    s.clusters.flatMap (fun c => c.2.banks.map (fun b => .bankModeChange c.1 b.1)),
    s.clusters.map (fun c => .stageTwoFreeze c.1),
    s.clusters.map (fun c => .freezeExpiry c.1),
    s.cores.flatMap (fun c => c.2.wd.map (fun w => .watchdogReport c.1 w.1)),
    s.edges.map (fun e => .dfwDrainComplete (e.1 / 4) (e.1 % 4)),
    s.domains.flatMap (fun d => [.sliceEnd d.1, .gangSliceStart d.1, .gangGraceExpiry d.1]),
    s.tasks.flatMap (fun t => t.2.gstate.flatMap (fun g => match g.2.done with
    | some d => d.clusters.map (Instr.clusterResume t.1 g.1)
    | none => []))]
/-- Slots for a latched queue: a free one; for a queue with a record that may proceed, one whose own queue has none. -/
def State.slotMoves (s : State) : List Nat :=
  (match s.freeSlot with | some i => [i] | none => []) ++
  (match s.nextLatched with
  | none => []
  | some (p, q, _) => if (s.recordReady p q).isNone then []
    else (s.hwSlots.filter (fun e => s.mayUnmap e.2 && (s.headReady e.2.part e.2.queue).isNone)).map (·.1))
/-- Operations of the Starter. -/
def State.starterMoves (s : State) : List Instr :=
  List.flatten (α := Instr) [
    s.parts.flatMap (fun p => [.partitionHalted p.1, .invalidationAck p.1 false, .invalidationAck p.1 true]),
    s.parts.flatMap (fun p => p.2.pnmap.map (fun q => .pendingNotifyTimeout p.1 q.1)),
    s.hwSlots.flatMap (fun h => [.launchRecord h.2.part h.2.queue, .evset h.2.part h.2.queue, .evclr h.2.part h.2.queue,
    .mark h.2.part h.2.queue, .unknownType h.2.part h.2.queue]),
    s.slotMoves.map Instr.slotRelease,
    s.launches.map (fun l => .leasePrewalk l.1),
    s.launches.map (fun l => .admission l.1),
    s.tasks.map (fun t => .taskFaultEnd t.1),
    s.tasks.map (fun t => .taskCommit t.1)]
/-- Everything a task's partition may claim. -/
def State.claims (s : State) (p : Nat) : List Claim :=
  (s.teams.filter (fun e => s.claimable p false e.1 e.2)).map (fun e => .team e.1) ++
  (s.blocks.filter (fun e => s.blockClaimable p e.1 e.2)).flatMap (fun e => [.slots e.1, .lines e.1]) ++
  (s.clusters.filter (fun c => match c.2.graph with
    | some g => (match s.task? g.task with | some tk => tk.part != p && !s.partRuns tk.part && !g.spilled | none => false)
    | none => false)).map (fun c => .counters c.1)
/-- Dispatch of blocks, without claims and with, and the return of spilled teams. -/
def State.placeMoves (s : State) : List Instr :=
  s.tasks.flatMap (fun t =>
    let dispatch := fun (s' : State) (claims : List Claim) => match s'.fittingGang t.1 t.2 with
      | some (p :: l) => [Instr.blockDispatch t.1 (p :: l) claims]
      | _ => []
    let lacking := fun (cl : Nat) => !s.banksReady t.2.lr cl || (t.2.lr.bindsEsc && !s.escServes t.1 cl)
    let cs := s.claims t.2.part
    let ask := ((s.part t.2.part).clusterList.filter lacking).map (fun cl =>
      Instr.blockDispatch t.1 (t.2.nextGang.map (fun b => (b, 32 * cl))) cs)
    match dispatch s [] with
    | [] => (if cs.isEmpty then [] else dispatch (s.claim t.2.part false cs) cs) ++ ask
    | l => l) ++
  (s.teams.filter (fun e => s.needsReload e.1 e.2)).map (fun e => .teamReload e.1)
/-- The first operation of the part that changes its state. -/
def State.ownMove (s : State) : Option Instr :=
  (s.teamMoves ++ s.transfers ++ s.unitMoves ++ s.starterMoves ++ s.placeMoves).find? s.effective

/-- The move of a pipe: its team issues, or a run is chosen. -/
def State.pipeMove (s : State) (core pipe : Nat) : Option Move :=
  match ((s.core core).pipe pipe).team with
  | none => if (s.nextRun core pipe).isSome then some (.event (.runArbitration core pipe)) else none
  | some k =>
    match s.team? k with
    | none => none
    | some t => if s.mayIssue k t && !s.frozenNext k t then some (.issue core pipe none) else none
/-- A core whose cycles count: it holds a team or a count of progress-free cycles, or it stands for its cluster's Regulator. -/
def State.coreTicks (s : State) (c : Nat) : Bool :=
  s.teams.any (fun e => !isSpilled e.1 && coreOf e.1 == c) || !(s.core c).wd.isEmpty ||
  (c % 32 == 0 && (s.cluster (clusterOf c)).reg != {})
/-- Places of the round: the pipes, the cycles of the cores, the package tick. -/
def roundLength : Nat := 3 * Config.cores + 1
/-- The move at a place of the round. -/
def State.moveAt (s : State) (n : Nat) : Option Move :=
  if n < 2 * Config.cores then s.pipeMove (n / 2) (n % 2)
  else if n < 3 * Config.cores then
    (if s.coreTicks (n - 2 * Config.cores) then some (.cycles (n - 2 * Config.cores) 1) else none)
  else some (.event .packageTick)
/-- The first place from `n` on with a move, and the place after it. -/
def State.scan (s : State) : Nat → Nat → Move × Nat
  | 0, _ => (.event .packageTick, 0)
  | m + 1, n =>
    match s.moveAt n with
    | some x => (x, (n + 1) % roundLength)
    | none => s.scan m (n + 1)

/-- The move the model makes with an empty agenda, and the place of the round after it: at power-on the boot, then what the
part does by itself, then the round. -/
def State.nextMove (s : State) : Move × Nat :=
  if s.boot = .rom then (.event .coldReset, 0)
  else match s.ownMove with
    | some i => (.event i, s.turn)
    | none => s.scan roundLength s.turn

end Sys2Proof.Machine
end

