-- ==== Sys2Proof/Machine/Load.lean ====
section
/-! DEFINITION. Sys2Proof/Machine/Load.lean: one move of the part, and the placing of one instruction word where the next
move issues it (log 29): a task of one block with one team, as the Starter would have dispatched it. -/
namespace Sys2Proof.Machine

/-- Makes one move. An event that names an instruction of a word, which only an issue can run, does nothing. -/
def State.make (s : State) (m : Move) : Out :=
  match m with
  | .event i => match exec i { s with cur := none } with
    | .fault .noIssuingTeam => .next s
    | r => r
  | .issue core pipe stopAt => s.issuePipe core pipe stopAt
  | .cycles core n => .next (s.passCycles core n)
  | .dropCode core line => .next (s.dropCode core line)

/-- The next move: the agenda's first, else the model's own choice; the model's moments are counted. -/
def State.advance (s : State) : Out :=
  match s.agenda with
  | m :: rest => { s with agenda := rest, moment := s.moment + 1 }.make m
  | [] => { s with turn := s.nextMove.2, moment := s.moment + 1 }.make s.nextMove.1

/-- The address the word is placed at, virtual and physical. -/
def loadAddr : Nat := 0x10000
/-- The launch of the placed word: one block, one team of 32 lanes, private areas, an undo area and a trap handler of its own. -/
def loadRec : Rec :=
  { entry := BitVec.ofNat 64 loadAddr, regs := 255, maps := 4, scratch := 4096, privBase := 0x1000000, privSize := 0xA000,
    trapVec := 0x20000, undo := 0x2000000, vbudget := 0x100000 }
/-- Its task: one lease of 256 MiB and one pinned page of 1 GiB at address 0. -/
def loadTask (key : Nat) : Task :=
  { part := 0, id := 1, lr := loadRec, leases := [{ base := 0, len := 0x10000000, rw := true }],
    pins := [{ va := 0, size := 0x40000000, dpa := 0, w := true, gpas := [(0, 0x40000000)] }], root := key, dispatched := [0] }
/-- Its team, in slot 0 of core 0. -/
def loadTeam (key uid now : Nat) : Team :=
  { startTeam (loadTask key) key uid 0 0 0 now with started := true }

/-- Places a word so that the next move issues it on pipe A of core 0. -/
def State.loadWord (s : State) (w : DWord) : State :=
  let key := s.nextKey
  let s := (s.poke (loadAddr / 4) (w.setWidth 32)).poke (loadAddr / 4 + 1) (w.extractLsb' 32 32)
  let s := s.dropCode 0 (loadAddr / 128)
  let s := s.updPart 0 (fun p => { p with ncl := max 1 p.ncl, window := p.window ||| 1, haltBit := false, haltedBit := false,
                                          sliceOff := false, bkpt := [] })
  let s := s.setTask key (loadTask key)
  let s := s.setBlock 0 { task := key, block := 0, core := 0, banks := [(0, 32)] }
  let s := s.setTeam 0 (loadTeam key key s.moment)
  let s := s.setCore 0 ((s.core 0).setPipe 0 { team := some 0 })
  let c := s.cluster 0
  let s := s.setCluster 0 { c.setBank 0 { req := .scratch, mode := .scratch } with reg := {} }
  { s with nextKey := key + 1, throttled := s.throttled.filter (fun e => e.1 != 0), agenda := .issue 0 0 none :: s.agenda }

end Sys2Proof.Machine
end

