-- ==== Sys2Proof/Machine/Step.lean ====
section
/-! DEFINITION. Sys2Proof/Machine/Step.lean: one step of the part. -/
namespace Sys2Proof.Machine

/-- One step: the next move of the part. -/
def step (s : State) : Host.Outcome State Fault Refusal := s.advance

/-- `s` with the instruction of the given bits where the next step issues it: one 64-bit word (R74), least byte first (R4). -/
def State.withFetchWord (s : State) (nbits w : Nat) : State := s.loadWord (BitVec.ofNat 64 (w % 2 ^ nbits))

end Sys2Proof.Machine
end

