-- ==== Sys2Proof/Safety.lean ====
section
/-! DEFINITION. Sys2Proof/Safety.lean: the terms claims are stated in: the canonical memory, a team that issues, an
instruction that retires, what it leaves alone. -/
namespace Sys2Proof.Machine

/-- Device memory, this part's and each peer's, is in canonical form. -/
def State.memoryWf (s : State) : Bool := Memory.wf s.mem && s.peers.all (fun e => Memory.wf e.2.mem)

/-- Team `k`, which is `t`, issues from its beginning an instruction at whose address no breakpoint stands, none of it performed before
a trap; no token it knows of is pending or unread. -/
structure Issues (s : State) (k : Nat) (t : Team) : Prop where
  cur : s.cur = some k
  here : s.team? k = some t
  first : t.phase = 0
  whole : t.intr = none
  new : t.did = 0
  through : t.stopAt = none
  noPending : t.pendTok = []
  noUnread : t.tokSig = []
  noBreak : (s.part t.part).breaksAt t.pc = false

/-- Team `k`, which is `t`, goes on with an instruction that pre-emption stopped between two passes, `i` its place (R183). -/
structure Resumes (s : State) (k : Nat) (t : Team) (i : Intr) : Prop where
  cur : s.cur = some k
  here : s.team? k = some t
  first : t.phase = 0
  stopped : t.intr = some i
  through : t.stopAt = none
  lanes : i.act ≠ 0
  noTrap : i.trap = 0 ∧ i.flags = 0
  noPending : t.pendTok = []
  noUnread : t.tokSig = []
  noBreak : (s.part t.part).breaksAt t.pc = false

/-- The guard of an instruction is true in an active lane (R76). -/
def acts (p : Pre) (t : Team) : Prop := t.guarded p ≠ 0

/-- A team after its instruction, going on at `pc` (R42); `did` are the lanes that have performed the instruction there (R332). -/
def Team.after (u : Team) (pc : DWord) (did : Mask := 0) : Team :=
  { u with pc := pc, phase := 0, fills := [], gather := 0, intr := none, did := did, pix := 0, stopAt := none, wait := none, broke := false,
           started := true }

/-- The part after an instruction of team `k` retires: `u` is the team with the instruction's effect, `boundary` whether
its run ends there (R43). INSTR counts it (R364), the partition's progress is noted (R363). -/
def State.retireAt (s : State) (k : Nat) (u : Team) (pc : DWord) (boundary : Bool) (did : Mask := 0) : State :=
  (((s.updPart u.part (fun p => { p with instr := p.instr + 1 })).progress (coreOf k) u.part).setTeam k
    (u.after pc did)).runStep k boundary
/-- The same, going on at the next word. -/
def State.retire (s : State) (k : Nat) (p : Pre) (u : Team) : State := s.retireAt k u (u.pc + 8) p.run

/-- A team after an instruction at an enabled breakpoint address: `u` is the team with its effect. The lanes active after it join
the lanes that trap (R329, R330). -/
def breakpointed (t u : Team) : Team :=
  if t.entered = true ∨ t.tlanes = 0 then
    { u with active := 0, tlanes := u.active, tcause := causeBreak, entered := false,
             pend := some { at_ := t.active, succ := t.pc + 8 } }
  else { u with active := 0, tlanes := t.tlanes ||| u.active }

/-- Two states of one part that differ in team `k`, its core and its partition `p` alone: of the partition in INSTR, of the core
not in the stores it queues. Every other team, core and partition, and every other field of the state, is the same. -/
structure SameButCore (k p : Nat) (s s' : State) : Prop where
  fields : s' = { s with teams := s'.teams, cores := s'.cores, parts := s'.parts }
  teams : ∀ j, j ≠ k → s'.team? j = s.team? j
  cores : ∀ c, c ≠ coreOf k → s'.core c = s.core c
  stores : (s'.core (coreOf k)).stores = (s.core (coreOf k)).stores
  views : ∀ c w, s'.viewWord c w = s.viewWord c w
  parts : ∀ q, q ≠ p → s'.part q = s.part q
  part : s'.part p = { s.part p with instr := (s'.part p).instr }
/-- The same, and of the core the pipes and the progress-free counts alone differ (R46, R363). -/
structure SameButTeam (k p : Nat) (s s' : State) : Prop extends SameButCore k p s s' where
  core : s'.core (coreOf k) =
    { s.core (coreOf k) with
      pipeA := (s'.core (coreOf k)).pipeA, pipeB := (s'.core (coreOf k)).pipeB, wd := (s'.core (coreOf k)).wd }

/-- The value that the youngest of a core's queued stores to a word gives it. -/
def lastStored (l : List PStore) (w : Nat) : Option Word :=
  ((l.flatMap (·.words)).reverse.find? (fun e => e.1 == w)).map (·.2)
/-- No core has a queued store to a word. -/
def State.unstored (s : State) (w : Nat) : Prop := ∀ c, ∀ p ∈ (s.core c).stores, ∀ e ∈ p.words, e.1 ≠ w

/-- What a load leaves alone (R223, R242): of its team every field but the registers, pc, the end of its run and, with an acquire,
the carried signature; without one everything that `SameButCore` names; with one blocks stay, and homes, owners, signatures,
versions and other teams are as the registration of the stores it is ordered after leaves them, caches and counters aside. -/
structure LoadFrame (k : Nat) (t : Team) (acquire : Bool) (ws : List Nat) (s s' : State) : Prop where
  team : ∃ v, s'.team? k = some v ∧ v =
    ({ t with s := v.s, p := v.p, v := v.v, carried := v.carried, runEnd := v.runEnd } : Team).after (t.pc + 8) ∧
    (acquire = false → v.carried = t.carried)
  plain : acquire = false → SameButCore k t.part s s'
  ordered : acquire = true →
    s' = { s.ordered k ws with
      cores := s'.cores, clusters := s'.clusters, teams := s'.teams, parts := s'.parts, fresh := s'.fresh } ∧
    (∀ j, j ≠ k → s'.team? j = (s.ordered k ws).team? j) ∧ (∀ c, (s'.core c).stores = ((s.ordered k ws).core c).stores) ∧
    s'.blocks = s.blocks ∧ ∀ w, s.unstored w → s'.peek w = s.peek w

/-- The lanes an instruction acts on: of the active mask, those whose guard is true, in the team's mask words (R41, R76). -/
def Team.acting (t : Team) (p : Pre) : Mask := maskSpan (t.guarded p) 0 t.words

/-! ## The results of class 000, at width `w`, from the patterns of the sources (Table 6-3, R100, R101) -/

/-- `smulh`: the high half of the product of twice the width. -/
def highHalf (w : Nat) (signed : Bool) (a b : BitVec w) : BitVec w :=
  if signed then (a.signExtend (2 * w) * b.signExtend (2 * w)).extractLsb' w w
  else (a.setWidth (2 * w) * b.setWidth (2 * w)).extractLsb' w w
/-- `sdiv`: all ones for a zero divisor, else the quotient toward zero. -/
def quotient (w : Nat) (signed : Bool) (a b : BitVec w) : BitVec w :=
  if b = 0 then BitVec.allOnes w else if signed then a.sdiv b else a.udiv b
/-- `srem`: a for a zero divisor, else the remainder with the sign of a. -/
def remainder (w : Nat) (signed : Bool) (a b : BitVec w) : BitVec w :=
  if b = 0 then a else if signed then a.srem b else a.umod b
/-- `smin` and `smax`. -/
def lesser (w : Nat) (signed : Bool) (a b : BitVec w) : BitVec w :=
  if (if signed then a.sle b else a.ule b) then a else b
def greater (w : Nat) (signed : Bool) (a b : BitVec w) : BitVec w :=
  if (if signed then b.sle a else b.ule a) then a else b
/-- `sbfx` under a control word: pos in bits 5:0, len in bits 13:8, 0 for the rest of the word. -/
def extractField (w : Nat) (signed : Bool) (a : BitVec w) (c : Word) : BitVec w :=
  let pos := field c 0 6
  let len := if field c 8 6 = 0 then w - pos else field c 8 6
  if signed then ((a.signExtend 192).extractLsb' pos len).signExtend w else ((a.setWidth 192).extractLsb' pos len).setWidth w
/-- `sbfi`: the field of the old destination replaced. -/
def insertField (w : Nat) (old a : BitVec w) (c : Word) : BitVec w :=
  let pos := field c 0 6
  let len := if field c 8 6 = 0 then w - pos else field c 8 6
  let m := (BitVec.allOnes len).setWidth w <<< pos
  (old &&& ~~~m) ||| ((a <<< pos) &&& m)
/-- A truth value as a word. -/
def truth (b : Bool) : Word := if b then 1 else 0
/-- `scmp`: a is less than b in the type's reading. -/
def below (w : Nat) (signed : Bool) (a b : BitVec w) : Bool := if signed then a.slt b else a.ult b
/-- The number of bits of a pattern that are 1. -/
def onesOf (w : Nat) (a : BitVec w) : Nat := ((List.range w).filter a.getLsbD).length
/-- The number of bits above the highest that is 1, all when none is. -/
def leadingZeros (w : Nat) (a : BitVec w) : Nat :=
  match (List.range w).find? (fun i => a.getMsbD i) with
  | some i => i
  | none => w

/-- Source b of an S3 word at a width: the register, or imm8 extended by its sign or by zeros (R79, R98). -/
def scalarB (w : Nat) (signed : Bool) (f : S3) (reg : BitVec w) : BitVec w :=
  if f.bk then (if signed then f.imm.signExtend w else f.imm.setWidth w) else reg
/-- No register field of a 64-bit form that Table 6-3 calls a pair is odd (R85). -/
def evenPairs (f : S3) (d a b : Bool) : Prop :=
  bit f.ty 1 = true → (d = true → bit f.sd 0 = false) ∧ (a = true → bit f.sa 0 = false) ∧
    (b = true → f.bk = false → bit f.sb 0 = false)

/-- The scalar instructions of two sources of one width: whether an immediate has a sign, and the operation (Table 6-3). -/
def scalarTwo : List ((S3 → Instr) × Bool × ((w : Nat) → Bool → BitVec w → BitVec w → BitVec w)) :=
  [(.sadd, true, fun _ _ a b => a + b), (.ssub, true, fun _ _ a b => a - b), (.smul, true, fun _ _ a b => a * b),
   (.smulh, true, highHalf), (.sdiv, true, quotient), (.srem, true, remainder), (.sand, false, fun _ _ a b => a &&& b),
   (.sor, false, fun _ _ a b => a ||| b), (.sxor, false, fun _ _ a b => a ^^^ b), (.smin, true, lesser), (.smax, true, greater)]
/-- A team with the result of one of them: `signed` is whether an immediate has a sign, `op` the operation. -/
def Team.scalarResult (t : Team) (f : S3) (signed : Bool) (op : (w : Nat) → Bool → BitVec w → BitVec w → BitVec w) : Team :=
  if bit f.ty 1 then t.ws2 f.sd.toNat (op 64 (!bit f.ty 0) (t.rs2 f.sa.toNat) (scalarB 64 signed f (t.rs2 f.sb.toNat)))
  else t.ws f.sd.toNat (op 32 (!bit f.ty 0) (t.rs f.sa.toNat) (scalarB 32 signed f (t.rs f.sb.toNat)))

/-- An instruction of class 000 and its operands: which of d, a and b are pairs at 64 bits, whether there is a b (Table 6-3). -/
structure ScalarForm where
  ins : S3 → Instr
  d : Bool := true
  a : Bool := true
  b : Bool := true
  hasB : Bool := true
/-- Class 000 but for `smovi`, of no source, and `slea`, whose destination and first source are pairs at every type. -/
def scalarForms : List ScalarForm :=
  [{ ins := .sadd }, { ins := .ssub }, { ins := .smul }, { ins := .smulh }, { ins := .sdiv }, { ins := .srem },
   { ins := .sand }, { ins := .sor }, { ins := .sxor }, { ins := .smin }, { ins := .smax }, { ins := .ssel },
   { ins := .sshl, b := false }, { ins := .sshr, b := false }, { ins := .ssra, b := false }, { ins := .sbfx, b := false },
   { ins := .sbfi, b := false }, { ins := .scmpEq, d := false }, { ins := .scmpNe, d := false }, { ins := .scmpLt, d := false },
   { ins := .scmpLe, d := false }, { ins := .scmpGt, d := false }, { ins := .scmpGe, d := false },
   { ins := .smov, hasB := false }, { ins := .sbrev, hasB := false }, { ins := .spopc, d := false, hasB := false },
   { ins := .sclz, d := false, hasB := false }, { ins := .sldk, a := false, b := false }]
/-- Its pairs are named by even registers (R85). -/
def ScalarForm.even (x : ScalarForm) (f : S3) : Prop := evenPairs f x.d x.a (x.b && x.hasB)
/-- The scalar registers it reads and writes (R259). -/
def ScalarForm.regs (x : ScalarForm) (f : S3) : List Nat :=
  s3Regs (x.a && bit f.ty 1) f.sa ++ (if x.hasB && !f.bk then s3Regs (x.b && bit f.ty 1) f.sb else []) ++
    s3Regs (x.d && bit f.ty 1) f.sd

/-! ## The lanes of class 001, at width `w` (Table 9-3, R144, R155, R160) -/

/-- Source a and source c of a lane: the register's pattern, or P(n) mod 2^32 of the map slot named. -/
def laneA (w k : Nat) (t : Team) (s : State) (f : V3) (l : Nat) : BitVec w :=
  BitVec.ofNat w (intSource k t s (t.guarded f.pre) (bit f.ty 1) f.va f.ka l)
def laneC (w k : Nat) (t : Team) (s : State) (f : V3) (l : Nat) : BitVec w :=
  BitVec.ofNat w (intSource k t s (t.guarded f.pre) (bit f.ty 1) f.vc f.kc l)
/-- Source b of a lane: vector, scalar, or the immediate extended by its sign or by zeros (Tables 5-3 and 5-5). -/
def laneB (w k : Nat) (signed : Bool) (t : Team) (s : State) (f : V3) (l : Nat) : BitVec w :=
  if f.bk = 0 then BitVec.ofNat w (intSource k t s (t.guarded f.pre) (bit f.ty 1) f.vb f.kb l)
  else if f.bk = 1 then
    (if bit f.ty 1 then (t.rs2 (field f.vb 0 6)).setWidth w else (t.rs (field f.vb 0 6)).setWidth w)
  else if signed then f.vb.signExtend w else f.vb.setWidth w
/-- The operands of a V3 word are accepted, and the tags of its mapped sources match (R85, R88, R148, R153). -/
def accepted (f : V3) (sp : VSpec) (k : Nat) (t : Team) (s : State) : Prop :=
  v3Check f sp k t s = .ok () ∧ v3CheckTags f k (t.guarded f.pre) t s = .ok ()
/-- A team with integer results in the lanes of a mask: a register, or a pair for a 64-bit type; plain i32 tag (R151). -/
def Team.withIntsOn (t : Team) (f : V3) (m : Mask) (wide : Bool) (g : (w : Nat) → Nat → BitVec w) : Team :=
  if wide then t.wlanes2 f.vd.toNat m (plainTag .i32) (g 64) else t.wlanes f.vd.toNat m (plainTag .i32) (g 32)
/-- The same in the lanes that act. -/
def Team.withInts (t : Team) (f : V3) (wide : Bool) (g : (w : Nat) → Nat → BitVec w) : Team :=
  t.withIntsOn f (t.acting f.pre) wide g
/-- The vector instructions of two sources: whether source b may be mapped, whether an immediate has a sign, the operation
(Table 9-3, R155). -/
def vectorTwo : List ((V3 → Instr) × Bool × Bool × ((w : Nat) → Bool → BitVec w → BitVec w → BitVec w)) :=
  [(.vadd, true, true, fun _ _ a b => a + b), (.vsub, true, true, fun _ _ a b => a - b),
   (.vmul, true, true, fun _ _ a b => a * b), (.vmulh, true, true, highHalf), (.vand, true, false, fun _ _ a b => a &&& b),
   (.vor, true, false, fun _ _ a b => a ||| b), (.vxor, true, false, fun _ _ a b => a ^^^ b), (.vmin, true, true, lesser),
   (.vmax, true, true, greater), (.vshl, false, false, fun w _ a b => a <<< (b.toNat % w)),
   (.vshr, false, false, fun w _ a b => a >>> (b.toNat % w)), (.vsra, false, false, fun w _ a b => a.sshiftRight (b.toNat % w))]
/-- What one of them accepts: `mapB` whether source b may be mapped. -/
def twoSpec (mapB : Bool) : VSpec := { bks := [0, 1, 2], mapA := true, mapB := mapB, intClass := true }
/-- The sum of the products of the `n` packed signed fields of `ew` bits (R163). -/
def dotProduct (n ew : Nat) (a b : Word) : Word :=
  (List.range n).foldl (fun x e =>
    x + (a.extractLsb' (ew * e) ew).signExtend 32 * (b.extractLsb' (ew * e) ew).signExtend 32) 0

/-! ## The lanes of class 010 (Table 9-4, R143 to R147, R164) -/

/-- No flag of `%fflags` traps (R135, TEN of Table 3-7). -/
def trapsOff (t : Team) : Prop := t.fmode.setWidth 5 = (0 : Flags)
/-- A team with the flags of the lanes of a mask recorded (R135). -/
def Team.withFlags (t : Team) (m : Mask) (fl : Nat → Flags) : Team :=
  { t with fflags := t.fflags ||| (flagUnion (lanesOf m t.words) fl).setWidth 32 }
/-- The lanes of a mask that raise a flag that traps, and those flags (R135). -/
def Team.trapping (t : Team) (m : Mask) (fl : Nat → Flags) : Mask :=
  maskOf ((lanesOf m t.words).filter (fun l => fl l &&& (t.fmode.setWidth 5 : Flags) != 0))
def Team.trapFlags (t : Team) (m : Mask) (fl : Nat → Flags) : Flags :=
  flagUnion (lanesOf m t.words) (fun l => fl l &&& (t.fmode.setWidth 5 : Flags))
/-- A pending trap finds its point: lanes that trap already wait with theirs, or none do (R329, R332). -/
def trapReady (t : Team) : Prop := t.entered = true ∨ t.tlanes = 0 ∨ t.pend ≠ none
/-- The team `u`, which is `t` with the effect of its instruction, once lanes `x` of it trap: they leave the active mask and join
`%tlanes`; the first to do so, or the first after a trap was entered, give the cause and the point of the pending trap (R329). -/
def Team.joins (t u : Team) (x : Mask) (cause : Word) : Team :=
  if x = 0 then u
  else if t.entered = true ∨ t.tlanes = 0 then
    { u with active := u.active &&& ~~~x, tlanes := x, tcause := cause, entered := false,
             pend := some { at_ := t.active, succ := t.pc + 8 } }
  else { u with active := u.active &&& ~~~x, tlanes := t.tlanes ||| x }
/-- The team `u`, which is `t` with results, with the flags of the lanes of a mask recorded, those lanes trapping that raise a flag
whose TEN bit is set (R135, R329). -/
def Team.flagged (t u : Team) (m : Mask) (fl : Nat → Flags) : Team :=
  t.joins (u.withFlags m fl) (t.trapping m fl) (causeFloat (t.trapFlags m fl))
/-- A team with results in the lanes that act, a pair where the destination is one, and their flags recorded. -/
def Team.withFloats (t : Team) (f : V3) (wide : Bool) (tag : Tag) (r : Nat → FRes) : Team :=
  (writeFloat t wide f.vd.toNat (t.acting f.pre) tag (fun l => (r l).bits)).withFlags (t.acting f.pre) (fun l => (r l).flags)

/-- The same, the lanes that raise a flag whose TEN bit is set trapping. -/
def Team.withFloatTraps (t : Team) (f : V3) (wide : Bool) (tag : Tag) (r : Nat → FRes) : Team :=
  t.flagged (writeFloat t wide f.vd.toNat (t.acting f.pre) tag (fun l => (r l).bits)) (t.acting f.pre) (fun l => (r l).flags)

/-- An instruction of class 010 that computes each lane from sources a, b and c: what it accepts, the tag it writes, its
operation (Table 9-4). -/
structure FloatRule where
  ins : V3 → Instr
  spec : VSpec
  tag : Tag
  lane : Opnd → Opnd → Opnd → FRes
/-- Table 9-4, but for compares and the three instructions of R170 to R172. -/
def floatRules (f : V3) : List FloatRule :=
  let two : VSpec := { rms := anyRm, bks := [0, 1, 2], mapA := true, mapB := true }
  let F := tyFloat f.ty
  let one := fun (ins : V3 → Instr) (g : FV → FRes) => FloatRule.mk ins { tys := [0] } (tyTag f.ty) (fun a _ _ => g (summand binary32 a))
  [⟨.fadd, two, tyTag f.ty, byHalves f.ty (laneAdd false f.rm)⟩, ⟨.fsub, two, tyTag f.ty, byHalves f.ty (laneAdd true f.rm)⟩,
   ⟨.fmul, { two with rsf := f.ty == 0 }, tyTag f.ty, byHalves f.ty (laneMul f.rm)⟩,
   ⟨.ffma, { two with c := true, mapC := true }, tyTag f.ty, byHalves f.ty (laneFma f.rm)⟩,
   ⟨.fmin, { two with rms := [0] }, tyTag f.ty, byHalves f.ty (laneMinMax false)⟩,
   ⟨.fmax, { two with rms := [0] }, tyTag f.ty, byHalves f.ty (laneMinMax true)⟩,
   ⟨.fabs, {}, tyTag f.ty, byHalves f.ty (laneSign false)⟩, ⟨.fneg, {}, tyTag f.ty, byHalves f.ty (laneSign true)⟩,
   ⟨.fdiv, { tys := [0, 1], rms := anyRm, bks := [0, 1, 2] }, tyTag f.ty, fun a b _ => F.divR f.rm (summand F a) (summand F b)⟩,
   ⟨.fsqrt, { tys := [0, 1], rms := anyRm }, tyTag f.ty, fun a _ _ => F.sqrtR f.rm (summand F a)⟩,
   ⟨.fclass, { tys := [0, 1], wideD := false }, plainTag .i32,
     fun a _ _ => { bits := (F.classBits (ordinary F a).bits).toNat }⟩,
   one .frcp frcpR, one .frsq frsqR, one .fexp2 fexp2R, one .flog2 flog2R]
/-- The result of a rule in a lane of a word, with its sources as the word names them. -/
def FloatRule.at (r : FloatRule) (f : V3) (k : Nat) (t : Team) (s : State) (l : Nat) : FRes :=
  r.lane (floatSource k t s (t.guarded f.pre) (f.ty == 1) f.va f.ka l)
    (if r.spec.bks.isEmpty then .bits 0 else v3FloatB f k t s (t.guarded f.pre) l)
    (if r.spec.c then floatSource k t s (t.guarded f.pre) (f.ty == 1) f.vc f.kc l else .bits 0)

/-! ## Cross-lane instructions (Table 9-7) -/

/-- No map field is used (R173). -/
def noMapFields (f : V3) : Prop := f.ka = 0 ∧ f.kb = 0 ∧ f.kc = 0
/-- Registers of a V3 operand exist, aligned to their number (R85). -/
def inFile (t : Team) (s : State) (reg : BitVec 8) (n : Nat) : Prop := (s.recOf t).vecOk reg.toNat n n = true
/-- Slot k`n` is in the block's window (R85, R157). -/
def inMapWindow (t : Team) (s : State) (n : BitVec 4) : Prop := n ≠ 0 ∧ n.toNat ≤ (s.recOf t).maps
/-- A scalar or immediate source b, an even register where it is a pair (Table 5-13). -/
def uniformB (f : V3) (wide : Bool) : Prop :=
  f.bk = 2 ∨ (f.bk = 1 ∧ f.vb ≠ 0xFF ∧ (wide = true → bit f.vb 0 = false))

/-! ## What the words of each format accept, whatever their guard (R85, R88, Table 5-13), but for those of `scalarForms`, `vectorTwo`
and `floatRules` and for `bra`, `brx`, `call` and `ret` -/

/-- Class 000: `smovi` takes an immediate, and every pair is even. -/
def acceptedS3 (f : S3) : List (Instr × Prop) :=
  [(.smovi f, f.bk = true ∧ (bit f.ty 1 = true → bit f.sd 0 = false)),
   (.slea f, bit f.sd 0 = false ∧ bit f.sa 0 = false ∧ (bit f.ty 1 = true → f.bk = false → bit f.sb 0 = false))]
/-- Classes 001 to 011: the field values, the registers and slots they name, and the parameters of their kinds. -/
def acceptedV3 (f : V3) (k : Nat) (t : Team) (s : State) : List (Instr × Prop) :=
  let float := fun (sp : VSpec) => v3Check f sp k t s = .ok ()
  let int := fun (sp : VSpec) => v3Check f { sp with intClass := true } k t s = .ok ()
  let conv := fun rms d a b => convCheck f rms d a b t s = .ok ()
  let scaled := (slotTag ((s.recOf t).fmtSlot f.vc.toNat)).fmt
  let wide := f.ty = 2
  let n := if f.ty = 2 then 2 else 1
  let kind := f.vc.toNat
  let cmp : VSpec := { bks := [0, 1, 2], mapA := true, mapB := true, pred := true }
  let fcmp := float { cmp with tys := [0, 1] }
  let dot := int { tys := [0], bks := [0, 1], c := true, mapC := true }
  let size := fun (b : Bool) => if b then (2, 2) else (1, 1)
  [(.vmad f, int { bks := [0, 1, 2], c := true, mapA := true, mapB := true, mapC := true }),
   (.vabs f, int { tys := [0, 2], mapA := true }), (.vsel f, int { bks := [0, 1, 2] } ∧ kind < 8),
   (.vmov f, int { mapA := true }), (.vmovi f, int { bks := [2], a := false }), (.vsplat f, int { bks := [1], a := false }),
   (.vpopc f, int { wideD := false }), (.vclz f, int { wideD := false }), (.vbrev f, int {}),
   (.vbfx f, int { bks := [0, 1, 2] }), (.vcmpEq f, int cmp), (.vcmpNe f, int cmp), (.vcmpLt f, int cmp),
   (.vcmpLe f, int cmp), (.vcmpGt f, int cmp), (.vcmpGe f, int cmp), (.vdot4 f, dot), (.vdot8 f, dot),
   (.fcmpEq f, fcmp), (.fcmpNe f, fcmp), (.fcmpLt f, fcmp), (.fcmpLe f, fcmp), (.fcmpGt f, fcmp), (.fcmpGe f, fcmp),
   (.fcmpUn f, fcmp), (.fsumerr f, float { tys := [0, 1], bks := [0, 1, 2], group := 2 }), (.osmx f, float { tys := [0] }),
   (.osmxf f, float { tys := [0] } ∧ kind < 2)] ++
  [(.lshf f, noMapFields f ∧ (f.ty = 0 ∨ wide) ∧ ((f.bk = 0 ∧ f.rm = 0 ∧ inFile t s f.vb n) ∨ uniformB f (f.ty == 2)) ∧
      inFile t s f.vd n ∧ inFile t s f.va n),
   (.lred f, redCheck f [0, 1] t s = .ok ()), (.lscan f, redCheck f [0, 1, 2, 3] t s = .ok ()),
   (.vote f, noMapFields f ∧ f.va.toNat < 8 ∧ (f.rm.toNat < 2 → f.vd.toNat < 8) ∧ (2 ≤ f.rm.toNat → inFile t s f.vd 1)),
   (.vtos f, noMapFields f ∧ (f.ty = 0 ∨ wide) ∧ f.rm.toNat < 2 ∧ (wide → bit f.vd 0 = false) ∧ inFile t s f.va n ∧
      (f.rm = 0 → uniformB f (f.ty == 2) ∧ (f.bk = 2 → f.vb.toNat < t.lanes))),
   (.mapgen f, f.kb = 0 ∧ f.kc = 0 ∧ kind < 9 ∧ f.ty.toNat < 2 ∧ f.rm = 0 ∧ inMapWindow t s f.ka ∧
      (f.bk = 2 → ∀ lo hi, mapgenRange kind = some (lo, hi) → lo ≤ sval 8 f.vb.toNat ∧ sval 8 f.vb.toNat ≤ hi) ∧
      ((mapgenRange kind).isSome = true → uniformB f false)),
   (.mapz f, f.kb = 0 ∧ f.kc = 0 ∧ f.rm = 0 ∧ inMapWindow t s f.ka),
   (.mapmov f, f.kc = 0 ∧ f.rm = 0 ∧ inMapWindow t s f.ka ∧ inMapWindow t s f.kb),
   (.mapinfo f, f.kb = 0 ∧ f.kc = 0 ∧ f.bk = 2 ∧ f.vb.toNat < 2 ∧ f.rm = 0 ∧ inMapWindow t s f.ka ∧ inFile t s f.vd 1),
   (.cvtn f, kind < 8 ∧ scaled.scaled = true ∧ conv [0] (1, 1) (scaled.count, 1) (0, 1)),
   (.cvtw f, kind < 8 ∧ scaled.scaled = true ∧ conv [0] (scaled.count, 1) (1, 1) (0, 1)),
   (.fcvt f, kind < 8 ∧ conv (if kind = 0 ∨ kind = 2 ∨ kind = 3 then anyRm else [0]) (size (kind == 1)) (size (kind == 0))
      (if kind = 2 ∨ kind = 3 then (1, 1) else (0, 1))),
   (.fcvti f, kind < 2 ∧ conv anyRm (size (bit f.ty 1)) (size (kind == 1)) (0, 1)),
   (.icvtf f, kind < 2 ∧ conv anyRm (size (kind == 1)) (size (bit f.ty 1)) (0, 1))]
/-- Classes 100 and 101: the sets of Table 13-5 and the registers; without the deterministic flag where Table 19-2 says so. -/
def acceptedM (f : MF) (t : Team) (s : State) : List (Instr × Prop) :=
  let sets := fun (sp : MSpec) => mCheck f sp t s = .ok ()
  let vec := mdVector f t s = .ok ()
  let atomic := fun nr scalar => atomCheck f nr scalar t s = .ok ()
  let n := if f.sz = 3 then 2 else 1
  [(.vld f, sets { ords := [0, 1] } ∧ vec),
   (.sld f, sets { ords := [0, 1], szs := [0, 1, 2, 3], ams := [3] } ∧ mdScalar f f.md = .ok ()),
   (.vst f, sets { ords := [0, 2], spcs := [0, 1, 2, 3] } ∧ vec),
   (.sst f, sets { ords := [0, 2], spcs := [0, 1, 2, 3], szs := [0, 1, 2, 3], ams := [3] } ∧ mdScalar f f.md = .ok ()),
   (.ldsc f, sets { ords := [0, 1], szs := [2], ams := [1] } ∧ vec ∧ (chunkTag f t s).fmt.scaled = true),
   (.stsc f, sets { ords := [0, 2], spcs := [0, 1, 2, 3], szs := [2], ams := [1] } ∧ vec), (.vprf f, sets { spcs := [0, 3] }),
   (.scwb f, sets { spcs := [1], szs := [2], ams := [3] } ∧ f.md.toNat < 64),
   (.bankq f, sets { spcs := [1], szs := [0], ams := [3] } ∧ f.md.toNat < 64 ∧ s.detOf t = false), (.fence f, f.ord ≠ 0),
   (.flrenew f, sets { spcs := [2], szs := [2] }), (.fllife f, sets { spcs := [2], szs := [2] } ∧ vec ∧ s.detOf t = false),
   (.vatom f, atomic false false ∧ vec ∧ (f.aop = 7 → inFile t s f.mx n)), (.vatomNr f, atomic true false ∧ inFile t s f.mx n),
   (.satom f, atomic false true ∧ mdScalar f f.md = .ok () ∧ (f.aop = 7 → scalarOk f.mx (f.sz == 3) = true)),
   (.satomNr f, atomic true true ∧ scalarOk f.mx (f.sz == 3) = true)]
/-- Class 110 and `dlaunch` (Table 17-1, R122, R276, R280). -/
def acceptedE (f : EF) (t : Team) (s : State) : List (Instr × Prop) :=
  let slot := field f.var 0 4
  let map := field f.var 5 3 ≤ 2 ∧ slot ≠ 0 ∧ slot ≤ (s.recOf t).maps ∧ f.dp.toNat % 2 = 0
  let queue := fun (bad : Nat) => let q := (s.recOf t).queue f.qb.toNat
    f.qb.toNat ≤ 7 ∧ q.kind ≠ 0 ∧ q.kind ≠ bad ∧ (f.lineForm = true ↔ q.kind = 2) ∧
      (f.lineForm = true → field f.var 0 8 < (s.recOf t).regs)
  [(.cpy f, field f.var 0 3 ≤ 2 ∧ field f.var 3 3 ≤ 2 ∧ f.dp.toNat % 4 = 0), (.cpyt f, f.dp.toNat % 2 = 0),
   (.lay f, f.dp.toNat % 2 = 0), (.gat f, f.dp.toNat % 2 = 0), (.sct f, f.dp.toNat % 2 = 0),
   (.mapld f, map ∧ (bit f.var 4 = true → (slotTag ((s.recOf t).fmtSlot f.fs.toNat)).fmt.scaled = false)), (.mapst f, map),
   (.seal f, True), (.waitb f, True), (.escld f, f.tk ≠ 0 ∧ f.dp.toNat % 2 = 0), (.qpush f, queue 3), (.qpop f, queue 4),
   (.dlaunch f, f.tk ≠ 0 ∧ f.dp ≠ 0 ∧ bit f.dp 0 = false)]
/-- Class 111 but for its branches and `join`, which every word of its format is (Tables 3-5 and 6-11, R108, R110, R115, R118 to R121). -/
def acceptedY (f : YF) (t : Team) (s : State) : List (Instr × Prop) :=
  let barrier := f.yk = 0 ∧ f.sel.toNat < 4 ∧
    ∃ tk g, s.task? t.task = some tk ∧ tk.groupSlot t.block t.team f.sel.toNat = some g
  let park := f.yk = 0 ∧ f.ya.toNat % 2 = 0 ∧ f.ya.toNat ≤ 63 ∧ f.yb.toNat ≤ 63 ∧ f.yc.toNat ≤ 63 ∧ s.detOf t = false
  let n := f.sel.toNat
  let c := if specialWide n then 2 else 1
  [(.sync f, f.yk = 0), (.exit f, f.yk = 0), (.nop f, f.yk = 0), (.trap f, f.yk = 0), (.cmtwait f, f.yk = 0),
   (.cmtpass f, f.yk = 0), (.bara f, barrier), (.barw f, barrier), (.bar f, barrier), (.park f, park), (.wake f, park),
   (.regroup f, f.yk.toNat < 2 ∧ (f.yk = 1 → f.ya.toNat ≤ f.yb.toNat ∧ f.yb.toNat < (s.recOf t).regs)),
   (.srd f, f.yk.toNat < 2 ∧ (∃ m, specialIndex n = some m ∧ f.idx.toNat ≤ m) ∧
      (f.yk = 0 → 2 ≤ n ∧ f.ya.toNat ≤ 63 ∧ (specialWide n = true → bit f.ya 0 = false)) ∧
      (f.yk = 1 → (s.recOf t).vecOk f.ya.toNat c c = true)),
   (.swr f, f.yk = 0 ∧ (f.sel = 0x0A ∨ f.sel = 0x0B ∨ f.sel = 0x0C) ∧ f.ya.toNat ≤ 63)]

/-! ## Memory: the pass at which the commit buffer stops an instruction (R294); atomics of one word (R234) -/

/-- `vst`, `stsc` and `vatom.nr`: the pass that waits for room in the commit buffer, and before which the instruction stops. -/
def vstStop (f : MF) (k : Nat) (t : Team) (s : State) : Option Nat :=
  bufferStop t (t.guarded f.pre) (entriesOf (unitSize (accessSize f)) (t.guarded f.pre) t s (vstData k f))
def stscStop (f : MF) (k : Nat) (t : Team) (s : State) : Option Nat :=
  bufferStop t (t.guarded f.pre) (entriesOf 4 (t.guarded f.pre) t s (stscData k f))
def nrStop (f : MF) (k : Nat) (t : Team) (s : State) : Option Nat :=
  bufferStop t (t.guarded f.pre) (nrEntries k f (t.guarded f.pre) t s)
/-- Atomics on one word, in order: the value each finds, and the word at the end (R234). -/
def atomicChain (aop : Nat) : Word → List (Nat × Nat) → List Nat × Word
  | x, [] => ([], x)
  | x, (v, c) :: rest =>
    let r := atomicChain aop (BitVec.ofNat 32 (atomicNew aop false x.toNat v c)) rest
    (x.toNat :: r.1, r.2)

/-! ## Waits and engine commands -/

/-- The part after team `k` has begun to wait: its run breaks, its pipe is free (R45, R62). -/
def State.waits (s : State) (k : Nat) (t : Team) (w : Wait) : State := (s.setTeam k t).breakRun k w

/-- The Drover commands of Table 17-1: what each does, and when its operands are accepted (R263 to R269). -/
def droverCommands (f : EF) (k : Nat) (t : Team) (s : State) : List ((EF → Instr) × CmdKind × Prop) :=
  let a := t.rs2 f.dp.toNat
  let b := t.rs2 (f.dp.toNat + 2)
  let n := (t.rs f.cn.toNat).toNat
  let slot := field f.var 0 4
  let row := bit f.var 4
  let slots := field f.var 5 3 ≤ 2 ∧ slot ≠ 0 ∧ slot ≤ (s.recOf t).maps ∧ f.dp.toNat % 2 = 0
  let fmt := (slotTag ((s.recOf t).fmtSlot f.fs.toNat)).fmt
  let aligned := fun (x : Fmt) => a.toNat % mapAlign x row = 0 ∧ n % mapAlign x row = 0
  [(.cpy, .cpy (field f.var 3 3) (field f.var 0 3) a.toNat b.toNat n,
     field f.var 0 3 ≤ 2 ∧ field f.var 3 3 ≤ 2 ∧ f.dp.toNat % 4 = 0 ∧ a.toNat % 4 = 0 ∧ b.toNat % 4 = 0 ∧ n % 4 = 0 ∧ n ≠ 0),
   (.cpyt, .cpyt a.toNat, f.dp.toNat % 2 = 0), (.lay, .lay a.toNat, f.dp.toNat % 2 = 0),
   (.gat, .gat a.toNat n, f.dp.toNat % 2 = 0 ∧ n ≠ 0), (.sct, .sct a.toNat n, f.dp.toNat % 2 = 0 ∧ n ≠ 0),
   (.mapld, .mapld slot (field f.var 5 3) row a.toNat n f.fs.toNat, slots ∧ (row && fmt.scaled) = false ∧ aligned fmt),
   (.mapst, .mapst slot (field f.var 5 3) row a.toNat n, slots ∧ aligned (s.mapSlot k t slot).tag.fmt)]

end Sys2Proof.Machine
end

