-- ==== Sys2Proof/Certificates/Slice0/Obligations.lean ====
section
/-! DEFINITION. Sys2Proof/Certificates/Slice0/Obligations.lean: the statements for the provers. -/
open Sys2Proof Sys2Proof.Machine


/-- Decode and encode agree: a well-formed instruction of a word decodes from its own encoding, whatever its operands, and a
word that decodes is the encoding of what it decodes to, which is well formed (R74 to R88, Tables 5-1 to 5-12). -/
def Obligations.DecodeOfEncode : Prop :=
  (∀ (i : Instr) (w : DWord), i.wellFormed = true → encode i = some w → decode w = .ok i) ∧
  (∀ (i : Instr) (w : DWord), decode w = .ok i → i.wellFormed = true ∧ encode i = some w)

/-- Words that the manual writes out, of five formats, decode to the instruction and the operands it gives them, field by field
in the order of the formats (R77, R81 to R83); a scalar word is written here from its format (R80). -/
def Obligations.DecodedWords : Prop :=
  decode 0x7314000040084011#64 = .ok (.mapgen ⟨⟨false, 7, false⟩, 0, 0, 16, 2, 1, 0, 0, 1, 0, 1⟩) ∧
  decode 0x1100100404004800#64 = .ok (.vadd ⟨⟨false, 1, false⟩, 4, 1, 1, 0, 1, 2, 0, 0, 0, 0⟩) ∧
  decode 0x7324500000040000#64 = .ok (.cvtn ⟨⟨false, 7, false⟩, 20, 0, 0, 1, 0, 0, 0, 0, 0, 0⟩) ∧
  decode 0x7200604850000400#64 = .ok (.fadd ⟨⟨false, 7, false⟩, 24, 18, 20, 0, 0, 1, 0, 0, 0, 0⟩) ∧
  decode 0x5A00606078000810#64 = .ok (.fadd ⟨⟨false, 5, true⟩, 24, 24, 30, 0, 0, 2, 0, 1, 0, 0⟩) ∧
  decode 0x730014085000000D#64 = .ok (.lshf ⟨⟨false, 7, false⟩, 5, 2, 20, 0, 0, 0, 0, 0, 3, 1⟩) ∧
  decode 0x7304282000180010#64 = .ok (.lred ⟨⟨false, 7, false⟩, 10, 8, 0, 6, 0, 0, 0, 1, 0, 0⟩) ∧
  decode 0x0400042800012000#64 = .ok (.vld ⟨⟨false, 0, false⟩, 1, 10, 0, 0, 0, 0, 2, 1, 0, 0⟩) ∧
  decode 0x7514002800416000#64 = .ok (.flrenew ⟨⟨false, 7, false⟩, 0, 10, 0, 0, 2, 0, 2, 3, 0, 0⟩) ∧
  decode 0x75000C1000014606#64 = .ok (.vatom ⟨⟨false, 7, false⟩, 3, 4, 0, 0, 0, 0, 2, 2, 6, 6⟩) ∧
  decode 0xC625630000000000#64 = .ok (.escld ⟨⟨true, 4, false⟩, 22, 12, 0, 0, 0, 0, 0, 0⟩) ∧
  decode 0xF628001700010000#64 = .ok (.qpush ⟨⟨true, 7, false⟩, 0, 0, 23, 0, 0, 1, 0, 0⟩) ∧
  decode 0x7614068000000001#64 = .ok (.mapld ⟨⟨false, 7, false⟩, 0, 26, 0, 0, 0, 0, 0, 1⟩) ∧
  decode 0xF703FFFFD0000000#64 = .ok (.bra ⟨⟨true, 7, false⟩, -12, 0⟩) ∧
  decode 0x700450C400000000#64 = .ok (.sadd ⟨⟨false, 7, false⟩, 5, 3, 4, 0, 0, false⟩)

/-- Every step keeps device memory, this part's and each peer's, in canonical form. -/
def Obligations.StepKeepsMemoryCanonical : Prop :=
  ∀ s s' : State, s.memoryWf = true → step s = .next s' → s'.memoryWf = true

/-- Right after reset memory is in canonical form, no partition, task, launch, block or team exists, the tick is 0 and nothing
has been raised or posted; the registers of a partition, a bank, a cluster, a core, a domain, an edge, the rails, the power and
time registers, the floors, PEERACC, the queue slots and the mailboxes hold the values named here, those of their tables. The values
of the registers written by firmware (DOM, CLTAB, SAVEBASE, SAVESIZE, TICKOFF, FRING, the window, S2ROOT: log 17), of CECNT (log 12),
of the queue slots (log 8) and of DFW_CTL.DOM (log 20) are the model's. -/
def Obligations.ResetState : Prop :=
  let s := State.reset
  s.memoryWf = true ∧ s.tick = 0 ∧ s.teams = [] ∧ s.tasks = [] ∧ s.blocks = [] ∧ s.launches = [] ∧ s.irqs = [] ∧ s.outbox = [] ∧
  s.boot = .rom ∧ s.slew = 4 ∧ s.tsyncErr = false ∧ s.tsyncPort = 0 ∧ s.tsyncAlign = false ∧ s.pkgPwr = 0 ∧ s.pkgThr = false ∧
  s.cecnt = 0 ∧ s.hwSlots = [] ∧
  (s.pfBox.addr = 0 ∧ s.pfBox.busy = false ∧ s.pfBox.code = 0 ∧ s.pfBox.stat = 0) ∧
  (∀ r, (Tab.get s.rails {} r).pwr = 0 ∧ (Tab.get s.rails {} r).op = 0) ∧ (∀ f, Tab.get s.floors 0 f = 0) ∧
  (∀ i, Tab.get s.peerAcc 0 i = 0) ∧ (∀ d, s.domOf d = d) ∧
  (∀ p, let x := s.part p
    x.ncl = 0 ∧ x.dom = 0 ∧ x.iprio = 0 ∧ x.haltBit = false ∧ x.haltedBit = false ∧ x.cltab = 0 ∧ x.saveBase = 0 ∧ x.saveSize = 0 ∧
    x.tickOff = 0 ∧ x.fring = 0 ∧ x.window = 0 ∧ x.capMode = 0 ∧ x.cap = 0x10 ∧ x.thresh = 0x40 ∧ x.qtbase = 0 ∧ x.qtsize = 0 ∧
    x.ntmo = 0x00010000#32 ∧ x.evec = 0 ∧ x.s1root = 0 ∧ x.s2root = 0 ∧
    (x.inv1.addr = 0 ∧ x.inv1.busy = false ∧ x.inv1.all = false ∧ x.inv1.log2 = 0x10) ∧
    (x.inv2.addr = 0 ∧ x.inv2.busy = false ∧ x.inv2.all = false ∧ x.inv2.log2 = 0x10) ∧
    x.xladdr = 0 ∧ (∀ q, x.pnWord q = 0) ∧ (∀ i, Tab.get x.bkpt 0 i = 0) ∧
    (x.fltTask = 0 ∧ x.flt = none ∧ x.fltOvf = false ∧ x.fltLast.word = 0 ∧ x.fltLast.pc = 0 ∧ x.fltLast.addr = 0) ∧
    (x.instr = 0 ∧ x.outr = 0 ∧ x.mapp = 0 ∧ x.hbmb = 0 ∧ x.llcm = 0 ∧ x.d2df = 0) ∧
    x.log2w = 0x18 ∧ x.wdValid = false ∧ x.wdCore = 0 ∧ x.wdCluster = 0 ∧
    (x.mbox.addr = 0 ∧ x.mbox.busy = false ∧ x.mbox.code = 0 ∧ x.mbox.stat = 0) ∧ ∀ i, Tab.get x.peerWin 0 i = 0) ∧
  (∀ c, (s.cluster c).frz = 0x0100 ∧ (s.cluster c).graph = none ∧ (s.cluster c).escBank = none ∧
    (s.cluster c).reg.droop = false ∧ (s.cluster c).reg.frozen = false ∧ (∀ ch, (s.cluster c).channel ch = []) ∧
    ∀ b, let x := (s.cluster c).bank b
      x.mode = .cache ∧ x.req = .cache ∧ x.trans = false ∧ x.esc = false ∧ x.fw = false ∧ x.fifo = []) ∧
  (∀ c, (s.core c).cycle = 0) ∧
  (∀ d, (∀ i, Tab.get (s.domain d).slices 0 i = 0) ∧ (s.domain d).backfill = 0 ∧ (s.domain d).gangctl = 0 ∧
    (s.domain d).glate = 0 ∧ (s.domain d).index = none ∧ (s.domain d).gang = none) ∧
  (∀ d e, (s.edge d e).state = .closed ∧ (s.edge d e).close = true ∧ (s.edge d e).count = 0 ∧ (s.edge d e).ovf = false)

/-- A step issues the instruction that the word at the pc of the team decodes to: when an issue heads the agenda, the pipe's
team may issue, has lanes, no trap or RESUME entry due, no register or map slot with an error, and its word is not frozen, the
step is `exec` of that instruction for that team, after the cycles of the issue have been counted and the word has entered the
instruction cache; `%cycle` moves on after it (R118); a word that decodes to nothing is run as an illegal instruction; an event
at the head of the agenda is run as it stands. The word fetched is the one the instruction cache holds, else the one in memory at
the pinned location of pc, when a request reaches it and it is good. The agenda is the model's own (log 1), and so are the cycles
that an issue passes (log 86) and how long a line stays in the instruction cache (log 14). -/
def Obligations.StepRunsTheDecodedInstruction : Prop :=
  ∀ (s : State) (rest : List Move), let s0 := { s with agenda := rest, moment := s.moment + 1 }
    (∀ core pipe stopAt k t w, s.agenda = .issue core pipe stopAt :: rest → ((s.core core).pipe pipe).team = some k →
      s.team? k = some t → s.able k t = true → t.wait = none → t.out = none → t.halted = false → t.active ≠ 0 →
      t.pend = none → t.resumeDue = false → t.bad = [] → (s.blockOf t).badSlots = [] →
      ((s.cluster (clusterOf (coreOf k))).reg.freezes && frozenKind w) = false → s.fetchWord k t = .ok w →
      let s1 := s0.countCycles core t.cycles
      let at_ := fun (i : Instr) (s2 : State) => match exec i { s2 with cur := some k } with
        | .next s' => Host.Outcome.next ({ s' with cur := none }.addCycles core t.cycles)
        | .fault r => .fault r
        | .refused r => .refused r
      (∀ i, decode w = .ok i → step s = at_ i ((s1.keepCode k t).setTeam k { t with stopAt := stopAt })) ∧
      (∀ r, decode w = .error r → step s = at_ (.illegalInstruction w) s1)) ∧
    (∀ i, s.agenda = .event i :: rest → (∀ r, exec i { s0 with cur := none } ≠ .fault r) →
      step s = exec i { s0 with cur := none }) ∧
    (∀ k t loc, s.fetchPlace t = .ok loc →
      (∀ w, (s.core (coreOf k)).code loc = some w → s.fetchWord k t = .ok w) ∧
      ((s.core (coreOf k)).code loc = none → s.reach (dieOf (coreOf k)) loc t.pc = .ok () →
        (∀ i, i < 2 → Tab.get? s.poisoned (loc / 4 + i) = none) →
        s.fetchWord k t = .ok (s.peek (loc / 4 + 1) ++ s.peek (loc / 4))))

/-- Retiring an instruction leaves alone every field of the state but the team's own, its core's pipes and progress-free counts, and
its partition's INSTR, which is one more: every other team, core and partition is as it was, and so are memory, caches, blocks, tasks,
launches, clusters, edges and all that the part raises or posts. A register write changes the register written and no other: `s0` and
`p7` discard it, a vector write changes the lanes of its mask alone and gives the lane blocks it touches their tag and a zero scale
word (R39, R42, R76, R85, R151, R363, R364). -/
def Obligations.RetiringAndRegisterWrites : Prop :=
  (∀ (s : State) (k : Nat) (u : Team) (pc : DWord) (b : Bool), SameButTeam k u.part s (s.retireAt k u pc b) ∧
    ((s.retireAt k u pc b).part u.part).instr = (s.part u.part).instr + 1 ∧
    ∃ v, (s.retireAt k u pc b).team? k = some v ∧ v.pc = pc ∧ v.active = u.active ∧ v.s = u.s ∧ v.p = u.p ∧ v.v = u.v ∧
      v.sides = u.sides ∧ v.fflags = u.fflags ∧ v.fmode = u.fmode ∧ v.tcause = u.tcause ∧ v.tlanes = u.tlanes ∧
      v.stack = u.stack ∧ v.carried = u.carried) ∧
  (∀ (t : Team) (i : Nat) (x : Word), (t.ws 0 x = t) ∧ (t.rs 0 = 0) ∧ (i ≠ 0 → (t.ws i x).rs i = x) ∧
    (∀ j, j ≠ i → (t.ws i x).rs j = t.rs j) ∧ (∃ y, t.ws i x = { t with s := y })) ∧
  (∀ (t : Team) (i : Nat) (act v : Mask), t.wp 7 act v = t ∧ t.rp 7 = t.all ∧
    (i ≠ 7 → (t.wp i act v).rp i = (t.rp i &&& ~~~act) ||| (v &&& act)) ∧
    (∀ j, j ≠ i → (t.wp i act v).rp j = t.rp j) ∧ (∃ y, t.wp i act v = { t with p := y })) ∧
  (∀ (t : Team) (r : Nat) (m : Mask) (tag : Tag) (f : Nat → Word), let u := t.wlanes r m tag f
    (∃ y, u = { t with v := y }) ∧
    (∀ l, l < 32 * t.words → bit m l = true → u.rl r l = f l) ∧
    (∀ l, l < 1024 → bit m l = false → u.rl r l = t.rl r l) ∧
    (∀ q w, q ≠ r → w < 32 → t.words ≤ 32 → u.rv q w = t.rv q w) ∧
    (∀ w, w < t.words → maskWord m w ≠ 0 → (u.rv r w).tag = tag ∧ (u.rv r w).scale = 0) ∧
    (∀ w, maskWord m w = 0 → w < 32 → u.rv r w = t.rv r w))

/-- What comes before an instruction's effect. A word that its instruction does not accept (Table 5-13, R85 and what its description
adds) is an illegal operation whatever its guard (R88, R125, R258); that a barrier slot that is not bound, `park` and `wake` in a
deterministic launch, an immediate lane of `vtos` and an immediate q of `mapgen` are among what is checked whatever the guard is the
model's reading (log 105); an accepted word whose guard is true in no active lane goes on at
the next word and does nothing else (R76, R125, R258), `join` among them, of every instruction but the branches, which `Branch` and
`UniformJumps` state. An instruction of class 000 or a vector or floating-point one waits, its run broken, while a scalar register it
reads or writes is a pending token (R259). A scalar instruction of two sources that reads tokens that have completed takes the
signatures of those that hold 1 and acquires with them (R246); they are tokens no more. -/
def Obligations.GuardsTokensAndPairs : Prop :=
  ∀ (s : State) (k : Nat) (t : Team), s.cur = some k → s.team? k = some t → t.phase = 0 → t.stopAt = none → t.intr = none →
    let waits := fun (i : Instr) (regs : List Nat) => ∃ l, (∀ r, r ∈ l ↔ r ∈ regs ∧ r ≠ 0 ∧ r ∈ t.pendTok) ∧
      exec i s = .next (s.waits k t (.token l))
    let idle := fun (p : Pre) => t.guarded p = 0 ∧ (t.active ≠ 0 ∨ t.pend ≠ none) ∧ (s.part t.part).breaksAt t.pc = false
    let checked := fun (p : Pre) (e : Instr × Prop) => (e.2 → idle p → exec e.1 s = .next (s.retire k p t)) ∧
      (¬ e.2 → ∃ d ∈ [1, 2, 5], exec e.1 s = .next (s.raise k t 6 d 0 none))
    (∀ f : S3, ∀ x ∈ scalarForms,
      (idle f.pre → x.even f → exec (x.ins f) s = .next (s.retire k f.pre t)) ∧
      (acts f.pre t → x.even f → (∃ r ∈ x.regs f, r ≠ 0 ∧ r ∈ t.pendTok) → waits (x.ins f) (x.regs f)) ∧
      (¬ x.even f → exec (x.ins f) s = .next (s.raise k t 6 2 0 none))) ∧
    (∀ f : V3,
      (∀ e ∈ vectorTwo, checked f.pre (e.1 f, v3Check f (twoSpec e.2.1) k t s = .ok ())) ∧
      (∀ r ∈ floatRules f, checked f.pre (r.ins f, v3Check f r.spec k t s = .ok ())) ∧
      ∀ e ∈ acceptedV3 f k t s, checked f.pre e) ∧
    (∀ f : S3, ∀ e ∈ acceptedS3 f, checked f.pre e) ∧ (∀ f : MF, ∀ e ∈ acceptedM f t s, checked f.pre e) ∧
    (∀ f : EF, ∀ e ∈ acceptedE f t s, checked f.pre e) ∧ (∀ f : YF, ∀ e ∈ acceptedY f t s, checked f.pre e) ∧
    (∀ f : BF, checked f.pre (.join f, True)) ∧
    (∀ f : V3, acts f.pre t → t.did = 0 → f.bk = 1 →
      (∀ e ∈ vectorTwo, v3Check f (twoSpec e.2.1) k t s = .ok () → (∃ r ∈ v3ScalarB f (bit f.ty 1), r ≠ 0 ∧ r ∈ t.pendTok) →
        waits (e.1 f) (v3ScalarB f (bit f.ty 1))) ∧
      (∀ r ∈ floatRules f, r.spec.bks ≠ [] → v3Check f r.spec k t s = .ok () →
        (∃ i ∈ v3ScalarB f (f.ty == 1), i ≠ 0 ∧ i ∈ t.pendTok) → waits (r.ins f) (v3ScalarB f (f.ty == 1)))) ∧
    (∀ f : V3, f.rm = 0 → noMapFields f → f.bk = 2 →
      (∀ e ∈ vectorTwo, bit f.ty 1 = true → bit f.vd 0 = true ∨ bit f.va 0 = true →
        exec (e.1 f) s = .next (s.raise k t 6 2 0 none)) ∧
      (∀ r ∈ floatRules f, f.ty = 1 → (1 : BitVec 2) ∈ r.spec.tys →
        (r.spec.wideD = true ∧ bit f.vd 0 = true) ∨ bit f.va 0 = true → exec (r.ins f) s = .next (s.raise k t 6 2 0 none))) ∧
    (∀ f : S3, acts f.pre t → evenPairs f true true true → (s.part t.part).breaksAt t.pc = false →
      let reads := s3Regs (bit f.ty 1) f.sa ++ (if f.bk then [] else s3Regs (bit f.ty 1) f.sb)
      let writes := s3Regs (bit f.ty 1) f.sd
      (∀ r ∈ reads ++ writes, r ≠ 0 → r ∉ t.pendTok) →
      let ended := reads.filter (fun r => t.rs r == 1 && (Tab.get? t.tokSig r).isSome)
      let u := { t with tokSig := t.tokSig.filter (fun e => !(reads ++ writes).contains e.1),
                        carried := ended.foldl (fun g r => g ||| Tab.get t.tokSig 0 r) t.carried }
      ∀ e ∈ scalarTwo, exec (e.1 f) s =
        .next ((if ended = [] then s else s.acquire (coreOf k) u.carried).retire k f.pre (u.scalarResult f e.2.1 e.2.2)))

/-- The scalar instructions of two sources of one width write sd := op(a, b) at the width of their type, and nothing else
but pc, run and counters (Table 6-3, R98 to R100). -/
def Obligations.ScalarTwoSources : Prop :=
  ∀ (s : State) (k : Nat) (t : Team) (f : S3), Issues s k t → acts f.pre t → evenPairs f true true true →
  ∀ e ∈ scalarTwo, exec (e.1 f) s = .next (s.retire k f.pre (t.scalarResult f e.2.1 e.2.2))

/-- The scalar shifts take their count, and `sbfx` its control word, from one 32-bit register or an imm8 without sign, at
every width (Table 6-3, R100, R101). -/
def Obligations.ScalarCountedSource : Prop :=
  ∀ (s : State) (k : Nat) (t : Team) (f : S3), Issues s k t → acts f.pre t → evenPairs f true true false →
  ∀ e ∈ ([(Instr.sshl, fun w _ a c => a <<< (c.toNat % w)), (Instr.sshr, fun w _ a c => a >>> (c.toNat % w)),
      (Instr.ssra, fun w _ a c => a.sshiftRight (c.toNat % w)), (Instr.sbfx, extractField)] :
      List ((S3 → Instr) × ((w : Nat) → Bool → BitVec w → Word → BitVec w))),
    exec (e.1 f) s = .next (s.retire k f.pre
      (if bit f.ty 1 then
        t.ws2 f.sd.toNat (e.2 64 (!bit f.ty 0) (t.rs2 f.sa.toNat) (scalarB 32 false f (t.rs f.sb.toNat)))
      else t.ws f.sd.toNat (e.2 32 (!bit f.ty 0) (t.rs f.sa.toNat) (scalarB 32 false f (t.rs f.sb.toNat)))))

/-- `scmp.cc` writes one 32-bit register, 1 when the relation holds in the type's reading of a and b and 0 when not
(Table 6-3).
The scalar instructions of one source: `smov` and `sbrev` write at the source's width, `spopc` and `sclz` one 32-bit
register at either width (Table 6-3).
`ssel` and `sbfi` read the old destination too (R100, R101). -/
def Obligations.ScalarComparesOneSourceAndOldDestination : Prop :=
  (∀ (s : State) (k : Nat) (t : Team) (f : S3), Issues s k t → acts f.pre t → evenPairs f false true true →
  ∀ e ∈ ([(Instr.scmpEq, fun _ _ a b => a == b), (Instr.scmpNe, fun _ _ a b => a != b), (Instr.scmpLt, below),
      (Instr.scmpLe, fun w g a b => !below w g b a), (Instr.scmpGt, fun w g a b => below w g b a),
      (Instr.scmpGe, fun w g a b => !below w g a b)] :
      List ((S3 → Instr) × ((w : Nat) → Bool → BitVec w → BitVec w → Bool))),
    exec (e.1 f) s = .next (s.retire k f.pre (t.ws f.sd.toNat (truth
      (if bit f.ty 1 then e.2 64 (!bit f.ty 0) (t.rs2 f.sa.toNat) (scalarB 64 true f (t.rs2 f.sb.toNat))
       else e.2 32 (!bit f.ty 0) (t.rs f.sa.toNat) (scalarB 32 true f (t.rs f.sb.toNat))))))) ∧
  ((∀ (s : State) (k : Nat) (t : Team) (f : S3), Issues s k t → acts f.pre t →
    (evenPairs f true true false →
      (∀ e ∈ ([(Instr.smov, fun _ a => a), (Instr.sbrev, fun _ a => a.reverse)] :
          List ((S3 → Instr) × ((w : Nat) → BitVec w → BitVec w))),
        exec (e.1 f) s = .next (s.retire k f.pre
          (if bit f.ty 1 then t.ws2 f.sd.toNat (e.2 64 (t.rs2 f.sa.toNat)) else t.ws f.sd.toNat (e.2 32 (t.rs f.sa.toNat)))))) ∧
    (evenPairs f false true false →
      (∀ e ∈ ([(Instr.spopc, onesOf), (Instr.sclz, leadingZeros)] : List ((S3 → Instr) × ((w : Nat) → BitVec w → Nat))),
        exec (e.1 f) s = .next (s.retire k f.pre (t.ws f.sd.toNat (BitVec.ofNat 32
          (if bit f.ty 1 then e.2 64 (t.rs2 f.sa.toNat) else e.2 32 (t.rs f.sa.toNat)))))))) ∧
  (∀ (s : State) (k : Nat) (t : Team) (f : S3), Issues s k t → acts f.pre t →
    (evenPairs f true true true → exec (.ssel f) s = .next (s.retire k f.pre
      (if bit f.ty 1 then t.ws2 f.sd.toNat
        (if t.rs2 f.sd.toNat = 0 then scalarB 64 true f (t.rs2 f.sb.toNat) else t.rs2 f.sa.toNat)
      else t.ws f.sd.toNat (if t.rs f.sd.toNat = 0 then scalarB 32 true f (t.rs f.sb.toNat) else t.rs f.sa.toNat)))) ∧
    (evenPairs f true true false → exec (.sbfi f) s = .next (s.retire k f.pre
      (if bit f.ty 1 then t.ws2 f.sd.toNat
        (insertField 64 (t.rs2 f.sd.toNat) (t.rs2 f.sa.toNat) (scalarB 32 false f (t.rs f.sb.toNat)))
      else t.ws f.sd.toNat (insertField 32 (t.rs f.sd.toNat) (t.rs f.sa.toNat) (scalarB 32 false f (t.rs f.sb.toNat))))))))

/-- `smovi` writes its imm8 extended by sign; `slea` adds an offset, read by its type, to a 64-bit address; `sldk` reads one
or two words of the constant table, and faults outside it with the byte offset of the first word that is outside, which is the
model's reading (R99, R100, log 28). A word of the table with an uncorrectable error is an ECC fault (R235, R375), with the detail
of bank data, which is the model's choice (log 125). -/
def Obligations.ScalarConstantsAndAddresses : Prop :=
  ∀ (s : State) (k : Nat) (t : Team) (f : S3), Issues s k t → acts f.pre t →
    (f.bk = true → evenPairs f true false false → exec (.smovi f) s = .next (s.retire k f.pre
      (if bit f.ty 1 then t.ws2 f.sd.toNat (f.imm.signExtend 64) else t.ws f.sd.toNat (f.imm.signExtend 32)))) ∧
    (bit f.sd 0 = false → bit f.sa 0 = false → evenPairs f false false true →
      exec (.slea f) s = .next (s.retire k f.pre (t.ws2 f.sd.toNat (t.rs2 f.sa.toNat +
        (if bit f.ty 1 then scalarB 64 (!bit f.ty 0) f (t.rs2 f.sb.toNat)
         else if bit f.ty 0 then (scalarB 32 false f (t.rs f.sb.toNat)).setWidth 64
         else (scalarB 32 true f (t.rs f.sb.toNat)).signExtend 64))))) ∧
    (∀ tk i, evenPairs f true false false → s.task? t.task = some tk →
      i = (t.rs f.sa.toNat).toNat + (scalarB 32 false f (t.rs f.sb.toNat)).toNat →
      let read := if bit f.ty 1 then [i, i + 1] else [i]
      ((∃ w ∈ read, w ∈ tk.badConsts) → exec (.sldk f) s = .next (s.raise k t 7 3 (BitVec.ofNat 64 (4 * i)) none)) ∧
      ((∀ w ∈ read, w ∉ tk.badConsts) →
      (bit f.ty 1 = false → ∀ x, tk.consts[i]? = some x →
        exec (.sldk f) s = .next (s.retire k f.pre (t.ws f.sd.toNat x))) ∧
      (bit f.ty 1 = true → ∀ x y, tk.consts[i]? = some x → tk.consts[i + 1]? = some y →
        exec (.sldk f) s = .next (s.retire k f.pre (t.ws2 f.sd.toNat (y ++ x)))) ∧
      (bit f.ty 1 = true → ∀ x, tk.consts[i]? = some x → tk.consts[i + 1]? = none →
        exec (.sldk f) s = .next (s.raise k t 1 6 (BitVec.ofNat 64 (4 * (i + 1))) none)) ∧
      (tk.consts[i]? = none → exec (.sldk f) s = .next (s.raise k t 1 6 (BitVec.ofNat 64 (4 * i)) none))))

/-- The vector instructions of two sources write op(a, b) in each lane that acts, at the width of their type; a shift takes
the count of its own lane (Table 9-3, R155, R160). Map passes are counted.
Stopped between two passes by pre-emption, such an instruction has written the lanes of the passes before, `%pix` is 1 more than
the word whose pass comes next, and pc stays; when it goes on, with the lanes and the slots it was issued with, it performs the
passes that remain and retires (R183, R236). -/
def Obligations.VectorTwoSources : Prop :=
  (∀ (s : State) (k : Nat) (t : Team) (f : V3), Issues s k t → acts f.pre t →
  ∀ e ∈ vectorTwo, accepted f (twoSpec e.2.1) k t s →
    let m := t.guarded f.pre
    let r := fun (w l : Nat) => e.2.2.2 w (!bit f.ty 0) (laneA w k t s f l) (laneB w k e.2.2.1 t s f l)
    exec (e.1 f) s = .next ((s.countMap f m t).retire k f.pre (t.withInts f (bit f.ty 1) r)) ∧
    ∀ n w, (∃ x ∈ passesOf m t.words, x < n) → (passesOf m t.words).find? (fun x => decide (n ≤ x)) = some w →
      let u : Team := { t with stopAt := some n }
      exec (e.1 f) (s.setTeam k u) = .next (((s.setTeam k u).countMap f m u).setTeam k
        { t.withIntsOn f (maskSpan m 0 n) (bit f.ty 1) r with
            intr := some { act := m, next := w, trap := 0, flags := 0, slots := v3Slots f k t s },
            pix := BitVec.ofNat 32 (w + 1), stopAt := none })) ∧
  (∀ (s : State) (k : Nat) (t : Team) (i : Intr) (f : V3), Resumes s k t i → i.act = t.guarded f.pre →
  ∀ e ∈ vectorTwo, v3Check f (twoSpec e.2.1) k t s = .ok () →
    exec (e.1 f) s = .next ((s.countMap f i.act t).retire k f.pre
      (t.withIntsOn f (maskSpan i.act i.next t.words) (bit f.ty 1) (fun w l =>
        e.2.2.2 w (!bit f.ty 0) (laneA w k t s f l) (laneB w k e.2.2.1 t s f l)))))

/-- `vmad`, `vabs`, `vbrev` and `vbfx` write at the width of their type, `vbfx` with the low 32 bits of its lane's b for its
control word; `vpopc` and `vclz` write one 32-bit register at either width, `vdot4` and `vdot8` a 32-bit sum of products (Table
9-3, R160, R163). -/
def Obligations.VectorOtherArithmetic : Prop :=
  ∀ (s : State) (k : Nat) (t : Team) (f : V3), Issues s k t → acts f.pre t →
    let out := fun (wide : Bool) (g : (w : Nat) → Nat → BitVec w) =>
      Host.Outcome.next ((s.countMap f (t.guarded f.pre) t).retire k f.pre (t.withInts f wide g))
    (accepted f { bks := [0, 1, 2], c := true, mapA := true, mapB := true, mapC := true, intClass := true } k t s →
      exec (.vmad f) s = out (bit f.ty 1) (fun w l => laneA w k t s f l * laneB w k true t s f l + laneC w k t s f l)) ∧
    (accepted f { tys := [0, 2], mapA := true, intClass := true } k t s →
      exec (.vabs f) s = out (bit f.ty 1) (fun w l =>
        if (laneA w k t s f l).msb then -laneA w k t s f l else laneA w k t s f l)) ∧
    (accepted f { intClass := true } k t s →
      exec (.vbrev f) s = out (bit f.ty 1) (fun w l => (laneA w k t s f l).reverse)) ∧
    (accepted f { bks := [0, 1, 2], intClass := true } k t s →
      exec (.vbfx f) s = out (bit f.ty 1) (fun w l =>
        extractField w (!bit f.ty 0) (laneA w k t s f l) ((laneB w k false t s f l).setWidth 32))) ∧
    (accepted f { wideD := false, intClass := true } k t s →
      exec (.vpopc f) s = out false (fun w l => BitVec.ofNat w
        (if bit f.ty 1 then onesOf 64 (laneA 64 k t s f l) else onesOf 32 (laneA 32 k t s f l))) ∧
      exec (.vclz f) s = out false (fun w l => BitVec.ofNat w
        (if bit f.ty 1 then leadingZeros 64 (laneA 64 k t s f l) else leadingZeros 32 (laneA 32 k t s f l)))) ∧
    (accepted f { tys := [0], bks := [0, 1], c := true, mapC := true, intClass := true } k t s →
      exec (.vdot4 f) s = out false (fun w l =>
        (laneC 32 k t s f l + dotProduct 4 8 (laneA 32 k t s f l) (laneB 32 k true t s f l)).setWidth w) ∧
      exec (.vdot8 f) s = out false (fun w l =>
        (laneC 32 k t s f l + dotProduct 8 4 (laneA 32 k t s f l) (laneB 32 k true t s f l)).setWidth w))

/-- `vsel` takes a where the predicate in vc is true and b elsewhere; `vmovi` and `vsplat` write source b; a mapped `vmov`
writes P(n), an unmapped one copies the register with its tag (R161, R197).
`vcmp.cc` writes predicate vd in each lane that acts, true where the relation holds in the type's reading of a and b;
every other predicate bit stays (R162). -/
def Obligations.VectorMovesAndCompares : Prop :=
  (∀ (s : State) (k : Nat) (t : Team) (f : V3), Issues s k t → acts f.pre t →
    (accepted f { bks := [0, 1, 2], intClass := true } k t s → f.vc.toNat < 8 →
      exec (.vsel f) s = .next (s.retire k f.pre (t.withInts f (bit f.ty 1) (fun w l =>
        if bit (t.rp f.vc.toNat) l then BitVec.ofNat w (intSource k t s (t.guarded f.pre) (bit f.ty 1) f.va 0 l)
        else laneB w k true t s f l)))) ∧
    (accepted f { bks := [2], a := false, intClass := true } k t s →
      exec (.vmovi f) s = .next ((s.countMap f (t.guarded f.pre) t).retire k f.pre
        (t.withInts f (bit f.ty 1) (fun w _ => f.vb.signExtend w)))) ∧
    (accepted f { bks := [1], a := false, intClass := true } k t s →
      exec (.vsplat f) s = .next ((s.countMap f (t.guarded f.pre) t).retire k f.pre
        (t.withInts f (bit f.ty 1) (fun w _ =>
          if bit f.ty 1 then (t.rs2 (field f.vb 0 6)).setWidth w else (t.rs (field f.vb 0 6)).setWidth w)))) ∧
    (accepted f { mapA := true, intClass := true } k t s →
      exec (.vmov f) s =
        if f.ka = 0 then .next (s.retire k f.pre
          (if bit f.ty 1 then moveReg t (f.vd.toNat + 1) (f.va.toNat + 1) (t.acting f.pre)
            (moveReg t f.vd.toNat f.va.toNat (t.acting f.pre) t)
           else moveReg t f.vd.toNat f.va.toNat (t.acting f.pre) t))
        else .next ((s.countMap f (t.guarded f.pre) t).retire k f.pre
          (t.withInts f (bit f.ty 1) (fun w l =>
            BitVec.ofNat w (intSource k t s (t.guarded f.pre) false f.va f.ka l)))))) ∧
  (∀ (s : State) (k : Nat) (t : Team) (f : V3), Issues s k t → acts f.pre t →
  ∀ e ∈ ([(Instr.vcmpEq, fun _ _ a b => a == b), (Instr.vcmpNe, fun _ _ a b => a != b), (Instr.vcmpLt, below),
      (Instr.vcmpLe, fun w g a b => !below w g b a), (Instr.vcmpGt, fun w g a b => below w g b a),
      (Instr.vcmpGe, fun w g a b => !below w g a b)] :
      List ((V3 → Instr) × ((w : Nat) → Bool → BitVec w → BitVec w → Bool))),
    accepted f { bks := [0, 1, 2], mapA := true, mapB := true, pred := true, intClass := true } k t s →
    exec (e.1 f) s = .next ((s.countMap f (t.guarded f.pre) t).retire k f.pre
      (t.wp f.vd.toNat (t.acting f.pre) (maskWhere (t.guarded f.pre) t.words (fun l =>
        if bit f.ty 1 then e.2 64 (!bit f.ty 0) (laneA 64 k t s f l) (laneB 64 k true t s f l)
        else e.2 32 (!bit f.ty 0) (laneA 32 k t s f l) (laneB 32 k true t s f l))))))

/-- A floating-point instruction writes the result of its operation in each lane that acts, ORs the flags of those lanes
into `%fflags`, and with no trap enabled goes on at the next word (R135, R164, R165, R167, R169). The results of `fexp2` and `flog2`
are computed from the model's enclosures (log 25), and the integer zero of a mapped `q8` or `q4` element counts as +0 (log 137). -/
def Obligations.FloatLanes : Prop :=
  ∀ (s : State) (k : Nat) (t : Team) (f : V3), Issues s k t → acts f.pre t → trapsOff t →
  ∀ r ∈ floatRules f, accepted f r.spec k t s →
    exec (r.ins f) s = .next ((s.countMap f (t.guarded f.pre) t).retire k f.pre
      (t.withFloats f (f.ty == 1 && r.spec.wideD) r.tag (r.at f k t s)))

/-- A lane that raises a flag whose TEN bit is set has its result and flags all the same, and joins `%tlanes`: the lanes
leave the active mask, and the trap is due before the next instruction; where no lane waited in `%tlanes`, or those there had entered
their trap, `%tcause` names the flags and the trap's point is this instruction's (R135, R329). The results of `fexp2` and `flog2` come
from the model's enclosures (log 25), and the integer zero of a mapped `q8` or `q4` element counts as +0 (log 137): the model's choices. -/
def Obligations.FloatLaneTraps : Prop :=
  ∀ (s : State) (k : Nat) (t : Team) (f : V3), Issues s k t → acts f.pre t → trapReady t →
  ∀ r ∈ floatRules f, accepted f r.spec k t s →
    t.trapping (t.acting f.pre) (fun l => (r.at f k t s l).flags) ≠ 0 →
    exec (r.ins f) s = .next ((s.countMap f (t.guarded f.pre) t).retire k f.pre
      (t.withFloatTraps f (f.ty == 1 && r.spec.wideD) r.tag (r.at f k t s)))

/-- `fcmp.cc` writes predicate vd in the lanes that act and records their flags; lanes whose flag traps join `%tlanes`
(R135, R147, R162, R168, R329). -/
def Obligations.FloatCompare : Prop :=
  ∀ (s : State) (k : Nat) (t : Team) (f : V3), Issues s k t → acts f.pre t → trapReady t →
  ∀ e ∈ ([(Instr.fcmpEq, .eq), (Instr.fcmpNe, .ne), (Instr.fcmpLt, .lt), (Instr.fcmpLe, .le), (Instr.fcmpGt, .gt),
      (Instr.fcmpGe, .ge), (Instr.fcmpUn, .un)] : List ((V3 → Instr) × Cond)),
    accepted f { tys := [0, 1], bks := [0, 1, 2], mapA := true, mapB := true, pred := true } k t s →
    let r := fun l => laneCmp e.2 (tyFloat f.ty) (floatSource k t s (t.guarded f.pre) (f.ty == 1) f.va f.ka l)
      (v3FloatB f k t s (t.guarded f.pre) l)
    exec (e.1 f) s = .next ((s.countMap f (t.guarded f.pre) t).retire k f.pre
      (t.flagged (t.wp f.vd.toNat (t.acting f.pre) (maskWhere (t.acting f.pre) t.words (fun l => (r l).1)))
        (t.acting f.pre) (fun l => (r l).2)))

/-- `fsumerr` writes the rounded sum and its exact error, with the flags of the sum alone (R170); `osmx` takes one softmax
step in each lane block that holds a lane that acts, and `osmxf` divides by the running sum, `.rst` resetting the side
registers of those lane blocks (R171, R172). Lanes whose flag traps join `%tlanes` (R135, R329). Which of equal maxima `osmx` takes is the model's choice (log 27). -/
def Obligations.FloatSumErrorAndSoftmax : Prop :=
  ∀ (s : State) (k : Nat) (t : Team) (f : V3), Issues s k t → acts f.pre t → trapReady t →
    let m := t.acting f.pre
    (accepted f { tys := [0, 1], bks := [0, 1, 2], group := 2 } k t s →
      let r := fun l => (tyFloat f.ty).sumErr
        (ordinary (tyFloat f.ty) (floatSource k t s (t.guarded f.pre) (f.ty == 1) f.va 0 l)).bits
        (ordinary (tyFloat f.ty) (v3FloatB f k t s (t.guarded f.pre) l)).bits
      exec (.fsumerr f) s = .next (s.retire k f.pre
        (t.flagged (writeFloat (writeFloat t (f.ty == 1) f.vd.toNat m (tyTag f.ty) (fun l => (r l).1.bits)) (f.ty == 1)
          (f.vd.toNat + if f.ty == 1 then 2 else 1) m (tyTag f.ty) (fun l => (r l).2)) m (fun l => (r l).1.flags)))) ∧
    (accepted f { tys := [0] } k t s →
      let o := fun w => osmxBlock (t.side w) (((List.range 32).filter (fun i => bit (maskWord m w) i)).map
        (fun i => (i, (t.rl f.va.toNat (32 * w + i)).toNat)))
      exec (.osmx f) s = .next (s.retire k f.pre
        (t.flagged (({ t with sides := (passesOf m t.words).foldl (fun x w => Tab.set x w (o w).side) t.sides } : Team).wlanes
          f.vd.toNat m (plainTag .f32) (fun l => Tab.get (o (l / 32)).d 0 (l % 32))) m (fun l => (o (l / 32)).flags)))) ∧
    (accepted f { tys := [0] } k t s → f.vc.toNat < 2 →
      let r := fun l => binary32.divR 0 (binary32.value (t.rl f.va.toNat l).toNat) (binary32.value (t.side (l / 32)).ls.toNat)
      exec (.osmxf f) s = .next (s.retire k f.pre
        (t.flagged { t.wlanes f.vd.toNat m (plainTag .f32) (fun l => BitVec.ofNat 32 (r l).bits) with
            sides := if f.vc = 1 then (passesOf m t.words).foldl (fun x w => Tab.set x w {}) t.sides else t.sides }
          m (fun l => (r l).flags))))

/-- Rounding a value that a format holds gives the encoding of that value back, in every mode and with no flag (R126, R127,
R134). -/
def Obligations.RoundingKeepsEncodings : Prop :=
  ∀ F ∈ [binary64, binary32, bf16, f16, e5m2, e4m3, e3m2, e2m1], ∀ (mode : BitVec 2) (sat : Bool) (x : Nat),
    x < 2 ^ (1 + F.ebits + F.mbits) → ¬ (F.value x).isNaN →
    F.roundV mode sat (F.value x) = { bits := x, flags := 0 }

/-- `lshf` gives each lane that acts the word of its source lane in its own lane block, and zero where that lane does not
exist; the source lane block's tag goes with it (R177). -/
def Obligations.LaneShift : Prop :=
  ∀ (s : State) (k : Nat) (t : Team) (f : V3), Issues s k t → acts f.pre t →
    let n := if f.ty = 2 then 2 else 1
    noMapFields f → (f.ty = 0 ∨ f.ty = 2) → ((f.bk = 0 ∧ f.rm = 0 ∧ inFile t s f.vb n) ∨ uniformB f (f.ty == 2)) →
    inFile t s f.vd n → inFile t s f.va n →
    (∀ i < n, ∀ w ∈ passesOf (t.guarded f.pre) t.words, (t.rv (f.va.toNat + i) w).tag.plain = true) →
    let shift := fun l => if f.bk = 0 then (t.rl f.vb.toNat l).toNat else v3UniformB f t
    let src := fun l => 32 * (l / 32) + shiftLane f.rm (l % 32) (shift l)
    exec (.lshf f) s = .next (s.retire k f.pre ((List.range n).foldl (fun (u : Team) i =>
      (passesOf (t.acting f.pre) t.words).foldl (fun (u : Team) w =>
        u.wlanes (f.vd.toNat + i) (maskSpan (t.acting f.pre) w (w + 1)) (t.rv (f.va.toNat + i) w).tag
          (fun l => if src l < t.lanes then t.rl (f.va.toNat + i) (src l) else 0)) u) t))

/-- `lred` gives every lane that acts the fixed tree over its scope, `lscan` the tree over the lanes at or below it, or
strictly below with `.ex`; lanes that do not act supply the identity (R174, R176); lanes whose flag traps join `%tlanes` (R135, R329). -/
def Obligations.ReductionsAndScans : Prop :=
  ∀ (s : State) (k : Nat) (t : Team) (f : V3), Issues s k t → acts f.pre t → trapReady t →
    let wide := redWide f.vc.toNat f.ty
    noMapFields f → f.vc.toNat < 9 → (6 ≤ f.vc.toNat → bit f.ty 1 = false) →
    inFile t s f.vd (if wide then 2 else 1) → inFile t s f.va (if wide then 2 else 1) →
    let act := t.guarded f.pre
    (f.rm.toNat < 2 → exec (.lred f) s = .next (s.retire k f.pre (t.withFloatTraps f wide (redTag f.vc.toNat f.ty)
      (fun l => redTree f t act (bit f.rm 0) (l / 32) (fun _ => true))))) ∧
    exec (.lscan f) s = .next (s.retire k f.pre (t.withFloatTraps f wide (redTag f.vc.toNat f.ty)
      (fun l => redTree f t act (bit f.rm 0) (l / 32) (fun j => decide (j < l) || (j == l && !bit f.rm 1)))))

/-- `vote`: `.any` and `.all` write a predicate, `.bal` the mask word and `.cnt` the count of the lanes that act whose
predicate is true (R178).
`vtos` copies one lane's word, or pair, into scalar registers: the lane source b names, or with `.first` the lowest that
acts; a lane that does not exist is an illegal operation (R179). That an immediate lane is checked whatever the guard, a scalar one
when the guard holds, is the model's choice (log 105). -/
def Obligations.VotesAndLaneToScalar : Prop :=
  (∀ (s : State) (k : Nat) (t : Team) (f : V3), Issues s k t → acts f.pre t → noMapFields f → f.va.toNat < 8 →
    let act := t.guarded f.pre
    let yes := act &&& t.rp f.va.toNat
    (f.vd.toNat < 8 →
      (f.rm = 0 → exec (.vote f) s = .next (s.retire k f.pre (t.wp f.vd.toNat act (if yes = 0 then 0 else act)))) ∧
      (f.rm = 1 → exec (.vote f) s = .next (s.retire k f.pre (t.wp f.vd.toNat act (if yes = act then act else 0))))) ∧
    (inFile t s f.vd 1 →
      (f.rm = 2 → exec (.vote f) s = .next (s.retire k f.pre
        (t.wlanes f.vd.toNat act (plainTag .i32) (fun l => maskWord yes (l / 32))))) ∧
      (f.rm = 3 → exec (.vote f) s = .next (s.retire k f.pre
        (t.wlanes f.vd.toNat act (plainTag .i32) (fun _ => BitVec.ofNat 32 (lanesOf yes t.words).length)))))) ∧
  (∀ (s : State) (k : Nat) (t : Team) (f : V3), Issues s k t → acts f.pre t →
    noMapFields f → (f.ty = 0 ∨ (f.ty = 2 ∧ bit f.vd 0 = false)) → inFile t s f.va (if f.ty = 2 then 2 else 1) →
    (f.rm = 1 ∨ (f.rm = 0 ∧ uniformB f (f.ty == 2))) →
    let l := if f.rm = 0 then v3UniformB f t else ((lanesOf (t.guarded f.pre) t.words).head?).getD 0
    (l < t.lanes → exec (.vtos f) s = .next (s.retire k f.pre
      (if f.ty = 2 then t.ws2 (field f.vd 0 6) (t.rl2 f.va.toNat l) else t.ws (field f.vd 0 6) (t.rl f.va.toNat l)))) ∧
    (t.lanes ≤ l → exec (.vtos f) s = .next (s.raise k t 6 5 0 none))) ∧
  (∀ (s : State) (k : Nat) (t : Team) (f : V3), Issues s k t → t.active ≠ 0 → t.guarded f.pre = 0 →
    noMapFields f → (f.ty = 0 ∨ (f.ty = 2 ∧ bit f.vd 0 = false)) → inFile t s f.va (if f.ty = 2 then 2 else 1) → f.rm = 0 →
    (f.bk = 2 → t.lanes ≤ v3UniformB f t → exec (.vtos f) s = .next (s.raise k t 6 5 0 none)) ∧
    (uniformB f (f.ty == 2) → f.bk = 1 ∨ v3UniformB f t < t.lanes → exec (.vtos f) s = .next (s.retire k f.pre t)))

/-- `mapgen` fills a slot with the matrix of Table 9-9, `mapz` empties it, `mapmov` copies another; each is a write of the
team's that the block does not see yet, and nothing else changes (R158, R180, R181).
`mapinfo` writes the same word to every lane that acts: format, rotation and SET of the slot, or its seed (R182). -/
def Obligations.SlotWritesAndInfo : Prop :=
  (∀ (s : State) (k : Nat) (t : Team) (f : V3), Issues s k t → acts f.pre t → f.rm = 0 → f.kc = 0 → inMapWindow t s f.ka →
    let slot := fun v => Host.Outcome.next ((s.setBlock t.blk ((s.blockOf t).writeSlot t.uid f.ka.toNat v)).retire k f.pre t)
    (f.kb = 0 → exec (.mapz f) s = slot {}) ∧
    (inMapWindow t s f.kb → exec (.mapmov f) s =
      if f.ka = f.kb then .next (s.retire k f.pre t) else slot (s.mapSlot k t f.kb.toNat)) ∧
    (f.kb = 0 → f.vc.toNat < 9 → bit f.ty 1 = false →
      (mapgenRange f.vc.toNat = none → exec (.mapgen f) s = slot (mapgenSlot f.vc.toNat 0 (f.ty == 1))) ∧
      (∀ lo hi, mapgenRange f.vc.toNat = some (lo, hi) → uniformB f false →
        let q := if f.bk = 1 then (t.rs (field f.vb 0 6)).toInt else f.vb.toInt
        (lo ≤ q → q ≤ hi → exec (.mapgen f) s = slot (mapgenSlot f.vc.toNat q (f.ty == 1))) ∧
        (q < lo ∨ hi < q → exec (.mapgen f) s = .next (s.raise k t 6 5 0 none))))) ∧
  (∀ (s : State) (k : Nat) (t : Team) (f : V3), Issues s k t → acts f.pre t →
    f.rm = 0 → f.kb = 0 → f.kc = 0 → inMapWindow t s f.ka → inFile t s f.vd 1 →
    let sl := s.mapSlot k t f.ka.toNat
    (f.bk ≠ 2 ∨ (f.vb ≠ 0 ∧ f.vb ≠ 1) → exec (.mapinfo f) s = .next (s.raise k t 6 1 0 none)) ∧
    (f.bk = 2 → f.vb = 0 → exec (.mapinfo f) s = .next (s.retire k f.pre (t.wlanes f.vd.toNat (t.guarded f.pre) (plainTag .i32)
      (fun _ => BitVec.ofNat 32 sl.tag.fmt.code ||| (if sl.tag.rot = .none then 0 else 0x100#32) |||
        (if sl.set then 0x10000#32 else 0))))) ∧
    (f.bk = 2 → f.vb = 1 → exec (.mapinfo f) s = .next (s.retire k f.pre (t.wlanes f.vd.toNat (t.guarded f.pre) (plainTag .i32)
      (fun _ => match sl.tag.rot with | .none => 0 | .h32 seed => seed)))))

/-- `cvtn` writes in each lane block that holds a lane that acts one register of the slot's format, whole, with its scales
and tag, lanes that do not act entering as zero; `cvtw` widens the blocks of a register into f32 registers where its tag
matches, and faults where it does not (R188 to R192); lanes whose flag traps join `%tlanes` (R135, R329). -/
def Obligations.BlockConversions : Prop :=
  ∀ (s : State) (k : Nat) (t : Team) (f : V3) (tag : Tag), Issues s k t → acts f.pre t → trapReady t →
    noMapFields f → f.rm = 0 → f.vc.toNat < 8 → tag = slotTag ((s.recOf t).fmtSlot f.vc.toNat) → tag.fmt.scaled = true →
    let act := t.guarded f.pre
    let m := t.acting f.pre
    (inFile t s f.vd 1 → (s.recOf t).vecOk f.va.toNat tag.fmt.count 1 = true →
      let b := fun w => cvtnBlock tag t f.va.toNat w (maskWord act w)
      exec (.cvtn f) s = .next (s.retire k f.pre
        (t.flagged ((passesOf m t.words).foldl (fun (u : Team) w => u.wv f.vd.toNat w (b w).1) t) m
          (fun l => (b (l / 32)).2 (l % 32))))) ∧
    (inFile t s f.va 1 → (s.recOf t).vecOk f.vd.toNat tag.fmt.count 1 = true →
      let b := fun w e => widenBlock tag (membersOf tag.fmt (t.rv f.va.toNat w) e)
      let r := fun e l => ((b (l / 32) e)[l % 32]?).getD { bits := 0 }
      (tagsMatch t act f.va.toNat tag = true → exec (.cvtw f) s = .next (s.retire k f.pre
        (t.flagged ((List.range tag.fmt.count).foldl (fun (u : Team) e =>
          u.wlanes (f.vd.toNat + e) m (plainTag .f32) (fun l => BitVec.ofNat 32 (r e l).bits)) t) m
          (fun l => (List.range tag.fmt.count).foldl (fun g e => g ||| (r e l).flags) 0)))) ∧
      (tagsMatch t act f.va.toNat tag = false → exec (.cvtw f) s = .next (s.raise k t 3 2 0 none)))

/-- `fcvt` converts between floating-point formats, `fcvti` to integers at the bounds of their type, `icvtf` from them
(R193 to R195); lanes whose flag traps join `%tlanes` (R135, R329). -/
def Obligations.ScalarFormatConversions : Prop :=
  ∀ (s : State) (k : Nat) (t : Team) (f : V3), Issues s k t → acts f.pre t → trapReady t → noMapFields f →
    (f.vc.toNat < 8 → (f.vc = 0 ∨ f.vc = 2 ∨ f.vc = 3 ∨ f.rm = 0) →
      inFile t s f.vd (if f.vc = 1 then 2 else 1) → inFile t s f.va (if f.vc = 0 then 2 else 1) →
      (f.vc = 2 ∨ f.vc = 3 → inFile t s f.vb 1) →
      exec (.fcvt f) s = .next (s.retire k f.pre (t.withFloatTraps f (f.vc == 1)
        (plainTag (if f.vc = 1 then .f64 else if f.vc = 2 then .bf16 else if f.vc = 3 then .f16 else .f32)) (fcvtLane f t)))) ∧
    (f.vc.toNat < 2 → inFile t s f.vd (if bit f.ty 1 then 2 else 1) → inFile t s f.va (if f.vc = 1 then 2 else 1) →
      exec (.fcvti f) s = .next (s.retire k f.pre (t.withFloatTraps f (bit f.ty 1) (plainTag .i32) (fun l =>
        let x := if f.vc = 1 then binary64.value (t.rl2 f.va.toNat l).toNat else binary32.value (t.rl f.va.toNat l).toNat
        let w := tyWidth f.ty
        let r := toIntR x f.rm (if bit f.ty 0 then 0 else -(2 ^ (w - 1))) (if bit f.ty 0 then 2 ^ w - 1 else 2 ^ (w - 1) - 1)
        { bits := (BitVec.ofInt w r.1).toNat, flags := r.2 })))) ∧
    (f.vc.toNat < 2 → inFile t s f.vd (if f.vc = 1 then 2 else 1) → inFile t s f.va (if bit f.ty 1 then 2 else 1) →
      exec (.icvtf f) s = .next (s.retire k f.pre (t.withFloatTraps f (f.vc == 1)
        (plainTag (if f.vc = 1 then .f64 else .f32)) (fun l => (if f.vc = 1 then binary64 else binary32).ofInt f.rm
          (if bit f.ty 1 then (if bit f.ty 0 then ((t.rl2 f.va.toNat l).toNat : Int) else (t.rl2 f.va.toNat l).toInt)
           else (if bit f.ty 0 then ((t.rl f.va.toNat l).toNat : Int) else (t.rl f.va.toNat l).toInt))))))

/-- Where an access of `z` bytes lies: a global one word by word in a lease that allows it and at its pinned location, if
its address is canonical and aligned, in a deterministic launch inside the own slice of a sliced lease (R292); one to scratch, fleeting or constant space inside its allocation (R205 to R207).
The faults of an access that has no place, in an order that is read from the numbering of their classes and details (Table
23-2, log 124): not canonical, not aligned, outside the
allocation, outside every lease or in the undo area, a write to a read-only lease, outside the own slice of a sliced lease, no pinned
translation (R206, R207, R292, Table 23-2). -/
def Obligations.AccessPlacesAndFaults : Prop :=
  let own := fun (tk : Task) (l : Lease) (b va : Nat) =>
    l.base + b * (l.len / tk.lr.grid) ≤ va ∧ va < l.base + (b + 1) * (l.len / tk.lr.grid)
  (∀ (s : State) (k : Nat) (t : Team) (write : Bool) (z al : Nat) (a : DWord), a.toNat % al = 0 → 0 < z →
    (∀ tk, s.task? t.task = some tk → canonical a = true →
      (∀ w ∈ wordsAt a.toNat z, tk.inUndo (4 * w) = false ∧ (∃ l, tk.leaseOf (4 * w) = some l ∧ (write = true → l.rw = true) ∧
          (tk.det = true → l.sliced = true → own tk l t.block (4 * w))) ∧ (s.locate tk (4 * w)).isSome = true) →
      let held := fun w => tk.det && (match tk.leaseOf (4 * w) with | some l => l.shared | none => false)
      let at_ := fun w => ((s.locate tk (4 * w)).getD 0) / 4
      resolve k t s 0 write z al a =
        .ok { spc := 0, words := (wordsAt a.toNat z).map at_, shared := (wordsAt a.toNat z).any held }) ∧
    (a.toNat + z ≤ (s.recOf t).scratchBytes → resolve k t s 1 write z al a = .ok { spc := 1, words := wordsAt a.toNat z }) ∧
    (a.toNat + z ≤ 2048 * (s.recOf t).fleet → resolve k t s 2 write z al a = .ok { spc := 2, words := wordsAt a.toNat z }) ∧
    (∀ tk, s.task? t.task = some tk → a.toNat + z ≤ 4 * tk.consts.length →
      resolve k t s 4 write z al a = .ok { spc := 4, words := wordsAt a.toNat z })) ∧
  (∀ (s : State) (k : Nat) (t : Team) (write : Bool) (z al : Nat) (a : DWord),
    (canonical a = false → resolve k t s 0 write z al a = faultAt 1 1 a) ∧
    (∀ spc, (spc = 0 → canonical a = true) → a.toNat % al ≠ 0 → resolve k t s spc write z al a = faultAt 1 2 a) ∧
    (a.toNat % al = 0 →
      ((s.recOf t).scratchBytes < a.toNat + z → resolve k t s 1 write z al a = faultAt 1 3 a) ∧
      (2048 * (s.recOf t).fleet < a.toNat + z → resolve k t s 2 write z al a = faultAt 1 3 a) ∧
      (∀ tk, s.task? t.task = some tk →
        (4 * tk.consts.length < a.toNat + z → resolve k t s 4 write z al a = faultAt 1 3 a) ∧
        (a.toNat < 36864 ∨ tk.lr.privSize < a.toNat + z → resolve k t s 3 write z al a = faultAt 1 3 a) ∧
        (canonical a = true → 0 < z →
          (tk.inUndo (4 * (a.toNat / 4)) = true ∨ tk.leaseOf (4 * (a.toNat / 4)) = none →
            resolve k t s 0 write z al a = faultAt 2 1 a) ∧
          (∀ l, tk.inUndo (4 * (a.toNat / 4)) = false → tk.leaseOf (4 * (a.toNat / 4)) = some l →
            (write = true → l.rw = false → resolve k t s 0 write z al a = faultAt 2 2 a) ∧
            ((write = true → l.rw = true) → tk.det = true → l.sliced = true → ¬ own tk l t.block (4 * (a.toNat / 4)) →
              resolve k t s 0 write z al a = faultAt 2 3 a) ∧
            ((write = true → l.rw = true) → (tk.det = true → l.sliced = true → own tk l t.block (4 * (a.toNat / 4))) → s.locate tk (4 * (a.toNat / 4)) = none →
              resolve k t s 0 write z al a = faultAt 1 5 a))))))

/-- A memory instruction of a lane whose access has no place stops its team with that fault, and no lane of it has any
effect: the manual leaves open which lanes were performed, and that none was is the model's choice (R235, R335, log 70). A load
whose request meets an edge that is not open stops its team with a memory fault, and the edge counts it (R33). -/
def Obligations.MemoryFaultStopsTheTeam : Prop :=
  ∀ (s : State) (k : Nat) (t : Team) (f : MF) (c d : Nat) (a : DWord) (e : Option (Nat × Nat)), Issues s k t → acts f.pre t →
    let stop := Host.Outcome.next (s.raise k t c d a e)
    let z := accessSize f
    (lanesFor k t s f false (t.acting f.pre) = .error (.fault c d a e) → mCheck f { ords := [0, 1] } t s = .ok () →
      mdVector f t s = .ok () → exec (.vld f) s = stop) ∧
    (lanesFor k t s f true (t.acting f.pre) = .error (.fault c d a e) → vstStop f k t s = none →
      mCheck f { ords := [0, 2], spcs := [0, 1, 2, 3] } t s = .ok () → mdVector f t s = .ok () → exec (.vst f) s = stop) ∧
    (teamAccess k t s f false z z = .error (.fault c d a e) →
      mCheck f { ords := [0, 1], szs := [0, 1, 2, 3], ams := [3] } t s = .ok () → mdScalar f f.md = .ok () →
      exec (.sld f) s = stop) ∧
    (teamAccess k t s f true z z = .error (.fault c d a e) →
      mCheck f { ords := [0, 2], spcs := [0, 1, 2, 3], szs := [0, 1, 2, 3], ams := [3] } t s = .ok () →
      mdScalar f f.md = .ok () → exec (.sst f) s = stop) ∧
    (∀ x w edge, mCheck f { ords := [0, 1], szs := [0, 1, 2, 3], ams := [3] } t s = .ok () → mdScalar f f.md = .ok () →
      teamAccess k t s f false z z = .ok x → x.place = { spc := 0, words := [w] } → s.held? (coreOf k) t w = none →
      cached (s.cluster (clusterOf (coreOf k))).l2 w = none →
      s.blockedEdge (dieOfLoc (4 * w)) 5 (dieOf (coreOf k)) = some edge →
      exec (.sld f) s = .next (s.raise k t 1 4 x.addr (some edge)) ∧
        (s.raise k t 1 4 x.addr (some edge)).edge edge.1 edge.2 =
          { s.edge edge.1 edge.2 with
              count := (s.edge edge.1 edge.2).count + 1,
              ovf := (s.edge edge.1 edge.2).ovf || (s.edge edge.1 edge.2).count == BitVec.allOnes 31 })

/-- `vst` and `sst` make the stores of their lanes, in lane order, and go on; a lane's store of up to 64 bits is one access, one of 128
bits two of 64, each with its own place (R206, R237); a `vst` to a shared range whose pass finds the commit buffer too full performs
the passes before it and waits there (R224, R225, R294).
What the stores of an instruction do: with every word at hand, nothing shared and the version budget not spent, each
queues its words in lane order, a release coming first; nothing of the team changes (R224, R239, R341). -/
def Obligations.StoresQueueTheirWords : Prop :=
  (∀ (s : State) (k : Nat) (t : Team) (f : MF), Issues s k t → acts f.pre t →
    let z := accessSize f
    (mCheck f { ords := [0, 2], spcs := [0, 1, 2, 3] } t s = .ok () → mdVector f t s = .ok () →
      (∀ data u s', vstStop f k t s = none → vstData k f t s (t.acting f.pre) = .ok data →
        storeLanes k t s f.evp.toNat (f.ord == 2) (min 8 z) data = .ok (u, s') →
        exec (.vst f) s = .next (s'.retire k f.pre u)) ∧
      (∀ w data u s', vstStop f k t s = some w →
        let m := t.guarded f.pre
        let v : Team := { t with stopAt := some w }
        vstData k f v s (maskSpan m 0 w) = .ok data →
        storeLanes k v s f.evp.toNat (f.ord == 2) (min 8 z) data = .ok (u, s') →
        exec (.vst f) s = .next (s'.waits k { u with
          intr := some { act := m, next := w, trap := 0, flags := 0, slots := [] },
          pix := BitVec.ofNat 32 (w + 1), stopAt := none } (.commit true)))) ∧
    (∀ m accs, lanesFor k t s f true m = .ok accs →
      (f.sz.toNat < 4 → vstData k f t s m = .ok (accs.map (fun a => (a, storedLane f t a.lane)))) ∧
      (f.sz = 4 → ∀ p q : Nat → Place,
        (∀ a ∈ accs, resolve k t s f.spc.toNat true 8 8 a.addr = .ok (p a.lane) ∧
          resolve k t s f.spc.toNat true 8 8 (a.addr + 8) = .ok (q a.lane)) →
        vstData k f t s m = .ok (accs.flatMap (fun a =>
          [(({ lane := a.lane, addr := a.addr, place := p a.lane } : LaneAcc), storedLane f t a.lane % 2 ^ 64),
           ({ lane := a.lane, addr := a.addr + 8, place := q a.lane }, storedLane f t a.lane / 2 ^ 64)])))) ∧
    (∀ a u s', mCheck f { ords := [0, 2], spcs := [0, 1, 2, 3], szs := [0, 1, 2, 3], ams := [3] } t s = .ok () →
      mdScalar f f.md = .ok () → teamAccess k t s f true z z = .ok a →
      storeLanes k t s f.evp.toNat (f.ord == 2) z [(a, t.scalar (f.sz == 3) f.md.toNat % 2 ^ (8 * z))] = .ok (u, s') →
      exec (.sst f) s = .next (s'.retire k f.pre u))) ∧
  (∀ (s s1 : State) (k : Nat) (t : Team) (evp : Nat) (release : Bool) (z : Nat) (accs : List (LaneAcc × Nat)),
    (∀ e ∈ accs, e.1.place.spc = 0 ∧ e.1.place.shared = false) → storeReady k t s evp z (accs.map (·.1)) = .ok () →
    accs ≠ [] → s.chargeLines t.task (accs.flatMap (·.1.place.words)) = .ok s1 →
    storeLanes k t s evp release z accs = .ok (t, storeMem k t (if release then s1.release k else s1) evp
      (if release then some t.carried else none) z accs))

/-- `vld` and `sld` of accesses that have places and are ready complete: they write what their accesses read, zero and p6 for an
expired fleeting word, with the plain tags of R223; an ordered load reads at the home, and one acquire follows its last read (R223,
R225, R219, R239, R242). Of the team only the registers named, p6 for a fleeting load, pc and the end of its run change, with an
acquire the carried signature too. Without an acquire nothing else of the part changes but INSTR and the use of lines; with one the
words at their homes are those that the registration of the queued stores it is ordered after leaves, and blocks stay.
READINESS, outside shared ranges. A team whose words its core holds, none poisoned, is ready to load, an acquire where its requests
reach their homes; so is one whose fleeting words may expire, whose scratch lines are in their banks, filled and good, or whose
constants are good. A word of memory that the core does not hold breaks its run, and it waits for the lines; a request goes to a home
for those of them with a word that the cluster's cache does not hold either, or that an ordered load reads (R33, R45, R62, R214);
where its launch allows Outrider and `%fmode` asks for it, the break takes the checkpoint that its return restores (R65, R66). -/
def Obligations.LoadsAndTheirReadiness : Prop :=
  (∀ (s : State) (k : Nat) (t : Team) (f : MF), Issues s k t → acts f.pre t →
    let m := t.acting f.pre
    let z := accessSize f
    let acq := f.ord == 1
    (∀ accs, mCheck f { ords := [0, 1] } t s = .ok () → mdVector f t s = .ok () → lanesFor k t s f false m = .ok accs →
      (loadReady k t s acq f.evp.toNat accs = .ok () →
        let b := beforeRead k t s acq accs
        let v := loadedLanes k b.1 b.2 z accs
        let u := writeLoaded f b.1 m (fun l => (Tab.get v none l).getD 0)
        let r := afterRead k (if f.spc = 2 then u.wp 6 m (maskWhere m t.words (fun l => (Tab.get v none l).isNone)) else u) b.2
          acq true f.evp.toNat accs
        let s' := r.2.retire k f.pre r.1
        exec (.vld f) s = .next s' ∧ LoadFrame k t acq (memWords accs) s s' ∧ ∃ v, s'.team? k = some v ∧ v.s = t.s ∧
          (∀ i, i ≠ 6 ∨ f.spc ≠ 2 → v.rp i = t.rp i) ∧ (∀ i l, l < 1024 → bit m l = false → v.rl i l = t.rl i l) ∧
          ∀ i, i < f.md.toNat ∨ f.md.toNat + dataRegs f.sz ≤ i → t.words ≤ 32 → ∀ w, w < 32 → v.rv i w = t.rv i w) ∧
      (∀ x, loadReady k t s acq f.evp.toNat accs = .error (.wait (s.setTeam k t) x) →
        exec (.vld f) s = .next (s.waits k t x))) ∧
    (∀ a, mCheck f { ords := [0, 1], szs := [0, 1, 2, 3], ams := [3] } t s = .ok () → mdScalar f f.md = .ok () →
      teamAccess k t s f false z z = .ok a →
      (loadReady k t s acq f.evp.toNat [a] = .ok () →
        let b := beforeRead k t s acq [a]
        let v := (readWords k b.1 b.2 a.place).map (fun ws => bytesIn ws a.addr.toNat z)
        let u := if f.sz = 3 then b.1.ws2 f.md.toNat (BitVec.ofNat 64 (v.getD 0))
          else b.1.ws f.md.toNat (BitVec.ofNat 32 (v.getD 0))
        let g := t.guarded f.pre
        let r := afterRead k (if f.spc = 2 then u.wp 6 g (if v.isNone then g else 0) else u) b.2 acq true f.evp.toNat [a]
        let s' := r.2.retire k f.pre r.1
        exec (.sld f) s = .next s' ∧ LoadFrame k t acq (memWords [a]) s s' ∧ ∃ v, s'.team? k = some v ∧ v.v = t.v ∧
          (∀ i, i ≠ 6 ∨ f.spc ≠ 2 → v.rp i = t.rp i) ∧
          ∀ i, i ≠ f.md.toNat → (f.sz = 3 → i ≠ f.md.toNat + 1) → v.rs i = t.rs i) ∧
      (∀ x, loadReady k t s acq f.evp.toNat [a] = .error (.wait (s.setTeam k t) x) →
        exec (.sld f) s = .next (s.waits k t x)))) ∧
  (∀ (s : State) (k : Nat) (t : Team) (acq : Bool) (evp : Nat) (accs : List LaneAcc),
    (∀ a ∈ accs, a.place.shared = false) →
    let ws := accs.flatMap (·.place.words)
    let ready := loadReady k t s acq evp accs = .ok ()
    let reached := ∀ w ∈ ws, s.blockedEdge (dieOfLoc (4 * w)) 5 (dieOf (coreOf k)) = none ∧ s.peerAdmits (4 * w) = true
    ((∀ a ∈ accs, a.place.spc = 0 ∨ a.place.spc = 3) → (∀ w ∈ ws, Tab.get? s.poisoned w = none) →
      ((∀ w ∈ ws, (s.held? (coreOf k) t w).isSome = true) → (acq = true → reached) → ready) ∧
      ((∃ w ∈ ws, s.held? (coreOf k) t w = none) → reached →
        ∃ lines sent, lines ≠ [] ∧ (∀ n, n ∈ lines ↔ ∃ w ∈ ws, s.held? (coreOf k) t w = none ∧ n = w / 32) ∧
          (∀ n, n ∈ sent ↔ ∃ w ∈ ws, s.held? (coreOf k) t w = none ∧ n = w / 32 ∧
            (acq = true ∨ cached (s.cluster (clusterOf (coreOf k))).l2 w = none)) ∧
          loadReady k t s acq evp accs = .error (.wait (s.setTeam k t) (.fill lines sent evp)))) ∧
    ((∀ a ∈ accs, a.place.spc = 1) →
      (∀ w ∈ ws, (∀ n, bankOfLine (s.blockOf t).banks (w / 32) = some n → ((s.cluster (clusterOf (coreOf k))).bank n).mode = .scratch) ∧
        ((s.recOf t).regionLine (w / 32) = none ∨ w / 32 ∈ (s.blockOf t).touched) ∧ w ∉ (s.blockOf t).badWords) → ready) ∧
    ((∀ a ∈ accs, a.place.spc = 2) → s.detOf t = false → ready) ∧
    ((∀ a ∈ accs, a.place.spc = 4) → (∀ tk, s.task? t.task = some tk → ∀ w ∈ ws, w ∉ tk.badConsts) → ready)) ∧
  (∀ (s : State) (k : Nat) (t : Team) (tk : Task) (lines sent : List Nat) (evp : Nat), s.task? t.task = some tk →
    ∃ u, (s.waits k t (.fill lines sent evp)).team? k = some u ∧ u.wait = some (.fill lines sent evp) ∧ u.pc = t.pc ∧
      u.out = (if tk.lr.outr && bit t.fmode 8 then
        some { pc := t.pc, s := t.s, p := t.p, sides := t.sides, active := t.active, v := t.v, fflags := t.fflags } else t.out))

/-- A store that finds room in its core's cache, no other core's store to its words standing in the cluster's, changes, of what that
core reads, exactly the bytes it stores; no word at its home changes until the store is registered, but with evp 7 (R214, R215, R224,
R243).
Registering stores of a core writes at their homes words of its queued stores and no other word, and leaves every other
core's queue alone (R243, R248).
An atomic of one word in memory reads and writes it at its home in one step: the old value is the home's after the
core's own stores to it, the team's ordered ones and those that its cluster's cache holds to it, the new one stands there, and any
other word that no queued store writes stays (R234, R242, R247, R248). Which queued stores an atomic registers first, in its own step, is
the model's reading (logs 69, 123). -/
def Obligations.WordsChangedByStoresAndAtomics : Prop :=
  (∀ (s : State) (k : Nat) (t : Team) (evp : Nat) (rel : Option Sig) (a : LaneAcc) (z v : Nat), evp ≠ 7 →
    let ws := a.place.words
    ws.Nodup → (s.core (coreOf k)).l1.length + ws.length ≤ Config.l1Lines →
    (∀ w ∈ ws, ∀ c, dirtyBy (s.cluster (clusterOf (coreOf k))).l2 w = some c → c = coreOf k) →
    let s' := storeMem k t s evp rel z [(a, v)]
    (∀ w, w ∉ ws → s'.viewWord (coreOf k) w = s.viewWord (coreOf k) w) ∧
    (∀ i w, ws[i]? = some w → s'.viewWord (coreOf k) w =
      ((s.held? (coreOf k) t w).getD 0 &&& keptBits a.addr.toNat z i) |||
        (dataWord v a.addr.toNat i &&& ~~~(keptBits a.addr.toNat z i))) ∧
    (∀ w, s'.peek w = s.peek w) ∧ (∀ c, c ≠ coreOf k → s'.core c = s.core c) ∧ s'.teams = s.teams ∧ s'.blocks = s.blocks) ∧
  (∀ (s : State) (c w : Nat) (f : PStore → Bool),
    (∀ p ∈ (s.core c).stores, ∀ e ∈ p.words, e.1 ≠ w) →
    (s.registerIf c f).peek w = s.peek w ∧ (∀ d, d ≠ c → ((s.registerIf c f).core d).stores = (s.core d).stores) ∧
    (∀ p ∈ (s.core c).stores, f p = true → p ∉ ((s.registerIf c f).core c).stores)) ∧
  (∀ (s : State) (k : Nat) (t : Team) (aop : Nat) (rel : Option Sig) (w v c : Nat), s.memoryWf = true →
    let s1 := s.ordered k [w]
    let r := atomicMem k t s aop false rel [w] v c
    r.1 = (s1.peek w).toNat ∧ r.2.peek w = BitVec.ofNat 32 (atomicNew aop false (s1.peek w).toNat v c) ∧
    ∀ j, j ≠ w → s.unstored j → r.2.peek j = s.peek j)

/-- `ldsc` writes a lane block whole, chunk by chunk, with the slot's tag; `stsc` stores the chunks of a register whose tag is a
scaled one and matches, each word an access with its own place, and faults when a tag is plain or another (R198, R199, R206, R226,
R237). -/
def Obligations.ScaledChunks : Prop :=
  ∀ (s : State) (k : Nat) (t : Team) (f : MF) (chunks : List (Nat × List LaneAcc)), Issues s k t → acts f.pre t →
    let m := t.acting f.pre
    let accs := chunks.flatMap (·.2)
    let tag := chunkTag f t s
    let acq := f.ord == 1
    mdVector f t s = .ok () →
    (tag.fmt.scaled = true → mCheck f { ords := [0, 1], szs := [2], ams := [1] } t s = .ok () →
      chunkAccs k t s f false m = .ok chunks → loadReady k t s acq f.evp.toNat accs = .ok () →
      let b := beforeRead k t s acq accs
      let u := chunks.foldl (fun (v : Team) c =>
        let blk := maskSpan m c.1 (c.1 + 1)
        match c.2.mapM (fun a => readWords k b.1 b.2 a.place) with
        | some ws =>
          let v := v.wv f.md.toNat c.1 (chunkReg tag ws.flatten)
          if f.spc = 2 then v.wp 6 blk 0 else v
        | none => (v.wv f.md.toNat c.1 { tag := tag }).wp 6 blk blk) b.1
      let r := afterRead k u b.2 acq true f.evp.toNat accs
      exec (.ldsc f) s = .next (r.2.retire k f.pre r.1)) ∧
    (tag.fmt.scaled = false → mCheck f { ords := [0, 1], szs := [2], ams := [1] } t s = .ok () →
      exec (.ldsc f) s = .next (s.raise k t 6 5 0 none)) ∧
    (mCheck f { ords := [0, 2], spcs := [0, 1, 2, 3], szs := [2], ams := [1] } t s = .ok () →
      let blocks := passesOf (t.guarded f.pre) t.words
      ((∃ w ∈ blocks, (t.rv f.md.toNat w).tag ≠ tag ∨ (t.rv f.md.toNat w).tag.fmt.scaled = false) →
        exec (.stsc f) s = .next (s.raise k t 3 3 0 none)) ∧
      ((∀ w ∈ blocks, (t.rv f.md.toNat w).tag = tag ∧ tag.fmt.scaled = true) → stscStop f k t s = none →
        chunkAccs k t s f true m = .ok chunks →
        ∀ u s', storeLanes k t s f.evp.toNat (f.ord == 2) 4 (chunks.flatMap (fun c =>
            c.2.zip ((chunkWords (t.rv f.md.toNat c.1)).map (·.toNat)))) = .ok (u, s') →
        exec (.stsc f) s = .next (s'.retire k f.pre u)))

/-- `vprf` starts a walk for each line of its lanes and drops an access that has no place or whose walk fails, its misses scored as a
load's. A walk that ends under the generation it started under brings its line into the caches, unless its request is refused, and is
discarded and started again under another (R326). `scwb` of no bytes does nothing and of a range stores its dirty words, which are clean after, and
waits while a bank of theirs is in transition; `bankq` reads BKCTL of a bank of the cluster (R47, R211, R227 to R229). That a
refused prefetch raises no fault, that every prefetch makes its walk, and that a dirty word only partly in the range of `scwb` is
written whole, are the model's choices (logs 104, 15, 127). -/
def Obligations.PrefetchWriteBackBankQuery : Prop :=
  ∀ (s : State) (k : Nat) (t : Team) (f : MF), Issues s k t → acts f.pre t →
    (mCheck f { spcs := [0, 3] } t s = .ok () →
      let z := accessSize f
      let addr := laneAddr f t z
      let vas := (lanesOf (t.acting f.pre) t.words).flatMap (fun l => match resolve k t s f.spc.toNat false z z (addr l) with
        | .ok _ => accessVas k t s f.spc.toNat z (addr l)
        | .error _ => [])
      let r := s.prefetchWords k t.part f.evp.toNat vas
      exec (.vprf f) s = .next (r.1.retire k f.pre { t with score := t.scoreAfter r.2 })) ∧
    (∀ evp vas, vas ≠ [] → (∀ v ∈ vas, v / 128 = vas.headD 0 / 128) →
      let r := s.prefetchWords k t.part evp vas
      (s.vloc t.part (vas.headD 0) = none → r = (s, 0)) ∧
      ∀ loc, s.vloc t.part (vas.headD 0) = some loc →
        let x : Refill := { slot := slotOf k, part := t.part, evp := evp, vas := vas, gen := (s.part t.part).walkGen,
                            line := loc / 128 }
        r = (s.addRefill (coreOf k) x,
          if ∃ v ∈ vas, cached (s.core (coreOf k)).l1 (32 * x.line + v / 4 % 32) = none then
            (s.core (coreOf k)).lostLines (slotOf k) [x.line] else 0)) ∧
    (∀ c (x : Refill), (s.core c).refills = [x] → (∀ e ∈ s.teams, coreOf e.1 = c → ∀ lines sent evp,
          e.2.wait = some (.fill lines sent evp) → x.line ∉ lines) →
      let s1 := s.setCore c { s.core c with refills := [] }
      let out := fun (y : State) => exec (.lineFillReturn c x.line) s = .next y
      let near := fun (v : Nat) => cached (s.core c).l1 (32 * x.line + v / 4 % 32) ≠ none ∨
        cached (s.cluster (clusterOf c)).l2 (32 * x.line + v / 4 % 32) ≠ none
      (x.gen = (s.part x.part).walkGen →
        ((∀ v ∈ x.vas, near v) → out (s1.bringLine c x.line x.evp x.slot false)) ∧
        ((∃ v ∈ x.vas, ¬ near v) →
          (∀ e, s.blockedEdge (dieOfLoc (128 * x.line)) 5 (dieOf c) = some e → out (s1.countRefusal (some e))) ∧
          (s.blockedEdge (dieOfLoc (128 * x.line)) 5 (dieOf c) = none → s.peerAdmits (128 * x.line) = true →
            out ((s1.bringLine c x.line x.evp x.slot true).countFill x.part)))) ∧
      (x.gen ≠ (s.part x.part).walkGen →
        (∀ y, s1.startRefill x.slot x.part x.evp x.vas = some y → out (s1.addRefill c y)) ∧
        (s1.startRefill x.slot x.part x.evp x.vas = none → out s1))) ∧
    (mCheck f { spcs := [1], szs := [2], ams := [3] } t s = .ok () → f.md.toNat < 64 →
      let o := (t.rs2 f.ma.toNat).toNat
      let n := (t.rs f.md.toNat).toNat
      let b := s.blockOf t
      let ws := (b.dirty.flatMap (fun e => ((List.range 32).filter (fun i => bit e.2 i)).map (32 * e.1 + ·))).filter
          (fun w => decide (o < 4 * w + 4) && decide (4 * w < o + n))
      (n = 0 → exec (.scwb f) s = .next (s.retire k f.pre t)) ∧
      (n ≠ 0 → (s.recOf t).scratchBytes < o + n →
        exec (.scwb f) s = .next (s.raise k t 1 3 (t.rs2 f.ma.toNat) none)) ∧
      (n ≠ 0 → o + n ≤ (s.recOf t).scratchBytes →
        (∀ bank, ws.findSome? (fun w => s.lineStall b (w / 32)) = some bank →
          exec (.scwb f) s = .next (s.waits k t (.bank bank))) ∧
        ((∀ w ∈ ws, s.lineStall b (w / 32) = none ∧ b.badWords.contains w = false) → ∀ accs u s',
          ws.mapM (fun w => (globalWords t s true (BitVec.ofNat 64
            ((s.recOf t).backing t.block (((s.recOf t).regionLine (w / 32)).getD 0) + 4 * (w % 32))) 4).map (fun p =>
              (({ lane := 0, addr := BitVec.ofNat 64 ((s.recOf t).backing t.block
                  (((s.recOf t).regionLine (w / 32)).getD 0) + 4 * (w % 32)), place := p } : LaneAcc),
                (Tab.get b.scratch 0 w).toNat))) = .ok accs →
          storeLanes k t s 0 false 4 accs = .ok (u, s') →
          exec (.scwb f) s = .next ((s'.setBlock u.blk { s'.blockOf u with
            dirty := ws.foldl (fun d w => Tab.upd d 0 (w / 32) (· &&& ~~~(1#32 <<< (w % 32)))) (s'.blockOf u).dirty }).retire k
            f.pre u)))) ∧
    (mCheck f { spcs := [1], szs := [0], ams := [3] } t s = .ok () → f.md.toNat < 64 → s.detOf t = false →
      let n := (laneAddr f t 1 0).toNat
      (n ≤ 31 → exec (.bankq f) s = .next (s.retire k f.pre
        (t.ws f.md.toNat (((s.cluster (clusterOf (coreOf k))).bank n).ctl &&& 0x3FFF#32)))) ∧
      (31 < n → exec (.bankq f) s = .next (s.raise k t 6 5 0 none)))

/-- `fence`: a release registers every store of the team first, in the fence's own step, which is the model's choice of when they
register (log 69); an acquire takes in what its atomics read and drops from the core's caches every clean word the core does not
own and every line of the carried signature (R230, R239, R243, R246).
RELEASE AND ACQUIRE. After a release no store of the team is queued, and a word that the core's queue held stores of that team alone
to stands at its home at the youngest value, owned by the core. After an acquire a word is in the core's L1, or in its cluster's
cache, if it was there and is dirty, or is owned by the core and its line does not match the signature; dirty words, the queue and
every home stay (R243, R244, R246).
`flrenew` restarts the life of each tile the lanes address, one expired becoming new and empty; `fllife` writes the ticks
each lane's tile has left, 0 when expired (R216, R231, R232). -/
def Obligations.FencesAndFleetingTiles : Prop :=
  (∀ (s : State) (k : Nat) (t : Team) (f : MF), Issues s k t → acts f.pre t → f.ord ≠ 0 →
    let s1 := if bit f.ord 1 then s.release k else s
    let t1 := if bit f.ord 1 then { t with relFence := t.carried } else t
    exec (.fence f) s = .next (if bit f.ord 0 then
        ((s1.acquire (coreOf k) (t.carried ||| t.acqPend)).retire k f.pre { t1 with carried := t.carried ||| t.acqPend })
      else s1.retire k f.pre t1)) ∧
  (∀ (s : State) (k : Nat), let s' := s.release k
    let l := (s.core (coreOf k)).stores
    (∀ p ∈ (s'.core (coreOf k)).stores, p.team ≠ k ∧ p ∈ l) ∧ (∀ c, c ≠ coreOf k → (s'.core c).stores = (s.core c).stores) ∧
    (s.memoryWf = true → ∀ w, (∀ p ∈ l, ∀ e ∈ p.words, e.1 = w → p.team = k) →
      s'.peek w = (lastStored l w).getD (s.peek w) ∧
      ((lastStored l w).isSome = true → Tab.get? s'.owners w = some (coreOf k)))) ∧
  (∀ (s : State) (c : Nat) (g : Sig), let s' := s.acquire c g
    let keeps := fun (t : Tab Line) (w : Nat) => dirtyIn t w = true ∨
      (Tab.get? s.owners w = some c ∧ (g = 0 ∨ g &&& Config.sigOfLine (w / 32) ≠ Config.sigOfLine (w / 32)))
    s' = { s with cores := s'.cores, clusters := s'.clusters } ∧ (∀ d, d ≠ c → s'.core d = s.core d) ∧
    (s'.core c).stores = (s.core c).stores ∧
    ∀ w, (keeps (s.core c).l1 w → cached (s'.core c).l1 w = cached (s.core c).l1 w) ∧
      (¬ keeps (s.core c).l1 w → cached (s'.core c).l1 w = none) ∧
      (keeps (s.cluster (clusterOf c)).l2 w → cached (s'.cluster (clusterOf c)).l2 w = cached (s.cluster (clusterOf c)).l2 w) ∧
      (¬ keeps (s.cluster (clusterOf c)).l2 w → cached (s'.cluster (clusterOf c)).l2 w = none)) ∧
  (∀ (s : State) (k : Nat) (t : Team) (f : MF) (accs : List LaneAcc), Issues s k t → acts f.pre t →
    mCheck f { spcs := [2], szs := [2] } t s = .ok () →
    let tile := fun (a : LaneAcc) => (a.place.words.headD 0) / 512
    (lanesFor k t s f true (t.guarded f.pre) = .ok accs →
      exec (.flrenew f) s = .next ((s.setBlock t.blk { s.blockOf t with
        tiles := (accs.foldl (fun l a => insertNew l (tile a)) []).foldl (fun m i =>
          Tab.upd m {} i (fun x => if x.live s.sample then { x with birth := s.sample }
            else { birth := s.sample, visit := x.visit }))
          (s.blockOf t).tiles }).retire k f.pre t)) ∧
    (mdVector f t s = .ok () → s.detOf t = false → lanesFor k t s f false (t.guarded f.pre) = .ok accs →
      let left := fun (x : Tile) => if x.live s.sample then 4096 - (s.sample - x.birth).toNat else 0
      exec (.fllife f) s = .next (s.retire k f.pre (t.wlanes f.md.toNat (t.guarded f.pre) (plainTag .i32) (fun l =>
        BitVec.ofNat 32 (Tab.get (accs.map (fun a => (a.lane, left (Tab.get (s.blockOf t).tiles {} (tile a))))) 0 l))))))

/-- The atomics perform their lanes in order; a returning one writes the old values, `.nr` writes no register (R233, R234). Lanes
that name one word of memory find it each as the lane before left it, and the last one's new value stands (R234). -/
def Obligations.Atomics : Prop :=
  (∀ (s : State) (k : Nat) (t : Team) (f : MF), Issues s k t → acts f.pre t →
    let wide := f.sz == 3
    let z := accessSize f
    let get := fun (r l : Nat) => if wide then (t.rl2 r l).toNat else (t.rl r l).toNat
    (∀ accs olds u s', atomCheck f false false t s = .ok () → mdVector f t s = .ok () →
      (f.aop = 7 → inFile t s f.mx (if wide then 2 else 1)) → lanesFor k t s f true (t.acting f.pre) = .ok accs →
      atomicLanes k t s f.aop.toNat wide true (bit f.ord 0) true (bit f.ord 1)
        (accs.map (fun a => (a, get f.md.toNat a.lane, if f.aop == 7 then get f.mx.toNat a.lane else 0))) = .ok (olds, u, s') →
      exec (.vatom f) s = .next (s'.retire k f.pre (writeLoaded f u (t.acting f.pre) (fun l => Tab.get olds 0 l)))) ∧
    (∀ accs olds u s', atomCheck f true false t s = .ok () → inFile t s f.mx (if wide then 2 else 1) →
      nrStop f k t s = none → lanesFor k t s f true (t.acting f.pre) = .ok accs →
      atomicLanes k t s f.aop.toNat wide false false true (bit f.ord 1)
        (accs.map (fun a => (a, get f.mx.toNat a.lane, 0))) = .ok (olds, u, s') →
      exec (.vatomNr f) s = .next (s'.retire k f.pre u)) ∧
    (∀ a olds u s', atomCheck f false true t s = .ok () → mdScalar f f.md = .ok () →
      (f.aop = 7 → scalarOk f.mx wide = true) → teamAccess k t s f true z z = .ok a →
      atomicLanes k t s f.aop.toNat wide true (bit f.ord 0) true (bit f.ord 1)
        [(a, t.scalar wide f.md.toNat, if f.aop == 7 then t.scalar wide f.mx.toNat else 0)] = .ok (olds, u, s') →
      exec (.satom f) s = .next (s'.retire k f.pre
        (if wide then u.ws2 f.md.toNat (BitVec.ofNat 64 (Tab.get olds 0 0))
         else u.ws f.md.toNat (BitVec.ofNat 32 (Tab.get olds 0 0))))) ∧
    (∀ a olds u s', atomCheck f true true t s = .ok () → scalarOk f.mx wide = true → teamAccess k t s f true z z = .ok a →
      atomicLanes k t s f.aop.toNat wide false false true (bit f.ord 1) [(a, t.scalar wide f.mx.toNat, 0)] = .ok (olds, u, s') →
      exec (.satomNr f) s = .next (s'.retire k f.pre u))) ∧
  (∀ (s s1 : State) (k : Nat) (t : Team) (aop w : Nat) (returning acq last release : Bool) (accs : List (LaneAcc × Nat × Nat)),
    s.memoryWf = true → (∀ e ∈ accs, e.1.place = { spc := 0, words := [w] }) →
    (∀ e ∈ accs, s.reach (dieOf (coreOf k)) (4 * w) e.1.addr = .ok ()) → Tab.get? s.poisoned w = none →
    s.chargeLines t.task (accs.flatMap (·.1.place.words)) = .ok s1 → accs ≠ [] →
    let s2 := if release then s1.release k else s1
    let c := atomicChain aop ((s2.ordered k [w]).peek w) (accs.map (·.2))
    ∃ u s', atomicLanes k t s aop false returning acq last release accs = .ok ((accs.map (·.1.lane)).zip c.1, u, s') ∧
      s'.peek w = c.2 ∧ u.s = t.s ∧ u.v = t.v)

/-- A Drover command whose channel has room is queued there after a release, and its token register is pending, with the tokens that
were; the team goes on at once (R258 to R260).
A Drover command on a full channel waits and breaks the run, with no other effect; a copy, gather or scatter of nothing
completes at once with 0x0000_0001 in its token (R260, R263, R266). A team that holds the commit token and whose commit buffer is
not empty waits until it is (R295). -/
def Obligations.DroverCommands : Prop :=
  (∀ (s : State) (k : Nat) (t : Team) (f : EF), s.cur = some k → s.team? k = some t → t.phase = 0 → t.intr = none →
    t.stopAt = none → (s.part t.part).breaksAt t.pc = false → acts f.pre t → (t.held = true → t.buffer = []) →
    (∀ r ∈ (List.range 4).map (f.dp.toNat + ·) ++ [f.cn.toNat], Tab.get? t.tokSig r = none ∧ (r ≠ 0 → r ∉ t.pendTok)) →
    (f.tk.toNat ≠ 0 → f.tk.toNat ∉ t.pendTok) →
  ∀ e ∈ droverCommands f k t s, e.2.2 →
    let cl := clusterOf (coreOf k)
    let s1 := s.release k
    let old := (s1.cluster cl).channel f.eng.toNat
    let c : Cmd := { kind := e.2.1, uid := t.uid, task := t.task, blk := t.blk, blockNo := t.block, teamNo := t.team,
                     id := t.nextCmd, tok := f.tk.toNat, pc := t.pc, underToken := t.held }
    ((s.cluster cl).channel f.eng.toNat).length < 16 →
    exec (e.1 f) s = .next ((s1.setChannel cl f.eng.toNat (old ++ [c])).retire k f.pre
      { t with nextCmd := t.nextCmd + 1, unsealed := t.unsealed ++ [t.nextCmd],
               cmds := Tab.set t.cmds t.nextCmd { underToken := t.held },
               pendTok := if f.tk.toNat = 0 then t.pendTok else t.pendTok ++ [f.tk.toNat],
               tokSig := t.tokSig.filter (fun e => e.1 != f.tk.toNat) })) ∧
  (∀ (s : State) (k : Nat) (t : Team) (f : EF), Issues s k t → acts f.pre t →
    (t.held = true → t.buffer ≠ [] → ∀ e ∈ droverCommands f k t s, e.2.2 →
      exec (e.1 f) s = .next (s.waits k t (.commit true))) ∧
    ((t.held = true → t.buffer = []) →
      (∀ e ∈ droverCommands f k t s, e.2.2 → 16 ≤ ((s.cluster (clusterOf (coreOf k))).channel f.eng.toNat).length →
        exec (e.1 f) s = .next (s.waits k t (.channel f.eng.toNat))) ∧
      (t.rs f.cn.toNat = 0 →
        let out := Host.Outcome.next ((s.release k).retire k f.pre
          { t.ws f.tk.toNat 1 with
              nextCmd := t.nextCmd + 1, unsealed := t.unsealed ++ [t.nextCmd],
              cmds := Tab.set t.cmds t.nextCmd { done := true, underToken := t.held },
              tokSig := if f.tk.toNat = 0 then [] else [(f.tk.toNat, 0)] })
        (f.dp.toNat % 2 = 0 → exec (.gat f) s = out ∧ exec (.sct f) s = out) ∧
        (field f.var 0 3 ≤ 2 → field f.var 3 3 ≤ 2 → f.dp.toNat % 4 = 0 → (t.rs2 f.dp.toNat).toNat % 4 = 0 →
          (t.rs2 (f.dp.toNat + 2)).toNat % 4 = 0 → exec (.cpy f) s = out))))

/-- `seal n` moves the commands since the last `seal` into batch n; `waitb n` completes at once on an empty batch, waits while
a command of it is open, and then takes its signature, acquires and empties it (R271, R272). That an empty batch performs no
invalidations is the model's choice (log 148). -/
def Obligations.Batches : Prop :=
  ∀ (s : State) (k : Nat) (t : Team) (f : EF), Issues s k t → acts f.pre t →
    let n := f.qb.toNat
    let b := Tab.get t.batches [] n
    exec (.seal f) s = .next (s.retire k f.pre
      { t with batches := Tab.set t.batches n (b ++ t.unsealed), unsealed := [] }) ∧
    (b = [] → exec (.waitb f) s = .next (s.retire k f.pre t)) ∧
    ((∃ i ∈ b, (Tab.get t.cmds {} i).done = false) → exec (.waitb f) s = .next (s.waits k t (.batch n))) ∧
    (b ≠ [] → (∀ i ∈ b, (Tab.get t.cmds {} i).done = true) →
      let c := t.carried ||| b.foldl (fun g i => g ||| (Tab.get t.cmds {} i).sig) 0
      exec (.waitb f) s = .next ((s.acquire (coreOf k) c).retire k f.pre
        { t with carried := c, batches := Tab.erase t.batches n }))

/-- `qpush` appends a word, or a lane block's line, to the FIFO of its bank after a release, and `qpop` takes the oldest with
its signature and acquires; a full or an empty queue makes them wait (R239, R280); an entry with an uncorrectable error is an ECC
fault, and so is a ready row of an Escapement whose bank has one, both with no address by the model's reading (R375, logs 98, 125).
The Escapement's ports: a pop of the ready port hands out the oldest ready row, or all ones once the graph is done, and a
push on the done port takes a row handed out and not pushed yet, waiting while the port holds 64, any other row being an illegal
operation; without a graph of the launch a pop waits and a push is an illegal operation; `escld` hands its
descriptor to the Escapement and leaves its token pending (R258, R276, R278), and under the commit token waits for an empty
commit buffer first (R295). -/
def Obligations.FifoQueuesAndEscapementPorts : Prop :=
  (∀ (s : State) (k : Nat) (t : Team) (f : EF), Issues s k t → acts f.pre t →
    let q := (s.recOf t).queue f.qb.toNat
    let cl := clusterOf (coreOf k)
    let x := (s.cluster cl).bank q.bank
    let i := (t.rs f.cn.toNat).toNat
    f.qb.toNat ≤ 7 → (q.kind = 1 ∧ f.lineForm = false) ∨ (q.kind = 2 ∧ f.lineForm = true) →
    (f.lineForm = true → (s.recOf t).vecOk (field f.var 0 8) 1 1 = true ∧ i < t.words) →
    (x.fifo.length < fifoSize f.lineForm →
      let s1 := s.release k
      let y := (s1.cluster cl).bank q.bank
      let row := if f.lineForm then (t.rv (field f.var 0 8) i).data else (t.rs f.cn.toNat).setWidth 1024
      exec (.qpush f) s = .next ((s1.setCluster cl ((s1.cluster cl).setBank q.bank
        { y with fifo := y.fifo ++ [{ data := row, sig := t.carried }] })).retire k f.pre t)) ∧
    (fifoSize f.lineForm ≤ x.fifo.length → exec (.qpush f) s = .next (s.waits k t (.queueFull f.qb.toNat))) ∧
    (∀ e rest, x.fifo = e :: rest →
      let u := if f.lineForm then t.wv (field f.var 0 8) i { data := e.data, tag := plainTag .f32 }
        else t.ws f.tk.toNat (e.data.setWidth 32)
      (e.bad = false → exec (.qpop f) s = .next (((s.setCluster cl ((s.cluster cl).setBank q.bank
        { x with fifo := rest })).acquire (coreOf k) (t.carried ||| e.sig)).retire k f.pre
          { u with carried := t.carried ||| e.sig })) ∧
      (e.bad = true → exec (.qpop f) s = .next (s.raise k t 7 3 0 none))) ∧
    (x.fifo = [] → exec (.qpop f) s = .next (s.waits k t (.queueEmpty f.qb.toNat)))) ∧
  (∀ (s : State) (k : Nat) (t : Team) (f : EF), Issues s k t → acts f.pre t →
    let q := (s.recOf t).queue f.qb.toNat
    let cl := clusterOf (coreOf k)
    (∀ g, f.qb.toNat ≤ 7 → f.lineForm = false → (s.cluster cl).graphOf t.task = some g →
      (q.kind = 3 → (∀ row rest, g.ring = row :: rest →
        let c := t.carried ||| Tab.get g.sigs 0 row
        (g.bad = false → exec (.qpop f) s = .next (((s.setCluster cl { s.cluster cl with
            graph := some { g with ring := rest, handed := insertNew g.handed row } }).acquire (coreOf k) c).retire k f.pre
          { t.ws f.tk.toNat (BitVec.ofNat 32 row) with carried := c })) ∧
        (g.bad = true → exec (.qpop f) s = .next (s.raise k t 7 3 0 none))) ∧
        (g.ring = [] → g.processed = g.count → exec (.qpop f) s = .next (s.retire k f.pre (t.ws f.tk.toNat 0xFFFFFFFF#32))) ∧
        (g.ring = [] → g.processed ≠ g.count → exec (.qpop f) s = .next (s.waits k t (.queueEmpty f.qb.toNat)))) ∧
      (q.kind = 4 →
        let row := (t.rs f.cn.toNat).toNat
        (row < g.count → row ∈ g.handed → row ∉ g.pushed → g.port.length < 64 →
          exec (.qpush f) s = .next (((s.release k).setCluster cl { (s.release k).cluster cl with
            graph := some { g with port := g.port ++ [(row, t.carried)], pushed := g.pushed ++ [row] } }).retire k f.pre t)) ∧
        (row < g.count → row ∈ g.handed → row ∉ g.pushed → 64 ≤ g.port.length →
          exec (.qpush f) s = .next (s.waits k t (.queueFull f.qb.toNat))) ∧
        (g.count ≤ row ∨ row ∉ g.handed ∨ row ∈ g.pushed → exec (.qpush f) s = .next (s.raise k t 6 5 0 none)))) ∧
    (f.qb.toNat ≤ 7 → f.lineForm = false → (s.cluster cl).graphOf t.task = none →
      (q.kind = 3 → exec (.qpop f) s = .next (s.waits k t (.queueEmpty f.qb.toNat))) ∧
      (q.kind = 4 → exec (.qpush f) s = .next (s.raise k t 6 5 0 none))) ∧
    (f.tk ≠ 0 → f.dp.toNat % 2 = 0 →
      (t.held = true → t.buffer ≠ [] → exec (.escld f) s = .next (s.waits k t (.commit true))) ∧
      ((t.held = true → t.buffer = []) →
        let s1 := s.release k
        exec (.escld f) s = .next ((s1.setCluster cl { s1.cluster cl with escLoads := (s1.cluster cl).escLoads ++
          [{ uid := t.uid, task := t.task, blockNo := t.block, teamNo := t.team, tok := f.tk.toNat, pc := t.pc,
             desc := (t.rs2 f.dp.toNat).toNat }] }).retire k f.pre { t with pendTok := [f.tk.toNat] }))))

/-- `bra`: with its guard true in no active lane it falls through; taken by every active lane it goes to its target; taken by
some it pushes PEND with the target and those lanes, and the rest go on, and a full stack is an illegal operation; the target is
the branch word plus 8 times its signed displacement (R82, R103). -/
def Obligations.Branch : Prop :=
  ∀ (s : State) (k : Nat) (t : Team) (f : BF), Issues s k t → t.active ≠ 0 →
    let target := t.pc + 8 * f.disp.signExtend 64
    (t.guarded f.pre = 0 → exec (.bra f) s = .next (s.retire k f.pre t)) ∧
    (t.guarded f.pre = t.active →
      exec (.bra f) s = .next (s.retireAt k t target (f.pre.run || target != t.pc + 8))) ∧
    (t.guarded f.pre ≠ 0 → t.guarded f.pre ≠ t.active →
      (∀ u s', pushEntry k (Entry.make target kindPend (t.guarded f.pre)) t s = .ok (u, s') →
        exec (.bra f) s = .next (s'.retire k f.pre { u with active := t.active &&& ~~~(t.guarded f.pre) })) ∧
      (256 ≤ t.stack.length + t.spilledEntries → exec (.bra f) s = .next (s.raise k t 6 3 0 none)))

/-- `brx`, `call` and `ret` need a uniform guard: true in no active lane they fall through; taken by all they go to their
target, `call` leaving the address of the next word in its pair; taken by some they are an illegal operation; a target that is no
multiple of 8 is a memory fault with the target as its address, and nothing else (R104). A link or target register 0 or odd is an
illegal operation, whatever the guard (R85, R88, R102). -/
def Obligations.UniformJumps : Prop :=
  ∀ (s : State) (k : Nat) (t : Team) (f : BF) (y : YF), Issues s k t →
    let r := branchReg f
    (t.active ≠ 0 → t.guarded f.pre = 0 → r ≠ 0 → r % 2 = 0 → r ≤ 63 →
      exec (.brx f) s = .next (s.retire k f.pre t) ∧ exec (.call f) s = .next (s.retire k f.pre t)) ∧
    (t.active ≠ 0 → t.guarded y.pre = 0 → y.yk = 0 → y.ya ≠ 0 → y.ya.toNat % 2 = 0 → y.ya.toNat ≤ 63 →
      exec (.ret y) s = .next (s.retire k y.pre t)) ∧
    (acts f.pre t → r ≠ 0 → r % 2 = 0 → r ≤ 63 →
      let target := t.rs2 r + 8 * f.disp.signExtend 64
      let label := t.pc + 8 * f.disp.signExtend 64
      (t.guarded f.pre = t.active →
        (target &&& 7 = 0 → exec (.brx f) s = .next (s.retireAt k t target (f.pre.run || target != t.pc + 8))) ∧
        (target &&& 7 ≠ 0 → exec (.brx f) s = .next (s.raise k t 1 7 target none)) ∧
        (label &&& 7 ≠ 0 → exec (.call f) s = .next (s.raise k t 1 7 label none)) ∧
        (label &&& 7 = 0 →
          exec (.call f) s = .next (s.retireAt k (t.ws2 r (t.pc + 8)) label (f.pre.run || label != t.pc + 8)))) ∧
      (t.guarded f.pre ≠ t.active → exec (.brx f) s = .next (s.raise k t 6 5 0 none) ∧
        exec (.call f) s = .next (s.raise k t 6 5 0 none))) ∧
    (acts y.pre t → y.yk = 0 → y.ya ≠ 0 → y.ya.toNat % 2 = 0 → y.ya.toNat ≤ 63 →
      let target := t.rs2 y.ya.toNat
      (t.guarded y.pre = t.active → target &&& 7 = 0 →
        exec (.ret y) s = .next (s.retireAt k t target (y.pre.run || target != t.pc + 8))) ∧
      (t.guarded y.pre = t.active → target &&& 7 ≠ 0 → exec (.ret y) s = .next (s.raise k t 1 7 target none)) ∧
      (t.guarded y.pre ≠ t.active → exec (.ret y) s = .next (s.raise k t 6 5 0 none))) ∧
    (let bad := fun (i : Instr) (d : Nat) => exec i s = .next (s.raise k t 6 d 0 none)
     (r = 0 → bad (.brx f) 1 ∧ bad (.call f) 1) ∧ (r % 2 = 1 → bad (.brx f) 2 ∧ bad (.call f) 2) ∧
     (y.yk ≠ 0 ∨ y.ya = 0 → bad (.ret y) 1) ∧ (y.yk = 0 → y.ya ≠ 0 → y.ya.toNat % 2 = 1 ∨ 63 < y.ya.toNat → bad (.ret y) 2))

/-- The stack takes a seventeenth entry by spilling its oldest on-chip entry to the team's area at 144 times the entries
spilled, each of the 36 words of its image at its own translation, with no version shadow, which is the model's choice (log 26), refuses a two hundred and fifty-seventh, and a pop gives
the entry pushed last (R57).
`join` pushes JOIN with its target and the active mask; `sync` pops the top entry: pc and mask are the entry's, less the
retired lanes, TRAP clears `%tcause` and `%tlanes`, and the lanes kept with a RESUME entry have performed the instruction there, which is the
model's reading (R332, log 136); on an empty stack it is an illegal operation (R58, R106). Where the mask
popped is empty, implied syncs follow at once, down to the first entry with a lane left, and the run ends where the word has B or the
pc popped is not that of the next word (R43, R59). -/
def Obligations.StackJoinAndSync : Prop :=
  (∀ (s : State) (k : Nat) (t : Team) (e : Entry),
    (t.stack.length + t.spilledEntries < 256 → t.stack.length < 16 →
      pushEntry k e t s = .ok ({ t with stack := e :: t.stack }, s)) ∧
    (t.stack.length + t.spilledEntries < 256 → t.stack.length = 16 → ∀ old locs, t.stack.getLast? = some old →
      s.imageLocs k t t.spilledEntries = some locs → s.spillCheck k t false t.spilledEntries = .ok () →
      pushEntry k e t s = .ok ({ t with stack := e :: t.stack.take 15, spilledEntries := t.spilledEntries + 1 },
        (s.storeEntry locs old).countFill t.part)) ∧
    (∀ i locs, s.imageLocs k t i = some locs → locs.length = 36 ∧
      (∀ j, j < 36 → s.privateLoc k t (144 * i + 4 * j) = locs[j]?) ∧
      s.spilledEntry k t i = some (Entry.ofImage (locs.flatMap (fun loc => s.peekBytes loc 4)))) ∧
    (∀ i j, j < 36 → s.privateLoc k t (144 * i + 4 * j) = none → ∃ f, s.spillCheck k t false i = .error f) ∧
    (256 ≤ t.stack.length + t.spilledEntries → pushEntry k e t s = illegal 3) ∧
    (∀ u s', pushEntry k e t s = .ok (u, s') → ∃ v, popEntry k u s' = some (e, v))) ∧
  (∀ (s : State) (k : Nat) (t : Team), Issues s k t →
    (∀ (f : BF) u s', acts f.pre t →
      pushEntry k (Entry.make (t.pc + 8 * f.disp.signExtend 64) kindJoin t.active) t s = .ok (u, s') →
      exec (.join f) s = .next (s'.retire k f.pre u)) ∧
    (∀ f : BF, acts f.pre t → 256 ≤ t.stack.length + t.spilledEntries →
      exec (.join f) s = .next (s.raise k t 6 3 0 none)) ∧
    (∀ f : YF, acts f.pre t → f.yk = 0 →
      (t.stack = [] → exec (.sync f) s = .next (s.raise k t 6 3 0 none)) ∧
      (∀ e v, reloadCheck k t s = .ok () → popEntry k t s = some (e, v) →
        let resumed := e.kind = kindResume
        let u := { v with pc := e.pc, active := e.mask &&& ~~~v.retired,
                          tcause := if e.kind = kindTrap then 0 else v.tcause,
                          tlanes := if e.kind = kindTrap then 0 else v.tlanes,
                          entered := if e.kind = kindTrap then false else v.entered,
                          resumes := if resumed then v.resumes.drop 1 else v.resumes }
        let s1 := if t.stack.length = 1 ∧ t.spilledEntries ≠ 0 then s.countFill t.part else s
        u.active ≠ 0 → exec (.sync f) s = .next (s1.retireAt k u e.pc (f.pre.run || e.pc != t.pc + 8)
          (if resumed then v.resumes.headD 0 else 0))) ∧
      (∀ pre e rest, t.stack = pre ++ e :: rest → pre ≠ [] → t.spilledEntries = 0 → t.stack.length ≤ 16 → t.pend = none →
        (∀ x ∈ pre, x.mask &&& ~~~t.retired = 0) → e.mask &&& ~~~t.retired ≠ 0 →
        let u := (pre ++ [e]).foldl (fun u x => syncTo x u) { t with stack := rest }
        exec (.sync f) s = .next (s.retireAt k u e.pc (f.pre.run || e.pc != t.pc + 8) u.did))))

/-- `exit` retires its lanes: where others are active they go on; where none is left and a trap is pending, the trap is due at once
(R107); else implied syncs pop entries down to the first
with a lane left; where the stack holds none, in a launch without the deterministic flag, the team's life ends and it counts as
exited (R56, R59, R107). -/
def Obligations.ExitRetiresLanes : Prop :=
  ∀ (s : State) (k : Nat) (t : Team) (f : YF), Issues s k t → acts f.pre t → f.yk = 0 →
    let g := t.guarded f.pre
    (g ≠ t.active → exec (.exit f) s = .next (s.retire k f.pre
      { t with retired := t.retired ||| g, active := t.active &&& ~~~g })) ∧
    (g = t.active → t.pend ≠ none →
      let u := { t with retired := t.retired ||| g, active := 0 }
      exec (.exit f) s = .next (s.retire k f.pre u) ∧
        ∀ v, (s.retire k f.pre u).team? k = some v → v.pend = t.pend ∧ (s.retire k f.pre u).trapDue k v = true) ∧
    (g = t.active → t.pend = none → t.spilledEntries = 0 → t.stack.length ≤ 16 →
      (∀ pre e rest, t.stack = pre ++ e :: rest → (∀ x ∈ pre, x.mask &&& ~~~(t.retired ||| g) = 0) →
        e.mask &&& ~~~(t.retired ||| g) ≠ 0 →
        let u := (pre ++ [e]).foldl (fun u x => syncTo x u) { t with retired := t.retired ||| g, active := 0, stack := rest }
        exec (.exit f) s = .next (s.retireAt k u e.pc (f.pre.run || e.pc != t.pc + 8) u.did)) ∧
      ((∀ x ∈ t.stack, x.mask &&& ~~~(t.retired ||| g) = 0) → ∀ tk, s.task? t.task = some tk → tk.det = false →
        (∀ b, s.block? t.blk = some b → b.dirty = []) →
        ∃ s', exec (.exit f) s = .next s' ∧ s'.team? k = none ∧
          ∀ tk', s'.task? t.task = some tk' → tk.teamId t.block t.team ∈ tk'.exitedTeams))

/-- `regroup` compacts the lanes that are active, held by a JOIN or TRAP entry or trapped, and not retired (R60, R108): lane j
becomes the j-th of them, c in all; predicates, the active mask, `%tlanes`, the masks of the stack and the original lane numbers
move with it, the lanes from c on are retired, the registers it names move and are zero from c on, with their tags and a zero
scale word, and every other register stays (R109); a PEND or a RESUME entry makes it an illegal operation, and so does a register
it names with a tag that is not plain. -/
def Obligations.Regroup : Prop :=
  ∀ (s : State) (k : Nat) (t : Team) (f : YF), Issues s k t → acts f.pre t → f.yk.toNat < 2 → t.lanes ≤ 1024 →
    (f.yk = 1 → f.ya.toNat ≤ f.yb.toNat ∧ f.yb.toNat < (s.recOf t).regs) →
    (∀ i, i < t.spilledEntries → s.spillCheck k t true i = .ok ()) →
    let es := allEntries k t s
    let regs := if f.yk = 1 then (List.range (f.yb.toNat - f.ya.toNat + 1)).map (f.ya.toNat + ·) else []
    let o := lanesOf ((t.active ||| es.foldl (fun m e => m ||| e.mask) 0 ||| t.tlanes) &&& ~~~t.retired) t.words
    let c := o.length
    let moved := fun (old new : Mask) => ∀ j, bit new j = match o[j]? with | some l => bit old l | none => false
    let u := regroupTeam o regs t
    ((∃ e ∈ es, e.kind = kindPend ∨ e.kind = kindResume) → exec (.regroup f) s = .next (s.raise k t 6 5 0 none)) ∧
    ((∀ e ∈ es, e.kind ≠ kindPend ∧ e.kind ≠ kindResume) →
      (∀ r ∈ regs, ∀ w < t.words, (t.rv r w).tag.plain = true) → renumber o t.active ≠ 0 →
      exec (.regroup f) s = .next ((renumberSpilled k o t s).retire k f.pre u)) ∧
    ((∃ r ∈ regs, ∃ w, w < t.words ∧ (t.rv r w).tag.plain = false) → exec (.regroup f) s = .next (s.raise k t 6 5 0 none)) ∧
    (∀ i, i < 7 → moved (t.rp i) (u.rp i)) ∧ moved t.active u.active ∧ moved t.tlanes u.tlanes ∧
    u.stack.length = t.stack.length ∧
    (∀ (i : Nat) x y, t.stack[i]? = some x → u.stack[i]? = some y → y.pck = x.pck ∧ moved x.mask y.mask) ∧
    (∀ j, j < 1024 → bit u.retired j = (decide (j < t.lanes) && decide (c ≤ j))) ∧
    (∀ j, j < t.lanes → Tab.get u.olane 0 j = match o[j]? with
      | some l => Tab.get t.olane (BitVec.ofNat 32 l) l
      | none => Tab.get t.olane (BitVec.ofNat 32 j) j) ∧
    (∀ r ∈ regs, (∀ j l, o[j]? = some l → u.rl r j = t.rl r l) ∧ (∀ j, c ≤ j → j < 32 * t.words → u.rl r j = 0) ∧
      ∀ w, w < t.words → (u.rv r w).tag = (t.rv r w).tag ∧ (u.rv r w).scale = 0) ∧
    (∀ r, r ∉ regs → ∀ w, w < 32 → u.rv r w = t.rv r w) ∧ u.s = t.s ∧ u.pc = t.pc

/-- `bara` arrives: a release, the team's slot writes take effect, and its arrival counts; `barw` goes on once that generation
is complete, acquiring, and waits until then; `bar` is both; without an arrival `barw`, and with one `bara` and `bar`, are an
illegal operation (R111, R158).
The last arrival of a group completes its generation: the generation is recorded as done with the signatures of all
arrivals, and the next one begins with nobody arrived; an earlier arrival only counts (R51, R111). -/
def Obligations.BarriersAndTheirGenerations : Prop :=
  (∀ (s : State) (k : Nat) (t : Team) (f : YF) (tk : Task) (g : Nat), Issues s k t → acts f.pre t → f.yk = 0 →
    f.sel.toNat < 4 → s.task? t.task = some tk → tk.groupSlot t.block t.team f.sel.toNat = some g →
    let cl := clusterOf (coreOf k)
    let slot := f.sel.toNat
    (∀ u s', Tab.get? t.arrived slot = none → arriveAt k slot t s = .ok (u, s') →
      exec (.bara f) s = .next (s'.retire k f.pre u) ∧
      (∀ gen, Tab.get? u.arrived slot = some gen →
        let c := t.carried ||| s'.generationSig t.task (s'.groupOf u slot)
        (s'.generationDone t.task (s'.groupOf u slot) gen cl = true → exec (.bar f) s = .next
          ((s'.acquire (coreOf k) c).retire k f.pre { u with arrived := Tab.erase u.arrived slot, carried := c })) ∧
        (s'.generationDone t.task (s'.groupOf u slot) gen cl = false → exec (.bar f) s = .next
          (s'.waits k { u with phase := 1 } (.barrier (s'.groupOf u slot) gen))))) ∧
    (∀ gen, Tab.get? t.arrived slot = some gen →
      let c := t.carried ||| s.generationSig t.task g
      (s.generationDone t.task g gen cl = true → exec (.barw f) s = .next
        ((s.acquire (coreOf k) c).retire k f.pre { t with arrived := Tab.erase t.arrived slot, carried := c })) ∧
      (s.generationDone t.task g gen cl = false → exec (.barw f) s = .next (s.waits k t (.barrier g gen))) ∧
      exec (.bara f) s = .next (s.raise k t 6 5 0 none) ∧ exec (.bar f) s = .next (s.raise k t 6 5 0 none)) ∧
    (Tab.get? t.arrived slot = none → exec (.barw f) s = .next (s.raise k t 6 5 0 none))) ∧
  (∀ (s : State) (k g id : Nat) (c : Sig) (tk : Task) (x : Group), s.task? k = some tk → tk.groups[g]? = some x →
    let gs := Tab.get tk.gstate {} g
    let arrived := insertNew gs.arrived id
    let gone := tk.exitedTeams.filter (fun i => x.has (i / tk.lr.teams) (i % tk.lr.teams) && !arrived.contains i)
    ∃ tk', (s.arrive k g id c).task? k = some tk' ∧
      (arrived.length + gone.length < x.members tk.lr.teams →
        Tab.get tk'.gstate {} g = { gs with arrived := arrived, sig := gs.sig ||| c }) ∧
      (x.members tk.lr.teams ≤ arrived.length + gone.length →
        (Tab.get tk'.gstate {} g).gen = gs.gen + 1 ∧ (Tab.get tk'.gstate {} g).arrived = [] ∧
        ∃ d, (Tab.get tk'.gstate {} g).done = some d ∧ d.gen = gs.gen ∧ d.sig = gs.sig ||| c ∧ d.tick = s.tick))

/-- `park` loads the word at its home: another value than the expected one, or a time of zero, ends it at once; else it waits with
its deadline. `wake` releases and ends every wait of the partition on the word, whose end load finds its signature (R113, R114);
its request, like the load's, stops the team where an edge on the way is not open (R33). That the signature of a `wake` is left at
the word is the model's way to carry it (log 67). -/
def Obligations.ParkAndWake : Prop :=
  ∀ (s : State) (k : Nat) (t : Team) (f : YF) (w : Nat), Issues s k t → acts f.pre t → f.yk = 0 → f.ya.toNat % 2 = 0 →
    f.ya.toNat ≤ 63 → f.yb.toNat ≤ 63 → f.yc.toNat ≤ 63 → s.detOf t = false → parkWord k f t s = .ok w →
    let a := t.rs2 f.ya.toNat
    (s.reach (dieOf (coreOf k)) (4 * w) a = .ok () → Tab.get? s.poisoned w = none →
      parkLoad k w a t s =
        (let s1 := (s.ordered k [w]).refresh k [w]
         let c := t.carried ||| s1.releasedAt [w]
         .ok (s1.peek w, { t with carried := c }, (s1.countFill t.part).acquire (coreOf k) c))) ∧
    (∀ v u s', parkLoad k w a t s = .ok (v, u, s') →
      let e := t.rs f.yb.toNat
      let d := t.rs f.yc.toNat
      (v ≠ e ∨ d = 0 → exec (.park f) s = .next (s'.retire k f.pre u)) ∧
      (v = e → d ≠ 0 → exec (.park f) s = .next (s'.waits k { u with phase := 1 } (.park a w e
        (if d = 0xFFFFFFFF#32 then none else some (s'.tick + d.setWidth 64)))))) ∧
    (∀ e, s.blockedEdge (dieOfLoc (4 * w)) 5 (dieOf (coreOf k)) = some e →
      exec (.park f) s = .next (s.raise k t 1 4 a (some e)) ∧ exec (.wake f) s = .next (s.raise k t 1 4 a (some e))) ∧
    (s.reach (dieOf (coreOf k)) (4 * w) a = .ok () → let s1 := (s.release k).countFill t.part
     exec (.wake f) s = .next ({ s1 with
        relSig := if s1.teams.any (fun e => e.2.parkedOn t.part w) then Tab.upd s1.relSig 0 w (· ||| t.carried) else s1.relSig,
        teams := Tab.mapVals s1.teams (fun u => match u.wait with
          | some (.park _ pw _ _) => if pw = w ∧ u.part = t.part then { u with wait := some .over } else u
          | _ => u) }.retire k f.pre t))

/-- `nop` changes nothing but what every instruction does (R117). -/
def Obligations.NopOnlyAdvances : Prop :=
  ∀ (s : State) (k : Nat) (t : Team) (f : YF), Issues s k t → acts f.pre t → f.yk = 0 →
    exec (.nop f) s = .next (s.retire k f.pre t)

/-- `srd` writes a special register's value, by lane or once; `swr` writes `%fflags`, `%fmode` or `%tcause` under the bits
that can be written; a register outside Table 3-5, an index past its last, a lane's register to a scalar destination, a register that
`swr` may not write and a register number that does not fit are illegal operations (R70, R85, R88, R118, R119). The values are those of Table 3-5: the team's place, its launch's grid, the virtual number of
its cluster, its core, the width of a lane block, the package tick with the partition's offset, the core's cycles, the team's flags,
mode and trap, the words of its trapping lanes and their summary, its progress index, the commit token of a deterministic launch
(Table 3-9, R73), the occupancy of a queue, and the format and sign seed of a format slot (R27, R41, R71, R281). That `srd` leaves
the tag i32 in a lane register is the model's choice (log 28). -/
def Obligations.SpecialRegisters : Prop :=
  ∀ (s : State) (k : Nat) (t : Team) (f : YF), Issues s k t → acts f.pre t →
    let n := f.sel.toNat
    let v := specialValue k t s n f.idx.toNat
    let val := specialValue k t s
    let nat := BitVec.ofNat 64
    (val 2 0 = nat t.team ∧ val 3 0 = nat t.block ∧ val 6 0 = nat (coreOf k % 32) ∧ val 7 0 = 32 ∧
      val 8 0 = s.tick + (s.part t.part).tickOff ∧ val 9 0 = (s.core (coreOf k)).cycle ∧ val 10 0 = t.fflags.setWidth 64 ∧
      val 11 0 = t.fmode.setWidth 64 ∧ val 12 0 = t.tcause.setWidth 64 ∧ val 14 0 = t.pix.setWidth 64 ∧
      (∀ w, w < 32 → val 13 w = (maskWord t.tlanes w).setWidth 64 ∧ bit (val 13 32) w = (maskWord t.tlanes w != 0)) ∧
      (∀ w, 32 ≤ w → bit (val 13 32) w = false) ∧
      (∀ c, c < (s.part t.part).ncl → field (s.part t.part).cltab (4 * c) 4 = clusterOf (coreOf k) →
        (∀ d, d < c → field (s.part t.part).cltab (4 * d) 4 ≠ clusterOf (coreOf k)) → val 5 0 = nat c) ∧
      (∀ tk, s.task? t.task = some tk → val 4 0 = nat tk.lr.grid ∧
        (tk.lr.det = false → val 15 0 = 0) ∧
        (tk.lr.det = true → t.buffer.length ≤ 256 →
          val 15 0 = nat (256 * t.buffer.length + 2 + (if t.held then 1 else 0))) ∧
        ∀ i x, tk.lr.fmts[i]? = some x → val 17 i = (x.extractLsb' 0 32).setWidth 64 ∧
          val 18 (2 * i) = (x.extractLsb' 64 32).setWidth 64 ∧ val 18 (2 * i + 1) = (x.extractLsb' 96 32).setWidth 64) ∧
      (∀ i, let q := (s.recOf t).queue i
        let c := s.cluster (clusterOf (coreOf k))
        (q.kind = 0 → val 16 i = 0) ∧
        (q.kind = 1 ∨ q.kind = 2 → val 16 i = nat (c.bank q.bank).fifo.length) ∧
        ∀ g, c.graphOf t.task = some g →
          (q.kind = 3 → val 16 i = nat g.ring.length) ∧ (q.kind = 4 → val 16 i = nat g.port.length))) ∧
    (∀ m, specialIndex n = some m → f.idx.toNat ≤ m →
      (f.yk = 0 → 2 ≤ n → f.ya.toNat ≤ 63 → (specialWide n = true → bit f.ya 0 = false) →
        exec (.srd f) s = .next (s.retire k f.pre
          (if specialWide n then t.ws2 f.ya.toNat v else t.ws f.ya.toNat (v.setWidth 32)))) ∧
      (f.yk = 1 → (s.recOf t).vecOk f.ya.toNat (if specialWide n then 2 else 1) (if specialWide n then 2 else 1) = true →
        let lv := fun l => if n = 0 then BitVec.ofNat 64 l
          else if n = 1 then (Tab.get t.olane (BitVec.ofNat 32 l) l).setWidth 64 else v
        exec (.srd f) s = .next (s.retire k f.pre
          (if specialWide n then t.wlanes2 f.ya.toNat (t.guarded f.pre) (plainTag .i32) lv
           else t.wlanes f.ya.toNat (t.guarded f.pre) (plainTag .i32) (fun l => (lv l).setWidth 32))))) ∧
    (let illegal := fun (i : Instr) (detail : Nat) => exec i s = .next (s.raise k t 6 detail 0 none)
     (specialIndex n = none ∨ 2 ≤ f.yk.toNat → illegal (.srd f) 1) ∧
     (f.yk = 0 → n < 2 → illegal (.srd f) 1) ∧
     (∀ m, specialIndex n = some m → f.yk.toNat < 2 →
       (m < f.idx.toNat → illegal (.srd f) 1) ∧
       (f.idx.toNat ≤ m →
         (f.yk = 0 → 2 ≤ n → 63 < f.ya.toNat ∨ (specialWide n = true ∧ bit f.ya 0 = true) → illegal (.srd f) 2) ∧
         (f.yk = 1 → (s.recOf t).vecOk f.ya.toNat (if specialWide n then 2 else 1) (if specialWide n then 2 else 1) = false →
           illegal (.srd f) 2))) ∧
     (f.yk ≠ 0 ∨ (n ≠ 0x0A ∧ n ≠ 0x0B ∧ n ≠ 0x0C) → illegal (.swr f) 1) ∧
     (f.yk = 0 → n = 0x0A ∨ n = 0x0B ∨ n = 0x0C → 63 < f.ya.toNat → illegal (.swr f) 2)) ∧
    (f.yk = 0 → f.ya.toNat ≤ 63 →
      let x := t.rs f.ya.toNat
      (n = 0x0A → exec (.swr f) s = .next (s.retire k f.pre { t with fflags := x &&& 0x1F#32 })) ∧
      (n = 0x0B → exec (.swr f) s = .next (s.retire k f.pre { t with fmode := x &&& 0x11F#32 })) ∧
      (n = 0x0C → exec (.swr f) s = .next (s.retire k f.pre { t with tcause := x &&& 0x1FFF03#32 })))

/-- `trap` puts its lanes into `%tlanes`, out of the active mask, with its code in `%tcause`; lanes that trap while others wait
join them and leave the cause as it was (R120, R329).
TAKING A TRAP. With lanes still active it pushes RESUME for them, then TRAP with S and A_t less those lanes; the trapped
lanes become the active mask and pc the launch's TRAPVEC; with TRAPVEC 0 it is an illegal operation, reported at the next instruction
to issue, which is the model's choice (log 152). A RESUME entry on top
whose pc is the team's is popped before issue, and its lanes, less the retired ones, join the active mask (R58, R332). The lanes in
which an instruction stopped between two passes has been performed are kept with the RESUME entry, and after it the instruction acts
in the others alone, so that each lane executes it once (R332); how they are kept is the model's (log 136). Said of `vst`.
BREAKPOINTS. An instruction at an enabled BKPT address has its effect and then the lanes still active trap, with CAUSE 2, A_t the
mask it was issued with and S the next address (R329, R330); said of `nop` and of the scalar instructions of two sources. -/
def Obligations.TrapsRaisedAndTaken : Prop :=
  (∀ (s : State) (k : Nat) (t : Team) (f : YF), Issues s k t → acts f.pre t → f.yk = 0 →
    let g := t.guarded f.pre
    (t.entered = true ∨ t.tlanes = 0 → exec (.trap f) s = .next (s.retire k f.pre
      { t with active := t.active &&& ~~~g, tlanes := g, tcause := BitVec.ofNat 32 (256 * f.sel.toNat + 1), entered := false,
               pend := some { at_ := t.active, succ := t.pc + 8 } })) ∧
    (t.entered = false → t.tlanes ≠ 0 → t.pend ≠ none → exec (.trap f) s = .next (s.retire k f.pre
      { t with active := t.active &&& ~~~g, tlanes := t.tlanes ||| g }))) ∧
  (∀ (s : State) (k : Nat) (t : Team), s.cur = some k → s.team? k = some t →
    (∀ p, t.pend = some p → s.trapDue k t = true → t.stack.length + 2 ≤ 16 → t.spilledEntries = 0 →
      ((s.recOf t).trapVec ≠ 0 →
        ∃ s' u, exec .trapTaken s = .next s' ∧ s'.team? k = some u ∧ u.pc = (s.recOf t).trapVec ∧ u.active = t.tlanes ∧
          u.tlanes = t.tlanes ∧ u.tcause = t.tcause ∧ u.entered = true ∧ u.pend = none ∧ u.intr = none ∧ u.did = 0 ∧
          (t.active ≠ 0 → u.resumes = (t.did ||| (match t.intr with
            | some i => maskSpan i.act 0 i.next
            | none => 0)) :: t.resumes) ∧
          u.stack = Entry.make p.succ kindTrap (p.at_ &&& ~~~t.active) ::
            (if t.active = 0 then t.stack else Entry.make t.pc kindResume t.active :: t.stack)) ∧
      ((s.recOf t).trapVec = 0 → exec .trapTaken s = .next (s.raise k t 6 4 0 none))) ∧
    (∀ e rest, t.stack = e :: rest → e.kind = kindResume → e.pc = t.pc → t.spilledEntries = 0 →
      exec .resumePop s = .next (s.setTeam k { t with
        stack := rest, active := t.active ||| (e.mask &&& ~~~t.retired), did := t.resumes.headD 0,
        resumes := t.resumes.drop 1 }))) ∧
  (∀ (s : State) (k : Nat) (t : Team) (f : MF), s.cur = some k → s.team? k = some t → t.phase = 0 → t.intr = none →
    t.stopAt = none → t.pendTok = [] → t.tokSig = [] → (s.part t.part).breaksAt t.pc = false → t.active ≠ 0 →
    let m := t.guarded f.pre &&& ~~~t.did
    mCheck f { ords := [0, 2], spcs := [0, 1, 2, 3] } t s = .ok () → mdVector f t s = .ok () →
    (m = 0 → exec (.vst f) s = .next (s.retire k f.pre t)) ∧
    (m ≠ 0 → ∀ data u s', vstData k f t s (maskSpan m 0 t.words) = .ok data →
      bufferStop t m (entriesOf (unitSize (accessSize f)) m t s (vstData k f)) = none →
      storeLanes k t s f.evp.toNat (f.ord == 2) (unitSize (accessSize f)) data = .ok (u, s') →
      exec (.vst f) s = .next (s'.retire k f.pre u))) ∧
  (∀ (s : State) (k : Nat) (t : Team), s.cur = some k → s.team? k = some t → t.phase = 0 → t.intr = none → t.stopAt = none →
    t.pendTok = [] → t.tokSig = [] → (s.part t.part).breaksAt t.pc = true → t.entered = true ∨ t.tlanes = 0 ∨ t.pend ≠ none →
    (∀ f : YF, acts f.pre t → f.yk = 0 → exec (.nop f) s = .next (s.retire k f.pre (breakpointed t t))) ∧
    (∀ f : S3, acts f.pre t → evenPairs f true true true → ∀ e ∈ scalarTwo,
      exec (e.1 f) s = .next (s.retire k f.pre (breakpointed t (t.scalarResult f e.2.1 e.2.2)))))

/-- Without the deterministic flag `cmtwait` and `cmtpass` do nothing. With it `cmtwait` goes on when the team holds the token
and waits until it does, `cmtpass` passes it on when the commit buffer is empty and the Drover commands are done and waits
until then, and both are an illegal operation once the team has passed it (R121, R288). A team whose last lane exits ends only
when it may pass the token, and passes it then: the token is at the next team, and the team counts as exited (R56, R288).
A range leased `shared` (Table 19-1, R291, R293, R294): `vld`, `sld`, `ldsc`, `vatom` and `satom` wait until the token is held and the
buffer empty; `vst`, `sst`, `stsc`, `vatom.nr` and `satom.nr` put entries into the buffer before the token arrives, the team going on,
and wait for an empty buffer while it is held; after the token has passed each is an illegal operation. A Drover command that was not issued under the
token takes the lease violation. A release waits for no entry of the buffer while the token is elsewhere (log 119). -/
def Obligations.CommitToken : Prop :=
  (∀ (s : State) (k : Nat) (t : Team) (f : YF), Issues s k t → acts f.pre t → f.yk = 0 →
    (s.detOf t = false → exec (.cmtwait f) s = .next (s.retire k f.pre t) ∧
      exec (.cmtpass f) s = .next (s.retire k f.pre t)) ∧
    (s.detOf t = true →
      (t.passed = true → exec (.cmtwait f) s = .next (s.raise k t 6 5 0 none) ∧
        exec (.cmtpass f) s = .next (s.raise k t 6 5 0 none)) ∧
      (t.passed = false →
        (t.held = true → exec (.cmtwait f) s = .next (s.retire k f.pre t)) ∧
        (t.held = false → exec (.cmtwait f) s = .next (s.waits k t (.commit false))) ∧
        (t.canPass = true → exec (.cmtpass f) s = .next ((passToken k t s).2.retire k f.pre
          { t with held := false, passed := true })) ∧
        (t.canPass = false → exec (.cmtpass f) s = .next (s.waits k t .ending))))) ∧
  (∀ (s : State) (k : Nat) (t : Team) (f : YF) (tk : Task), Issues s k t → t.guarded f.pre = t.active → t.active ≠ 0 → f.yk = 0 →
    t.stack = [] → t.spilledEntries = 0 → t.pend = none → s.task? t.task = some tk → tk.det = true → t.passed = false →
    (t.canPass = false → exec (.exit f) s = .next (s.breakRun k .ending)) ∧
    (t.canPass = true → (∀ b, s.block? t.blk = some b → b.dirty = []) →
      let id := tk.teamId t.block t.team
      id + 1 < tk.lr.grid * tk.lr.teams →
      ∃ s', exec (.exit f) s = .next s' ∧ s'.team? k = none ∧
        ∀ tk', s'.task? t.task = some tk' → tk'.tokenAt = id + 1 ∧ id ∈ tk'.exitedTeams)) ∧
  (∀ (s : State) (k : Nat) (t : Team) (f : MF), Issues s k t → acts f.pre t →
    let z := accessSize f
    let m := t.acting f.pre
    let late := fun (i : Instr) => t.passed = true → exec i s = .next (s.raise k t 6 5 0 none)
    let waits := fun (i : Instr) => t.passed = false → t.buffer ≠ [] ∨ t.held = false →
      exec i s = .next (s.waits k t (.commit true))
    let waitsHeld := fun (i : Instr) => t.passed = false → t.held = true → t.buffer ≠ [] →
      exec i s = .next (s.waits k t (.commit true))
    let goes := fun (i : Instr) (release : Bool) (es : List CommitEntry) =>
      t.passed = false → t.held = false → t.buffer.length + es.length ≤ 256 → exec i s =
        .next ((if release then s.release k else s).retire k f.pre { t with buffer := t.buffer ++ es })
    let rel := if bit f.ord 1 then some t.carried else none
    let relAtomic := if bit f.ord 1 then some t.carried else if t.relFence ≠ 0 then some t.relFence else none
    (mCheck f { ords := [0, 1] } t s = .ok () → mdVector f t s = .ok () → ∀ accs, lanesFor k t s f false m = .ok accs →
      (∃ a ∈ accs, a.place.shared = true) → late (.vld f) ∧ waits (.vld f)) ∧
    (mCheck f { ords := [0, 1], szs := [0, 1, 2, 3], ams := [3] } t s = .ok () → mdScalar f f.md = .ok () →
      ∀ a, teamAccess k t s f false z z = .ok a → a.place.shared = true → late (.sld f) ∧ waits (.sld f)) ∧
    (mCheck f { ords := [0, 1], szs := [2], ams := [1] } t s = .ok () → mdVector f t s = .ok () →
      (chunkTag f t s).fmt.scaled = true → ∀ chunks, chunkAccs k t s f false m = .ok chunks →
      (∃ c ∈ chunks, ∃ a ∈ c.2, a.place.shared = true) → late (.ldsc f) ∧ waits (.ldsc f)) ∧
    (atomCheck f false false t s = .ok () → mdVector f t s = .ok () →
      (f.aop = 7 → (s.recOf t).vecOk f.mx.toNat (dataRegs f.sz) (dataRegs f.sz) = true) →
      ∀ accs, lanesFor k t s f true m = .ok accs → (∃ a ∈ accs, a.place.shared = true) → late (.vatom f) ∧ waits (.vatom f)) ∧
    (atomCheck f false true t s = .ok () → mdScalar f f.md = .ok () → (f.aop = 7 → scalarOk f.mx (f.sz == 3) = true) →
      ∀ a, teamAccess k t s f true z z = .ok a → a.place.shared = true → late (.satom f) ∧ waits (.satom f)) ∧
    (mCheck f { ords := [0, 2], spcs := [0, 1, 2, 3] } t s = .ok () → mdVector f t s = .ok () → vstStop f k t s = none →
      ∀ data, vstData k f t s m = .ok data → (∃ e ∈ data, e.1.place.shared = true) →
      late (.vst f) ∧ waitsHeld (.vst f) ∧
        ((∀ e ∈ data, e.1.place.shared = true) → goes (.vst f) (bit f.ord 1) (bufferEntries t.pc (unitSize z) data rel))) ∧
    (mCheck f { ords := [0, 2], spcs := [0, 1, 2, 3], szs := [2], ams := [1] } t s = .ok () → mdVector f t s = .ok () →
      chunkTagsOk t (t.guarded f.pre) f.md.toNat (chunkTag f t s) = true → stscStop f k t s = none →
      ∀ data, stscData k f t s m = .ok data → (∃ e ∈ data, e.1.place.shared = true) →
      late (.stsc f) ∧ waitsHeld (.stsc f) ∧
        ((∀ e ∈ data, e.1.place.shared = true) → goes (.stsc f) (bit f.ord 1) (bufferEntries t.pc 4 data rel))) ∧
    (mCheck f { ords := [0, 2], spcs := [0, 1, 2, 3], szs := [0, 1, 2, 3], ams := [3] } t s = .ok () → mdScalar f f.md = .ok () →
      ∀ a, teamAccess k t s f true z z = .ok a → a.place.shared = true →
      late (.sst f) ∧ waitsHeld (.sst f) ∧ goes (.sst f) (bit f.ord 1)
        (bufferEntries t.pc z [(a, t.scalar (f.sz == 3) f.md.toNat % 2 ^ (8 * z))] rel)) ∧
    (atomCheck f true false t s = .ok () → (s.recOf t).vecOk f.mx.toNat (dataRegs f.sz) (dataRegs f.sz) = true →
      nrStop f k t s = none → ∀ accs, lanesFor k t s f true m = .ok accs → (∃ a ∈ accs, a.place.shared = true) →
      late (.vatomNr f) ∧ waitsHeld (.vatomNr f) ∧ ((∀ a ∈ accs, a.place.shared = true) → goes (.vatomNr f) (bit f.ord 1)
        (accs.map (fun a => .atomic t.pc f.aop.toNat (f.sz == 3) a.addr.toNat
          (if f.sz = 3 then t.rl2 f.mx.toNat a.lane else (t.rl f.mx.toNat a.lane).setWidth 64) relAtomic)))) ∧
    (atomCheck f true true t s = .ok () → scalarOk f.mx (f.sz == 3) = true →
      ∀ a, teamAccess k t s f true z z = .ok a → a.place.shared = true →
      late (.satomNr f) ∧ waitsHeld (.satomNr f) ∧ goes (.satomNr f) (bit f.ord 1)
        [.atomic t.pc f.aop.toNat (f.sz == 3) a.addr.toNat (BitVec.ofNat 64 (t.scalar (f.sz == 3) f.mx.toNat)) relAtomic])) ∧
  (∀ (s : State) (cl : Nat) (c : Cmd) (tk : Task) (write : Bool) (a : Nat) (l : Lease), s.task? c.task = some tk → tk.det = true →
    a < 2 ^ 64 → a % 4 = 0 → canonical (BitVec.ofNat 64 a) = true → tk.checkWord c.blockNo write a = .ok l → l.shared = true →
    (c.underToken = false → engPlace s cl c 0 write a = .error (.fault 2 4 (BitVec.ofNat 64 a) none) ∧
      ∀ ch rest dspc dst n, (s.cluster cl).channel ch = c :: rest → s.cmdRuns c = true → c.kind = .cpy dspc 0 dst a n → 4 ≤ n →
        c.started = false → write = false → exec (.cpyTransfer cl ch []) s = .next ((s.setChannel cl ch rest).engineFault
          c.uid c.task c.blockNo c.teamNo c.pc 2 4 (BitVec.ofNat 64 a) none)) ∧
    (c.underToken = true → ∀ loc, s.locate tk a = some loc → s.reach (cl / 2) loc (BitVec.ofNat 64 a) = .ok () →
      engPlace s cl c 0 write a = .ok (loc / 4)))

/-- `dlaunch` is a release: the parent's queued stores are registered. It counts the call in its block and its task, leaves its token
pending, puts a launch of the record's address before the Starter, with the parent, the block, the call and the parent's signature, and
goes on at the next word, nothing else changed (R122, R123, R239, R243, R296). A team that holds the commit token waits until its buffer
is empty (R295). That the child carries that signature (log 96), that a misaligned record is submitted without a check of the leases
(log 117), and that a release waits for no entry of a commit buffer while the token is elsewhere (log 119), are the model's. -/
def Obligations.DynamicLaunch : Prop :=
  ∀ (s : State) (k : Nat) (t : Team) (f : EF) (tk : Task), Issues s k t → acts f.pre t → f.tk ≠ 0 → f.dp ≠ 0 →
    bit f.dp 0 = false → s.task? t.task = some tk →
    let a := t.rs2 f.dp.toNat
    (a.toNat % 512 = 0 → ∃ p, resolve k t s 0 false 512 4 a = .ok p) →
    (t.held = true → t.buffer ≠ [] → exec (.dlaunch f) s = .next (s.waits k t (.commit true))) ∧
    ((t.held = true → t.buffer = []) →
    let s1 := s.release k
    (∀ p ∈ (s1.core (coreOf k)).stores, p.team ≠ k) ∧
    ∃ tk1, s1.task? t.task = some tk1 ∧ tk1.calls = tk.calls ∧
      let b := s1.blockOf t
      let l : Launch := {
        part := t.part, addr := a, eligible := true, wait := some 0, sig := t.carried,
        src := .child t.task t.uid t.block (s.blockOf t).calls f.tk.toNat (t.rs f.cn.toNat).toNat }
      let s2 := (s1.setBlock t.blk { b with calls := (s.blockOf t).calls + 1 }).setTask t.task
        { tk1 with calls := Tab.upd tk.calls 0 t.block (· + 1) }
      exec (.dlaunch f) s = .next ({ s2 with
          launches := Tab.set s.launches s.nextLaunch l, nextLaunch := s.nextLaunch + 1 }.retire k f.pre
        { t with pendTok := [f.tk.toNat] }))

/-- The ends of waits (R62), those for a barrier, a queue or the commit token at their condition alone (R290), `park` deadlines (R113), held slot writes (R158), line fills (R45), which bring no word that the cluster's
cache does not hold where no request was sent (R33), registrations (R243), commit buffers (R295) and words that are no instruction
(R88). That a performed scalar write of Outrider clears the invalid mark of its destination is the model's choice (log 101).
OUTRIDER. The return of the last line restores the checkpoint (R66, R68). Before that, a word of an instruction Outrider passes over
changes no register but pc, and its scalar destinations become invalid; a scalar instruction of two sources, none of them invalid or
pending, writes its destination; neither changes memory, a block or another team (R66, R67); a word that fails a check ends it (R88,
R125). -/
def Obligations.WaitAndMemoryEvents : Prop :=
  ∀ (s : State),
    (∀ k t, s.team? k = some t → s.waitMet k t = true →
      ∃ s', exec (.waitConditionMet k) s = .next s' ∧ s'.team? k = some { t with wait := none, readyAt := s.moment } ∧
        SameButTeam k t.part s s') ∧
    (∀ k t, s.team? k = some t →
      (t.wait = some .over → s.waitMet k t = true) ∧
      (∀ regs, t.wait = some (.token regs) → (s.waitMet k t = true ↔ ∀ i ∈ regs, i = 0 ∨ i ∉ t.pendTok)) ∧
      (∀ ch, t.wait = some (.channel ch) →
        (s.waitMet k t = true ↔ ((s.cluster (clusterOf (coreOf k))).channel ch).length < 16)) ∧
      (∀ n, t.wait = some (.batch n) → (s.waitMet k t = true ↔ ∀ i ∈ Tab.get t.batches [] n, (Tab.get t.cmds {} i).done = true)) ∧
      (∀ g gen, t.wait = some (.barrier g gen) →
        s.waitMet k t = s.generationDone t.task g gen (clusterOf (coreOf k))) ∧
      (∀ q, t.wait = some (.queueEmpty q) → ((s.recOf t).queue q).kind ≠ 3 → (s.waitMet k t = true ↔ s.qlen k t q ≠ 0)) ∧
      (∀ drained, t.wait = some (.commit drained) → (s.waitMet k t = true ↔ t.held = true ∧ (drained = true → t.buffer = []))) ∧
      (t.wait = some .ending → (s.waitMet k t = true ↔ t.passed = true ∨ t.canPass = true)) ∧
      (∀ a w e d, t.wait = some (.park a w e d) → s.waitMet k t = false) ∧
      (s.waitMet k t = false → exec (.waitConditionMet k) s = .next s)) ∧
    (∀ k t a w e d, s.team? k = some t → t.wait = some (.park a w e (some d)) → d ≤ s.tick →
      exec (.parkTimeout k) s = .next (s.setTeam k { t with wait := some .over })) ∧
    (∀ bk b h rest, s.block? bk = some b → b.heldWrites = h :: rest →
      (∀ e ∈ s.teams, e.2.blk = bk → ∀ i, e.2.intr = some i → ∀ x ∈ i.slots, x.1 ≠ h.slot) →
      exec (.slotWriteApply bk 0) s = .next (s.setBlock bk { b with
        slots := Tab.set b.slots h.slot h.val, badSlots := b.badSlots.filter (fun n => n != h.slot), heldWrites := rest })) ∧
    (∀ k t line sent evp, s.teams.filter (fun e => coreOf e.1 == coreOf k && (match e.2.wait with
        | some (.fill lines _ _) => lines.contains line
        | _ => false)) = [(k, t)] → t.wait = some (.fill [line] sent evp) →
      (∀ x ∈ (s.core (coreOf k)).refills, x.line ≠ line) →
      let home := sent.contains line
      ∃ s' u, exec (.lineFillReturn (coreOf k) line) s = .next s' ∧ s'.team? k = some u ∧ u.wait = none ∧ u.out = none ∧
        u.readyAt = s.moment ∧ (∀ w, evp = 7 → w / 32 = line → bit (s.goodWords (coreOf k) line home) (w % 32) = true →
          Tab.get? u.fills w = some (rowWord (s.nextLevel (coreOf k) line home) (w % 32))) ∧
        (t.out = none → u.pc = t.pc ∧ u.s = t.s ∧ u.v = t.v) ∧
        (∀ o, t.out = some o → u.pc = o.pc ∧ u.s = o.s ∧ u.p = o.p ∧ u.sides = o.sides ∧ u.active = o.active ∧ u.v = o.v ∧
          u.fflags = o.fflags)) ∧
    (∀ c line i, i < 32 → bit (s.goodWords c line false) i = (cached (s.cluster (clusterOf c)).l2 (32 * line + i)).isSome) ∧
    (∀ c p rest, s.memoryWf = true → (s.core c).stores = p :: rest → (p.words.map (·.1)).Nodup →
      ∃ s', exec (.storeRegistration c 0) s = .next s' ∧ (s'.core c).stores = rest ∧
        (∀ e ∈ p.words, s'.peek e.1 = e.2 ∧ Tab.get? s'.owners e.1 = some c) ∧
        ∀ w, w ∉ p.words.map (·.1) → s'.peek w = s.peek w) ∧
    (∀ k t e rest s' u, s.team? k = some t → t.buffer = e :: rest → t.held = true → t.fault = none → s.partRuns t.part = true →
      s.taskRuns t.task = true → drainEntry k t s e = .ok s' → s'.team? k = some u →
      exec (.commitBufferDrain k) s = .next (s'.setTeam k { u with buffer := rest })) ∧
    (∀ k t w, s.cur = some k → s.team? k = some t →
      (decode w = .error .unassigned → exec (.illegalInstruction w) s = .next (s.raise k t 5 1 0 none)) ∧
      (decode w = .error .reserved → exec (.illegalInstruction w) s = .next (s.raise k t 5 2 0 none))) ∧
    (∀ k t o w i, s.team? k = some t → t.out = some o → s.pipeReady (coreOf k) (slotOf k % 2) = false → t.resumeDue = false →
      t.pend = none → (s.part t.part).breaksAt t.pc = false → s.fetchWord k t = .ok w → s.frozenNext k t = false →
      decode w = .ok i → t.guarded (Pre.ofBits w) ≠ 0 →
      let s1 := s.keepCode k t
      let x := s1.usesFor t w
      let fails := s1.checkFails k i t (x.slots.filter (fun n => o.invSlot.contains n))
        (if opcodeOf w / 64 = 1 then Fmt.i32 else Fmt.f32)
      let s' := s.issueOutrider k t o
      (fails = true → s' = s1.endOutrider k t) ∧
      (fails = false → s1.readsBad t w x = false →
        (aheadOf (opcodeOf w) (MF.ofBits w).spc.toNat = .skip →
          s'.mem = s.mem ∧ s'.blocks = s.blocks ∧ (∀ j, j ≠ k → s'.team? j = s.team? j) ∧
          ∃ u o', s'.team? k = some u ∧ u.pc = t.pc + 8 ∧ u.s = t.s ∧ u.p = t.p ∧ u.v = t.v ∧ u.wait = t.wait ∧
            u.out = some o' ∧ ∀ r ∈ x.ws, r ≠ 0 → r ∈ o'.invS) ∧
        (∀ e ∈ scalarTwo, i = e.1 (S3.ofBits w) → opcodeOf w < 64 → evenPairs (S3.ofBits w) true true true →
          o.badWhole t x = false → t.tokensPending x.ws = [] → s1.shadowRows (coreOf k) + o.shadow.length ≤ 256 →
          s'.mem = s.mem ∧ s'.blocks = s.blocks ∧ (∀ j, j ≠ k → s'.team? j = s.team? j) ∧
          ∃ u o', s'.team? k = some u ∧ u.pc = t.pc + 8 ∧ u.s = (t.scalarResult (S3.ofBits w) e.2.1 e.2.2).s ∧ u.p = t.p ∧
            u.v = t.v ∧ u.fflags = t.fflags ∧ u.wait = t.wait ∧ u.out = some o' ∧ ∀ r ∈ x.ws, r ≠ 0 → r ∉ o'.invS)))

/-- The next run of a pipe: of the waiting teams that are not deferred, that of the highest priority, then of the earliest reference
point, then of the lowest slot (R46); of a team in Outrider state where no other is ready (R66). The evaluation of R47: the cap falls
by one where a score reaches THRESH, rises by one where every score is below RD(THRESH/2) and stays otherwise, and every score is
halved. Resumption after a barrier (R358), dispatch, before which a launch of a lower PRIO with any gang that fits goes (R315), and reload
(R347): a halted team waits for every team of its block, those in `park` too, which is the model's reading (log 155), after which a team that they make ready has its reference point
there (R46). A team dispatched holds at its first issue the constants in s1 upward, zero in every
other register and predicate, no stack, every lane, the entry and the mode word of its record (R39, R54); the lowest free slots it
takes are the model's choice (log 103). -/
def Obligations.RunAndPlaceEvents : Prop :=
  ∀ (s : State),
    (∀ core pipe k t, pipe < 2 → ((s.core core).pipe pipe).team = none → s.pipeTeams core pipe = [(k, t)] →
      (s.waiting k t = true → (s.part t.part).capMode = 0 →
        exec (.runArbitration core pipe) s = .next (s.setCore core ((s.core core).setPipe pipe { team := some k }))) ∧
      (s.able k t = true → t.out.isSome = true → s.frozenNext k t = false →
        exec (.runArbitration core pipe) s = .next (s.setCore core ((s.core core).setPipe pipe { team := some k })))) ∧
    (∀ core pipe k t, pipe < 2 → ((s.core core).pipe pipe).team = none → (k, t) ∈ s.pipeTeams core pipe → s.waiting k t = true →
      (∀ e ∈ s.pipeTeams core pipe, (s.part e.2.part).capMode = 0) →
      let deferred := fun (j : Nat) (u : Team) => u.started = true ∧
        ∃ e ∈ s.pipeTeams core pipe, e.1 ≠ j ∧ s.waiting e.1 e.2 = true ∧ e.2.ref < u.runEnd
      let before := fun (j : Nat) (u : Team) => let p := (s.part t.part).iprio
        let q := (s.part u.part).iprio
        p < q ∨ (p = q ∧ (t.ref < u.ref ∨ (t.ref = u.ref ∧ k < j)))
      ¬ deferred k t →
      (∀ e ∈ s.pipeTeams core pipe, e.1 ≠ k → s.waiting e.1 e.2 = true → ¬ deferred e.1 e.2 → before e.1 e.2) →
      exec (.runArbitration core pipe) s = .next (s.setCore core ((s.core core).setPipe pipe { team := some k }))) ∧
    (∀ core, 4096 ≤ (s.core core).capClock →
      ∃ s', exec (.capEvaluation core) s = .next s' ∧ (s'.core core).capClock = (s.core core).capClock - 4096 ∧
        (∀ k t, s.team? k = some t → s'.team? k = some
          (if isSpilled k = false ∧ coreOf k = core then { t with score := t.score / 2 } else t)) ∧
        (∀ p pipe, pipe < 2 → (s.part p).capMode = 2 →
          let v := Tab.get (s.core core).caps 16 (2 * p + pipe)
          let is := fun (n : Nat) => Tab.get? (s'.core core).caps (2 * p + pipe) = some n
          let thresh := (s.part p).thresh
          let has := fun (f : Nat → Prop) => ∃ e ∈ s.pipeTeams core pipe, e.2.part = p ∧ f e.2.score
          (has (thresh ≤ ·) → is (max (max 1 (min 16 (s.part p).cap)) (v - 1))) ∧
          (has (· < thresh / 2) → ¬ has (thresh / 2 ≤ ·) → is (min 16 (v + 1))) ∧
          (has (thresh / 2 ≤ ·) → ¬ has (thresh ≤ ·) → is v))) ∧
    (∀ k tk g d cl, s.task? k = some tk → (Tab.get tk.gstate {} g).done = some d → d.clusters[d.resumed.length]? = some cl →
      d.tick + BitVec.ofNat 64 (d.resumed.length * s.slew) ≤ s.tick →
      let gs := Tab.get tk.gstate {} g
      let gs' := { gs with done := some { d with resumed := d.resumed ++ [cl] } }
      exec (.clusterResume k g cl) s = .next (s.setTask k { tk with gstate := Tab.set tk.gstate g gs' })) ∧
    (∀ key tk b c s', s.task? key = some tk → s.partRuns tk.part = true → s.taskRuns key = true → s.childDispatches tk = true →
      s.inOrder key tk [b] = true → (∀ e ∈ s.tasks, s.goesBefore e.1 key = true → s.dispatchable e.1 = false) →
      s.banksReady tk.lr (clusterOf c) = true → (tk.lr.bindsEsc = true → s.escServes key (clusterOf c) = true) →
      s.placeBlock key b c = some s' → exec (.blockDispatch key [(b, c)] []) s = .next (s'.endHalts.readiedFrom s) ∧
        ∀ k t, s'.team? k = some t → (s'.endHalts.readiedFrom s).team? k = some { t with
          awaitsBlock := t.awaitsBlock && !s'.haltOver t,
          readyAt := if t.wait = none ∧ s'.stands k t = true ∧ (∀ u, s.team? k = some u → s.stands k u = false)
            then s'.moment else t.readyAt }) ∧
    (∀ key tk, s.task? key = some tk → s.partRuns tk.part = true → s.taskRuns key = true → s.childDispatches tk = true →
      (s.dispatchable key = true ↔ ∃ g ∈ tk.nextGangs, (s.findPlaces key g).isSome = true)) ∧
    (∀ k t, t.awaitsBlock = true → (∃ e ∈ s.teams, e.2.blk = t.blk ∧ (isSpilled e.1 = true ∨ e.2.rowsSpilled = true)) →
      s.stands k t = false) ∧
    (∀ key tk b c s', s.task? key = some tk → tk.det = false → s.placeBlock key b c = some s' →
      (∀ j slot, j < tk.lr.teams → (s.freeTeamSlots c)[j]? = some slot →
        ∃ u, s'.team? slot = some u ∧ u.task = key ∧ u.block = b ∧ u.team = j ∧ u.part = tk.part ∧ u.uid = s.nextKey + j ∧
          u.lanes = tk.lr.lanes ∧ u.pc = tk.lr.entry ∧ u.active = lanesBelow tk.lr.lanes ∧ u.fmode = tk.lr.fmode ∧
          (∀ i, 1 ≤ i → i ≤ 63 → u.rs i = (tk.consts[i - 1]?).getD 0) ∧ (∀ i, i < 7 → u.rp i = 0) ∧ u.rp 7 = u.all ∧
          (∀ r w, u.rv r w = {}) ∧ (∀ w, u.side w = {}) ∧ u.stack = [] ∧ u.spilledEntries = 0 ∧ u.retired = 0 ∧
          u.fflags = 0 ∧ u.tcause = 0 ∧ u.tlanes = 0 ∧ u.pend = none ∧ u.wait = none ∧ u.readyAt = s.moment) ∧
      (s'.task? key).map (·.dispatched) = some (insertNew tk.dispatched b)) ∧
    (∀ k t b, s.team? k = some t → isSpilled k = true → s.mayReload t.part = true → s.taskRuns t.task = true →
      (t.parked = true → s.blockAwaits t.blk = true) → s.saveBad t.part = none → s.team? (k % slotKeys) = none →
      s.block? t.blk = some b → b.slotsSpilled = false → b.linesSpilled = false →
      s.banksReady (s.recOf t) (clusterOf (coreOf k)) = true → (s.recOf t).bindsEsc = false →
      (∀ n ∈ (s.recOf t).fifoBanks, let x := (s.cluster (clusterOf (coreOf k))).bank n
        x.owner = some t.part ∧ Tab.get? x.saved t.part = none) →
      (s.cluster (clusterOf (coreOf k))).counterBank t.task = [] →
      s.rowsUsed (coreOf k) + t.regs * t.words ≤ Config.rowsPerCore → s.slotsUsed (coreOf k) ≤ Config.mapSlotsPerCore →
      let u : Team := { t with rowsSpilled := false }
      ∃ s', exec (.teamReload k) s = .next s' ∧ s'.team? k = none ∧
        s'.team? (k % slotKeys) = some { u with
          awaitsBlock := u.awaitsBlock && !s'.haltOver u,
          readyAt := if u.wait = none ∧ s'.stands (k % slotKeys) u = true then s.moment else u.readyAt })

/-- The transfers of the first command of a channel, when it runs: `cpy` reads every source word before it writes; a
descriptor that is not aligned completes with 0x8000_0101, one whose fields are wrong with 0x8000_0102; the last element of a
`cpyt`, `lay`, `gat` or `sct` completes it; a `mapld` of chunks, images or rows reads them all and then changes its slot as a whole, a
`mapst` stores the slot in the same layouts, no rows of a block-scaled one; a command leaves its channel with its token written, no
longer pending, in the checkpoint of Outrider too (R66, R259 to R269, Table 17-2). That a `mapst` of a slot with an uncorrectable error
is an ECC fault with no address is the model's reading (R375, log 98), so is the order of the units of a transfer (log 82), and that a
descriptor whose fields are wrong completes with 0x8000_0102 though an address or a stride be misaligned too is its choice (log 140). -/
def Obligations.Transfers : Prop :=
  ∀ (s : State) (cl ch : Nat) (c : Cmd) (rest : List Cmd), (s.cluster cl).channel ch = c :: rest → s.cmdRuns c = true →
    let fin := fun (s' : State) (c' : Cmd) (v : Word) => Host.Outcome.next ((s'.setChannel cl ch rest).finishCmd c' v)
    (∀ dspc sspc dst src n ws c1 s1 c2 s2, c.kind = .cpy dspc sspc dst src n → c.started = false → c.done = [] →
      engBytes s cl c sspc src (n / 4) = .ok (ws, c1, s1) →
      (List.range (n / 4)).foldlM (fun (r : Cmd × State) i => engWrite r.2 cl r.1 dspc (dst + 4 * i) ((ws[i]?).getD 0))
        ({ c1 with started := true, source := ws }, s1) = .ok (c2, s2) →
      exec (.cpyTransfer cl ch []) s = fin s2 { c2 with source := ws, done := List.range (n / 4) } c2.value) ∧
    (∀ a n, c.started = false →
      (a % 128 ≠ 0 → (c.kind = .cpyt a → exec (.cpytTransfer cl ch n) s = fin s c 0x80000101#32) ∧
        (c.kind = .lay a → exec (.layTransfer cl ch n) s = fin s c 0x80000101#32)) ∧
      (a % 64 ≠ 0 → ∀ m, (c.kind = .gat a m → exec (.gatTransfer cl ch n) s = fin s c 0x80000101#32) ∧
        (c.kind = .sct a m → exec (.sctTransfer cl ch n) s = fin s c 0x80000101#32))) ∧
    (∀ a n ws c1 s1, c.started = false → a % 128 = 0 → engBytes s cl c 0 a 32 = .ok (ws, c1, s1) →
      (c.kind = .cpyt a → stridedOk false (wordBytes ws) = false → exec (.cpytTransfer cl ch n) s = fin s1 c1 0x80000102#32) ∧
      (c.kind = .lay a → stridedOk true (wordBytes ws) = false → exec (.layTransfer cl ch n) s = fin s1 c1 0x80000102#32)) ∧
    (∀ n c' s', c.started = true →
      (∀ a, c.kind = .cpyt a → c.count + 1 = stridedTotal c.desc →
        engCopy cl (fieldB c.desc 16 1) (fieldB c.desc 17 1) (stridedAddr c.desc (fieldB c.desc 0 8) 80 c.count)
          (stridedAddr c.desc (fieldB c.desc 8 8) 40 c.count) (elemSize (fieldB c.desc 19 1) / 4) c s = .ok (c', s') →
        exec (.cpytTransfer cl ch (n + 1)) s = fin s' { c' with done := [c.count + 1] } c'.value) ∧
      (∀ a, c.kind = .lay a → c.count + 1 = stridedTotal c.desc →
        engCopy cl (fieldB c.desc 16 1) (fieldB c.desc 17 1) (layAddr c.desc c.count)
          (stridedAddr c.desc (fieldB c.desc 8 8) 40 c.count) (elemSize (fieldB c.desc 19 1) / 4) c s = .ok (c', s') →
        exec (.layTransfer cl ch (n + 1)) s = fin s' { c' with done := [c.count + 1] } c'.value) ∧
      (∀ a m, c.kind = .gat a m → c.count + 1 = m → gatherElem cl false c.desc c.count c s = .ok (c', s') →
        exec (.gatTransfer cl ch (n + 1)) s = fin s' { c' with done := [c.count + 1] } c'.value) ∧
      (∀ a m, c.kind = .sct a m → c.count + 1 = m → gatherElem cl true c.desc c.count c s = .ok (c', s') →
        exec (.sctTransfer cl ch (n + 1)) s = fin s' { c' with done := [c.count + 1] } c'.value)) ∧
    (∀ slot spc base stride fs rows c' s', c.kind = .mapld slot spc false base stride fs →
      let r : Rec := match s.task? c.task with | some tk => tk.lr | none => {}
      let tag := slotTag (r.fmtSlot fs)
      (List.range 32).foldlM (fun (x : List (List Word) × Cmd × State) i => do
        let (ws, c, s) ← engBytes x.2.2 cl x.2.1 spc ((base + i * stride) % 2 ^ 64) (if tag.fmt.scaled then 34 else 32)
        pure (x.1 ++ [ws], c, s)) (([] : List (List Word)), c, s) = .ok (rows, c', s') →
      exec (.mapldTransfer cl ch) s =
        fin (s'.setBlock c'.blk ((s'.blockOfCmd c').writeSlot c'.uid slot (slotOfColumns tag rows))) c' c'.value) ∧
    (∀ slot spc base stride fs rows c' s', c.kind = .mapld slot spc true base stride fs →
      let r : Rec := match s.task? c.task with | some tk => tk.lr | none => {}
      let tag := slotTag (r.fmtSlot fs)
      let halves := tag.fmt.count = 2
      (List.range (if halves then 64 else 32)).foldlM (fun (x : List (List Word) × Cmd × State) i => do
        let (ws, c, s) ← engBytes x.2.2 cl x.2.1 spc ((base + i * stride) % 2 ^ 64) (if halves then 16 else 32)
        pure (x.1 ++ [ws], c, s)) (([] : List (List Word)), c, s) = .ok (rows, c', s') →
      exec (.mapldTransfer cl ch) s =
        fin (s'.setBlock c'.blk ((s'.blockOfCmd c').writeSlot c'.uid slot (slotOfRows tag rows))) c' c'.value) ∧
    (∀ (tag : Tag) (ls : List (List Word)) n l, n < 32 → l < 32 →
      let word := fun (i j : Nat) => (((ls[i]?).getD [])[j]?).getD 0
      let half := fun (i : Nat) => (word i (n / 2)).extractLsb' (16 * (n % 2)) 16
      let col := slotOfColumns tag ls
      let row := slotOfRows tag ls
      col.tag = tag ∧ col.set = true ∧ row.tag = tag ∧ row.set = true ∧
      (tag.fmt.scaled = false → rowWord (Tab.get col.cols 0 n) l = word n l) ∧
      (tag.fmt.scaled = true → rowWord (Tab.get col.cols 0 n) l = word n (l + 2) &&& tag.fmt.used ∧
        Tab.get col.scales 0 n = (word n 1 ++ word n 0) &&& tag.fmt.usedScales) ∧
      rowWord (Tab.get row.cols 0 n) l = if tag.fmt.count = 2 then half (32 + l) ++ half l else word l n) ∧
    (∀ slot spc row base stride, c.kind = .mapst slot spc row base stride →
      let sl := (s.blockOfCmd c).slotFor c.uid slot
      ((s.blockOfCmd c).badSlots.contains slot = true → exec (.mapstTransfer cl ch) s =
        .next ((s.setChannel cl ch rest).engineFault c.uid c.task c.blockNo c.teamNo c.pc 7 4 0 none)) ∧
      ((s.blockOfCmd c).badSlots.contains slot = false → sl.tag.fmt.scaled = true → row = true →
        exec (.mapstTransfer cl ch) s = fin s c 0x80000104#32) ∧
      ((s.blockOfCmd c).badSlots.contains slot = false → ¬ (sl.tag.fmt.scaled = true ∧ row = true) →
        let word := fun (n l : Nat) => rowWord (Tab.get sl.cols 0 n) l
        let half := fun (n i : Nat) => (word n (i % 32)).extractLsb' (16 * (i / 32)) 16
        let halves := row = true ∧ sl.tag.fmt.count = 2
        let lines := if halves then 64 else 32
        let size := if halves then 16 else if sl.tag.fmt.scaled then 34 else 32
        let data := fun (i j : Nat) =>
          if halves then half (2 * j + 1) i ++ half (2 * j) i
          else if row then word j i
          else if sl.tag.fmt.scaled then
            (if j = 0 then (Tab.get sl.scales 0 i).setWidth 32 else if j = 1 then (Tab.get sl.scales 0 i).extractLsb' 32 32
             else word i (j - 2))
          else word i j
        ∀ c' s', (List.range lines).foldlM (fun (r : Cmd × State) i => (List.range size).foldlM (fun (r : Cmd × State) j =>
            engWrite r.2 cl r.1 spc ((base + i * stride + 4 * j) % 2 ^ 64) (data i j)) r) (c, s) = .ok (c', s') →
          exec (.mapstTransfer cl ch) s = fin s' c' c'.value)) ∧
    (∀ (d : Cmd) v k t, s.issuer d.uid = some (k, t) → s.team? k = some t → d.tok ≠ 0 →
      ∃ u, (s.finishCmd d v).team? k = some u ∧ u.rs d.tok = v ∧ d.tok ∉ u.pendTok ∧ (Tab.get u.cmds {} d.id).done = true ∧
        (v = 1 → Tab.get? u.tokSig d.tok = some d.sig) ∧
        ∀ o, t.out = some o → ∃ o', u.out = some o' ∧ Tab.get o'.s 0 d.tok = v)

/-- `escld` binds its graph, with its arrays read, its counters at the in-degrees and the rows of in-degree 0 ready, in the place of a
graph of the launch that is complete where there is one, or answers the first error of R277 that applies: a graph of another launch
bound, one of this launch not complete, the alignment of the descriptor, its COUNT and reserved bytes, its arrays; a done row decrements each successor's counter, and those that reach zero become ready (R278); a dead tile is expired
and emptied by the sweep, a soft error clears the valid bits of one line (R218); BKCTL requests, each read back at once, and the
changes of a bank's mode: the bank is empty after one, and the lines it held as cache, and no others, leave the cluster cache, the
stores behind their dirty words registered (R210, R211). The model's choices are that `escld` reads
ranges leased `shared` without the commit token (log 134), that a launch without an Escapement port binds its graph too (log 141), that counters in error fault the binding `escld` (R375,
log 125), a visit of the sweep to a live tile (log 84), whose saved entries a FIFO bank keeps at its change (log 109), that REQ reads
back at once and a request then waits (log 112), and which stores are registered behind dirty words (log 123). -/
def Obligations.ClusterEvents : Prop :=
  ∀ (s : State) (cl : Nat),
    (∀ e rest, (s.cluster cl).escLoads = e :: rest → s.engineRuns e.task = true →
      let s1 := s.setCluster cl { s.cluster cl with escLoads := rest }
      let error := fun (x : State) (v : Word) => exec (.escldBind cl) s = .next (x.writeToken e.uid e.tok v none)
      let free := ∀ g, (s.cluster cl).graph = some g →
        if g.task = e.task then g.processed = g.count else s.task? g.task = none
      (∀ g, (s.cluster cl).graph = some g → g.task ≠ e.task → s.task? g.task ≠ none → error s1 0x80000105#32) ∧
      (∀ g, (s.cluster cl).graph = some g → g.task = e.task → g.processed ≠ g.count → error s1 0x80000108#32) ∧
      (free → e.desc % 64 ≠ 0 → error s1 0x80000101#32) ∧
      (∀ ws c1 s2, free → e.desc % 64 = 0 →
        let m : Cmd := { kind := .cpyt e.desc, uid := e.uid, task := e.task, blk := 0, blockNo := e.blockNo,
                         teamNo := e.teamNo, id := 0, tok := e.tok, pc := e.pc, underToken := true }
        let d := wordBytes ws
        let count := fieldB d 24 4
        let n := fun (l : List Word) => l.map (·.toNat)
        engBytes s1 cl m 0 e.desc 16 = .ok (ws, c1, s2) →
        (count = 0 ∨ 131072 < count ∨ fieldB d 28 36 ≠ 0 → error s2 0x80000102#32) ∧
        ∀ ind sp si c2 c3 c4 s3 s4 s5, 1 ≤ count → count ≤ 131072 → fieldB d 28 36 = 0 →
          engBytes s2 cl m 0 (fieldB d 0 8) count = .ok (ind, c2, s3) →
          engBytes s3 cl m 0 (fieldB d 8 8) (count + 1) = .ok (sp, c3, s4) →
          engBytes s4 cl m 0 (fieldB d 16 8) ((sp[count]?).getD 0).toNat = .ok (si, c4, s5) →
          (graphOk count (n ind) (n sp) (n si) = false → error s5 0x80000106#32) ∧
          (graphOk count (n ind) (n sp) (n si) = true →
            exec (.escldBind cl) s = .next ((((s5.setCluster cl { s5.cluster cl with graph := some {
              task := e.task, count := count, counters := (List.range count).zip (n ind),
              succ := (List.range count).map (fun r => (r, ((n si).drop ((sp[r]?).getD 0).toNat).take
                (((sp[r + 1]?).getD 0).toNat - ((sp[r]?).getD 0).toNat))),
              ring := (List.range count).filter (fun r => (ind[r]?).getD 0 == 0), load := e } }).writeToken e.uid e.tok 1
                (some 0)).endHalts).readiedFrom s)))) ∧
    (∀ g row c rest, (s.cluster cl).graph = some g → s.engineRuns g.task = true → g.spilled = false → s.escReady cl = true →
      g.port = (row, c) :: rest →
      (g.bad = true → exec (.escDoneProcess cl) s = .next ((s.setCluster cl { s.cluster cl with
        graph := some { g with port := rest } }).engineFault g.load.uid g.task g.load.blockNo g.load.teamNo g.load.pc 7 3 0
          none)) ∧
      (g.bad = false → ∃ g', exec (.escDoneProcess cl) s = .next (s.setCluster cl { s.cluster cl with graph := some g' }) ∧
        g'.port = rest ∧ g'.processed = g.processed + 1 ∧ ∀ r,
          Tab.get g'.counters 0 r = Tab.get g.counters 0 r - (Tab.get g.succ [] row).count r ∧
          (r ∉ g.ring → (r ∈ g'.ring ↔ r ∈ Tab.get g.succ [] row ∧ Tab.get g.counters 0 r ≤ (Tab.get g.succ [] row).count r)))) ∧
    (∀ bk b i x, s.block? bk = some b → Tab.get? b.tiles i = some x →
      (x.live s.sample = false → exec (.sweepVisit bk i) s = .next (s.setBlock bk { b with
        tiles := Tab.set b.tiles i { x with exp := true, valid := 0, visit := s.tick } })) ∧
      (x.live s.sample = true → exec (.sweepVisit bk i) s = .next (s.setBlock bk { b with
        tiles := Tab.set b.tiles i { x with visit := s.tick } })) ∧
      ∀ line, line < 16 → ∃ y, exec (.fleetSoftError bk i line) s = .next (s.setBlock bk { b with tiles := Tab.set b.tiles i y }) ∧
        y.birth = x.birth ∧ y.exp = x.exp ∧ y.data = x.data ∧ y.visit = x.visit ∧
        ∀ n, y.valid.getLsbD n = (x.valid.getLsbD n && decide (n / 32 ≠ line))) ∧
    (∀ bank (v : Word), let x := (s.cluster cl).bank bank
      let out := fun (y : Bank) => Host.Outcome.next (s.setCluster cl ((s.cluster cl).setBank bank { y with fw := bit v 12 }))
      (field v 8 2 = 3 → exec (.bkctlReqWrite cl bank v) s = out x) ∧
      ∀ m, BankMode.ofCode (field v 8 2) = some m →
        (x.esc = true ∨ x.trans = true → exec (.bkctlReqWrite cl bank v) s = out { x with req := m, next := some m }) ∧
        (x.esc = false → x.trans = false → m = x.mode → exec (.bkctlReqWrite cl bank v) s = out { x with req := m }) ∧
        (x.esc = false → x.trans = false → m ≠ x.mode →
          exec (.bkctlReqWrite cl bank v) s = out { x with req := m, aim := m, trans := true })) ∧
    (∀ bank, let x := (s.cluster cl).bank bank
      x.trans = true → x.next = none → x.esc = false →
      (x.mode = .cache ∨ (x.mode = .scratch ∧ s.linesUsed cl bank = 0) ∨
        (x.mode = .fifo ∧ ∀ q ∈ s.binders cl bank, (Tab.get? x.saved q).isSome = true)) →
      let lines := if x.mode = .cache then (s.cluster cl).l2.filter (fun e => e.2.bank == bank) else []
      let s1 := s.flushL2 cl (fun _ => true) (lines.flatMap (fun e => lineWords e.1))
      exec (.bankModeChange cl bank) s = .next (s1.setCluster cl { (s1.cluster cl).setBank bank { x with
          mode := x.aim, trans := false, fifo := [], owner := none, saved := x.saved.filter (fun e => s1.partBinds cl bank e.1),
          width := if x.aim = .fifo then x.fw else x.width } with
        l2 := if x.mode = .cache then (s1.cluster cl).l2.filter (fun e => e.2.bank != bank) else (s1.cluster cl).l2 }) ∧
      (∀ e ∈ lines, ∀ w, w / 32 = e.1 → ∀ c, dirtyBy (s.cluster cl).l2 w = some c →
        ∀ p ∈ (s1.core c).stores, ∀ y ∈ p.words, y.1 ≠ w)) ∧
    (∀ bank, ((s.cluster cl).bank bank).trans = false → exec (.bankModeChange cl bank) s = .next s)

/-- Notifies through AP2, latches and slots (R308, R310, R311), and the command records EVSET, EVCLR, MARK, LAUNCH and those of an
unknown type (R309, R313), when the Starter's choice falls on their queue (R312). That a MARK releases with a signature of all 512
bits, that its ADDR is taken as it stands, that the Starter's writes need no W, and that a notify which overruns an enabled queue
takes no slot and is not latched, are the model's choices (logs 56, 129, 144, 145), and so are they that a descriptor's LOGN, PRIO and RING
are used as they stand, and that the other fields of a record are not looked at (logs 149, 150). -/
def Obligations.QueueEvents : Prop :=
  ∀ (s : State) (p q : Nat),
    (∀ fn off n, exec (.notify fn ⟨off, n⟩ none) s = .next { s with hostRead := some (0, 0) } ∧
      ∀ v, (s.up = false ∨ notified fn off n = none → exec (.notify fn ⟨off, n⟩ (some v)) s = .next s)) ∧
    (p < 64 → q < 8192 → notified none (65536 * p + 8 * q) 4 = some (p, q) ∧ notified (some p) (8 * q) 4 = some (p, q)) ∧
    (∀ off n, 65536 ≤ off → notified (some p) off n = none) ∧
    (∀ fn off n (v : DWord) d, notified fn off n = some (p, q) → s.up = true → s.qdesc p q = some d →
      let tail : Word := v.setWidth 32
      let s1 := (s.sawDesc p q).vwrite p (d.va + 16) (bytesOf 4 tail.toNat)
      let far := 2 ^ d.logn < (tail.toNat + 2 ^ 32 - d.head) % 2 ^ 32
      let out := fun (x : State) => exec (.notify fn ⟨off, n⟩ (some v)) s = .next x
      (¬ far → d.en = false → out ((s1.latch p q).releaseSlot p q)) ∧
      (¬ far → (s.slotOfQueue p q).isSome = true → d.en = true → out (s1.releaseSlot p q)) ∧
      (¬ far → s.slotOfQueue p q = none → d.en = true →
        (∀ i, s.freeSlot = some i → out ((s1.takeSlot i p q d).releaseSlot p q)) ∧
        (s.freeSlot = none →
          (s1.unmappable = none → out ((s1.latch p q).releaseSlot p q)) ∧
          ∀ i h, s1.unmappable = some (i, h) → out (((s1.latch h.part h.queue).takeSlot i p q d).releaseSlot p q))) ∧
      (far → ∀ f, s1.vread p (d.va + 11) 1 = some [f] →
        let x := (s1.vwrite p (d.va + 11) [f &&& ~~~1#8]).irq (some p) 1
        (d.en = true → out x) ∧ (d.en = false → out (x.latch p q)))) ∧
    (∀ d i, s.qdesc p q = some d → s.slotOfQueue p q = some i →
      s.releaseSlot p q = if d.head = d.tail then { s with hwSlots := Tab.erase s.hwSlots i } else s) ∧
    (Tab.get? (s.part p).pnmap q = none → Tab.get? ((s.latch p q).part p).pnmap q = some (some s.tick)) ∧
    (∀ i d, Tab.get? (s.takeSlot i p q d).hwSlots i = some { part := p, queue := q, credit := d.weight } ∧
      Tab.get? ((s.takeSlot i p q d).part p).pnmap q = none) ∧
    (∀ t0, Tab.get? (s.part p).pnmap q = some (some t0) → t0 + (s.part p).ntmo.setWidth 64 ≤ s.tick →
      exec (.pendingNotifyTimeout p q) s = .next ((s.setPart p { s.part p with
        pnmap := Tab.set (s.part p).pnmap q none }).irq (some p) 1)) ∧
    (∀ slot d, slot < Config.queueSlots → s.nextLatched = some (p, q, d) →
      let given := fun (x : State) => { (x.sawDesc p q).takeSlot slot p q d with lastServed := p }.releaseSlot p q
      ((s.slotOfQueue p q).isSome = true → exec (.slotRelease slot) s = .next (s.unlatch p q)) ∧
      (s.slotOfQueue p q = none →
        (Tab.get? s.hwSlots slot = none → exec (.slotRelease slot) s = .next (given s)) ∧
        ∀ h, Tab.get? s.hwSlots slot = some h →
          (s.mayUnmap h = true → exec (.slotRelease slot) s = .next (given (s.latch h.part h.queue))) ∧
          (s.mayUnmap h = false → exec (.slotRelease slot) s = .next s))) ∧
    (Tab.get? ((s.unlatch p q).part p).pnmap q = none) ∧
    (∀ slot d k l s1, s.slotOfQueue p q = some slot → s.headReady p q = some (d, k, l) → s.choose slot = some s1 →
      let s2 := ((s1.sawRecord p q d k).setQstate p q { s1.qstate p q d with next := (k + 1) % 2 ^ 32 }).unlatch p q
      (fieldB l 0 1 = 2 → exec (.evset p q) s = .next (((s2.updPart p (fun x => { x with
        evec := x.evec ||| maskOfRecord l })).wakeLaunches p).completeRecord p q k 1)) ∧
      (fieldB l 0 1 = 3 → exec (.evclr p q) s = .next ((s2.updPart p (fun x => { x with
        evec := x.evec &&& ~~~maskOfRecord l })).completeRecord p q k 1)) ∧
      (fieldB l 0 1 = 0 ∨ 4 < fieldB l 0 1 → exec (.unknownType p q) s = .next (s2.completeRecord p q k 0x80000003#32)) ∧
      (fieldB l 0 1 = 4 → ∀ loc, s2.vloc p (fieldB l 16 8) = some loc →
        let s3 := (s2.sawWalk p (fieldB l 16 8)).foreignBytes loc ((l.drop 24).take 8)
        let s4 := { s3 with relSig := Tab.set (Tab.set s3.relSig (loc / 4) (BitVec.allOnes 512)) (loc / 4 + 1) (BitVec.allOnes 512) }
        exec (.mark p q) s = .next (if fieldB l 1 1 % 2 = 1 then (s4.completeRecord p q k 1).irq (some p) 0
          else s4.completeRecord p q k 1)) ∧
      (fieldB l 0 1 = 1 → ∃ s' x, exec (.launchRecord p q) s = .next s' ∧ s'.nextLaunch = s.nextLaunch + 1 ∧
        Tab.get? s'.launches s.nextLaunch = some x ∧ x.part = p ∧ x.src = .queue q k ∧ x.read = none ∧ x.pins = none ∧
        x.addr = BitVec.ofNat 64 (fieldB l 16 8))) ∧
    (∀ slot h d k l, s.hwSlots = [(slot, h)] → s.headReady h.part h.queue = some (d, k, l) → 0 < h.credit →
      s.choose slot = some { s with hwSlots := [(slot, { h with credit := h.credit - 1 })] })

/-- Admission with its walks (R314, R319 to R321, R323), the limits of a parent (R317), commit of a family (R316), and its end by a
fault or a kill: the family is gone, the fault is recorded, vector 3 raised (R335 to R339). That identifiers count from 1, that a
prewalk reads all its tables in one step, that a child's call is refused from index DLMAX on, and before its record is looked at, and
with which signature a task starts, are the model's choices (logs 18, 65, 60, 117, 96). -/
def Obligations.LaunchAndTaskEvents : Prop :=
  ∀ (s : State),
    let ended := fun (s' : State) (tk : Task) (cls detail : Nat) =>
      (∀ j x, s.task? j = some x → x.root = tk.root → s'.task? j = none) ∧
      (∀ i u x, s'.team? i = some u → s.task? u.task = some x → x.root ≠ tk.root) ∧
      ((s.part tk.part).flt = none → (s'.part tk.part).fltTask = tk.id ∧
        ∃ g, (s'.part tk.part).flt = some g ∧ g.cls = cls ∧ g.detail = detail) ∧
      ({ fn := some tk.part, vector := 3, tick := s.tick } : Irq) ∈ s'.irqs
    (∀ n l, Tab.get? s.launches n = some l → l.failed = false →
      (l.wait.isSome = true → l.eligible = false → exec (.admission n) s = .next s) ∧
      (l.wait.isSome = true → l.eligible = true → l.read = none →
        (l.addr.toNat % 512 ≠ 0 → ∀ q k, l.src = .queue q k → exec (.admission n) s =
          .next ({ s with launches := Tab.erase s.launches n }.completeRecord l.part q k 0x80000001#32)) ∧
        (∀ pk uid r call tok c pt, l.src = .child pk uid r call tok c → s.task? pk = some pt →
          pt.lr.dlDepth = 0 ∨ pt.lr.dlMax ≤ call →
          exec (.admission n) s = .next ({ s with launches := Tab.erase s.launches n }.writeToken uid tok 0x80000003#32 none))) ∧
      (∀ r cs gs ls, l.read = some (r, cs, gs, ls) →
        (l.pins = none →
          let gen := (s.part l.part).walkGen
          let walks :=
            (∀ pins s1, pinAll l.part (pinnedRanges r ls) [] s = .ok (pins, s1) → exec (.leasePrewalk n) s =
              .next { s1 with launches := Tab.set s1.launches n { l with walked := some pins, gen := gen } }) ∧
            (∀ va s1, pinAll l.part (pinnedRanges r ls) [] s = .error (va, s1) → exec (.leasePrewalk n) s =
              .next ({ s1 with launches := Tab.set s1.launches n { l with walked := none, failed := true } }.holdAt l.part va))
          (l.walked = none → walks) ∧
          ∀ pins, l.walked = some pins → (l.gen ≠ gen → walks) ∧ (l.gen = gen → exec (.leasePrewalk n) s =
            .next { s with launches := Tab.set s.launches n { l with pins := some pins, walked := none } })) ∧
        (l.wait.isSome = true → l.eligible = true → ∀ pins, l.pins = some pins →
          (s.held l r ls = true → exec (.admission n) s = .next s) ∧
          (s.held l r ls = false → ∃ s' tk, exec (.admission n) s = .next s' ∧ Tab.get? s'.launches n = none ∧
            s'.task? s.nextKey = some tk ∧ tk.part = l.part ∧ tk.id = (s.part l.part).nextTask ∧
            (s'.part l.part).nextTask = tk.id + 1 ∧ tk.lr = r ∧ tk.consts = cs ∧ tk.groups = gs ∧ tk.leases = ls ∧
            tk.pins = pins ∧ tk.dispatched = [] ∧ (l.wait = some 0 → tk.startSig = l.sig) ∧
            (l.wait ≠ some 0 → tk.startSig = l.sig ||| (s.part l.part).evSig))))) ∧
    (∀ k tk, s.task? k = some tk → tk.root = k → s.completes 9 k = true →
      ∃ s', exec (.taskCommit k) s = .next s' ∧ (∀ j x, s.task? j = some x → x.root = k → s'.task? j = none) ∧
        (s'.part tk.part).evec = (s.part tk.part).evec ||| (s.family k).foldl (fun v e => v ||| e.2.lr.setMask) 0) ∧
    (∀ k tk f, s.task? k = some tk → s.reported k tk = some f →
      ∃ s', exec (.taskFaultEnd k) s = .next s' ∧ ended s' tk f.cls f.detail) ∧
    (∀ k tk, tk.det = false → s.reported k tk = tk.faults.head?) ∧
    (∀ p id k tk, s.taskById p id = some (k, tk) → ∃ s', exec (.taskkill p id) s = .next s' ∧ ended s' tk 9 1)

/-- Retry and abort of translation holds (R321, R325), an invalidation: the pins it meets are revoked, their tasks halt and walks of
an older generation count for nothing (R323 to R325), and its end once the stores of the partition are registered and no such walk
is left: the revoked pages are walked again. That RETRY and ABORT act on every failed walk (log 54), what an aborted child's token gets
(log 107), how a parked team is aimed anew (log 90), and that with both stages under way the pages are walked after the later
acknowledgement (log 147), are the model's choices. -/
def Obligations.TranslationEvents : Prop :=
  ∀ (s : State) (p : Nat),
    let rewalked := fun (k : Nat) (tk : Task) (b : State) (out : State → Prop) =>
      (∀ pins s1, pinAll p (pinnedRanges tk.lr tk.leases) tk.pins b = .ok (pins, s1) →
        let tk' := { tk with pins := pins, revoked := false, walkFailed := false, awaitsWalk := false }
        let ts := Tab.mapVals s1.teams (fun t => if t.task == k then s1.repark tk' t else t)
        out (({ s1 with teams := ts }.setTask k tk').endHalts.readiedFrom s1)) ∧
      (∀ va s1, pinAll p (pinnedRanges tk.lr tk.leases) tk.pins b = .error (va, s1) →
        out ((s1.setTask k { tk with walkFailed := true }).holdAt p va))
    ((∀ e ∈ s.tasks, e.2.part = p → e.2.walkFailed = false ∧ e.2.revoked = false) →
      ∃ s', exec (.xlctlRetry p) s = .next s' ∧ ∀ n l, Tab.get? s.launches n = some l → Tab.get? s'.launches n = some
        (if l.part = p then { l with failed := false, walked := if l.failed then none else l.walked } else l)) ∧
    (∀ k tk, s.tasks.filter (fun e => e.2.part == p &&
        (e.2.walkFailed || (e.2.revoked && (!(s.part p).inv1.busy && !(s.part p).inv2.busy)))) = [(k, tk)] →
      s.task? k = some tk → s.launches = [] → rewalked k tk s (fun x => exec (.xlctlRetry p) s = .next x)) ∧
    (∀ tk t va w e d loc, t.wait = some (.park va w e d) → s.locate tk va.toNat = some loc →
      s.repark tk t = { t with wait := some (.park va (loc / 4) e d) }) ∧
    (∀ n l, s.launches.filter (fun e => e.2.part == p && e.2.failed) = [(n, l)] →
      (∀ e ∈ s.tasks, e.2.part = p → e.2.walkFailed = false) →
      let gone := { s with launches := Tab.erase s.launches n }
      (∀ q k, l.src = .queue q k → exec (.xlctlAbort p) s = .next (gone.completeRecord p q k 0x80000019#32)) ∧
      (∀ pk uid r call tok c, l.src = .child pk uid r call tok c → exec (.xlctlAbort p) s =
        .next (if l.read.isSome then gone else gone.writeToken uid tok 0x80000002#32 none))) ∧
    (∀ k tk, (∀ e ∈ s.launches, e.2.part = p → e.2.failed = false) →
      s.tasks.filter (fun e => e.2.part == p && e.2.walkFailed) = [(k, tk)] → s.task? k = some tk →
      exec (.xlctlAbort p) s = .next (s.endByFault k tk { cls := 1, detail := 5, addr := (s.part p).xladdr })) ∧
    (∀ stage2 (v : Word), let i := (s.part p).inval stage2
      let j := { i with all := bit v 8, log2 := field v 2 6 }
      (bit v 0 = false ∨ i.busy = true → exec (.invctlGo p stage2 v) s = .next (s.updPart p (fun x => x.setInval stage2 j))) ∧
      (bit v 0 = true → i.busy = false →
        let hit := fun (pins : List Pin) => pins.any (fun x => { j with busy := true }.revokes stage2 x)
        let struck := fun (k : Nat) => ∃ tk, s.task? k = some tk ∧ tk.part = p ∧ hit tk.pins = true
        ∃ s', exec (.invctlGo p stage2 v) s = .next s' ∧ (s'.part p).inval stage2 = { j with busy := true } ∧
          (s'.part p).walkGen = (s.part p).walkGen + 1 ∧
          (∀ k tk, s.task? k = some tk → ∃ tk', s'.task? k = some tk' ∧
            (struck k → tk'.pins = tk.pins.filter (fun x => !{ j with busy := true }.revokes stage2 x) ∧ tk'.revoked = true) ∧
            (¬ struck k → tk'.pins = tk.pins ∧ tk'.revoked = tk.revoked)) ∧
          (∀ n l pins, Tab.get? s.launches n = some l → l.pins = some pins → l.part = p → hit pins = true →
            Tab.get? s'.launches n = some { l with pins := none, walked := none }) ∧
          (∀ m t, s.team? m = some t → struck t.task → ∃ u, s'.team? m = some u ∧ u.halted = true ∧ u.awaitsBlock = true) ∧
          ((∀ e ∈ s.tasks, e.2.part = p → hit e.2.pins = false) → s'.teams = s.teams ∧ s'.mem = s.mem))) ∧
    (∀ stage2, let i := (s.part p).inval stage2
      i.busy = true →
      ((∃ c ∈ s.cores, ∃ q ∈ c.2.stores, q.part = p) ∨
          (∃ e ∈ s.launches, e.2.part = p ∧ e.2.walked.isSome = true ∧ e.2.gen ≠ (s.part p).walkGen) ∨
          (∃ c ∈ s.cores, ∃ r ∈ c.2.refills, r.part = p ∧ r.gen ≠ (s.part p).walkGen) →
        exec (.invalidationAck p stage2) s = .next s) ∧
      ((∀ c ∈ s.cores, ∀ q ∈ c.2.stores, q.part ≠ p) →
        (∀ e ∈ s.launches, e.2.part = p → e.2.walked.isSome = true → e.2.gen = (s.part p).walkGen) →
        (∀ c ∈ s.cores, ∀ r ∈ c.2.refills, r.part = p → r.gen = (s.part p).walkGen) →
        let done := s.updPart p (fun x => x.setInval stage2 { i with busy := false })
        (((s.part p).inval (!stage2)).busy = true ∨ (∀ e ∈ s.tasks, e.2.part = p → e.2.revoked = false) →
          exec (.invalidationAck p stage2) s = .next done) ∧
        (((s.part p).inval (!stage2)).busy = false → ∀ k tk,
          s.tasks.filter (fun e => e.2.part == p && e.2.revoked && !e.2.walkFailed) = [(k, tk)] → s.task? k = some tk →
          rewalked k tk done (fun x => exec (.invalidationAck p stage2) s = .next x))))

/-- Slices, halting in place and gang slices (R344, R345, R350, R351): the entries run in order from 0 up to the first with LEN 0, then
again from 0, those that name no partition of the domain skipped; a halt ends when its partition and task run and every spilled item of
the block is back (R347); a gang slice starts no later than S + GRACE, and a READY for a
slice that has not begun here is kept until it begins. That the expiry of GRACE assigns GLATE, that an early FORFEIT is kept as an early
READY is, and that the first entry to run after a reset is entry 0, are the model's choices (logs 36, 110, 19); that HALTED is set after
a halt by the slices too, vector 5 being raised for a halt by HALT alone, is read from R345 and R350 (log 37). -/
def Obligations.SliceEvents : Prop :=
  ∀ (s : State) (d : Nat),
    let x := s.domain d
    (field (Tab.get x.slices 0 0) 8 24 = 0 → ∃ s', exec (.sliceEnd d) s = .next s' ∧
      (∀ p ∈ s.domainParts d, (s'.part p).sliceOff = false) ∧ (s'.domain d).index = none ∧ (s'.domain d).gang = none) ∧
    (∀ i, field (Tab.get x.slices 0 0) 8 24 ≠ 0 → x.ends ≤ s.tick → s.nextEntry d x = some i →
      let e := Tab.get x.slices 0 i
      ∃ s', exec (.sliceEnd d) s = .next s' ∧ (s'.domain d).index = some i ∧
        (s'.domain d).ends = s.tick + BitVec.ofNat 64 (field e 8 24) ∧
        (bit e 7 = false ∨ (32, s.tick) ∉ x.early →
          ∀ p ∈ s.domainParts d, (s'.part p).sliceOff = !(p == field e 0 6 && !bit e 7)) ∧
        (bit e 7 = false → (s'.domain d).gang = none) ∧
        (bit e 7 = true → ∃ g, (s'.domain d).gang = some g ∧ g.start = s.tick ∧ g.posted = false ∧ g.running = false ∧
          (g.forfeited = true ↔ (32, s.tick) ∈ x.early) ∧ ∀ port, port < 32 → (bit g.got port = true ↔ (port, s.tick) ∈ x.early))) ∧
    (field (Tab.get x.slices 0 0) 8 24 ≠ 0 → s.tick < x.ends → exec (.sliceEnd d) s = .next s) ∧
    (∀ p (v : Word), ∃ s', exec (.pstateHaltWrite p v) s = .next s' ∧ (s'.part p).haltBit = bit v 0 ∧
      (s'.part p).iprio = field v 2 2 ∧
      (∀ k t, s.team? k = some t → ∃ u, s'.team? k = some u ∧
        (bit v 0 = true → t.part = p → u.halted = true ∧ u.awaitsBlock = true) ∧
        (bit v 0 = false ∨ t.part ≠ p → u.halted = t.halted) ∧ (bit v 0 = true → t.part ≠ p → u.awaitsBlock = t.awaitsBlock) ∧
        (bit v 0 = false → u.awaitsBlock = (t.awaitsBlock && !s'.haltOver t)))) ∧
    (let from_ := fun (a j : Nat) => a ≤ j ∧ j < 64 ∧ (∀ m, a ≤ m → m ≤ j → field (Tab.get x.slices 0 m) 8 24 ≠ 0) ∧
        field (Tab.get x.slices 0 j) 0 6 ∈ s.domainParts d ∧
        ∀ m, a ≤ m → m < j → field (Tab.get x.slices 0 m) 0 6 ∉ s.domainParts d
     (x.index = none → ∀ j, s.nextEntry d x = some j ↔ from_ 0 j) ∧
      (∀ i, x.index = some i → (∀ j, from_ (i + 1) j → s.nextEntry d x = some j) ∧
        ((∀ j, ¬ from_ (i + 1) j) → ∀ j, s.nextEntry d x = some j ↔ from_ 0 j))) ∧
    (∀ p, (s.part p).haltedBit = false → (∀ c ∈ s.cores, ∀ q ∈ c.2.stores, q.part ≠ p) →
      ((s.part p).haltBit = true → exec (.partitionHalted p) s =
        .next ((s.setPart p { s.part p with haltedBit := true }).irq (some p) 5)) ∧
      ((s.part p).haltBit = false → (s.part p).sliceOff = true → exec (.partitionHalted p) s =
        .next (s.setPart p { s.part p with haltedBit := true }))) ∧
    (∀ port (tick : DWord), (∀ g, x.gang = some g → g.start ≠ tick) →
      (s.tick ≤ tick → exec (.ready d port tick) s = .next (s.setDomain d (x.keep port tick)) ∧
        exec (.forfeit d tick) s = .next (s.setDomain d (x.keep 32 tick))) ∧
      (tick < s.tick → exec (.ready d port tick) s = .next s ∧ exec (.forfeit d tick) s = .next s)) ∧
    (∀ port tick, (port, tick) ∈ (x.keep port tick).early) ∧
    (∀ g, x.gang = some g → g.running = false → g.forfeited = false →
      (x.grace < s.tick - g.start → exec (.gangSliceStart d) s = .next s ∧ ∀ port, exec (.ready d port g.start) s = .next s) ∧
      (g.posted = false → s.tick - g.start ≤ x.grace →
        (s.canIssueHere x.slicePart = false → exec (.gangSliceStart d) s = .next s) ∧
        (s.canIssueHere x.slicePart = true → g.got &&& x.ports ≠ x.ports → exec (.gangSliceStart d) s =
          .next ((s.post x.ports false g.start).setDomain d { x with gang := some { g with posted := true } })) ∧
        (s.canIssueHere x.slicePart = true → g.got &&& x.ports = x.ports → ∃ s', exec (.gangSliceStart d) s = .next s' ∧
          (s'.part x.slicePart).sliceOff = false ∧ (s'.domain d).gang = some { g with posted := true, running := true } ∧
          s'.outbox = (s.post x.ports false g.start).outbox)) ∧
      (g.posted = true → s.tick - g.start ≤ x.grace → g.got &&& x.ports = x.ports →
        ∃ s', exec (.gangSliceStart d) s = .next s' ∧ (s'.part x.slicePart).sliceOff = false ∧
          (s'.domain d).gang = some { g with running := true } ∧ s'.outbox = s.outbox) ∧
      (∀ port, s.tick - g.start ≤ x.grace → exec (.ready d port g.start) s = .next (s.setDomain d { x with
        gang := some { g with got := g.got ||| (1#32 <<< port) } })) ∧
      (∃ s', exec (.forfeit d g.start) s = .next s' ∧ bit (s'.domain d).glate 33 = true ∧
        (s'.domain d).gang = some { g with forfeited := true } ∧
        (∀ q ∈ s.domainParts d, (s'.part q).sliceOff = !(q != x.slicePart && bit x.backfill q)) ∧
        ({ fn := some x.slicePart, vector := 4, tick := s.tick } : Irq) ∈ s'.irqs) ∧
      (x.grace ≤ s.tick - g.start →
          ¬ (g.posted = true ∧ g.got &&& x.ports = x.ports ∧ s.tick - g.start ≤ x.grace) →
        ∃ s', exec (.gangGraceExpiry d) s = .next s' ∧ (s'.domain d).gang = some { g with forfeited := true } ∧
          (s'.domain d).glate = (x.ports &&& ~~~g.got).setWidth 64 ||| (if g.posted then 0#64 else 1#64 <<< 32) ∧
          (∀ i, i < 32 → bit x.ports i = true → { port := i, forfeit := true, tick := g.start } ∈ s'.outbox) ∧
          ∀ q ∈ s.domainParts d, (s'.part q).sliceOff = !(q != x.slicePart && bit x.backfill q)))

/-- Rails and throttling every 1,024 ticks, under the package limit and the floors (R2, R354, R355, R361), the Regulator (R356,
R357), the tick and its alignment every 65,536 ticks (R6, R362), the sweep it drives (R218), the watchdog and the cycles that it counts, each by itself
(R363), errors found
(R375), and the firewall's edges (R32, R34). How a rail's power scales with OP and in what measure issue is withheld are the model's
choices (logs 51, 13); that the sweep visits a tile 16,384 ticks after its last visit and not before, and only marks a live one, is the
model's choice too (log 84), and so are where an error found is remembered and whom it faults (logs 7, 98, 125), the count of corrected
errors at zero (log 12) and from when alignment counts (log 11). -/
def Obligations.PowerTimeAndFirewallEvents : Prop :=
  ∀ (s : State),
    (∀ rails package powers withheld, let op := Instr.railOpUpdate rails package powers withheld
      (s.tick - s.railAt < 1024 → exec op s = .next s) ∧
      (1024 ≤ s.tick - s.railAt → ∃ s', exec op s = .next s' ∧ s'.pkgPwr = package ∧ s'.railAt = s.tick ∧
        (∀ p, Tab.get s'.throttled 0 p ≤ 16) ∧
        (∀ p, s'.floored p = true → Tab.get s'.throttled 0 p = 0) ∧
        (∀ p, p < 64 → s'.floored p = false → let n := min 16 (Tab.get withheld 0 p)
          Tab.get s'.throttled 0 p = if Config.packageLimit < package ∧ (s.part p).ncl ≠ 0 then max 1 n else n) ∧
        s'.pkgThr = !s'.throttled.isEmpty ∧
        (∀ r, r < 4 → let w := (rails[r]?).getD 0
          let y := Tab.get s'.rails {} r
          let fits := fun j => w * (16 - j) ≤ railCeiling r * (16 - (Tab.get s.rails {} r).op)
          y.pwr = w ∧ y.op ≤ 7 ∧ (fits y.op ∨ y.op = 7) ∧ ∀ j, j < y.op → ¬ fits j) ∧
        (s'.pkgThr = true → s.pkgThr = false → ({ fn := none, vector := 3, tick := s.tick } : Irq) ∈ s'.irqs))) ∧
    (∀ cl, let c := s.cluster cl
      let out := fun (r : Regulator) => Host.Outcome.next (s.setCluster cl { c with reg := r })
      exec (.droopStretch cl) s = out { c.reg with droop := true, count := if c.reg.frozen then c.reg.count else 0 } ∧
      exec (.droopEnd cl) s = out { c.reg with droop := false } ∧
      (c.reg.droop = true → c.reg.frozen = false → 64 < c.reg.count →
        exec (.stageTwoFreeze cl) s = out { c.reg with frozen := true, count := 0 }) ∧
      (c.reg.frozen = true → max 16 (min 4096 c.frz) ≤ c.reg.count →
        exec (.freezeExpiry cl) s = out { c.reg with frozen := c.reg.droop, count := 0 })) ∧
    (∃ s', exec .packageTick s = .next s' ∧ s'.tick = s.tick + 1 ∧ s'.mem = s.mem ∧ s'.teams = s.teams ∧
      ∀ bk b i x, s.block? bk = some b → Tab.get? b.tiles i = some x → ∃ b' y, s'.block? bk = some b' ∧
        Tab.get? b'.tiles i = some y ∧
        (s'.tick - x.visit < 16384 → y = x) ∧
        (16384 ≤ s'.tick - x.visit → y = if x.live s'.sample then { x with visit := s'.tick }
          else { x with exp := true, valid := 0, visit := s'.tick })) ∧
    (∀ ref, (s.tsyncAlign = false ∨ s.tasks ≠ [] ∨ s.tick - s.alignAt < 65536 → exec (.tickAlignStep ref) s = .next s) ∧
      (s.tsyncAlign = true → s.tasks = [] → 65536 ≤ s.tick - s.alignAt →
        (s.tick ≤ ref → exec (.tickAlignStep ref) s = .next { s with tick := ref, alignAt := ref }) ∧
        (ref < s.tick → s.tick - ref ≤ 1 → exec (.tickAlignStep ref) s = .next { s with alignAt := s.tick }) ∧
        (ref < s.tick → 1 < s.tick - ref → exec (.tickAlignStep ref) s =
          .next ({ s with tsyncErr := true, alignAt := s.tick }.irq none 4)))) ∧
    (∀ core p, 2 ^ max 16 (s.part p).log2w ≤ Tab.get (s.core core).wd 0 p →
      ∃ s', exec (.watchdogReport core p) s = .next s' ∧ Tab.get (s'.core core).wd 0 p = 0 ∧ (s'.part p).wdValid = true ∧
        ((s.part p).wdValid = false → (s'.part p).wdCore = core % 32) ∧
        ((s.part p).wdValid = true → (s'.part p).wdCore = (s.part p).wdCore) ∧
        ({ fn := some p, vector := 6, tick := s.tick } : Irq) ∈ s'.irqs) ∧
    (∀ core p n, p < 64 → (s.part p).ncl ≠ 0 →
      let counts := fun (i : Nat) => (s.cluster (clusterOf core)).reg.freezesAt i = false ∧ s.partHalted p = false ∧
        (s.floored p = true ∨ Tab.get s.throttled 0 p ≤ ((s.core core).cycle.toNat + i) % 16)
      let k := s.cyclesCounted core p n
      (∀ m, s.cyclesCounted core p (m + 1) = s.cyclesCounted core p m + (if counts m then 1 else 0)) ∧
      Tab.get ((s.countCycles core n).core core).wd 0 p =
        if k = 0 then Tab.get (s.core core).wd 0 p else if s.progressFree core p then Tab.get (s.core core).wd 0 p + k else 0) ∧
    (∀ (r : Regulator) i, r.freezesAt i = true ↔ r.frozen = true ∨ (r.droop = true ∧ 64 < r.count + i)) ∧
    (∀ p, s.partHalted p = true ↔ (s.part p).haltBit = true ∨ (s.part p).haltedBit = true ∨ (s.part p).sliceOff = true ∨
      ((∃ e ∈ s.teams, e.2.part = p) ∧ ∀ e ∈ s.teams, e.2.part = p → s.inPlace e.2 = true)) ∧
    (∀ f, ((∀ w ∈ s.unfound, f w = true → Tab.get? s.poisoned w = none) → s.finds f = s) ∧
      ((∃ w ∈ s.unfound, f w = true ∧ Tab.get? s.poisoned w ≠ none) →
        s.finds f = { s with unfound := s.unfound.filter (fun w => !f w) }.irq none 2)) ∧
    (∀ place c w,
      (∀ d ∈ ([(ErrorPlace.hbm w, 1), (ErrorPlace.llc w, 2)] : List ((Bool → ErrorPlace) × Nat)),
        let s1 := s.poke w (Config.lostWord s.fresh)
        let s' := { s1 with fresh := s.fresh + 1, poisoned := Tab.set s1.poisoned w d.2, unfound := insertNew s1.unfound w }
        exec (.patrolScrub (d.1 true) c true) s = .next ((s'.finds (· == w))) ∧
        exec (.patrolScrub (d.1 false) c true) s = .next s') ∧
      (∀ k tk, s.task? k = some tk → exec (.patrolScrub (.const k w) c true) s =
        .next (s.setTask k { tk with badConsts := insertNew tk.badConsts w })) ∧
      (∀ cl g, (s.cluster cl).graph = some g → exec (.patrolScrub (.counters cl) c true) s =
        .next (s.setCluster cl { s.cluster cl with graph := some { g with bad := true } })) ∧
      (∀ bk b, s.block? bk = some b → (∃ s' b', exec (.patrolScrub (.scratch bk w) c true) s = .next s' ∧
          s'.block? bk = some b' ∧ w ∈ b'.badWords) ∧
        ∃ s' b', exec (.patrolScrub (.slot bk w) c true) s = .next s' ∧ s'.block? bk = some b' ∧ w ∈ b'.badSlots) ∧
      (∀ k t r, s.team? k = some t → ∃ s' u, exec (.patrolScrub (.reg k r) c true) s = .next s' ∧ s'.team? k = some u ∧
        r ∈ u.bad) ∧
      (∀ cl, let y := s.cluster cl
        (dirtyBy y.l2 w = none → exec (.patrolScrub (.l2 cl w) c true) s =
          .next (s.setCluster cl { y with l2 := dropWord y.l2 w })) ∧
        (∀ core, dirtyBy y.l2 w = some core → exec (.patrolScrub (.l2 cl w) c true) s = .next (s.loseWord core w)) ∧
        ∀ n, exec (.patrolScrub (.fifo cl n w) c true) s = .next (s.setCluster cl (y.setBank n ((y.bank n).spoil w)))) ∧
      (∀ core, let y := s.core core
        (dirtyIn y.l1 w = false → exec (.patrolScrub (.l1 core w) c true) s =
          .next (s.setCore core { y with l1 := dropWord y.l1 w })) ∧
        (dirtyIn y.l1 w = true → exec (.patrolScrub (.l1 core w) c true) s = .next (s.loseWord core w)) ∧
        let s' := s.loseWord core w
        (s'.core core).l1 = dropWord (cleanWord y.l1 w) w ∧
        (∀ x ∈ (s'.core core).stores, ∀ e ∈ x.words, e.1 ≠ w) ∧
        ((∀ x ∈ y.stores, ∀ e ∈ x.words, e.1 ≠ w) → s'.teams = s.teams) ∧
        ∀ x rest t tk, y.stores.filter (fun x => x.words.any (fun e => e.1 == w)) = x :: rest → s.team? x.team = some t →
          s.task? x.task = some tk → tk.lr.det = false → t.task = x.task → t.uid = x.uid → t.fault = none →
          ∃ u f, s'.team? x.team = some u ∧ u.fault = some f ∧
            f.cls = 7 ∧ f.detail = 3 ∧ f.addr = s'.vaOf tk (4 * w)) ∧
      (∀ core x rest tk, (s.core core).stores.filter (fun x => x.words.any (fun e => e.1 == w)) = x :: rest →
        s.team? x.team = none → s.task? x.task = some tk →
        ((s.loseWord core w).task? x.task).map (·.faults) = some (tk.faults ++
          [{ cls := 7, detail := 3, addr := (s.loseWord core w).vaOf tk (4 * w), block := x.block, team := x.teamNo }])) ∧
      exec (.patrolScrub place false false) s = .next s ∧
      exec (.patrolScrub place true false) s = .next (if (s.cecnt + 1).setWidth 16 = 0#16 then
        { s with cecnt := s.cecnt + 1 }.irq none 1 else { s with cecnt := s.cecnt + 1 })) ∧
    (∀ die edge, let x := s.edge die edge
      let out := fun (w : EdgeWrite) (y : Edge) => exec (.dfwCloseWrite die edge w) s = .next (s.setEdge die edge y)
      (x.state = .opened → out (.close true) { x with close := true, state := .draining }) ∧
      (x.state = .closed → out (.close false) { x with close := false, state := .opened }) ∧
      (x.state = .draining → ∀ b, out (.close b) { x with close := b }) ∧
      out .clearOvf { x with ovf := false } ∧
      (x.state = .draining →
        (s.inTransit die edge = true → exec (.dfwDrainComplete die edge) s = .next s) ∧
        (s.inTransit die edge = false → exec (.dfwDrainComplete die edge) s =
          .next (s.setEdge die edge { x with state := if x.close then .closed else .opened })))) ∧
    (∀ die dom, let shut := ∀ e ∈ edgesOf die, (s.edge die e).close = true ∧ (s.edge die e).state = .closed
      (shut → s.dieUsed die = false → exec (.dfwDomWrite die dom) s = .next { s with dieDom := Tab.set s.dieDom die dom }) ∧
      (¬ shut ∨ s.dieUsed die = true → exec (.dfwDomWrite die dom) s = .next s))

/-- The mailbox requests (R369): attestation (R374), partitions (R348), domains (R29, R31, R34), migration (R352), firmware
(R373). Each ends with MBSTAT written, BUSY clear and the function's vector raised. The event ATTEST also answers unknown codes, the
physical function's report has zero fields, dies left over by DOMAIN keep together, and the Yardmaster's place is part of MIGRATE:
the model's choices (logs 40, 41, 39, 46), and so are that a migration within the domain is refused (log 47) and the parcel that carries
a partition over a port (log 48). An uncorrectable error in what a migration spills is a fault of the partition's tasks (R349), and that
nothing moves then is the model's choice (log 99). The errors that the Yardmaster's reads meet, in a function's translation, a buffer,
a firmware image or a migrated window, raise vector 2, each where it is met first (R375); `State.sawBuffer` is the state after the
reads of a buffer (how the part remembers an error is the model's choice, log 7). -/
def Obligations.MailboxRequests : Prop :=
  ∀ (s : State),
    (s.up = false → ∀ fn place, ∀ i ∈ [Instr.attest fn, .pcreate, .pdestroy, .domain, .migrate place], exec i s = .next s) ∧
    (∀ fn, ∃ l raised, s.sawBuffer fn = { s with unfound := l, irqs := raised }) ∧
    (∀ fn, s.up = true → (s.box fn).busy = true → (s.box fn).code = 1#8 → let seen := s.sawBuffer fn
      (s.bufferAt fn = none → exec (.attest fn) s = .next (seen.answer fn 0x80000002#32)) ∧
      ∀ loc, s.bufferAt fn = some loc →
        exec (.attest fn) s = .next ({ seen.foreignBytes loc (seen.report fn ((s.peekBytes loc 352).take 64)) with
          fresh := s.fresh + 1 }.answer fn 1#32)) ∧
    (∀ fn, s.up = true → (s.box fn).busy = true → codeKnown fn (s.box fn).code.toNat = false →
      exec (.attest fn) s = .next (s.answer fn 0x80000001#32)) ∧
    (∀ fn v, ((s.answer fn v).box fn).busy = false ∧ ((s.answer fn v).box fn).stat = v ∧
      ({ fn := fn, vector := if fn.isNone then 0 else 7, tick := s.tick } : Irq) ∈ (s.answer fn v).irqs) ∧
    (∀ loc, s.pfBox.busy = true → s.bufferAt none = some loc →
      let b := s.peekBytes loc 352
      let seen := s.sawBuffer none
      let p := fieldB b 0 1
      let d := fieldB b 1 1
      let n := fieldB b 2 1
      (s.up = true → s.pfBox.code = 0x10#8 → p < 64 → seen.domainExists d = true → 1 ≤ n → n ≤ 16 → fieldB b 3 1 = 0 →
        seen.cltabOk d n (BitVec.ofNat 64 (fieldB b 4 8)) = true →
        seen.saveOk d n (BitVec.ofNat 64 (fieldB b 12 8)) (fieldB b 20 4) = true →
        seen.windowOk d (BitVec.ofNat 1024 (fieldB b 48 128)) = true →
        ((seen.part p).ncl = 0 → ∃ s', exec .pcreate s = .next s' ∧ s'.pfBox.busy = false ∧ s'.pfBox.stat = 1 ∧
          let x := s'.part p
          x.ncl = n ∧ x.dom = d ∧ x.cltab = BitVec.ofNat 64 (fieldB b 4 8) ∧ x.window = BitVec.ofNat 1024 (fieldB b 48 128) ∧
          x.evec = 0 ∧ x.instr = 0 ∧ x.sliceOff = seen.sliceHolds d p) ∧
        ((seen.part p).ncl ≠ 0 → exec .pcreate s = .next (seen.answer none 0x80000003#32))) ∧
      (s.up = true → s.pfBox.code = 0x11#8 → p < 64 → (seen.part p).ncl ≠ 0 →
        ((∃ e ∈ seen.tasks, e.2.part = p) → exec .pdestroy s = .next (seen.answer none 0x80000003#32)) ∧
        ((∀ e ∈ seen.tasks, e.2.part ≠ p) → ∃ s', exec .pdestroy s = .next s' ∧ (s'.part p).ncl = 0 ∧ s'.pfBox.stat = 1 ∧
          ∀ e ∈ s'.hwSlots, e.2.part ≠ p)) ∧
      (s.up = true → s.pfBox.code = 0x12#8 → let c := fieldB b 1 1
        let r := fieldB b 2 1
        (c = 0 ∨ r = 0 ∨ 8 ≤ p ∨ 4 < p % 4 + c ∨ 2 < p / 4 + r → exec .domain s = .next (seen.answer none 0x80000002#32)) ∧
        (1 ≤ c → c ≤ 4 → 1 ≤ r → r ≤ 2 → p < 8 → p % 4 + c ≤ 4 → p / 4 + r ≤ 2 →
          let new := seen.domainsWith (rectangle p c r) p
          let now := fun i => (new[i]?).getD i
          let moves := fun i => i < 8 ∧ now i ≠ seen.domOf i
          let rects := ∀ x, x < 8 → isRectangle ((List.range 8).filter (fun i => now i == x)) = true
          (¬ rects → exec .domain s = .next (seen.answer none 0x80000002#32)) ∧
          (rects → (∃ i, moves i ∧ seen.dieUsed i = true) → exec .domain s = .next (seen.answer none 0x80000003#32)) ∧
          (rects → (∀ i, moves i → seen.dieUsed i = false) → (∃ i, moves i ∧ seen.dieShut i = false) →
            ∃ s', exec .domain s = .next s' ∧ s'.pfBox = s.pfBox ∧ s'.dieDom = seen.dieDom ∧
              ∀ i, moves i → ∀ e ∈ edgesOf i, (s'.edge i e).close = true ∧ (s'.edge i e).state ≠ .opened) ∧
          (rects → (∀ i, moves i → seen.dieUsed i = false ∧ seen.dieShut i = true) →
            ∃ s', exec .domain s = .next s' ∧ s'.pfBox.stat = 1 ∧ ∀ i ∈ rectangle p c r, s'.domOf i = p ∧
              ∀ e ∈ edgesOf i, let inner := decide (s'.domOf (neighbour i e) = p)
                (s'.edge i e).close = !inner ∧
                ((seen.edge i e).state = .closed → (s'.edge i e).state = if inner then .opened else .closed)))) ∧
      (s.up = true → s.pfBox.code = 0x13#8 → p < 64 → (seen.part p).ncl ≠ 0 → n < 32 ∨ n = 255 → ∀ place,
        let x := seen.part p
        (seen.haltedNow p = false → exec (.migrate place) s = .next (seen.answer none 0x80000003#32)) ∧
        let clean := (∀ e ∈ seen.tasks, e.2.part ≠ p) ∨ seen.packBad p = none
        (seen.haltedNow p = true → (∃ e ∈ seen.tasks, e.2.part = p) → ∀ detail, seen.packBad p = some detail →
          exec (.migrate place) s = .next (seen.saveFault p ((seen.saveBad p).getD detail))) ∧
        (seen.haltedNow p = true → clean → n = 255 →
          (seen.domainExists d = false ∨ d = x.dom → exec (.migrate place) s = .next (seen.answer none 0x80000002#32)) ∧
          (seen.domainExists d = true → d ≠ x.dom →
            (((seen.finds (fun w => inWindow x.window (4 * w))).removePart p).setDown (seen.pack p) p d place = none →
              exec (.migrate place) s = .next (seen.answer none 0x80000003#32)) ∧
            ∀ s2, ((seen.finds (fun w => inWindow x.window (4 * w))).removePart p).setDown (seen.pack p) p d place = some s2 →
              ∃ s', exec (.migrate place) s = .next s' ∧ s'.pfBox.stat = 1 ∧ (s'.part p).dom = d ∧
                (s'.part p).cltab = place.cltab ∧ (s'.part p).window = place.window ∧ s'.mem = s2.mem ∧ s'.tasks = s2.tasks ∧
                s'.teams = s2.teams)) ∧
        (seen.haltedNow p = true → clean → n ≠ 255 →
          ((Tab.get seen.peers {} n).step ≠ Config.geomStep → exec (.migrate place) s = .next (seen.answer none 0x80000002#32)) ∧
          ((Tab.get seen.peers {} n).step = Config.geomStep →
            ∃ s', exec (.migrate place) s = .next s' ∧ s'.pfBox.stat = 1 ∧ (s'.part p).ncl = 0 ∧
              (Tab.get s'.peers {} n).parcels = (Tab.get seen.peers {} n).parcels ++ [seen.pack p] ∧
              (∀ e ∈ s'.mem, inWindow x.window e.1 = false) ∧ (∀ e ∈ s'.tasks, e.2.part ≠ p)))) ∧
      (s.up = true ∨ s.boot = .recovery → s.pfBox.code = 0x14#8 → let a := fieldB b 0 8
        let img := seen.peekBytes a (fieldB b 8 4)
        a + fieldB b 8 4 ≤ 2 ^ 40 →
        (Config.imageVerifies img = true → seen.svn.toNat ≤ (Config.imageSvn img).toNat →
          exec .fwload s = .next ({ seen.findsAt a (fieldB b 8 4) with fwImage := some img }.answer none 1)) ∧
        (Config.imageVerifies img = false ∨ (Config.imageSvn img).toNat < seen.svn.toNat →
          exec .fwload s = .next ((seen.findsAt a (fieldB b 8 4)).answer none 0x80000002#32))))

/-- Accesses of the host and of peers (R25, R33, R340, R342, R366, R371), the arrival of a partition (R352), function-level reset
(R365), cold reset (R9, R362, R372, R373), and writes of registers, of a partition (R47, R321, R324, R330, R338, R339, R363, R367,
R369), and of the physical function (R210, R344, R345, R350, R351, R357, R358, R359, R362, R370, R371). Of XLCTL's RETRY and ABORT
written at once the model carries out RETRY first (log 114). Memory after a cold reset, the registers
that a function-level reset takes, the messages of a peer's tasks and that its accesses meet edges are the model's choices (logs 45,
44, 49, 50); so are they that host accesses meet none (log 93) and write at the home (log 62), where a host's read leaves its data (log 9),
how a parcel arrives (log 48), that a peer's write says whether a team made it, whose stores alone end a `park` (R113, log 49), that a word written in part stays in error (log 7), whose first read by the host raises vector 2 (R375), and from when alignment counts (log 11). -/
def Obligations.HostEvents : Prop :=
  ∀ (s : State),
    (∀ fn link addr n, let at_ := fun (w : Bool) => (List.range n).mapM (fun i => s.ap1 fn w (addr.toNat + i))
      let reached := s.up = true ∧ linkOf fn link = true
      let seen := s.sawAp1 fn addr.toNat n
      let out := fun v s' => exec (.hostAp1Access ⟨link, fn⟩ addr n v) s = .next s'
      let ones := some (link, BitVec.ofNat 64 (2 ^ (8 * n) - 1))
      (∃ l raised, seen = { s with unfound := l, irqs := raised }) ∧
      (∀ v, (¬ reached → out (some v) s) ∧ (reached → at_ true = none → out (some v) seen) ∧
        (∀ l, reached → at_ true = some l → out (some v)
          (seen.foreignAt (((List.range n).zip l).map (fun e => (e.2, BitVec.ofNat 8 (v.toNat / 2 ^ (8 * e.1)))))))) ∧
      (∀ l : List (Nat × Byte), s.memoryWf = true → (l.map (·.1)).Nodup → let s' := s.foreignAt l
        (∀ e ∈ l, s'.peekByte e.1 = e.2) ∧ (∀ a, a ∉ l.map (·.1) → s'.peekByte a = s.peekByte a) ∧
        ∀ w, Tab.get? s.poisoned w ≠ none → (∃ i, i < 4 ∧ 4 * w + i ∉ l.map (·.1)) → Tab.get? s'.poisoned w ≠ none) ∧
      (¬ reached → out none { s with hostRead := ones }) ∧ (reached → at_ false = none → out none { seen with hostRead := ones }) ∧
      (∀ l, reached → at_ false = some l → out none { seen.finds (fun w => l.any (fun a => a / 4 == w)) with
        hostRead := some (link, BitVec.ofNat 64 (natOfBytes (l.map s.peekByte))) })) ∧
    (∀ port addr task v team, let op : PeerOp := .write task v team
      (s.up = false ∨ s.admitsPeer port addr.toNat = false → exec (.peerAccess port addr op) s = .next s) ∧
      (∀ e, s.up = true → s.admitsPeer port addr.toNat = true → s.blockedEdge (dieOfLoc addr.toNat) 5 (port / 4) = some e →
        exec (.peerAccess port addr op) s = .next (s.countRefusal (some e)))) ∧
    (∀ port addr task, let key := peerTask port task
      let w := addr.toNat / 4
      s.up = true → s.admitsPeer port addr.toNat = true → s.memoryWf = true →
      s.blockedEdge (dieOfLoc addr.toNat) 5 (port / 4) = none →
      exec (.peerAccess port addr .read) s = .next s ∧
      (∀ v team, ∃ s', exec (.peerAccess port addr (.write task v team)) s = .next s' ∧ s'.peek w = v ∧
        (team = false → s'.teams = s.teams) ∧
        (team = true → ∀ j u, s.team? j = some u → s'.team? j = some (match u.wait with
          | some (.park _ pw e _) => if pw = w ∧ e ≠ v then { u with wait := some .over } else u
          | _ => u)) ∧
        (∀ x, x ≠ w → s'.peek x = s.peek x) ∧ Tab.get s'.peerShadows [] key = s.shadowOf (Tab.get s.peerShadows [] key) w) ∧
      (∀ aop v c, aop.toNat ≤ 10 → ∃ s', exec (.peerAccess port addr (.atomic task aop v c)) s = .next s' ∧
        s'.peek w = BitVec.ofNat 32 (atomicNew aop.toNat false (s.peek w).toNat v.toNat c.toNat) ∧
        ∀ x, x ≠ w → s'.peek x = s.peek x) ∧
      (∀ aop v c, aop.toNat ≤ 10 → let w := addr.toNat / 8 * 2
        ∃ s', exec (.peerAccess port addr (.atomicWide task aop v c)) s = .next s' ∧
          s'.peek (w + 1) ++ s'.peek w =
            BitVec.ofNat 64 (atomicNew aop.toNat true (s.peek (w + 1) ++ s.peek w).toNat v.toNat c.toNat) ∧
          ∀ x, x ≠ w → x ≠ w + 1 → s'.peek x = s.peek x)) ∧
    (∀ port addr tasks, ∃ s', exec (.peerAccess port addr (.commit tasks)) s = .next s' ∧ s'.mem = s.mem ∧
      ∀ task ∈ tasks, Tab.get? s'.peerShadows (peerTask port task) = none) ∧
    (∀ port addr task line sh, Tab.get s.peerShadows [] (peerTask port task) = [(line, sh)] → s.memoryWf = true →
      ∃ s', exec (.peerAccess port addr (.discard [task])) s = .next s' ∧
        (∀ i, i < 32 → s'.peek (32 * line + i) =
          if bit sh.mask i then rowWord sh.prior i else s.peek (32 * line + i)) ∧
        (∀ x, x / 32 ≠ line → s'.peek x = s.peek x)) ∧
    (∀ port addr p d place q rest, let y := Tab.get s.peers {} port
      s.up = true → y.parcels = q :: rest →
      (64 ≤ p ∨ (s.part p).ncl ≠ 0 ∨ y.step ≠ Config.geomStep ∨ s.setDown q p d place = none →
        exec (.peerAccess port addr (.arrive p d place)) s = .next s) ∧
      (p < 64 → (s.part p).ncl = 0 → y.step = Config.geomStep → ∀ s2, s.setDown q p d place = some s2 →
        exec (.peerAccess port addr (.arrive p d place)) s =
          .next { s2 with peers := Tab.set s2.peers port { y with parcels := rest } })) ∧
    (∀ p, ((∀ e ∈ s.tasks, e.2.part ≠ p) → exec (.functionLevelReset p) s = .next (s.updPart p Part.resetRw)) ∧
      (∀ k tk, s.tasks.filter (fun e => e.2.part == p) = [(k, tk)] → s.task? k = some tk → exec (.functionLevelReset p) s =
        .next ((s.endByFault k tk { cls := 9, detail := 1 }).updPart p Part.resetRw)) ∧
      let x := (s.part p).resetRw
      x.ncl = (s.part p).ncl ∧ x.cltab = (s.part p).cltab ∧ x.capMode = 0 ∧ x.cap = 16 ∧ x.thresh = 64 ∧ x.qtbase = 0 ∧
        x.qtsize = 0 ∧ x.ntmo = 0x10000#32 ∧ x.s1root = 0 ∧ x.s2root = 0 ∧ x.bkpt = [] ∧ x.log2w = 24 ∧ x.haltBit = false) ∧
    (∃ s', exec .coldReset s = .next s' ∧ s'.tick = 0 ∧ s'.mem = [] ∧ s'.tasks = [] ∧ s'.teams = [] ∧ s'.parts = [] ∧
      s'.fwImage = s.fwImage ∧
      let img := s.fwImage.getD (Config.flashImage 0)
      let ok := Config.imageVerifies img = true ∧ s.svn.toNat ≤ (Config.imageSvn img).toNat
      (ok → s'.boot = .running ∧ s'.svn.toNat = max s.svn.toNat (Config.imageSvn img).toNat) ∧
      (¬ ok → s'.boot = .recovery ∧ s'.svn = s.svn)) ∧
    (∀ p (v : Word), ∃ s', exec (.isscapModeWrite p v) s = .next s' ∧ (s'.part p).capMode = field v 0 2 ∧
      (s'.part p).cap = field v 3 5 ∧ (s'.part p).thresh = field v 16 8 ∧
      (field v 0 2 = 2 → (s.part p).capMode ≠ 2 → ∀ c x, Tab.get? s.cores c = some x →
        Tab.get? (s'.core c).caps (2 * p) = some 16 ∧ Tab.get? (s'.core c).caps (2 * p + 1) = some 16)) ∧
    (∀ p v, s.up = true → let w : Word := v.setWidth 32
      (∀ e ∈ ([(0x400, fun x => { x with qtbase := v }), (0x408, fun x => { x with qtsize := w }),
          (0x40C, fun x => { x with ntmo := w }), (0x440, fun x => { x with s1root := v }),
          (0x448, fun x => { x with inv1 := { x.inv1 with addr := v } }), (0x680, fun x => { x with log2w := field w 0 6 })] :
          List (Nat × (Part → Part))),
        exec (.registerWrite (some p) e.1 v) s = .next (s.updPart p e.2)) ∧
      (∀ i, i < 4 → exec (.registerWrite (some p) (0x480 + 8 * i) v) s =
        .next (s.updPart p (fun x => { x with bkpt := Tab.set x.bkpt i (v &&& ~~~6#64) }))) ∧
      exec (.registerWrite (some p) 0x520 v) s = exec (.taskkill p v) s ∧
      exec (.registerWrite (some p) 0x200 v) s = exec (.isscapModeWrite p w) s ∧
      exec (.registerWrite (some p) 0x450 v) s = exec (.invctlGo p false w) s ∧
      (p < 64 → exec (.registerWrite none (0x30020 + 0x100 * p) v) s = exec (.pstateHaltWrite p w) s ∧
        exec (.registerWrite none (0x30000 + 0x100 * p) v) s = .next (s.updPart p (fun x => { x with s2root := v }))) ∧
      exec (.registerWrite (some p) 0x500 v) s = .next s ∧
      (∀ e ∈ ([(0x528, fun x => { x with flt := if bit w 0 then none else x.flt, fltOvf := x.fltOvf && !bit w 1 }),
          (0x688, fun x => { x with wdValid := x.wdValid && !bit w 31 }),
          (0x700, fun x => { x with mbox := { x.mbox with addr := v } }),
          (0x708, fun x => { x with mbox := if x.mbox.busy then x.mbox else { x.mbox with busy := true, code := v.setWidth 8 } })] :
          List (Nat × (Part → Part))),
        exec (.registerWrite (some p) e.1 v) s = .next (s.updPart p e.2)) ∧
      (let x := exec (.registerWrite (some p) 0x468 v) s
       (bit w 0 = false → bit w 1 = false → x = .next s) ∧
       (bit w 0 = true → bit w 1 = false → x = exec (.xlctlRetry p) s) ∧
       (bit w 0 = false → bit w 1 = true → x = exec (.xlctlAbort p) s) ∧
       (bit w 0 = true → bit w 1 = true → ∃ s', exec (.xlctlRetry p) s = .next s' ∧ x = exec (.xlctlAbort p) s'))) ∧
    (∀ v, s.up = true → let w : Word := v.setWidth 32
      let put := fun (off : Nat) (s' : State) => exec (.registerWrite none off v) s = .next s'
      put 0x700 { s with pfBox := { s.pfBox with addr := v } } ∧
      put 0x708 { s with pfBox := if s.pfBox.busy then s.pfBox else { s.pfBox with busy := true, code := v.setWidth 8 } } ∧
      put 0x50048 { s with slew := field v 0 6 } ∧
      put 0x50050 { s with tsyncAlign := bit v 0, tsyncPort := field v 1 5, tsyncErr := s.tsyncErr && !bit v 6,
                           alignAt := if bit v 0 && !s.tsyncAlign then s.tick - 65536 else s.alignAt } ∧
      (∀ cl bank, cl < 16 → bank < 32 →
        exec (.registerWrite none (0x20000 + 0x80 * cl + 4 * bank) v) s = exec (.bkctlReqWrite cl bank w) s) ∧
      (∀ p, p < 64 → let at_ := 0x30000 + 0x100 * p
        put (at_ + 0x08) (s.updPart p (fun x => { x with inv2 := { x.inv2 with addr := v } })) ∧
        exec (.registerWrite none (at_ + 0x10) v) s = exec (.invctlGo p true w) s ∧
        put (at_ + 0x18) (s.updPart p (fun x => { x with fring := v })) ∧
        (∀ i, i < 16 → put (at_ + 0x80 + 8 * i) (s.updPart p (fun x =>
          if bit v 63 && !bit x.window (field v 30 10) then x
          else { x with peerWin := Tab.set x.peerWin i (v &&& 0x80F800FFFFF00000#64) }))) ∧
        ∀ off, off < 0x10000 →
          exec (.registerWrite none (0x2000000 + 0x10000 * p + off) v) s = exec (.registerWrite (some p) off v) s) ∧
      (∀ d, d < 8 → let x := s.domain d
        (∀ i, i < 64 → put (0x40000 + 0x100 * d + 4 * i) (s.setDomain d { x with
          slices := Tab.set x.slices i (w &&& ~~~0x40#32) })) ∧
        put (0x44000 + 0x20 * d) (s.setDomain d { x with backfill := v }) ∧
        put (0x44008 + 0x20 * d) (s.setDomain d { x with gangctl := v &&& 0xFFFFFFFFFFFF#64 }) ∧
        put (0x44010 + 0x20 * d) (s.setDomain d { x with glate := x.glate &&& ~~~v })) ∧
      (∀ cl, cl < 16 → put (0x50100 + 8 * cl) (s.setCluster cl { s.cluster cl with frz := field v 0 13 })) ∧
      (∀ i, 1 ≤ i → i < 256 → put (0x50400 + 4 * i)
        (if s.floorActive i then s else { s with floors := Tab.set s.floors i (w &&& 0x7FFF#32) })) ∧
      ∀ i, i < 32 → put (0x50800 + 8 * i) { s with peerAcc := Tab.set s.peerAcc i (v &&& 0x800000FFFFF00000#64) })
end

