-- ==== Sys2Proof/Laws/Decode.lean ====
section
/-! SUPPORT. Sys2Proof/Laws/Decode.lean: the opcode and the fields read back from the words the encoder makes, one
lemma for each format. -/
namespace Sys2Proof

/-- The fields of a word in the S3 format are those it was made from. -/
theorem S3.ofBits_toBits (f : S3) (op : BitVec 9) : S3.ofBits (f.toBits op) = f := by
  obtain ⟨⟨r, g, n⟩, sd, sa, sb, imm, ty, bk⟩ := f
  simp only [S3.ofBits, S3.toBits, Pre.ofBits, Pre.toBits, bit, S3.mk.injEq, Pre.mk.injEq]
  refine ⟨⟨?_, ?_, ?_⟩, ?_, ?_, ?_, ?_, ?_, ?_⟩ <;>
    first
    | (apply BitVec.eq_of_getLsbD_eq; intro i hi
       simp only [BitVec.getLsbD_extractLsb', BitVec.getLsbD_append]
       interval_cases i <;> simp)
    | (simp only [BitVec.getLsbD_append]; simp)
/-- So is its opcode. -/
theorem S3.opcodeOf_toBits (f : S3) (op : BitVec 9) : opcodeOf (f.toBits op) = op.toNat := by
  obtain ⟨⟨r, g, n⟩, sd, sa, sb, imm, ty, bk⟩ := f
  simp only [opcodeOf, field, S3.toBits, Pre.toBits]
  congr 1
  apply BitVec.eq_of_getLsbD_eq; intro i hi
  simp only [BitVec.getLsbD_extractLsb', BitVec.getLsbD_append]
  interval_cases i <;> simp

/-- The fields of a word in the V3 format are those it was made from. -/
theorem V3.ofBits_toBits (f : V3) (op : BitVec 9) : V3.ofBits (f.toBits op) = f := by
  obtain ⟨⟨r, g, n⟩, vd, va, vb, vc, ka, kb, kc, ty, rm, bk⟩ := f
  simp only [V3.ofBits, V3.toBits, Pre.ofBits, Pre.toBits, bit, V3.mk.injEq, Pre.mk.injEq]
  refine ⟨⟨?_, ?_, ?_⟩, ?_, ?_, ?_, ?_, ?_, ?_, ?_, ?_, ?_, ?_⟩ <;>
    first
    | (apply BitVec.eq_of_getLsbD_eq; intro i hi
       simp only [BitVec.getLsbD_extractLsb', BitVec.getLsbD_append]
       interval_cases i <;> simp)
    | (simp only [BitVec.getLsbD_append]; simp)
/-- So is its opcode. -/
theorem V3.opcodeOf_toBits (f : V3) (op : BitVec 9) : opcodeOf (f.toBits op) = op.toNat := by
  obtain ⟨⟨r, g, n⟩, vd, va, vb, vc, ka, kb, kc, ty, rm, bk⟩ := f
  simp only [opcodeOf, field, V3.toBits, Pre.toBits]
  congr 1
  apply BitVec.eq_of_getLsbD_eq; intro i hi
  simp only [BitVec.getLsbD_extractLsb', BitVec.getLsbD_append]
  interval_cases i <;> simp

/-- The fields of a word in the MF format are those it was made from. -/
theorem MF.ofBits_toBits (f : MF) (op : BitVec 9) : MF.ofBits (f.toBits op) = f := by
  obtain ⟨⟨r, g, n⟩, md, ma, imm, ord, spc, evp, sz, am, aop, mx⟩ := f
  simp only [MF.ofBits, MF.toBits, Pre.ofBits, Pre.toBits, bit, MF.mk.injEq, Pre.mk.injEq]
  refine ⟨⟨?_, ?_, ?_⟩, ?_, ?_, ?_, ?_, ?_, ?_, ?_, ?_, ?_, ?_⟩ <;>
    first
    | (apply BitVec.eq_of_getLsbD_eq; intro i hi
       simp only [BitVec.getLsbD_extractLsb', BitVec.getLsbD_append]
       interval_cases i <;> simp)
    | (simp only [BitVec.getLsbD_append]; simp)
/-- So is its opcode. -/
theorem MF.opcodeOf_toBits (f : MF) (op : BitVec 9) : opcodeOf (f.toBits op) = op.toNat := by
  obtain ⟨⟨r, g, n⟩, md, ma, imm, ord, spc, evp, sz, am, aop, mx⟩ := f
  simp only [opcodeOf, field, MF.toBits, Pre.toBits]
  congr 1
  apply BitVec.eq_of_getLsbD_eq; intro i hi
  simp only [BitVec.getLsbD_extractLsb', BitVec.getLsbD_append]
  interval_cases i <;> simp

/-- The fields of a word in the BF format are those it was made from. -/
theorem BF.ofBits_toBits (f : BF) (op : BitVec 9) : BF.ofBits (f.toBits op) = f := by
  obtain ⟨⟨r, g, n⟩, disp, variant⟩ := f
  simp only [BF.ofBits, BF.toBits, Pre.ofBits, Pre.toBits, bit, BF.mk.injEq, Pre.mk.injEq]
  refine ⟨⟨?_, ?_, ?_⟩, ?_, ?_⟩ <;>
    first
    | (apply BitVec.eq_of_getLsbD_eq; intro i hi
       simp only [BitVec.getLsbD_extractLsb', BitVec.getLsbD_append]
       interval_cases i <;> simp)
    | (simp only [BitVec.getLsbD_append]; simp)
/-- So is its opcode. -/
theorem BF.opcodeOf_toBits (f : BF) (op : BitVec 9) : opcodeOf (f.toBits op) = op.toNat := by
  obtain ⟨⟨r, g, n⟩, disp, variant⟩ := f
  simp only [opcodeOf, field, BF.toBits, Pre.toBits]
  congr 1
  apply BitVec.eq_of_getLsbD_eq; intro i hi
  simp only [BitVec.getLsbD_extractLsb', BitVec.getLsbD_append]
  interval_cases i <;> simp

/-- The fields of a word in the EF format are those it was made from. -/
theorem EF.ofBits_toBits (f : EF) (op : BitVec 9) : EF.ofBits (f.toBits op) = f := by
  obtain ⟨⟨r, g, n⟩, tk, dp, cn, eng, o, qb, fs, var⟩ := f
  simp only [EF.ofBits, EF.toBits, Pre.ofBits, Pre.toBits, bit, EF.mk.injEq, Pre.mk.injEq]
  refine ⟨⟨?_, ?_, ?_⟩, ?_, ?_, ?_, ?_, ?_, ?_, ?_, ?_⟩ <;>
    first
    | (apply BitVec.eq_of_getLsbD_eq; intro i hi
       simp only [BitVec.getLsbD_extractLsb', BitVec.getLsbD_append]
       interval_cases i <;> simp)
    | (simp only [BitVec.getLsbD_append]; simp)
/-- So is its opcode. -/
theorem EF.opcodeOf_toBits (f : EF) (op : BitVec 9) : opcodeOf (f.toBits op) = op.toNat := by
  obtain ⟨⟨r, g, n⟩, tk, dp, cn, eng, o, qb, fs, var⟩ := f
  simp only [opcodeOf, field, EF.toBits, Pre.toBits]
  congr 1
  apply BitVec.eq_of_getLsbD_eq; intro i hi
  simp only [BitVec.getLsbD_extractLsb', BitVec.getLsbD_append]
  interval_cases i <;> simp

/-- The fields of a word in the YF format are those it was made from. -/
theorem YF.ofBits_toBits (f : YF) (op : BitVec 9) : YF.ofBits (f.toBits op) = f := by
  obtain ⟨⟨r, g, n⟩, ya, yb, yc, sel, idx, yk⟩ := f
  simp only [YF.ofBits, YF.toBits, Pre.ofBits, Pre.toBits, bit, YF.mk.injEq, Pre.mk.injEq]
  refine ⟨⟨?_, ?_, ?_⟩, ?_, ?_, ?_, ?_, ?_, ?_⟩ <;>
    first
    | (apply BitVec.eq_of_getLsbD_eq; intro i hi
       simp only [BitVec.getLsbD_extractLsb', BitVec.getLsbD_append]
       interval_cases i <;> simp)
    | (simp only [BitVec.getLsbD_append]; simp)
/-- So is its opcode. -/
theorem YF.opcodeOf_toBits (f : YF) (op : BitVec 9) : opcodeOf (f.toBits op) = op.toNat := by
  obtain ⟨⟨r, g, n⟩, ya, yb, yc, sel, idx, yk⟩ := f
  simp only [opcodeOf, field, YF.toBits, Pre.toBits]
  congr 1
  apply BitVec.eq_of_getLsbD_eq; intro i hi
  simp only [BitVec.getLsbD_extractLsb', BitVec.getLsbD_append]
  interval_cases i <;> simp

end Sys2Proof
end

