-- ==== Sys2Proof/Laws/Finds.lean ====
section
/-! SUPPORT. Sys2Proof/Laws/Finds.lean: what finding an error changes, and that the walks and reads outside a task change nothing
else (R375). -/
namespace Sys2Proof.Machine

/-- Finding errors changes the list of those not found yet and the interrupts, and nothing else. -/
theorem State.finds_same (s : State) (f : Nat → Bool) : ∃ l r, s.finds f = { s with unfound := l, irqs := r } := by
  unfold State.finds
  split
  · exact ⟨_, _, rfl⟩
  · exact ⟨_, _, rfl⟩
theorem State.findsAt_same (s : State) (loc n : Nat) : ∃ l r, s.findsAt loc n = { s with unfound := l, irqs := r } :=
  s.finds_same _

/-- A stage-two walk that moves no page changes what finding changes, and nothing else. -/
theorem walk2_same (p g : Nat) (n : Nat) : ∀ (tbl : Nat) (s : State),
    ∃ l r, (walk2 p false g n tbl s).2 = { s with unfound := l, irqs := r } := by
  induction n with
  | zero =>
    intro tbl s
    obtain ⟨l, r, h⟩ := s.findsAt_same (entryAt tbl 0 g) 8
    unfold walk2
    simp only [Bool.and_false, Bool.false_eq_true, if_false]
    repeat' split
    all_goals first | exact ⟨_, _, rfl⟩ | exact ⟨l, r, h⟩
  | succ n ih =>
    intro tbl s
    obtain ⟨l, r, h⟩ := s.findsAt_same (entryAt tbl (n + 1) g) 8
    unfold walk2
    simp only [Bool.and_false, Bool.false_eq_true, if_false]
    repeat' split
    all_goals first
      | exact ⟨_, _, rfl⟩
      | exact ⟨l, r, h⟩
      | (obtain ⟨l', r', h'⟩ := ih _ (s.findsAt (entryAt tbl (n + 1) g) 8); rw [h', h]; exact ⟨l', r', rfl⟩)
theorem State.stage2_same (s : State) (p g : Nat) : ∃ l r, (s.stage2 p false g).2 = { s with unfound := l, irqs := r } := by
  unfold State.stage2
  split
  · exact ⟨_, _, rfl⟩
  · exact walk2_same p g 4 _ s

/-- A host's access finds errors in the entries that its translation reads, and changes nothing else. -/
theorem State.sawAp1_same (s : State) (fn : Option Nat) (a n : Nat) :
    ∃ l r, s.sawAp1 fn a n = { s with unfound := l, irqs := r } := by
  cases fn with
  | none => exact ⟨_, _, rfl⟩
  | some p =>
    have all : ∀ (is : List Nat) (x : State), (∃ l r, x = { s with unfound := l, irqs := r }) →
        ∃ l r, is.foldl (fun s i => (s.stage2 p false (a + i)).2) x = { s with unfound := l, irqs := r } := by
      intro is
      induction is with
      | nil => exact fun x h => h
      | cons i is ih =>
        rintro x ⟨l, r, rfl⟩
        obtain ⟨l', r', h⟩ := State.stage2_same { s with unfound := l, irqs := r } p (a + i)
        exact ih _ ⟨l', r', h⟩
    exact all _ s ⟨_, _, rfl⟩
/-- The Yardmaster's reads of a buffer find errors, and change nothing else. -/
theorem State.sawBuffer_same (s : State) (fn : Option Nat) : ∃ l r, s.sawBuffer fn = { s with unfound := l, irqs := r } := by
  have read : ∀ x, (∃ l r, x = { s with unfound := l, irqs := r }) →
      ∃ l r, (match s.bufferAt fn with | none => x | some loc => x.findsAt loc 4096) = { s with unfound := l, irqs := r } := by
    rintro x ⟨l, r, rfl⟩
    split
    · exact ⟨l, r, rfl⟩
    · exact State.findsAt_same { s with unfound := l, irqs := r } _ 4096
  cases fn with
  | none => exact read s ⟨_, _, rfl⟩
  | some p =>
    apply read
    dsimp only
    split
    · exact ⟨_, _, rfl⟩
    · exact s.stage2_same _ _

end Sys2Proof.Machine
end

