-- ==== Sys2Proof/Laws/State.lean ====
section
/-! SUPPORT. Sys2Proof/Laws/State.lean: tables read after they are written, and what each update of the state leaves alone, one
lemma for each field and each update, true by unfolding. -/
namespace Sys2Proof.Machine

/-! ## Tables -/

@[simp] theorem Tab.get?_set_self {α : Type} (t : Tab α) (i : Nat) (x : α) : Tab.get? (Tab.set t i x) i = some x := by
  induction t with
  | nil => simp [Tab.set, Tab.get?]
  | cons e t ih =>
    obtain ⟨k, v⟩ := e
    simp only [Tab.set]
    split
    · simp [Tab.get?]
    · split
      · simp [Tab.get?]
      · simp [Tab.get?, *]
theorem Tab.get?_set_ne {α : Type} (t : Tab α) {i j : Nat} (x : α) (h : j ≠ i) :
    Tab.get? (Tab.set t i x) j = Tab.get? t j := by
  induction t with
  | nil => simp [Tab.set, Tab.get?, Ne.symm h]
  | cons e t ih =>
    obtain ⟨k, v⟩ := e
    simp only [Tab.set]
    split
    · rename_i hk
      subst hk
      simp [Tab.get?, Ne.symm h]
    · split
      · simp [Tab.get?, Ne.symm h]
      · simp [Tab.get?, ih]
@[simp] theorem Tab.get_set_self {α : Type} (t : Tab α) (d : α) (i : Nat) (x : α) : Tab.get (Tab.set t i x) d i = x := by
  simp [Tab.get]
theorem Tab.get_set_ne {α : Type} (t : Tab α) (d : α) {i j : Nat} (x : α) (h : j ≠ i) :
    Tab.get (Tab.set t i x) d j = Tab.get t d j := by
  simp [Tab.get, Tab.get?_set_ne t x h]

/-! ## Records read after they are written -/

@[simp] theorem State.core_setCore (s : State) (c : Nat) (x : Core) : (s.setCore c x).core c = x := by
  simp [State.core, State.setCore]
theorem State.core_setCore_ne (s : State) (c j : Nat) (x : Core) (h : j ≠ c) : (s.setCore c x).core j = s.core j := by
  simp [State.core, State.setCore, Tab.get_set_ne _ _ _ h]
@[simp] theorem State.cluster_setCluster (s : State) (c : Nat) (x : Cluster) : (s.setCluster c x).cluster c = x := by
  simp [State.cluster, State.setCluster]
theorem State.cluster_setCluster_ne (s : State) (c j : Nat) (x : Cluster) (h : j ≠ c) :
    (s.setCluster c x).cluster j = s.cluster j := by
  simp [State.cluster, State.setCluster, Tab.get_set_ne _ _ _ h]
@[simp] theorem State.team?_setTeam (s : State) (k : Nat) (t : Team) : (s.setTeam k t).team? k = some t := by
  simp [State.team?, State.setTeam]
theorem State.team?_setTeam_ne (s : State) (k j : Nat) (t : Team) (h : j ≠ k) : (s.setTeam k t).team? j = s.team? j := by
  simp [State.team?, State.setTeam, Tab.get?_set_ne _ _ h]
@[simp] theorem State.block?_setBlock (s : State) (k : Nat) (x : Block) : (s.setBlock k x).block? k = some x := by
  simp [State.block?, State.setBlock]
theorem State.block?_setBlock_ne (s : State) (k j : Nat) (x : Block) (h : j ≠ k) :
    (s.setBlock k x).block? j = s.block? j := by
  simp [State.block?, State.setBlock, Tab.get?_set_ne _ _ h]
@[simp] theorem State.task?_setTask (s : State) (k : Nat) (x : Task) : (s.setTask k x).task? k = some x := by
  simp [State.task?, State.setTask]
theorem State.task?_setTask_ne (s : State) (k j : Nat) (x : Task) (h : j ≠ k) : (s.setTask k x).task? j = s.task? j := by
  simp [State.task?, State.setTask, Tab.get?_set_ne _ _ h]
@[simp] theorem State.part_setPart (s : State) (p : Nat) (x : Part) : (s.setPart p x).part p = x := by
  simp [State.part, State.setPart]
theorem State.part_setPart_ne (s : State) (p j : Nat) (x : Part) (h : j ≠ p) : (s.setPart p x).part j = s.part j := by
  simp [State.part, State.setPart, Tab.get_set_ne _ _ _ h]
@[simp] theorem State.part_updPart (s : State) (p : Nat) (f : Part → Part) : (s.updPart p f).part p = f (s.part p) := by
  simp [State.updPart]
theorem State.part_updPart_ne (s : State) (p j : Nat) (f : Part → Part) (h : j ≠ p) : (s.updPart p f).part j = s.part j :=
  State.part_setPart_ne s p j _ h
@[simp] theorem State.domain_setDomain (s : State) (d : Nat) (x : Domain) : (s.setDomain d x).domain d = x := by
  simp [State.domain, State.setDomain]
@[simp] theorem State.edge_setEdge (s : State) (d e : Nat) (x : Edge) : (s.setEdge d e x).edge d e = x := by
  simp [State.edge, State.setEdge]

/-! ## What `setCore` leaves alone -/

@[simp] theorem State.setCore_tick (s : State) (c : Nat) (x : Core) : (s.setCore c x).tick = s.tick := rfl
@[simp] theorem State.setCore_agenda (s : State) (c : Nat) (x : Core) : (s.setCore c x).agenda = s.agenda := rfl
@[simp] theorem State.setCore_cur (s : State) (c : Nat) (x : Core) : (s.setCore c x).cur = s.cur := rfl
@[simp] theorem State.setCore_moment (s : State) (c : Nat) (x : Core) : (s.setCore c x).moment = s.moment := rfl
@[simp] theorem State.setCore_fresh (s : State) (c : Nat) (x : Core) : (s.setCore c x).fresh = s.fresh := rfl
@[simp] theorem State.setCore_turn (s : State) (c : Nat) (x : Core) : (s.setCore c x).turn = s.turn := rfl
@[simp] theorem State.setCore_mem (s : State) (c : Nat) (x : Core) : (s.setCore c x).mem = s.mem := rfl
@[simp] theorem State.setCore_owners (s : State) (c : Nat) (x : Core) : (s.setCore c x).owners = s.owners := rfl
@[simp] theorem State.setCore_relSig (s : State) (c : Nat) (x : Core) : (s.setCore c x).relSig = s.relSig := rfl
@[simp] theorem State.setCore_poisoned (s : State) (c : Nat) (x : Core) : (s.setCore c x).poisoned = s.poisoned := rfl
@[simp] theorem State.setCore_unfound (s : State) (c : Nat) (x : Core) : (s.setCore c x).unfound = s.unfound := rfl
@[simp] theorem State.setCore_clusters (s : State) (c : Nat) (x : Core) : (s.setCore c x).clusters = s.clusters := rfl
@[simp] theorem State.setCore_teams (s : State) (c : Nat) (x : Core) : (s.setCore c x).teams = s.teams := rfl
@[simp] theorem State.setCore_blocks (s : State) (c : Nat) (x : Core) : (s.setCore c x).blocks = s.blocks := rfl
@[simp] theorem State.setCore_tasks (s : State) (c : Nat) (x : Core) : (s.setCore c x).tasks = s.tasks := rfl
@[simp] theorem State.setCore_nextKey (s : State) (c : Nat) (x : Core) : (s.setCore c x).nextKey = s.nextKey := rfl
@[simp] theorem State.setCore_launches (s : State) (c : Nat) (x : Core) : (s.setCore c x).launches = s.launches := rfl
@[simp] theorem State.setCore_nextLaunch (s : State) (c : Nat) (x : Core) : (s.setCore c x).nextLaunch = s.nextLaunch := rfl
@[simp] theorem State.setCore_parts (s : State) (c : Nat) (x : Core) : (s.setCore c x).parts = s.parts := rfl
@[simp] theorem State.setCore_domains (s : State) (c : Nat) (x : Core) : (s.setCore c x).domains = s.domains := rfl
@[simp] theorem State.setCore_dieDom (s : State) (c : Nat) (x : Core) : (s.setCore c x).dieDom = s.dieDom := rfl
@[simp] theorem State.setCore_edges (s : State) (c : Nat) (x : Core) : (s.setCore c x).edges = s.edges := rfl
@[simp] theorem State.setCore_hwSlots (s : State) (c : Nat) (x : Core) : (s.setCore c x).hwSlots = s.hwSlots := rfl
@[simp] theorem State.setCore_lastServed (s : State) (c : Nat) (x : Core) : (s.setCore c x).lastServed = s.lastServed := rfl
@[simp] theorem State.setCore_irqs (s : State) (c : Nat) (x : Core) : (s.setCore c x).irqs = s.irqs := rfl
@[simp] theorem State.setCore_hostRead (s : State) (c : Nat) (x : Core) : (s.setCore c x).hostRead = s.hostRead := rfl
@[simp] theorem State.setCore_peers (s : State) (c : Nat) (x : Core) : (s.setCore c x).peers = s.peers := rfl
@[simp] theorem State.setCore_outbox (s : State) (c : Nat) (x : Core) : (s.setCore c x).outbox = s.outbox := rfl
@[simp] theorem State.setCore_peerShadows (s : State) (c : Nat) (x : Core) : (s.setCore c x).peerShadows = s.peerShadows := rfl
@[simp] theorem State.setCore_boot (s : State) (c : Nat) (x : Core) : (s.setCore c x).boot = s.boot := rfl
@[simp] theorem State.setCore_svn (s : State) (c : Nat) (x : Core) : (s.setCore c x).svn = s.svn := rfl
@[simp] theorem State.setCore_fwImage (s : State) (c : Nat) (x : Core) : (s.setCore c x).fwImage = s.fwImage := rfl
@[simp] theorem State.setCore_image (s : State) (c : Nat) (x : Core) : (s.setCore c x).image = s.image := rfl
@[simp] theorem State.setCore_rails (s : State) (c : Nat) (x : Core) : (s.setCore c x).rails = s.rails := rfl
@[simp] theorem State.setCore_pkgPwr (s : State) (c : Nat) (x : Core) : (s.setCore c x).pkgPwr = s.pkgPwr := rfl
@[simp] theorem State.setCore_pkgThr (s : State) (c : Nat) (x : Core) : (s.setCore c x).pkgThr = s.pkgThr := rfl
@[simp] theorem State.setCore_throttled (s : State) (c : Nat) (x : Core) : (s.setCore c x).throttled = s.throttled := rfl
@[simp] theorem State.setCore_powers (s : State) (c : Nat) (x : Core) : (s.setCore c x).powers = s.powers := rfl
@[simp] theorem State.setCore_railAt (s : State) (c : Nat) (x : Core) : (s.setCore c x).railAt = s.railAt := rfl
@[simp] theorem State.setCore_alignAt (s : State) (c : Nat) (x : Core) : (s.setCore c x).alignAt = s.alignAt := rfl
@[simp] theorem State.setCore_slew (s : State) (c : Nat) (x : Core) : (s.setCore c x).slew = s.slew := rfl
@[simp] theorem State.setCore_tsyncErr (s : State) (c : Nat) (x : Core) : (s.setCore c x).tsyncErr = s.tsyncErr := rfl
@[simp] theorem State.setCore_tsyncPort (s : State) (c : Nat) (x : Core) : (s.setCore c x).tsyncPort = s.tsyncPort := rfl
@[simp] theorem State.setCore_tsyncAlign (s : State) (c : Nat) (x : Core) : (s.setCore c x).tsyncAlign = s.tsyncAlign := rfl
@[simp] theorem State.setCore_floors (s : State) (c : Nat) (x : Core) : (s.setCore c x).floors = s.floors := rfl
@[simp] theorem State.setCore_peerAcc (s : State) (c : Nat) (x : Core) : (s.setCore c x).peerAcc = s.peerAcc := rfl
@[simp] theorem State.setCore_cecnt (s : State) (c : Nat) (x : Core) : (s.setCore c x).cecnt = s.cecnt := rfl
@[simp] theorem State.setCore_pfBox (s : State) (c : Nat) (x : Core) : (s.setCore c x).pfBox = s.pfBox := rfl
@[simp] theorem State.setCore_cluster (s : State) (c : Nat) (x : Core) (j : Nat) : (s.setCore c x).cluster j = s.cluster j := rfl
@[simp] theorem State.setCore_team_q (s : State) (c : Nat) (x : Core) (j : Nat) : (s.setCore c x).team? j = s.team? j := rfl
@[simp] theorem State.setCore_block_q (s : State) (c : Nat) (x : Core) (j : Nat) : (s.setCore c x).block? j = s.block? j := rfl
@[simp] theorem State.setCore_task_q (s : State) (c : Nat) (x : Core) (j : Nat) : (s.setCore c x).task? j = s.task? j := rfl
@[simp] theorem State.setCore_part (s : State) (c : Nat) (x : Core) (j : Nat) : (s.setCore c x).part j = s.part j := rfl
@[simp] theorem State.setCore_edge (s : State) (c : Nat) (x : Core) (i j : Nat) : (s.setCore c x).edge i j = s.edge i j := rfl
@[simp] theorem State.setCore_domain (s : State) (c : Nat) (x : Core) (j : Nat) : (s.setCore c x).domain j = s.domain j := rfl
@[simp] theorem State.setCore_peek (s : State) (c : Nat) (x : Core) (a : Nat) : (s.setCore c x).peek a = s.peek a := rfl

/-! ## What `setCluster` leaves alone -/

@[simp] theorem State.setCluster_tick (s : State) (n : Nat) (x : Cluster) : (s.setCluster n x).tick = s.tick := rfl
@[simp] theorem State.setCluster_agenda (s : State) (n : Nat) (x : Cluster) : (s.setCluster n x).agenda = s.agenda := rfl
@[simp] theorem State.setCluster_cur (s : State) (n : Nat) (x : Cluster) : (s.setCluster n x).cur = s.cur := rfl
@[simp] theorem State.setCluster_moment (s : State) (n : Nat) (x : Cluster) : (s.setCluster n x).moment = s.moment := rfl
@[simp] theorem State.setCluster_fresh (s : State) (n : Nat) (x : Cluster) : (s.setCluster n x).fresh = s.fresh := rfl
@[simp] theorem State.setCluster_turn (s : State) (n : Nat) (x : Cluster) : (s.setCluster n x).turn = s.turn := rfl
@[simp] theorem State.setCluster_mem (s : State) (n : Nat) (x : Cluster) : (s.setCluster n x).mem = s.mem := rfl
@[simp] theorem State.setCluster_owners (s : State) (n : Nat) (x : Cluster) : (s.setCluster n x).owners = s.owners := rfl
@[simp] theorem State.setCluster_relSig (s : State) (n : Nat) (x : Cluster) : (s.setCluster n x).relSig = s.relSig := rfl
@[simp] theorem State.setCluster_poisoned (s : State) (n : Nat) (x : Cluster) : (s.setCluster n x).poisoned = s.poisoned := rfl
@[simp] theorem State.setCluster_unfound (s : State) (n : Nat) (x : Cluster) : (s.setCluster n x).unfound = s.unfound := rfl
@[simp] theorem State.setCluster_cores (s : State) (n : Nat) (x : Cluster) : (s.setCluster n x).cores = s.cores := rfl
@[simp] theorem State.setCluster_teams (s : State) (n : Nat) (x : Cluster) : (s.setCluster n x).teams = s.teams := rfl
@[simp] theorem State.setCluster_blocks (s : State) (n : Nat) (x : Cluster) : (s.setCluster n x).blocks = s.blocks := rfl
@[simp] theorem State.setCluster_tasks (s : State) (n : Nat) (x : Cluster) : (s.setCluster n x).tasks = s.tasks := rfl
@[simp] theorem State.setCluster_nextKey (s : State) (n : Nat) (x : Cluster) : (s.setCluster n x).nextKey = s.nextKey := rfl
@[simp] theorem State.setCluster_launches (s : State) (n : Nat) (x : Cluster) : (s.setCluster n x).launches = s.launches := rfl
@[simp] theorem State.setCluster_nextLaunch (s : State) (n : Nat) (x : Cluster) : (s.setCluster n x).nextLaunch = s.nextLaunch := rfl
@[simp] theorem State.setCluster_parts (s : State) (n : Nat) (x : Cluster) : (s.setCluster n x).parts = s.parts := rfl
@[simp] theorem State.setCluster_domains (s : State) (n : Nat) (x : Cluster) : (s.setCluster n x).domains = s.domains := rfl
@[simp] theorem State.setCluster_dieDom (s : State) (n : Nat) (x : Cluster) : (s.setCluster n x).dieDom = s.dieDom := rfl
@[simp] theorem State.setCluster_edges (s : State) (n : Nat) (x : Cluster) : (s.setCluster n x).edges = s.edges := rfl
@[simp] theorem State.setCluster_hwSlots (s : State) (n : Nat) (x : Cluster) : (s.setCluster n x).hwSlots = s.hwSlots := rfl
@[simp] theorem State.setCluster_lastServed (s : State) (n : Nat) (x : Cluster) : (s.setCluster n x).lastServed = s.lastServed := rfl
@[simp] theorem State.setCluster_irqs (s : State) (n : Nat) (x : Cluster) : (s.setCluster n x).irqs = s.irqs := rfl
@[simp] theorem State.setCluster_hostRead (s : State) (n : Nat) (x : Cluster) : (s.setCluster n x).hostRead = s.hostRead := rfl
@[simp] theorem State.setCluster_peers (s : State) (n : Nat) (x : Cluster) : (s.setCluster n x).peers = s.peers := rfl
@[simp] theorem State.setCluster_outbox (s : State) (n : Nat) (x : Cluster) : (s.setCluster n x).outbox = s.outbox := rfl
@[simp] theorem State.setCluster_peerShadows (s : State) (n : Nat) (x : Cluster) : (s.setCluster n x).peerShadows = s.peerShadows := rfl
@[simp] theorem State.setCluster_boot (s : State) (n : Nat) (x : Cluster) : (s.setCluster n x).boot = s.boot := rfl
@[simp] theorem State.setCluster_svn (s : State) (n : Nat) (x : Cluster) : (s.setCluster n x).svn = s.svn := rfl
@[simp] theorem State.setCluster_fwImage (s : State) (n : Nat) (x : Cluster) : (s.setCluster n x).fwImage = s.fwImage := rfl
@[simp] theorem State.setCluster_image (s : State) (n : Nat) (x : Cluster) : (s.setCluster n x).image = s.image := rfl
@[simp] theorem State.setCluster_rails (s : State) (n : Nat) (x : Cluster) : (s.setCluster n x).rails = s.rails := rfl
@[simp] theorem State.setCluster_pkgPwr (s : State) (n : Nat) (x : Cluster) : (s.setCluster n x).pkgPwr = s.pkgPwr := rfl
@[simp] theorem State.setCluster_pkgThr (s : State) (n : Nat) (x : Cluster) : (s.setCluster n x).pkgThr = s.pkgThr := rfl
@[simp] theorem State.setCluster_throttled (s : State) (n : Nat) (x : Cluster) : (s.setCluster n x).throttled = s.throttled := rfl
@[simp] theorem State.setCluster_powers (s : State) (n : Nat) (x : Cluster) : (s.setCluster n x).powers = s.powers := rfl
@[simp] theorem State.setCluster_railAt (s : State) (n : Nat) (x : Cluster) : (s.setCluster n x).railAt = s.railAt := rfl
@[simp] theorem State.setCluster_alignAt (s : State) (n : Nat) (x : Cluster) : (s.setCluster n x).alignAt = s.alignAt := rfl
@[simp] theorem State.setCluster_slew (s : State) (n : Nat) (x : Cluster) : (s.setCluster n x).slew = s.slew := rfl
@[simp] theorem State.setCluster_tsyncErr (s : State) (n : Nat) (x : Cluster) : (s.setCluster n x).tsyncErr = s.tsyncErr := rfl
@[simp] theorem State.setCluster_tsyncPort (s : State) (n : Nat) (x : Cluster) : (s.setCluster n x).tsyncPort = s.tsyncPort := rfl
@[simp] theorem State.setCluster_tsyncAlign (s : State) (n : Nat) (x : Cluster) : (s.setCluster n x).tsyncAlign = s.tsyncAlign := rfl
@[simp] theorem State.setCluster_floors (s : State) (n : Nat) (x : Cluster) : (s.setCluster n x).floors = s.floors := rfl
@[simp] theorem State.setCluster_peerAcc (s : State) (n : Nat) (x : Cluster) : (s.setCluster n x).peerAcc = s.peerAcc := rfl
@[simp] theorem State.setCluster_cecnt (s : State) (n : Nat) (x : Cluster) : (s.setCluster n x).cecnt = s.cecnt := rfl
@[simp] theorem State.setCluster_pfBox (s : State) (n : Nat) (x : Cluster) : (s.setCluster n x).pfBox = s.pfBox := rfl
@[simp] theorem State.setCluster_core (s : State) (n : Nat) (x : Cluster) (j : Nat) : (s.setCluster n x).core j = s.core j := rfl
@[simp] theorem State.setCluster_team_q (s : State) (n : Nat) (x : Cluster) (j : Nat) : (s.setCluster n x).team? j = s.team? j := rfl
@[simp] theorem State.setCluster_block_q (s : State) (n : Nat) (x : Cluster) (j : Nat) : (s.setCluster n x).block? j = s.block? j := rfl
@[simp] theorem State.setCluster_task_q (s : State) (n : Nat) (x : Cluster) (j : Nat) : (s.setCluster n x).task? j = s.task? j := rfl
@[simp] theorem State.setCluster_part (s : State) (n : Nat) (x : Cluster) (j : Nat) : (s.setCluster n x).part j = s.part j := rfl
@[simp] theorem State.setCluster_edge (s : State) (n : Nat) (x : Cluster) (i j : Nat) : (s.setCluster n x).edge i j = s.edge i j := rfl
@[simp] theorem State.setCluster_domain (s : State) (n : Nat) (x : Cluster) (j : Nat) : (s.setCluster n x).domain j = s.domain j := rfl
@[simp] theorem State.setCluster_peek (s : State) (n : Nat) (x : Cluster) (a : Nat) : (s.setCluster n x).peek a = s.peek a := rfl

/-! ## What `setTeam` leaves alone -/

@[simp] theorem State.setTeam_tick (s : State) (k : Nat) (t : Team) : (s.setTeam k t).tick = s.tick := rfl
@[simp] theorem State.setTeam_agenda (s : State) (k : Nat) (t : Team) : (s.setTeam k t).agenda = s.agenda := rfl
@[simp] theorem State.setTeam_cur (s : State) (k : Nat) (t : Team) : (s.setTeam k t).cur = s.cur := rfl
@[simp] theorem State.setTeam_moment (s : State) (k : Nat) (t : Team) : (s.setTeam k t).moment = s.moment := rfl
@[simp] theorem State.setTeam_fresh (s : State) (k : Nat) (t : Team) : (s.setTeam k t).fresh = s.fresh := rfl
@[simp] theorem State.setTeam_turn (s : State) (k : Nat) (t : Team) : (s.setTeam k t).turn = s.turn := rfl
@[simp] theorem State.setTeam_mem (s : State) (k : Nat) (t : Team) : (s.setTeam k t).mem = s.mem := rfl
@[simp] theorem State.setTeam_owners (s : State) (k : Nat) (t : Team) : (s.setTeam k t).owners = s.owners := rfl
@[simp] theorem State.setTeam_relSig (s : State) (k : Nat) (t : Team) : (s.setTeam k t).relSig = s.relSig := rfl
@[simp] theorem State.setTeam_poisoned (s : State) (k : Nat) (t : Team) : (s.setTeam k t).poisoned = s.poisoned := rfl
@[simp] theorem State.setTeam_unfound (s : State) (k : Nat) (t : Team) : (s.setTeam k t).unfound = s.unfound := rfl
@[simp] theorem State.setTeam_cores (s : State) (k : Nat) (t : Team) : (s.setTeam k t).cores = s.cores := rfl
@[simp] theorem State.setTeam_clusters (s : State) (k : Nat) (t : Team) : (s.setTeam k t).clusters = s.clusters := rfl
@[simp] theorem State.setTeam_blocks (s : State) (k : Nat) (t : Team) : (s.setTeam k t).blocks = s.blocks := rfl
@[simp] theorem State.setTeam_tasks (s : State) (k : Nat) (t : Team) : (s.setTeam k t).tasks = s.tasks := rfl
@[simp] theorem State.setTeam_nextKey (s : State) (k : Nat) (t : Team) : (s.setTeam k t).nextKey = s.nextKey := rfl
@[simp] theorem State.setTeam_launches (s : State) (k : Nat) (t : Team) : (s.setTeam k t).launches = s.launches := rfl
@[simp] theorem State.setTeam_nextLaunch (s : State) (k : Nat) (t : Team) : (s.setTeam k t).nextLaunch = s.nextLaunch := rfl
@[simp] theorem State.setTeam_parts (s : State) (k : Nat) (t : Team) : (s.setTeam k t).parts = s.parts := rfl
@[simp] theorem State.setTeam_domains (s : State) (k : Nat) (t : Team) : (s.setTeam k t).domains = s.domains := rfl
@[simp] theorem State.setTeam_dieDom (s : State) (k : Nat) (t : Team) : (s.setTeam k t).dieDom = s.dieDom := rfl
@[simp] theorem State.setTeam_edges (s : State) (k : Nat) (t : Team) : (s.setTeam k t).edges = s.edges := rfl
@[simp] theorem State.setTeam_hwSlots (s : State) (k : Nat) (t : Team) : (s.setTeam k t).hwSlots = s.hwSlots := rfl
@[simp] theorem State.setTeam_lastServed (s : State) (k : Nat) (t : Team) : (s.setTeam k t).lastServed = s.lastServed := rfl
@[simp] theorem State.setTeam_irqs (s : State) (k : Nat) (t : Team) : (s.setTeam k t).irqs = s.irqs := rfl
@[simp] theorem State.setTeam_hostRead (s : State) (k : Nat) (t : Team) : (s.setTeam k t).hostRead = s.hostRead := rfl
@[simp] theorem State.setTeam_peers (s : State) (k : Nat) (t : Team) : (s.setTeam k t).peers = s.peers := rfl
@[simp] theorem State.setTeam_outbox (s : State) (k : Nat) (t : Team) : (s.setTeam k t).outbox = s.outbox := rfl
@[simp] theorem State.setTeam_peerShadows (s : State) (k : Nat) (t : Team) : (s.setTeam k t).peerShadows = s.peerShadows := rfl
@[simp] theorem State.setTeam_boot (s : State) (k : Nat) (t : Team) : (s.setTeam k t).boot = s.boot := rfl
@[simp] theorem State.setTeam_svn (s : State) (k : Nat) (t : Team) : (s.setTeam k t).svn = s.svn := rfl
@[simp] theorem State.setTeam_fwImage (s : State) (k : Nat) (t : Team) : (s.setTeam k t).fwImage = s.fwImage := rfl
@[simp] theorem State.setTeam_image (s : State) (k : Nat) (t : Team) : (s.setTeam k t).image = s.image := rfl
@[simp] theorem State.setTeam_rails (s : State) (k : Nat) (t : Team) : (s.setTeam k t).rails = s.rails := rfl
@[simp] theorem State.setTeam_pkgPwr (s : State) (k : Nat) (t : Team) : (s.setTeam k t).pkgPwr = s.pkgPwr := rfl
@[simp] theorem State.setTeam_pkgThr (s : State) (k : Nat) (t : Team) : (s.setTeam k t).pkgThr = s.pkgThr := rfl
@[simp] theorem State.setTeam_throttled (s : State) (k : Nat) (t : Team) : (s.setTeam k t).throttled = s.throttled := rfl
@[simp] theorem State.setTeam_powers (s : State) (k : Nat) (t : Team) : (s.setTeam k t).powers = s.powers := rfl
@[simp] theorem State.setTeam_railAt (s : State) (k : Nat) (t : Team) : (s.setTeam k t).railAt = s.railAt := rfl
@[simp] theorem State.setTeam_alignAt (s : State) (k : Nat) (t : Team) : (s.setTeam k t).alignAt = s.alignAt := rfl
@[simp] theorem State.setTeam_slew (s : State) (k : Nat) (t : Team) : (s.setTeam k t).slew = s.slew := rfl
@[simp] theorem State.setTeam_tsyncErr (s : State) (k : Nat) (t : Team) : (s.setTeam k t).tsyncErr = s.tsyncErr := rfl
@[simp] theorem State.setTeam_tsyncPort (s : State) (k : Nat) (t : Team) : (s.setTeam k t).tsyncPort = s.tsyncPort := rfl
@[simp] theorem State.setTeam_tsyncAlign (s : State) (k : Nat) (t : Team) : (s.setTeam k t).tsyncAlign = s.tsyncAlign := rfl
@[simp] theorem State.setTeam_floors (s : State) (k : Nat) (t : Team) : (s.setTeam k t).floors = s.floors := rfl
@[simp] theorem State.setTeam_peerAcc (s : State) (k : Nat) (t : Team) : (s.setTeam k t).peerAcc = s.peerAcc := rfl
@[simp] theorem State.setTeam_cecnt (s : State) (k : Nat) (t : Team) : (s.setTeam k t).cecnt = s.cecnt := rfl
@[simp] theorem State.setTeam_pfBox (s : State) (k : Nat) (t : Team) : (s.setTeam k t).pfBox = s.pfBox := rfl
@[simp] theorem State.setTeam_core (s : State) (k : Nat) (t : Team) (j : Nat) : (s.setTeam k t).core j = s.core j := rfl
@[simp] theorem State.setTeam_cluster (s : State) (k : Nat) (t : Team) (j : Nat) : (s.setTeam k t).cluster j = s.cluster j := rfl
@[simp] theorem State.setTeam_block_q (s : State) (k : Nat) (t : Team) (j : Nat) : (s.setTeam k t).block? j = s.block? j := rfl
@[simp] theorem State.setTeam_task_q (s : State) (k : Nat) (t : Team) (j : Nat) : (s.setTeam k t).task? j = s.task? j := rfl
@[simp] theorem State.setTeam_part (s : State) (k : Nat) (t : Team) (j : Nat) : (s.setTeam k t).part j = s.part j := rfl
@[simp] theorem State.setTeam_edge (s : State) (k : Nat) (t : Team) (i j : Nat) : (s.setTeam k t).edge i j = s.edge i j := rfl
@[simp] theorem State.setTeam_domain (s : State) (k : Nat) (t : Team) (j : Nat) : (s.setTeam k t).domain j = s.domain j := rfl
@[simp] theorem State.setTeam_peek (s : State) (k : Nat) (t : Team) (a : Nat) : (s.setTeam k t).peek a = s.peek a := rfl

/-! ## What `setBlock` leaves alone -/

@[simp] theorem State.setBlock_tick (s : State) (b : Nat) (x : Block) : (s.setBlock b x).tick = s.tick := rfl
@[simp] theorem State.setBlock_agenda (s : State) (b : Nat) (x : Block) : (s.setBlock b x).agenda = s.agenda := rfl
@[simp] theorem State.setBlock_cur (s : State) (b : Nat) (x : Block) : (s.setBlock b x).cur = s.cur := rfl
@[simp] theorem State.setBlock_moment (s : State) (b : Nat) (x : Block) : (s.setBlock b x).moment = s.moment := rfl
@[simp] theorem State.setBlock_fresh (s : State) (b : Nat) (x : Block) : (s.setBlock b x).fresh = s.fresh := rfl
@[simp] theorem State.setBlock_turn (s : State) (b : Nat) (x : Block) : (s.setBlock b x).turn = s.turn := rfl
@[simp] theorem State.setBlock_mem (s : State) (b : Nat) (x : Block) : (s.setBlock b x).mem = s.mem := rfl
@[simp] theorem State.setBlock_owners (s : State) (b : Nat) (x : Block) : (s.setBlock b x).owners = s.owners := rfl
@[simp] theorem State.setBlock_relSig (s : State) (b : Nat) (x : Block) : (s.setBlock b x).relSig = s.relSig := rfl
@[simp] theorem State.setBlock_poisoned (s : State) (b : Nat) (x : Block) : (s.setBlock b x).poisoned = s.poisoned := rfl
@[simp] theorem State.setBlock_unfound (s : State) (b : Nat) (x : Block) : (s.setBlock b x).unfound = s.unfound := rfl
@[simp] theorem State.setBlock_cores (s : State) (b : Nat) (x : Block) : (s.setBlock b x).cores = s.cores := rfl
@[simp] theorem State.setBlock_clusters (s : State) (b : Nat) (x : Block) : (s.setBlock b x).clusters = s.clusters := rfl
@[simp] theorem State.setBlock_teams (s : State) (b : Nat) (x : Block) : (s.setBlock b x).teams = s.teams := rfl
@[simp] theorem State.setBlock_tasks (s : State) (b : Nat) (x : Block) : (s.setBlock b x).tasks = s.tasks := rfl
@[simp] theorem State.setBlock_nextKey (s : State) (b : Nat) (x : Block) : (s.setBlock b x).nextKey = s.nextKey := rfl
@[simp] theorem State.setBlock_launches (s : State) (b : Nat) (x : Block) : (s.setBlock b x).launches = s.launches := rfl
@[simp] theorem State.setBlock_nextLaunch (s : State) (b : Nat) (x : Block) : (s.setBlock b x).nextLaunch = s.nextLaunch := rfl
@[simp] theorem State.setBlock_parts (s : State) (b : Nat) (x : Block) : (s.setBlock b x).parts = s.parts := rfl
@[simp] theorem State.setBlock_domains (s : State) (b : Nat) (x : Block) : (s.setBlock b x).domains = s.domains := rfl
@[simp] theorem State.setBlock_dieDom (s : State) (b : Nat) (x : Block) : (s.setBlock b x).dieDom = s.dieDom := rfl
@[simp] theorem State.setBlock_edges (s : State) (b : Nat) (x : Block) : (s.setBlock b x).edges = s.edges := rfl
@[simp] theorem State.setBlock_hwSlots (s : State) (b : Nat) (x : Block) : (s.setBlock b x).hwSlots = s.hwSlots := rfl
@[simp] theorem State.setBlock_lastServed (s : State) (b : Nat) (x : Block) : (s.setBlock b x).lastServed = s.lastServed := rfl
@[simp] theorem State.setBlock_irqs (s : State) (b : Nat) (x : Block) : (s.setBlock b x).irqs = s.irqs := rfl
@[simp] theorem State.setBlock_hostRead (s : State) (b : Nat) (x : Block) : (s.setBlock b x).hostRead = s.hostRead := rfl
@[simp] theorem State.setBlock_peers (s : State) (b : Nat) (x : Block) : (s.setBlock b x).peers = s.peers := rfl
@[simp] theorem State.setBlock_outbox (s : State) (b : Nat) (x : Block) : (s.setBlock b x).outbox = s.outbox := rfl
@[simp] theorem State.setBlock_peerShadows (s : State) (b : Nat) (x : Block) : (s.setBlock b x).peerShadows = s.peerShadows := rfl
@[simp] theorem State.setBlock_boot (s : State) (b : Nat) (x : Block) : (s.setBlock b x).boot = s.boot := rfl
@[simp] theorem State.setBlock_svn (s : State) (b : Nat) (x : Block) : (s.setBlock b x).svn = s.svn := rfl
@[simp] theorem State.setBlock_fwImage (s : State) (b : Nat) (x : Block) : (s.setBlock b x).fwImage = s.fwImage := rfl
@[simp] theorem State.setBlock_image (s : State) (b : Nat) (x : Block) : (s.setBlock b x).image = s.image := rfl
@[simp] theorem State.setBlock_rails (s : State) (b : Nat) (x : Block) : (s.setBlock b x).rails = s.rails := rfl
@[simp] theorem State.setBlock_pkgPwr (s : State) (b : Nat) (x : Block) : (s.setBlock b x).pkgPwr = s.pkgPwr := rfl
@[simp] theorem State.setBlock_pkgThr (s : State) (b : Nat) (x : Block) : (s.setBlock b x).pkgThr = s.pkgThr := rfl
@[simp] theorem State.setBlock_throttled (s : State) (b : Nat) (x : Block) : (s.setBlock b x).throttled = s.throttled := rfl
@[simp] theorem State.setBlock_powers (s : State) (b : Nat) (x : Block) : (s.setBlock b x).powers = s.powers := rfl
@[simp] theorem State.setBlock_railAt (s : State) (b : Nat) (x : Block) : (s.setBlock b x).railAt = s.railAt := rfl
@[simp] theorem State.setBlock_alignAt (s : State) (b : Nat) (x : Block) : (s.setBlock b x).alignAt = s.alignAt := rfl
@[simp] theorem State.setBlock_slew (s : State) (b : Nat) (x : Block) : (s.setBlock b x).slew = s.slew := rfl
@[simp] theorem State.setBlock_tsyncErr (s : State) (b : Nat) (x : Block) : (s.setBlock b x).tsyncErr = s.tsyncErr := rfl
@[simp] theorem State.setBlock_tsyncPort (s : State) (b : Nat) (x : Block) : (s.setBlock b x).tsyncPort = s.tsyncPort := rfl
@[simp] theorem State.setBlock_tsyncAlign (s : State) (b : Nat) (x : Block) : (s.setBlock b x).tsyncAlign = s.tsyncAlign := rfl
@[simp] theorem State.setBlock_floors (s : State) (b : Nat) (x : Block) : (s.setBlock b x).floors = s.floors := rfl
@[simp] theorem State.setBlock_peerAcc (s : State) (b : Nat) (x : Block) : (s.setBlock b x).peerAcc = s.peerAcc := rfl
@[simp] theorem State.setBlock_cecnt (s : State) (b : Nat) (x : Block) : (s.setBlock b x).cecnt = s.cecnt := rfl
@[simp] theorem State.setBlock_pfBox (s : State) (b : Nat) (x : Block) : (s.setBlock b x).pfBox = s.pfBox := rfl
@[simp] theorem State.setBlock_core (s : State) (b : Nat) (x : Block) (j : Nat) : (s.setBlock b x).core j = s.core j := rfl
@[simp] theorem State.setBlock_cluster (s : State) (b : Nat) (x : Block) (j : Nat) : (s.setBlock b x).cluster j = s.cluster j := rfl
@[simp] theorem State.setBlock_team_q (s : State) (b : Nat) (x : Block) (j : Nat) : (s.setBlock b x).team? j = s.team? j := rfl
@[simp] theorem State.setBlock_task_q (s : State) (b : Nat) (x : Block) (j : Nat) : (s.setBlock b x).task? j = s.task? j := rfl
@[simp] theorem State.setBlock_part (s : State) (b : Nat) (x : Block) (j : Nat) : (s.setBlock b x).part j = s.part j := rfl
@[simp] theorem State.setBlock_edge (s : State) (b : Nat) (x : Block) (i j : Nat) : (s.setBlock b x).edge i j = s.edge i j := rfl
@[simp] theorem State.setBlock_domain (s : State) (b : Nat) (x : Block) (j : Nat) : (s.setBlock b x).domain j = s.domain j := rfl
@[simp] theorem State.setBlock_peek (s : State) (b : Nat) (x : Block) (a : Nat) : (s.setBlock b x).peek a = s.peek a := rfl

/-! ## What `setTask` leaves alone -/

@[simp] theorem State.setTask_tick (s : State) (k : Nat) (x : Task) : (s.setTask k x).tick = s.tick := rfl
@[simp] theorem State.setTask_agenda (s : State) (k : Nat) (x : Task) : (s.setTask k x).agenda = s.agenda := rfl
@[simp] theorem State.setTask_cur (s : State) (k : Nat) (x : Task) : (s.setTask k x).cur = s.cur := rfl
@[simp] theorem State.setTask_moment (s : State) (k : Nat) (x : Task) : (s.setTask k x).moment = s.moment := rfl
@[simp] theorem State.setTask_fresh (s : State) (k : Nat) (x : Task) : (s.setTask k x).fresh = s.fresh := rfl
@[simp] theorem State.setTask_turn (s : State) (k : Nat) (x : Task) : (s.setTask k x).turn = s.turn := rfl
@[simp] theorem State.setTask_mem (s : State) (k : Nat) (x : Task) : (s.setTask k x).mem = s.mem := rfl
@[simp] theorem State.setTask_owners (s : State) (k : Nat) (x : Task) : (s.setTask k x).owners = s.owners := rfl
@[simp] theorem State.setTask_relSig (s : State) (k : Nat) (x : Task) : (s.setTask k x).relSig = s.relSig := rfl
@[simp] theorem State.setTask_poisoned (s : State) (k : Nat) (x : Task) : (s.setTask k x).poisoned = s.poisoned := rfl
@[simp] theorem State.setTask_unfound (s : State) (k : Nat) (x : Task) : (s.setTask k x).unfound = s.unfound := rfl
@[simp] theorem State.setTask_cores (s : State) (k : Nat) (x : Task) : (s.setTask k x).cores = s.cores := rfl
@[simp] theorem State.setTask_clusters (s : State) (k : Nat) (x : Task) : (s.setTask k x).clusters = s.clusters := rfl
@[simp] theorem State.setTask_teams (s : State) (k : Nat) (x : Task) : (s.setTask k x).teams = s.teams := rfl
@[simp] theorem State.setTask_blocks (s : State) (k : Nat) (x : Task) : (s.setTask k x).blocks = s.blocks := rfl
@[simp] theorem State.setTask_nextKey (s : State) (k : Nat) (x : Task) : (s.setTask k x).nextKey = s.nextKey := rfl
@[simp] theorem State.setTask_launches (s : State) (k : Nat) (x : Task) : (s.setTask k x).launches = s.launches := rfl
@[simp] theorem State.setTask_nextLaunch (s : State) (k : Nat) (x : Task) : (s.setTask k x).nextLaunch = s.nextLaunch := rfl
@[simp] theorem State.setTask_parts (s : State) (k : Nat) (x : Task) : (s.setTask k x).parts = s.parts := rfl
@[simp] theorem State.setTask_domains (s : State) (k : Nat) (x : Task) : (s.setTask k x).domains = s.domains := rfl
@[simp] theorem State.setTask_dieDom (s : State) (k : Nat) (x : Task) : (s.setTask k x).dieDom = s.dieDom := rfl
@[simp] theorem State.setTask_edges (s : State) (k : Nat) (x : Task) : (s.setTask k x).edges = s.edges := rfl
@[simp] theorem State.setTask_hwSlots (s : State) (k : Nat) (x : Task) : (s.setTask k x).hwSlots = s.hwSlots := rfl
@[simp] theorem State.setTask_lastServed (s : State) (k : Nat) (x : Task) : (s.setTask k x).lastServed = s.lastServed := rfl
@[simp] theorem State.setTask_irqs (s : State) (k : Nat) (x : Task) : (s.setTask k x).irqs = s.irqs := rfl
@[simp] theorem State.setTask_hostRead (s : State) (k : Nat) (x : Task) : (s.setTask k x).hostRead = s.hostRead := rfl
@[simp] theorem State.setTask_peers (s : State) (k : Nat) (x : Task) : (s.setTask k x).peers = s.peers := rfl
@[simp] theorem State.setTask_outbox (s : State) (k : Nat) (x : Task) : (s.setTask k x).outbox = s.outbox := rfl
@[simp] theorem State.setTask_peerShadows (s : State) (k : Nat) (x : Task) : (s.setTask k x).peerShadows = s.peerShadows := rfl
@[simp] theorem State.setTask_boot (s : State) (k : Nat) (x : Task) : (s.setTask k x).boot = s.boot := rfl
@[simp] theorem State.setTask_svn (s : State) (k : Nat) (x : Task) : (s.setTask k x).svn = s.svn := rfl
@[simp] theorem State.setTask_fwImage (s : State) (k : Nat) (x : Task) : (s.setTask k x).fwImage = s.fwImage := rfl
@[simp] theorem State.setTask_image (s : State) (k : Nat) (x : Task) : (s.setTask k x).image = s.image := rfl
@[simp] theorem State.setTask_rails (s : State) (k : Nat) (x : Task) : (s.setTask k x).rails = s.rails := rfl
@[simp] theorem State.setTask_pkgPwr (s : State) (k : Nat) (x : Task) : (s.setTask k x).pkgPwr = s.pkgPwr := rfl
@[simp] theorem State.setTask_pkgThr (s : State) (k : Nat) (x : Task) : (s.setTask k x).pkgThr = s.pkgThr := rfl
@[simp] theorem State.setTask_throttled (s : State) (k : Nat) (x : Task) : (s.setTask k x).throttled = s.throttled := rfl
@[simp] theorem State.setTask_powers (s : State) (k : Nat) (x : Task) : (s.setTask k x).powers = s.powers := rfl
@[simp] theorem State.setTask_railAt (s : State) (k : Nat) (x : Task) : (s.setTask k x).railAt = s.railAt := rfl
@[simp] theorem State.setTask_alignAt (s : State) (k : Nat) (x : Task) : (s.setTask k x).alignAt = s.alignAt := rfl
@[simp] theorem State.setTask_slew (s : State) (k : Nat) (x : Task) : (s.setTask k x).slew = s.slew := rfl
@[simp] theorem State.setTask_tsyncErr (s : State) (k : Nat) (x : Task) : (s.setTask k x).tsyncErr = s.tsyncErr := rfl
@[simp] theorem State.setTask_tsyncPort (s : State) (k : Nat) (x : Task) : (s.setTask k x).tsyncPort = s.tsyncPort := rfl
@[simp] theorem State.setTask_tsyncAlign (s : State) (k : Nat) (x : Task) : (s.setTask k x).tsyncAlign = s.tsyncAlign := rfl
@[simp] theorem State.setTask_floors (s : State) (k : Nat) (x : Task) : (s.setTask k x).floors = s.floors := rfl
@[simp] theorem State.setTask_peerAcc (s : State) (k : Nat) (x : Task) : (s.setTask k x).peerAcc = s.peerAcc := rfl
@[simp] theorem State.setTask_cecnt (s : State) (k : Nat) (x : Task) : (s.setTask k x).cecnt = s.cecnt := rfl
@[simp] theorem State.setTask_pfBox (s : State) (k : Nat) (x : Task) : (s.setTask k x).pfBox = s.pfBox := rfl
@[simp] theorem State.setTask_core (s : State) (k : Nat) (x : Task) (j : Nat) : (s.setTask k x).core j = s.core j := rfl
@[simp] theorem State.setTask_cluster (s : State) (k : Nat) (x : Task) (j : Nat) : (s.setTask k x).cluster j = s.cluster j := rfl
@[simp] theorem State.setTask_team_q (s : State) (k : Nat) (x : Task) (j : Nat) : (s.setTask k x).team? j = s.team? j := rfl
@[simp] theorem State.setTask_block_q (s : State) (k : Nat) (x : Task) (j : Nat) : (s.setTask k x).block? j = s.block? j := rfl
@[simp] theorem State.setTask_part (s : State) (k : Nat) (x : Task) (j : Nat) : (s.setTask k x).part j = s.part j := rfl
@[simp] theorem State.setTask_edge (s : State) (k : Nat) (x : Task) (i j : Nat) : (s.setTask k x).edge i j = s.edge i j := rfl
@[simp] theorem State.setTask_domain (s : State) (k : Nat) (x : Task) (j : Nat) : (s.setTask k x).domain j = s.domain j := rfl
@[simp] theorem State.setTask_peek (s : State) (k : Nat) (x : Task) (a : Nat) : (s.setTask k x).peek a = s.peek a := rfl

/-! ## What `setPart` leaves alone -/

@[simp] theorem State.setPart_tick (s : State) (p : Nat) (x : Part) : (s.setPart p x).tick = s.tick := rfl
@[simp] theorem State.setPart_agenda (s : State) (p : Nat) (x : Part) : (s.setPart p x).agenda = s.agenda := rfl
@[simp] theorem State.setPart_cur (s : State) (p : Nat) (x : Part) : (s.setPart p x).cur = s.cur := rfl
@[simp] theorem State.setPart_moment (s : State) (p : Nat) (x : Part) : (s.setPart p x).moment = s.moment := rfl
@[simp] theorem State.setPart_fresh (s : State) (p : Nat) (x : Part) : (s.setPart p x).fresh = s.fresh := rfl
@[simp] theorem State.setPart_turn (s : State) (p : Nat) (x : Part) : (s.setPart p x).turn = s.turn := rfl
@[simp] theorem State.setPart_mem (s : State) (p : Nat) (x : Part) : (s.setPart p x).mem = s.mem := rfl
@[simp] theorem State.setPart_owners (s : State) (p : Nat) (x : Part) : (s.setPart p x).owners = s.owners := rfl
@[simp] theorem State.setPart_relSig (s : State) (p : Nat) (x : Part) : (s.setPart p x).relSig = s.relSig := rfl
@[simp] theorem State.setPart_poisoned (s : State) (p : Nat) (x : Part) : (s.setPart p x).poisoned = s.poisoned := rfl
@[simp] theorem State.setPart_unfound (s : State) (p : Nat) (x : Part) : (s.setPart p x).unfound = s.unfound := rfl
@[simp] theorem State.setPart_cores (s : State) (p : Nat) (x : Part) : (s.setPart p x).cores = s.cores := rfl
@[simp] theorem State.setPart_clusters (s : State) (p : Nat) (x : Part) : (s.setPart p x).clusters = s.clusters := rfl
@[simp] theorem State.setPart_teams (s : State) (p : Nat) (x : Part) : (s.setPart p x).teams = s.teams := rfl
@[simp] theorem State.setPart_blocks (s : State) (p : Nat) (x : Part) : (s.setPart p x).blocks = s.blocks := rfl
@[simp] theorem State.setPart_tasks (s : State) (p : Nat) (x : Part) : (s.setPart p x).tasks = s.tasks := rfl
@[simp] theorem State.setPart_nextKey (s : State) (p : Nat) (x : Part) : (s.setPart p x).nextKey = s.nextKey := rfl
@[simp] theorem State.setPart_launches (s : State) (p : Nat) (x : Part) : (s.setPart p x).launches = s.launches := rfl
@[simp] theorem State.setPart_nextLaunch (s : State) (p : Nat) (x : Part) : (s.setPart p x).nextLaunch = s.nextLaunch := rfl
@[simp] theorem State.setPart_domains (s : State) (p : Nat) (x : Part) : (s.setPart p x).domains = s.domains := rfl
@[simp] theorem State.setPart_dieDom (s : State) (p : Nat) (x : Part) : (s.setPart p x).dieDom = s.dieDom := rfl
@[simp] theorem State.setPart_edges (s : State) (p : Nat) (x : Part) : (s.setPart p x).edges = s.edges := rfl
@[simp] theorem State.setPart_hwSlots (s : State) (p : Nat) (x : Part) : (s.setPart p x).hwSlots = s.hwSlots := rfl
@[simp] theorem State.setPart_lastServed (s : State) (p : Nat) (x : Part) : (s.setPart p x).lastServed = s.lastServed := rfl
@[simp] theorem State.setPart_irqs (s : State) (p : Nat) (x : Part) : (s.setPart p x).irqs = s.irqs := rfl
@[simp] theorem State.setPart_hostRead (s : State) (p : Nat) (x : Part) : (s.setPart p x).hostRead = s.hostRead := rfl
@[simp] theorem State.setPart_peers (s : State) (p : Nat) (x : Part) : (s.setPart p x).peers = s.peers := rfl
@[simp] theorem State.setPart_outbox (s : State) (p : Nat) (x : Part) : (s.setPart p x).outbox = s.outbox := rfl
@[simp] theorem State.setPart_peerShadows (s : State) (p : Nat) (x : Part) : (s.setPart p x).peerShadows = s.peerShadows := rfl
@[simp] theorem State.setPart_boot (s : State) (p : Nat) (x : Part) : (s.setPart p x).boot = s.boot := rfl
@[simp] theorem State.setPart_svn (s : State) (p : Nat) (x : Part) : (s.setPart p x).svn = s.svn := rfl
@[simp] theorem State.setPart_fwImage (s : State) (p : Nat) (x : Part) : (s.setPart p x).fwImage = s.fwImage := rfl
@[simp] theorem State.setPart_image (s : State) (p : Nat) (x : Part) : (s.setPart p x).image = s.image := rfl
@[simp] theorem State.setPart_rails (s : State) (p : Nat) (x : Part) : (s.setPart p x).rails = s.rails := rfl
@[simp] theorem State.setPart_pkgPwr (s : State) (p : Nat) (x : Part) : (s.setPart p x).pkgPwr = s.pkgPwr := rfl
@[simp] theorem State.setPart_pkgThr (s : State) (p : Nat) (x : Part) : (s.setPart p x).pkgThr = s.pkgThr := rfl
@[simp] theorem State.setPart_throttled (s : State) (p : Nat) (x : Part) : (s.setPart p x).throttled = s.throttled := rfl
@[simp] theorem State.setPart_powers (s : State) (p : Nat) (x : Part) : (s.setPart p x).powers = s.powers := rfl
@[simp] theorem State.setPart_railAt (s : State) (p : Nat) (x : Part) : (s.setPart p x).railAt = s.railAt := rfl
@[simp] theorem State.setPart_alignAt (s : State) (p : Nat) (x : Part) : (s.setPart p x).alignAt = s.alignAt := rfl
@[simp] theorem State.setPart_slew (s : State) (p : Nat) (x : Part) : (s.setPart p x).slew = s.slew := rfl
@[simp] theorem State.setPart_tsyncErr (s : State) (p : Nat) (x : Part) : (s.setPart p x).tsyncErr = s.tsyncErr := rfl
@[simp] theorem State.setPart_tsyncPort (s : State) (p : Nat) (x : Part) : (s.setPart p x).tsyncPort = s.tsyncPort := rfl
@[simp] theorem State.setPart_tsyncAlign (s : State) (p : Nat) (x : Part) : (s.setPart p x).tsyncAlign = s.tsyncAlign := rfl
@[simp] theorem State.setPart_floors (s : State) (p : Nat) (x : Part) : (s.setPart p x).floors = s.floors := rfl
@[simp] theorem State.setPart_peerAcc (s : State) (p : Nat) (x : Part) : (s.setPart p x).peerAcc = s.peerAcc := rfl
@[simp] theorem State.setPart_cecnt (s : State) (p : Nat) (x : Part) : (s.setPart p x).cecnt = s.cecnt := rfl
@[simp] theorem State.setPart_pfBox (s : State) (p : Nat) (x : Part) : (s.setPart p x).pfBox = s.pfBox := rfl
@[simp] theorem State.setPart_core (s : State) (p : Nat) (x : Part) (j : Nat) : (s.setPart p x).core j = s.core j := rfl
@[simp] theorem State.setPart_cluster (s : State) (p : Nat) (x : Part) (j : Nat) : (s.setPart p x).cluster j = s.cluster j := rfl
@[simp] theorem State.setPart_team_q (s : State) (p : Nat) (x : Part) (j : Nat) : (s.setPart p x).team? j = s.team? j := rfl
@[simp] theorem State.setPart_block_q (s : State) (p : Nat) (x : Part) (j : Nat) : (s.setPart p x).block? j = s.block? j := rfl
@[simp] theorem State.setPart_task_q (s : State) (p : Nat) (x : Part) (j : Nat) : (s.setPart p x).task? j = s.task? j := rfl
@[simp] theorem State.setPart_edge (s : State) (p : Nat) (x : Part) (i j : Nat) : (s.setPart p x).edge i j = s.edge i j := rfl
@[simp] theorem State.setPart_domain (s : State) (p : Nat) (x : Part) (j : Nat) : (s.setPart p x).domain j = s.domain j := rfl
@[simp] theorem State.setPart_peek (s : State) (p : Nat) (x : Part) (a : Nat) : (s.setPart p x).peek a = s.peek a := rfl

/-! ## What `updPart` leaves alone -/

@[simp] theorem State.updPart_tick (s : State) (p : Nat) (f : Part → Part) : (s.updPart p f).tick = s.tick := rfl
@[simp] theorem State.updPart_agenda (s : State) (p : Nat) (f : Part → Part) : (s.updPart p f).agenda = s.agenda := rfl
@[simp] theorem State.updPart_cur (s : State) (p : Nat) (f : Part → Part) : (s.updPart p f).cur = s.cur := rfl
@[simp] theorem State.updPart_moment (s : State) (p : Nat) (f : Part → Part) : (s.updPart p f).moment = s.moment := rfl
@[simp] theorem State.updPart_fresh (s : State) (p : Nat) (f : Part → Part) : (s.updPart p f).fresh = s.fresh := rfl
@[simp] theorem State.updPart_turn (s : State) (p : Nat) (f : Part → Part) : (s.updPart p f).turn = s.turn := rfl
@[simp] theorem State.updPart_mem (s : State) (p : Nat) (f : Part → Part) : (s.updPart p f).mem = s.mem := rfl
@[simp] theorem State.updPart_owners (s : State) (p : Nat) (f : Part → Part) : (s.updPart p f).owners = s.owners := rfl
@[simp] theorem State.updPart_relSig (s : State) (p : Nat) (f : Part → Part) : (s.updPart p f).relSig = s.relSig := rfl
@[simp] theorem State.updPart_poisoned (s : State) (p : Nat) (f : Part → Part) : (s.updPart p f).poisoned = s.poisoned := rfl
@[simp] theorem State.updPart_unfound (s : State) (p : Nat) (f : Part → Part) : (s.updPart p f).unfound = s.unfound := rfl
@[simp] theorem State.updPart_cores (s : State) (p : Nat) (f : Part → Part) : (s.updPart p f).cores = s.cores := rfl
@[simp] theorem State.updPart_clusters (s : State) (p : Nat) (f : Part → Part) : (s.updPart p f).clusters = s.clusters := rfl
@[simp] theorem State.updPart_teams (s : State) (p : Nat) (f : Part → Part) : (s.updPart p f).teams = s.teams := rfl
@[simp] theorem State.updPart_blocks (s : State) (p : Nat) (f : Part → Part) : (s.updPart p f).blocks = s.blocks := rfl
@[simp] theorem State.updPart_tasks (s : State) (p : Nat) (f : Part → Part) : (s.updPart p f).tasks = s.tasks := rfl
@[simp] theorem State.updPart_nextKey (s : State) (p : Nat) (f : Part → Part) : (s.updPart p f).nextKey = s.nextKey := rfl
@[simp] theorem State.updPart_launches (s : State) (p : Nat) (f : Part → Part) : (s.updPart p f).launches = s.launches := rfl
@[simp] theorem State.updPart_nextLaunch (s : State) (p : Nat) (f : Part → Part) : (s.updPart p f).nextLaunch = s.nextLaunch := rfl
@[simp] theorem State.updPart_domains (s : State) (p : Nat) (f : Part → Part) : (s.updPart p f).domains = s.domains := rfl
@[simp] theorem State.updPart_dieDom (s : State) (p : Nat) (f : Part → Part) : (s.updPart p f).dieDom = s.dieDom := rfl
@[simp] theorem State.updPart_edges (s : State) (p : Nat) (f : Part → Part) : (s.updPart p f).edges = s.edges := rfl
@[simp] theorem State.updPart_hwSlots (s : State) (p : Nat) (f : Part → Part) : (s.updPart p f).hwSlots = s.hwSlots := rfl
@[simp] theorem State.updPart_lastServed (s : State) (p : Nat) (f : Part → Part) : (s.updPart p f).lastServed = s.lastServed := rfl
@[simp] theorem State.updPart_irqs (s : State) (p : Nat) (f : Part → Part) : (s.updPart p f).irqs = s.irqs := rfl
@[simp] theorem State.updPart_hostRead (s : State) (p : Nat) (f : Part → Part) : (s.updPart p f).hostRead = s.hostRead := rfl
@[simp] theorem State.updPart_peers (s : State) (p : Nat) (f : Part → Part) : (s.updPart p f).peers = s.peers := rfl
@[simp] theorem State.updPart_outbox (s : State) (p : Nat) (f : Part → Part) : (s.updPart p f).outbox = s.outbox := rfl
@[simp] theorem State.updPart_peerShadows (s : State) (p : Nat) (f : Part → Part) : (s.updPart p f).peerShadows = s.peerShadows := rfl
@[simp] theorem State.updPart_boot (s : State) (p : Nat) (f : Part → Part) : (s.updPart p f).boot = s.boot := rfl
@[simp] theorem State.updPart_svn (s : State) (p : Nat) (f : Part → Part) : (s.updPart p f).svn = s.svn := rfl
@[simp] theorem State.updPart_fwImage (s : State) (p : Nat) (f : Part → Part) : (s.updPart p f).fwImage = s.fwImage := rfl
@[simp] theorem State.updPart_image (s : State) (p : Nat) (f : Part → Part) : (s.updPart p f).image = s.image := rfl
@[simp] theorem State.updPart_rails (s : State) (p : Nat) (f : Part → Part) : (s.updPart p f).rails = s.rails := rfl
@[simp] theorem State.updPart_pkgPwr (s : State) (p : Nat) (f : Part → Part) : (s.updPart p f).pkgPwr = s.pkgPwr := rfl
@[simp] theorem State.updPart_pkgThr (s : State) (p : Nat) (f : Part → Part) : (s.updPart p f).pkgThr = s.pkgThr := rfl
@[simp] theorem State.updPart_throttled (s : State) (p : Nat) (f : Part → Part) : (s.updPart p f).throttled = s.throttled := rfl
@[simp] theorem State.updPart_powers (s : State) (p : Nat) (f : Part → Part) : (s.updPart p f).powers = s.powers := rfl
@[simp] theorem State.updPart_railAt (s : State) (p : Nat) (f : Part → Part) : (s.updPart p f).railAt = s.railAt := rfl
@[simp] theorem State.updPart_alignAt (s : State) (p : Nat) (f : Part → Part) : (s.updPart p f).alignAt = s.alignAt := rfl
@[simp] theorem State.updPart_slew (s : State) (p : Nat) (f : Part → Part) : (s.updPart p f).slew = s.slew := rfl
@[simp] theorem State.updPart_tsyncErr (s : State) (p : Nat) (f : Part → Part) : (s.updPart p f).tsyncErr = s.tsyncErr := rfl
@[simp] theorem State.updPart_tsyncPort (s : State) (p : Nat) (f : Part → Part) : (s.updPart p f).tsyncPort = s.tsyncPort := rfl
@[simp] theorem State.updPart_tsyncAlign (s : State) (p : Nat) (f : Part → Part) : (s.updPart p f).tsyncAlign = s.tsyncAlign := rfl
@[simp] theorem State.updPart_floors (s : State) (p : Nat) (f : Part → Part) : (s.updPart p f).floors = s.floors := rfl
@[simp] theorem State.updPart_peerAcc (s : State) (p : Nat) (f : Part → Part) : (s.updPart p f).peerAcc = s.peerAcc := rfl
@[simp] theorem State.updPart_cecnt (s : State) (p : Nat) (f : Part → Part) : (s.updPart p f).cecnt = s.cecnt := rfl
@[simp] theorem State.updPart_pfBox (s : State) (p : Nat) (f : Part → Part) : (s.updPart p f).pfBox = s.pfBox := rfl
@[simp] theorem State.updPart_core (s : State) (p : Nat) (f : Part → Part) (j : Nat) : (s.updPart p f).core j = s.core j := rfl
@[simp] theorem State.updPart_cluster (s : State) (p : Nat) (f : Part → Part) (j : Nat) : (s.updPart p f).cluster j = s.cluster j := rfl
@[simp] theorem State.updPart_team_q (s : State) (p : Nat) (f : Part → Part) (j : Nat) : (s.updPart p f).team? j = s.team? j := rfl
@[simp] theorem State.updPart_block_q (s : State) (p : Nat) (f : Part → Part) (j : Nat) : (s.updPart p f).block? j = s.block? j := rfl
@[simp] theorem State.updPart_task_q (s : State) (p : Nat) (f : Part → Part) (j : Nat) : (s.updPart p f).task? j = s.task? j := rfl
@[simp] theorem State.updPart_edge (s : State) (p : Nat) (f : Part → Part) (i j : Nat) : (s.updPart p f).edge i j = s.edge i j := rfl
@[simp] theorem State.updPart_domain (s : State) (p : Nat) (f : Part → Part) (j : Nat) : (s.updPart p f).domain j = s.domain j := rfl
@[simp] theorem State.updPart_peek (s : State) (p : Nat) (f : Part → Part) (a : Nat) : (s.updPart p f).peek a = s.peek a := rfl

/-! ## What `setEdge` leaves alone -/

@[simp] theorem State.setEdge_tick (s : State) (d e : Nat) (x : Edge) : (s.setEdge d e x).tick = s.tick := rfl
@[simp] theorem State.setEdge_agenda (s : State) (d e : Nat) (x : Edge) : (s.setEdge d e x).agenda = s.agenda := rfl
@[simp] theorem State.setEdge_cur (s : State) (d e : Nat) (x : Edge) : (s.setEdge d e x).cur = s.cur := rfl
@[simp] theorem State.setEdge_moment (s : State) (d e : Nat) (x : Edge) : (s.setEdge d e x).moment = s.moment := rfl
@[simp] theorem State.setEdge_fresh (s : State) (d e : Nat) (x : Edge) : (s.setEdge d e x).fresh = s.fresh := rfl
@[simp] theorem State.setEdge_turn (s : State) (d e : Nat) (x : Edge) : (s.setEdge d e x).turn = s.turn := rfl
@[simp] theorem State.setEdge_mem (s : State) (d e : Nat) (x : Edge) : (s.setEdge d e x).mem = s.mem := rfl
@[simp] theorem State.setEdge_owners (s : State) (d e : Nat) (x : Edge) : (s.setEdge d e x).owners = s.owners := rfl
@[simp] theorem State.setEdge_relSig (s : State) (d e : Nat) (x : Edge) : (s.setEdge d e x).relSig = s.relSig := rfl
@[simp] theorem State.setEdge_poisoned (s : State) (d e : Nat) (x : Edge) : (s.setEdge d e x).poisoned = s.poisoned := rfl
@[simp] theorem State.setEdge_unfound (s : State) (d e : Nat) (x : Edge) : (s.setEdge d e x).unfound = s.unfound := rfl
@[simp] theorem State.setEdge_cores (s : State) (d e : Nat) (x : Edge) : (s.setEdge d e x).cores = s.cores := rfl
@[simp] theorem State.setEdge_clusters (s : State) (d e : Nat) (x : Edge) : (s.setEdge d e x).clusters = s.clusters := rfl
@[simp] theorem State.setEdge_teams (s : State) (d e : Nat) (x : Edge) : (s.setEdge d e x).teams = s.teams := rfl
@[simp] theorem State.setEdge_blocks (s : State) (d e : Nat) (x : Edge) : (s.setEdge d e x).blocks = s.blocks := rfl
@[simp] theorem State.setEdge_tasks (s : State) (d e : Nat) (x : Edge) : (s.setEdge d e x).tasks = s.tasks := rfl
@[simp] theorem State.setEdge_nextKey (s : State) (d e : Nat) (x : Edge) : (s.setEdge d e x).nextKey = s.nextKey := rfl
@[simp] theorem State.setEdge_launches (s : State) (d e : Nat) (x : Edge) : (s.setEdge d e x).launches = s.launches := rfl
@[simp] theorem State.setEdge_nextLaunch (s : State) (d e : Nat) (x : Edge) : (s.setEdge d e x).nextLaunch = s.nextLaunch := rfl
@[simp] theorem State.setEdge_parts (s : State) (d e : Nat) (x : Edge) : (s.setEdge d e x).parts = s.parts := rfl
@[simp] theorem State.setEdge_domains (s : State) (d e : Nat) (x : Edge) : (s.setEdge d e x).domains = s.domains := rfl
@[simp] theorem State.setEdge_dieDom (s : State) (d e : Nat) (x : Edge) : (s.setEdge d e x).dieDom = s.dieDom := rfl
@[simp] theorem State.setEdge_hwSlots (s : State) (d e : Nat) (x : Edge) : (s.setEdge d e x).hwSlots = s.hwSlots := rfl
@[simp] theorem State.setEdge_lastServed (s : State) (d e : Nat) (x : Edge) : (s.setEdge d e x).lastServed = s.lastServed := rfl
@[simp] theorem State.setEdge_irqs (s : State) (d e : Nat) (x : Edge) : (s.setEdge d e x).irqs = s.irqs := rfl
@[simp] theorem State.setEdge_hostRead (s : State) (d e : Nat) (x : Edge) : (s.setEdge d e x).hostRead = s.hostRead := rfl
@[simp] theorem State.setEdge_peers (s : State) (d e : Nat) (x : Edge) : (s.setEdge d e x).peers = s.peers := rfl
@[simp] theorem State.setEdge_outbox (s : State) (d e : Nat) (x : Edge) : (s.setEdge d e x).outbox = s.outbox := rfl
@[simp] theorem State.setEdge_peerShadows (s : State) (d e : Nat) (x : Edge) : (s.setEdge d e x).peerShadows = s.peerShadows := rfl
@[simp] theorem State.setEdge_boot (s : State) (d e : Nat) (x : Edge) : (s.setEdge d e x).boot = s.boot := rfl
@[simp] theorem State.setEdge_svn (s : State) (d e : Nat) (x : Edge) : (s.setEdge d e x).svn = s.svn := rfl
@[simp] theorem State.setEdge_fwImage (s : State) (d e : Nat) (x : Edge) : (s.setEdge d e x).fwImage = s.fwImage := rfl
@[simp] theorem State.setEdge_image (s : State) (d e : Nat) (x : Edge) : (s.setEdge d e x).image = s.image := rfl
@[simp] theorem State.setEdge_rails (s : State) (d e : Nat) (x : Edge) : (s.setEdge d e x).rails = s.rails := rfl
@[simp] theorem State.setEdge_pkgPwr (s : State) (d e : Nat) (x : Edge) : (s.setEdge d e x).pkgPwr = s.pkgPwr := rfl
@[simp] theorem State.setEdge_pkgThr (s : State) (d e : Nat) (x : Edge) : (s.setEdge d e x).pkgThr = s.pkgThr := rfl
@[simp] theorem State.setEdge_throttled (s : State) (d e : Nat) (x : Edge) : (s.setEdge d e x).throttled = s.throttled := rfl
@[simp] theorem State.setEdge_powers (s : State) (d e : Nat) (x : Edge) : (s.setEdge d e x).powers = s.powers := rfl
@[simp] theorem State.setEdge_railAt (s : State) (d e : Nat) (x : Edge) : (s.setEdge d e x).railAt = s.railAt := rfl
@[simp] theorem State.setEdge_alignAt (s : State) (d e : Nat) (x : Edge) : (s.setEdge d e x).alignAt = s.alignAt := rfl
@[simp] theorem State.setEdge_slew (s : State) (d e : Nat) (x : Edge) : (s.setEdge d e x).slew = s.slew := rfl
@[simp] theorem State.setEdge_tsyncErr (s : State) (d e : Nat) (x : Edge) : (s.setEdge d e x).tsyncErr = s.tsyncErr := rfl
@[simp] theorem State.setEdge_tsyncPort (s : State) (d e : Nat) (x : Edge) : (s.setEdge d e x).tsyncPort = s.tsyncPort := rfl
@[simp] theorem State.setEdge_tsyncAlign (s : State) (d e : Nat) (x : Edge) : (s.setEdge d e x).tsyncAlign = s.tsyncAlign := rfl
@[simp] theorem State.setEdge_floors (s : State) (d e : Nat) (x : Edge) : (s.setEdge d e x).floors = s.floors := rfl
@[simp] theorem State.setEdge_peerAcc (s : State) (d e : Nat) (x : Edge) : (s.setEdge d e x).peerAcc = s.peerAcc := rfl
@[simp] theorem State.setEdge_cecnt (s : State) (d e : Nat) (x : Edge) : (s.setEdge d e x).cecnt = s.cecnt := rfl
@[simp] theorem State.setEdge_pfBox (s : State) (d e : Nat) (x : Edge) : (s.setEdge d e x).pfBox = s.pfBox := rfl
@[simp] theorem State.setEdge_core (s : State) (d e : Nat) (x : Edge) (j : Nat) : (s.setEdge d e x).core j = s.core j := rfl
@[simp] theorem State.setEdge_cluster (s : State) (d e : Nat) (x : Edge) (j : Nat) : (s.setEdge d e x).cluster j = s.cluster j := rfl
@[simp] theorem State.setEdge_team_q (s : State) (d e : Nat) (x : Edge) (j : Nat) : (s.setEdge d e x).team? j = s.team? j := rfl
@[simp] theorem State.setEdge_block_q (s : State) (d e : Nat) (x : Edge) (j : Nat) : (s.setEdge d e x).block? j = s.block? j := rfl
@[simp] theorem State.setEdge_task_q (s : State) (d e : Nat) (x : Edge) (j : Nat) : (s.setEdge d e x).task? j = s.task? j := rfl
@[simp] theorem State.setEdge_part (s : State) (d e : Nat) (x : Edge) (j : Nat) : (s.setEdge d e x).part j = s.part j := rfl
@[simp] theorem State.setEdge_domain (s : State) (d e : Nat) (x : Edge) (j : Nat) : (s.setEdge d e x).domain j = s.domain j := rfl
@[simp] theorem State.setEdge_peek (s : State) (d e : Nat) (x : Edge) (a : Nat) : (s.setEdge d e x).peek a = s.peek a := rfl

/-! ## What `setDomain` leaves alone -/

@[simp] theorem State.setDomain_tick (s : State) (d : Nat) (x : Domain) : (s.setDomain d x).tick = s.tick := rfl
@[simp] theorem State.setDomain_agenda (s : State) (d : Nat) (x : Domain) : (s.setDomain d x).agenda = s.agenda := rfl
@[simp] theorem State.setDomain_cur (s : State) (d : Nat) (x : Domain) : (s.setDomain d x).cur = s.cur := rfl
@[simp] theorem State.setDomain_moment (s : State) (d : Nat) (x : Domain) : (s.setDomain d x).moment = s.moment := rfl
@[simp] theorem State.setDomain_fresh (s : State) (d : Nat) (x : Domain) : (s.setDomain d x).fresh = s.fresh := rfl
@[simp] theorem State.setDomain_turn (s : State) (d : Nat) (x : Domain) : (s.setDomain d x).turn = s.turn := rfl
@[simp] theorem State.setDomain_mem (s : State) (d : Nat) (x : Domain) : (s.setDomain d x).mem = s.mem := rfl
@[simp] theorem State.setDomain_owners (s : State) (d : Nat) (x : Domain) : (s.setDomain d x).owners = s.owners := rfl
@[simp] theorem State.setDomain_relSig (s : State) (d : Nat) (x : Domain) : (s.setDomain d x).relSig = s.relSig := rfl
@[simp] theorem State.setDomain_poisoned (s : State) (d : Nat) (x : Domain) : (s.setDomain d x).poisoned = s.poisoned := rfl
@[simp] theorem State.setDomain_unfound (s : State) (d : Nat) (x : Domain) : (s.setDomain d x).unfound = s.unfound := rfl
@[simp] theorem State.setDomain_cores (s : State) (d : Nat) (x : Domain) : (s.setDomain d x).cores = s.cores := rfl
@[simp] theorem State.setDomain_clusters (s : State) (d : Nat) (x : Domain) : (s.setDomain d x).clusters = s.clusters := rfl
@[simp] theorem State.setDomain_teams (s : State) (d : Nat) (x : Domain) : (s.setDomain d x).teams = s.teams := rfl
@[simp] theorem State.setDomain_blocks (s : State) (d : Nat) (x : Domain) : (s.setDomain d x).blocks = s.blocks := rfl
@[simp] theorem State.setDomain_tasks (s : State) (d : Nat) (x : Domain) : (s.setDomain d x).tasks = s.tasks := rfl
@[simp] theorem State.setDomain_nextKey (s : State) (d : Nat) (x : Domain) : (s.setDomain d x).nextKey = s.nextKey := rfl
@[simp] theorem State.setDomain_launches (s : State) (d : Nat) (x : Domain) : (s.setDomain d x).launches = s.launches := rfl
@[simp] theorem State.setDomain_nextLaunch (s : State) (d : Nat) (x : Domain) : (s.setDomain d x).nextLaunch = s.nextLaunch := rfl
@[simp] theorem State.setDomain_parts (s : State) (d : Nat) (x : Domain) : (s.setDomain d x).parts = s.parts := rfl
@[simp] theorem State.setDomain_dieDom (s : State) (d : Nat) (x : Domain) : (s.setDomain d x).dieDom = s.dieDom := rfl
@[simp] theorem State.setDomain_edges (s : State) (d : Nat) (x : Domain) : (s.setDomain d x).edges = s.edges := rfl
@[simp] theorem State.setDomain_hwSlots (s : State) (d : Nat) (x : Domain) : (s.setDomain d x).hwSlots = s.hwSlots := rfl
@[simp] theorem State.setDomain_lastServed (s : State) (d : Nat) (x : Domain) : (s.setDomain d x).lastServed = s.lastServed := rfl
@[simp] theorem State.setDomain_irqs (s : State) (d : Nat) (x : Domain) : (s.setDomain d x).irqs = s.irqs := rfl
@[simp] theorem State.setDomain_hostRead (s : State) (d : Nat) (x : Domain) : (s.setDomain d x).hostRead = s.hostRead := rfl
@[simp] theorem State.setDomain_peers (s : State) (d : Nat) (x : Domain) : (s.setDomain d x).peers = s.peers := rfl
@[simp] theorem State.setDomain_outbox (s : State) (d : Nat) (x : Domain) : (s.setDomain d x).outbox = s.outbox := rfl
@[simp] theorem State.setDomain_peerShadows (s : State) (d : Nat) (x : Domain) : (s.setDomain d x).peerShadows = s.peerShadows := rfl
@[simp] theorem State.setDomain_boot (s : State) (d : Nat) (x : Domain) : (s.setDomain d x).boot = s.boot := rfl
@[simp] theorem State.setDomain_svn (s : State) (d : Nat) (x : Domain) : (s.setDomain d x).svn = s.svn := rfl
@[simp] theorem State.setDomain_fwImage (s : State) (d : Nat) (x : Domain) : (s.setDomain d x).fwImage = s.fwImage := rfl
@[simp] theorem State.setDomain_image (s : State) (d : Nat) (x : Domain) : (s.setDomain d x).image = s.image := rfl
@[simp] theorem State.setDomain_rails (s : State) (d : Nat) (x : Domain) : (s.setDomain d x).rails = s.rails := rfl
@[simp] theorem State.setDomain_pkgPwr (s : State) (d : Nat) (x : Domain) : (s.setDomain d x).pkgPwr = s.pkgPwr := rfl
@[simp] theorem State.setDomain_pkgThr (s : State) (d : Nat) (x : Domain) : (s.setDomain d x).pkgThr = s.pkgThr := rfl
@[simp] theorem State.setDomain_throttled (s : State) (d : Nat) (x : Domain) : (s.setDomain d x).throttled = s.throttled := rfl
@[simp] theorem State.setDomain_powers (s : State) (d : Nat) (x : Domain) : (s.setDomain d x).powers = s.powers := rfl
@[simp] theorem State.setDomain_railAt (s : State) (d : Nat) (x : Domain) : (s.setDomain d x).railAt = s.railAt := rfl
@[simp] theorem State.setDomain_alignAt (s : State) (d : Nat) (x : Domain) : (s.setDomain d x).alignAt = s.alignAt := rfl
@[simp] theorem State.setDomain_slew (s : State) (d : Nat) (x : Domain) : (s.setDomain d x).slew = s.slew := rfl
@[simp] theorem State.setDomain_tsyncErr (s : State) (d : Nat) (x : Domain) : (s.setDomain d x).tsyncErr = s.tsyncErr := rfl
@[simp] theorem State.setDomain_tsyncPort (s : State) (d : Nat) (x : Domain) : (s.setDomain d x).tsyncPort = s.tsyncPort := rfl
@[simp] theorem State.setDomain_tsyncAlign (s : State) (d : Nat) (x : Domain) : (s.setDomain d x).tsyncAlign = s.tsyncAlign := rfl
@[simp] theorem State.setDomain_floors (s : State) (d : Nat) (x : Domain) : (s.setDomain d x).floors = s.floors := rfl
@[simp] theorem State.setDomain_peerAcc (s : State) (d : Nat) (x : Domain) : (s.setDomain d x).peerAcc = s.peerAcc := rfl
@[simp] theorem State.setDomain_cecnt (s : State) (d : Nat) (x : Domain) : (s.setDomain d x).cecnt = s.cecnt := rfl
@[simp] theorem State.setDomain_pfBox (s : State) (d : Nat) (x : Domain) : (s.setDomain d x).pfBox = s.pfBox := rfl
@[simp] theorem State.setDomain_core (s : State) (d : Nat) (x : Domain) (j : Nat) : (s.setDomain d x).core j = s.core j := rfl
@[simp] theorem State.setDomain_cluster (s : State) (d : Nat) (x : Domain) (j : Nat) : (s.setDomain d x).cluster j = s.cluster j := rfl
@[simp] theorem State.setDomain_team_q (s : State) (d : Nat) (x : Domain) (j : Nat) : (s.setDomain d x).team? j = s.team? j := rfl
@[simp] theorem State.setDomain_block_q (s : State) (d : Nat) (x : Domain) (j : Nat) : (s.setDomain d x).block? j = s.block? j := rfl
@[simp] theorem State.setDomain_task_q (s : State) (d : Nat) (x : Domain) (j : Nat) : (s.setDomain d x).task? j = s.task? j := rfl
@[simp] theorem State.setDomain_part (s : State) (d : Nat) (x : Domain) (j : Nat) : (s.setDomain d x).part j = s.part j := rfl
@[simp] theorem State.setDomain_edge (s : State) (d : Nat) (x : Domain) (i j : Nat) : (s.setDomain d x).edge i j = s.edge i j := rfl
@[simp] theorem State.setDomain_peek (s : State) (d : Nat) (x : Domain) (a : Nat) : (s.setDomain d x).peek a = s.peek a := rfl

/-! ## What `irq` leaves alone -/

@[simp] theorem State.irq_tick (s : State) (fn : Option Nat) (v : Nat) : (s.irq fn v).tick = s.tick := rfl
@[simp] theorem State.irq_agenda (s : State) (fn : Option Nat) (v : Nat) : (s.irq fn v).agenda = s.agenda := rfl
@[simp] theorem State.irq_cur (s : State) (fn : Option Nat) (v : Nat) : (s.irq fn v).cur = s.cur := rfl
@[simp] theorem State.irq_moment (s : State) (fn : Option Nat) (v : Nat) : (s.irq fn v).moment = s.moment := rfl
@[simp] theorem State.irq_fresh (s : State) (fn : Option Nat) (v : Nat) : (s.irq fn v).fresh = s.fresh := rfl
@[simp] theorem State.irq_turn (s : State) (fn : Option Nat) (v : Nat) : (s.irq fn v).turn = s.turn := rfl
@[simp] theorem State.irq_mem (s : State) (fn : Option Nat) (v : Nat) : (s.irq fn v).mem = s.mem := rfl
@[simp] theorem State.irq_owners (s : State) (fn : Option Nat) (v : Nat) : (s.irq fn v).owners = s.owners := rfl
@[simp] theorem State.irq_relSig (s : State) (fn : Option Nat) (v : Nat) : (s.irq fn v).relSig = s.relSig := rfl
@[simp] theorem State.irq_poisoned (s : State) (fn : Option Nat) (v : Nat) : (s.irq fn v).poisoned = s.poisoned := rfl
@[simp] theorem State.irq_unfound (s : State) (fn : Option Nat) (v : Nat) : (s.irq fn v).unfound = s.unfound := rfl
@[simp] theorem State.irq_cores (s : State) (fn : Option Nat) (v : Nat) : (s.irq fn v).cores = s.cores := rfl
@[simp] theorem State.irq_clusters (s : State) (fn : Option Nat) (v : Nat) : (s.irq fn v).clusters = s.clusters := rfl
@[simp] theorem State.irq_teams (s : State) (fn : Option Nat) (v : Nat) : (s.irq fn v).teams = s.teams := rfl
@[simp] theorem State.irq_blocks (s : State) (fn : Option Nat) (v : Nat) : (s.irq fn v).blocks = s.blocks := rfl
@[simp] theorem State.irq_tasks (s : State) (fn : Option Nat) (v : Nat) : (s.irq fn v).tasks = s.tasks := rfl
@[simp] theorem State.irq_nextKey (s : State) (fn : Option Nat) (v : Nat) : (s.irq fn v).nextKey = s.nextKey := rfl
@[simp] theorem State.irq_launches (s : State) (fn : Option Nat) (v : Nat) : (s.irq fn v).launches = s.launches := rfl
@[simp] theorem State.irq_nextLaunch (s : State) (fn : Option Nat) (v : Nat) : (s.irq fn v).nextLaunch = s.nextLaunch := rfl
@[simp] theorem State.irq_parts (s : State) (fn : Option Nat) (v : Nat) : (s.irq fn v).parts = s.parts := rfl
@[simp] theorem State.irq_domains (s : State) (fn : Option Nat) (v : Nat) : (s.irq fn v).domains = s.domains := rfl
@[simp] theorem State.irq_dieDom (s : State) (fn : Option Nat) (v : Nat) : (s.irq fn v).dieDom = s.dieDom := rfl
@[simp] theorem State.irq_edges (s : State) (fn : Option Nat) (v : Nat) : (s.irq fn v).edges = s.edges := rfl
@[simp] theorem State.irq_hwSlots (s : State) (fn : Option Nat) (v : Nat) : (s.irq fn v).hwSlots = s.hwSlots := rfl
@[simp] theorem State.irq_lastServed (s : State) (fn : Option Nat) (v : Nat) : (s.irq fn v).lastServed = s.lastServed := rfl
@[simp] theorem State.irq_hostRead (s : State) (fn : Option Nat) (v : Nat) : (s.irq fn v).hostRead = s.hostRead := rfl
@[simp] theorem State.irq_peers (s : State) (fn : Option Nat) (v : Nat) : (s.irq fn v).peers = s.peers := rfl
@[simp] theorem State.irq_outbox (s : State) (fn : Option Nat) (v : Nat) : (s.irq fn v).outbox = s.outbox := rfl
@[simp] theorem State.irq_peerShadows (s : State) (fn : Option Nat) (v : Nat) : (s.irq fn v).peerShadows = s.peerShadows := rfl
@[simp] theorem State.irq_boot (s : State) (fn : Option Nat) (v : Nat) : (s.irq fn v).boot = s.boot := rfl
@[simp] theorem State.irq_svn (s : State) (fn : Option Nat) (v : Nat) : (s.irq fn v).svn = s.svn := rfl
@[simp] theorem State.irq_fwImage (s : State) (fn : Option Nat) (v : Nat) : (s.irq fn v).fwImage = s.fwImage := rfl
@[simp] theorem State.irq_image (s : State) (fn : Option Nat) (v : Nat) : (s.irq fn v).image = s.image := rfl
@[simp] theorem State.irq_rails (s : State) (fn : Option Nat) (v : Nat) : (s.irq fn v).rails = s.rails := rfl
@[simp] theorem State.irq_pkgPwr (s : State) (fn : Option Nat) (v : Nat) : (s.irq fn v).pkgPwr = s.pkgPwr := rfl
@[simp] theorem State.irq_pkgThr (s : State) (fn : Option Nat) (v : Nat) : (s.irq fn v).pkgThr = s.pkgThr := rfl
@[simp] theorem State.irq_throttled (s : State) (fn : Option Nat) (v : Nat) : (s.irq fn v).throttled = s.throttled := rfl
@[simp] theorem State.irq_powers (s : State) (fn : Option Nat) (v : Nat) : (s.irq fn v).powers = s.powers := rfl
@[simp] theorem State.irq_railAt (s : State) (fn : Option Nat) (v : Nat) : (s.irq fn v).railAt = s.railAt := rfl
@[simp] theorem State.irq_alignAt (s : State) (fn : Option Nat) (v : Nat) : (s.irq fn v).alignAt = s.alignAt := rfl
@[simp] theorem State.irq_slew (s : State) (fn : Option Nat) (v : Nat) : (s.irq fn v).slew = s.slew := rfl
@[simp] theorem State.irq_tsyncErr (s : State) (fn : Option Nat) (v : Nat) : (s.irq fn v).tsyncErr = s.tsyncErr := rfl
@[simp] theorem State.irq_tsyncPort (s : State) (fn : Option Nat) (v : Nat) : (s.irq fn v).tsyncPort = s.tsyncPort := rfl
@[simp] theorem State.irq_tsyncAlign (s : State) (fn : Option Nat) (v : Nat) : (s.irq fn v).tsyncAlign = s.tsyncAlign := rfl
@[simp] theorem State.irq_floors (s : State) (fn : Option Nat) (v : Nat) : (s.irq fn v).floors = s.floors := rfl
@[simp] theorem State.irq_peerAcc (s : State) (fn : Option Nat) (v : Nat) : (s.irq fn v).peerAcc = s.peerAcc := rfl
@[simp] theorem State.irq_cecnt (s : State) (fn : Option Nat) (v : Nat) : (s.irq fn v).cecnt = s.cecnt := rfl
@[simp] theorem State.irq_pfBox (s : State) (fn : Option Nat) (v : Nat) : (s.irq fn v).pfBox = s.pfBox := rfl
@[simp] theorem State.irq_core (s : State) (fn : Option Nat) (v : Nat) (j : Nat) : (s.irq fn v).core j = s.core j := rfl
@[simp] theorem State.irq_cluster (s : State) (fn : Option Nat) (v : Nat) (j : Nat) : (s.irq fn v).cluster j = s.cluster j := rfl
@[simp] theorem State.irq_team_q (s : State) (fn : Option Nat) (v : Nat) (j : Nat) : (s.irq fn v).team? j = s.team? j := rfl
@[simp] theorem State.irq_block_q (s : State) (fn : Option Nat) (v : Nat) (j : Nat) : (s.irq fn v).block? j = s.block? j := rfl
@[simp] theorem State.irq_task_q (s : State) (fn : Option Nat) (v : Nat) (j : Nat) : (s.irq fn v).task? j = s.task? j := rfl
@[simp] theorem State.irq_part (s : State) (fn : Option Nat) (v : Nat) (j : Nat) : (s.irq fn v).part j = s.part j := rfl
@[simp] theorem State.irq_edge (s : State) (fn : Option Nat) (v : Nat) (i j : Nat) : (s.irq fn v).edge i j = s.edge i j := rfl
@[simp] theorem State.irq_domain (s : State) (fn : Option Nat) (v : Nat) (j : Nat) : (s.irq fn v).domain j = s.domain j := rfl
@[simp] theorem State.irq_peek (s : State) (fn : Option Nat) (v : Nat) (a : Nat) : (s.irq fn v).peek a = s.peek a := rfl

/-! ## What `progress` leaves alone: it clears a count of a core, in a cycle that counts (R363) -/

@[simp] theorem State.progress_tick (s : State) (c p : Nat) : (s.progress c p).tick = s.tick := by
  unfold State.progress; split <;> rfl
@[simp] theorem State.progress_agenda (s : State) (c p : Nat) : (s.progress c p).agenda = s.agenda := by
  unfold State.progress; split <;> rfl
@[simp] theorem State.progress_cur (s : State) (c p : Nat) : (s.progress c p).cur = s.cur := by
  unfold State.progress; split <;> rfl
@[simp] theorem State.progress_moment (s : State) (c p : Nat) : (s.progress c p).moment = s.moment := by
  unfold State.progress; split <;> rfl
@[simp] theorem State.progress_fresh (s : State) (c p : Nat) : (s.progress c p).fresh = s.fresh := by
  unfold State.progress; split <;> rfl
@[simp] theorem State.progress_turn (s : State) (c p : Nat) : (s.progress c p).turn = s.turn := by
  unfold State.progress; split <;> rfl
@[simp] theorem State.progress_mem (s : State) (c p : Nat) : (s.progress c p).mem = s.mem := by
  unfold State.progress; split <;> rfl
@[simp] theorem State.progress_owners (s : State) (c p : Nat) : (s.progress c p).owners = s.owners := by
  unfold State.progress; split <;> rfl
@[simp] theorem State.progress_relSig (s : State) (c p : Nat) : (s.progress c p).relSig = s.relSig := by
  unfold State.progress; split <;> rfl
@[simp] theorem State.progress_poisoned (s : State) (c p : Nat) : (s.progress c p).poisoned = s.poisoned := by
  unfold State.progress; split <;> rfl
@[simp] theorem State.progress_unfound (s : State) (c p : Nat) : (s.progress c p).unfound = s.unfound := by
  unfold State.progress; split <;> rfl
@[simp] theorem State.progress_clusters (s : State) (c p : Nat) : (s.progress c p).clusters = s.clusters := by
  unfold State.progress; split <;> rfl
@[simp] theorem State.progress_teams (s : State) (c p : Nat) : (s.progress c p).teams = s.teams := by
  unfold State.progress; split <;> rfl
@[simp] theorem State.progress_blocks (s : State) (c p : Nat) : (s.progress c p).blocks = s.blocks := by
  unfold State.progress; split <;> rfl
@[simp] theorem State.progress_tasks (s : State) (c p : Nat) : (s.progress c p).tasks = s.tasks := by
  unfold State.progress; split <;> rfl
@[simp] theorem State.progress_nextKey (s : State) (c p : Nat) : (s.progress c p).nextKey = s.nextKey := by
  unfold State.progress; split <;> rfl
@[simp] theorem State.progress_launches (s : State) (c p : Nat) : (s.progress c p).launches = s.launches := by
  unfold State.progress; split <;> rfl
@[simp] theorem State.progress_nextLaunch (s : State) (c p : Nat) : (s.progress c p).nextLaunch = s.nextLaunch := by
  unfold State.progress; split <;> rfl
@[simp] theorem State.progress_parts (s : State) (c p : Nat) : (s.progress c p).parts = s.parts := by
  unfold State.progress; split <;> rfl
@[simp] theorem State.progress_domains (s : State) (c p : Nat) : (s.progress c p).domains = s.domains := by
  unfold State.progress; split <;> rfl
@[simp] theorem State.progress_dieDom (s : State) (c p : Nat) : (s.progress c p).dieDom = s.dieDom := by
  unfold State.progress; split <;> rfl
@[simp] theorem State.progress_edges (s : State) (c p : Nat) : (s.progress c p).edges = s.edges := by
  unfold State.progress; split <;> rfl
@[simp] theorem State.progress_hwSlots (s : State) (c p : Nat) : (s.progress c p).hwSlots = s.hwSlots := by
  unfold State.progress; split <;> rfl
@[simp] theorem State.progress_lastServed (s : State) (c p : Nat) : (s.progress c p).lastServed = s.lastServed := by
  unfold State.progress; split <;> rfl
@[simp] theorem State.progress_irqs (s : State) (c p : Nat) : (s.progress c p).irqs = s.irqs := by
  unfold State.progress; split <;> rfl
@[simp] theorem State.progress_hostRead (s : State) (c p : Nat) : (s.progress c p).hostRead = s.hostRead := by
  unfold State.progress; split <;> rfl
@[simp] theorem State.progress_peers (s : State) (c p : Nat) : (s.progress c p).peers = s.peers := by
  unfold State.progress; split <;> rfl
@[simp] theorem State.progress_outbox (s : State) (c p : Nat) : (s.progress c p).outbox = s.outbox := by
  unfold State.progress; split <;> rfl
@[simp] theorem State.progress_peerShadows (s : State) (c p : Nat) : (s.progress c p).peerShadows = s.peerShadows := by
  unfold State.progress; split <;> rfl
@[simp] theorem State.progress_boot (s : State) (c p : Nat) : (s.progress c p).boot = s.boot := by
  unfold State.progress; split <;> rfl
@[simp] theorem State.progress_svn (s : State) (c p : Nat) : (s.progress c p).svn = s.svn := by
  unfold State.progress; split <;> rfl
@[simp] theorem State.progress_fwImage (s : State) (c p : Nat) : (s.progress c p).fwImage = s.fwImage := by
  unfold State.progress; split <;> rfl
@[simp] theorem State.progress_image (s : State) (c p : Nat) : (s.progress c p).image = s.image := by
  unfold State.progress; split <;> rfl
@[simp] theorem State.progress_rails (s : State) (c p : Nat) : (s.progress c p).rails = s.rails := by
  unfold State.progress; split <;> rfl
@[simp] theorem State.progress_pkgPwr (s : State) (c p : Nat) : (s.progress c p).pkgPwr = s.pkgPwr := by
  unfold State.progress; split <;> rfl
@[simp] theorem State.progress_pkgThr (s : State) (c p : Nat) : (s.progress c p).pkgThr = s.pkgThr := by
  unfold State.progress; split <;> rfl
@[simp] theorem State.progress_throttled (s : State) (c p : Nat) : (s.progress c p).throttled = s.throttled := by
  unfold State.progress; split <;> rfl
@[simp] theorem State.progress_powers (s : State) (c p : Nat) : (s.progress c p).powers = s.powers := by
  unfold State.progress; split <;> rfl
@[simp] theorem State.progress_railAt (s : State) (c p : Nat) : (s.progress c p).railAt = s.railAt := by
  unfold State.progress; split <;> rfl
@[simp] theorem State.progress_alignAt (s : State) (c p : Nat) : (s.progress c p).alignAt = s.alignAt := by
  unfold State.progress; split <;> rfl
@[simp] theorem State.progress_slew (s : State) (c p : Nat) : (s.progress c p).slew = s.slew := by
  unfold State.progress; split <;> rfl
@[simp] theorem State.progress_tsyncErr (s : State) (c p : Nat) : (s.progress c p).tsyncErr = s.tsyncErr := by
  unfold State.progress; split <;> rfl
@[simp] theorem State.progress_tsyncPort (s : State) (c p : Nat) : (s.progress c p).tsyncPort = s.tsyncPort := by
  unfold State.progress; split <;> rfl
@[simp] theorem State.progress_tsyncAlign (s : State) (c p : Nat) : (s.progress c p).tsyncAlign = s.tsyncAlign := by
  unfold State.progress; split <;> rfl
@[simp] theorem State.progress_floors (s : State) (c p : Nat) : (s.progress c p).floors = s.floors := by
  unfold State.progress; split <;> rfl
@[simp] theorem State.progress_peerAcc (s : State) (c p : Nat) : (s.progress c p).peerAcc = s.peerAcc := by
  unfold State.progress; split <;> rfl
@[simp] theorem State.progress_cecnt (s : State) (c p : Nat) : (s.progress c p).cecnt = s.cecnt := by
  unfold State.progress; split <;> rfl
@[simp] theorem State.progress_pfBox (s : State) (c p : Nat) : (s.progress c p).pfBox = s.pfBox := by
  unfold State.progress; split <;> rfl
@[simp] theorem State.progress_cluster (s : State) (c p : Nat) (j : Nat) : (s.progress c p).cluster j = s.cluster j := by
  unfold State.progress; split <;> rfl
@[simp] theorem State.progress_team_q (s : State) (c p : Nat) (j : Nat) : (s.progress c p).team? j = s.team? j := by
  unfold State.progress; split <;> rfl
@[simp] theorem State.progress_block_q (s : State) (c p : Nat) (j : Nat) : (s.progress c p).block? j = s.block? j := by
  unfold State.progress; split <;> rfl
@[simp] theorem State.progress_task_q (s : State) (c p : Nat) (j : Nat) : (s.progress c p).task? j = s.task? j := by
  unfold State.progress; split <;> rfl
@[simp] theorem State.progress_part (s : State) (c p : Nat) (j : Nat) : (s.progress c p).part j = s.part j := by
  unfold State.progress; split <;> rfl
@[simp] theorem State.progress_edge (s : State) (c p : Nat) (i j : Nat) : (s.progress c p).edge i j = s.edge i j := by
  unfold State.progress; split <;> rfl
@[simp] theorem State.progress_domain (s : State) (c p : Nat) (j : Nat) : (s.progress c p).domain j = s.domain j := by
  unfold State.progress; split <;> rfl
@[simp] theorem State.progress_peek (s : State) (c p : Nat) (w : Nat) : (s.progress c p).peek w = s.peek w := by
  unfold State.progress; split <;> rfl

/-! ## What `finds` leaves alone: it raises vector 2 for errors met for the first time (R375) -/

@[simp] theorem State.finds_none (s : State) (f : Nat → Bool) (h : s.unfound = []) : s.finds f = s := by
  simp [State.finds, h]
@[simp] theorem State.finds_tick (s : State) (f : Nat → Bool) : (s.finds f).tick = s.tick := by
  unfold State.finds; split <;> rfl
@[simp] theorem State.finds_agenda (s : State) (f : Nat → Bool) : (s.finds f).agenda = s.agenda := by
  unfold State.finds; split <;> rfl
@[simp] theorem State.finds_cur (s : State) (f : Nat → Bool) : (s.finds f).cur = s.cur := by
  unfold State.finds; split <;> rfl
@[simp] theorem State.finds_moment (s : State) (f : Nat → Bool) : (s.finds f).moment = s.moment := by
  unfold State.finds; split <;> rfl
@[simp] theorem State.finds_fresh (s : State) (f : Nat → Bool) : (s.finds f).fresh = s.fresh := by
  unfold State.finds; split <;> rfl
@[simp] theorem State.finds_turn (s : State) (f : Nat → Bool) : (s.finds f).turn = s.turn := by
  unfold State.finds; split <;> rfl
@[simp] theorem State.finds_mem (s : State) (f : Nat → Bool) : (s.finds f).mem = s.mem := by
  unfold State.finds; split <;> rfl
@[simp] theorem State.finds_owners (s : State) (f : Nat → Bool) : (s.finds f).owners = s.owners := by
  unfold State.finds; split <;> rfl
@[simp] theorem State.finds_relSig (s : State) (f : Nat → Bool) : (s.finds f).relSig = s.relSig := by
  unfold State.finds; split <;> rfl
@[simp] theorem State.finds_poisoned (s : State) (f : Nat → Bool) : (s.finds f).poisoned = s.poisoned := by
  unfold State.finds; split <;> rfl
@[simp] theorem State.finds_cores (s : State) (f : Nat → Bool) : (s.finds f).cores = s.cores := by
  unfold State.finds; split <;> rfl
@[simp] theorem State.finds_clusters (s : State) (f : Nat → Bool) : (s.finds f).clusters = s.clusters := by
  unfold State.finds; split <;> rfl
@[simp] theorem State.finds_teams (s : State) (f : Nat → Bool) : (s.finds f).teams = s.teams := by
  unfold State.finds; split <;> rfl
@[simp] theorem State.finds_blocks (s : State) (f : Nat → Bool) : (s.finds f).blocks = s.blocks := by
  unfold State.finds; split <;> rfl
@[simp] theorem State.finds_tasks (s : State) (f : Nat → Bool) : (s.finds f).tasks = s.tasks := by
  unfold State.finds; split <;> rfl
@[simp] theorem State.finds_nextKey (s : State) (f : Nat → Bool) : (s.finds f).nextKey = s.nextKey := by
  unfold State.finds; split <;> rfl
@[simp] theorem State.finds_launches (s : State) (f : Nat → Bool) : (s.finds f).launches = s.launches := by
  unfold State.finds; split <;> rfl
@[simp] theorem State.finds_nextLaunch (s : State) (f : Nat → Bool) : (s.finds f).nextLaunch = s.nextLaunch := by
  unfold State.finds; split <;> rfl
@[simp] theorem State.finds_parts (s : State) (f : Nat → Bool) : (s.finds f).parts = s.parts := by
  unfold State.finds; split <;> rfl
@[simp] theorem State.finds_domains (s : State) (f : Nat → Bool) : (s.finds f).domains = s.domains := by
  unfold State.finds; split <;> rfl
@[simp] theorem State.finds_dieDom (s : State) (f : Nat → Bool) : (s.finds f).dieDom = s.dieDom := by
  unfold State.finds; split <;> rfl
@[simp] theorem State.finds_edges (s : State) (f : Nat → Bool) : (s.finds f).edges = s.edges := by
  unfold State.finds; split <;> rfl
@[simp] theorem State.finds_hwSlots (s : State) (f : Nat → Bool) : (s.finds f).hwSlots = s.hwSlots := by
  unfold State.finds; split <;> rfl
@[simp] theorem State.finds_lastServed (s : State) (f : Nat → Bool) : (s.finds f).lastServed = s.lastServed := by
  unfold State.finds; split <;> rfl
@[simp] theorem State.finds_hostRead (s : State) (f : Nat → Bool) : (s.finds f).hostRead = s.hostRead := by
  unfold State.finds; split <;> rfl
@[simp] theorem State.finds_peers (s : State) (f : Nat → Bool) : (s.finds f).peers = s.peers := by
  unfold State.finds; split <;> rfl
@[simp] theorem State.finds_outbox (s : State) (f : Nat → Bool) : (s.finds f).outbox = s.outbox := by
  unfold State.finds; split <;> rfl
@[simp] theorem State.finds_peerShadows (s : State) (f : Nat → Bool) : (s.finds f).peerShadows = s.peerShadows := by
  unfold State.finds; split <;> rfl
@[simp] theorem State.finds_boot (s : State) (f : Nat → Bool) : (s.finds f).boot = s.boot := by
  unfold State.finds; split <;> rfl
@[simp] theorem State.finds_svn (s : State) (f : Nat → Bool) : (s.finds f).svn = s.svn := by
  unfold State.finds; split <;> rfl
@[simp] theorem State.finds_fwImage (s : State) (f : Nat → Bool) : (s.finds f).fwImage = s.fwImage := by
  unfold State.finds; split <;> rfl
@[simp] theorem State.finds_image (s : State) (f : Nat → Bool) : (s.finds f).image = s.image := by
  unfold State.finds; split <;> rfl
@[simp] theorem State.finds_rails (s : State) (f : Nat → Bool) : (s.finds f).rails = s.rails := by
  unfold State.finds; split <;> rfl
@[simp] theorem State.finds_pkgPwr (s : State) (f : Nat → Bool) : (s.finds f).pkgPwr = s.pkgPwr := by
  unfold State.finds; split <;> rfl
@[simp] theorem State.finds_pkgThr (s : State) (f : Nat → Bool) : (s.finds f).pkgThr = s.pkgThr := by
  unfold State.finds; split <;> rfl
@[simp] theorem State.finds_throttled (s : State) (f : Nat → Bool) : (s.finds f).throttled = s.throttled := by
  unfold State.finds; split <;> rfl
@[simp] theorem State.finds_powers (s : State) (f : Nat → Bool) : (s.finds f).powers = s.powers := by
  unfold State.finds; split <;> rfl
@[simp] theorem State.finds_railAt (s : State) (f : Nat → Bool) : (s.finds f).railAt = s.railAt := by
  unfold State.finds; split <;> rfl
@[simp] theorem State.finds_alignAt (s : State) (f : Nat → Bool) : (s.finds f).alignAt = s.alignAt := by
  unfold State.finds; split <;> rfl
@[simp] theorem State.finds_slew (s : State) (f : Nat → Bool) : (s.finds f).slew = s.slew := by
  unfold State.finds; split <;> rfl
@[simp] theorem State.finds_tsyncErr (s : State) (f : Nat → Bool) : (s.finds f).tsyncErr = s.tsyncErr := by
  unfold State.finds; split <;> rfl
@[simp] theorem State.finds_tsyncPort (s : State) (f : Nat → Bool) : (s.finds f).tsyncPort = s.tsyncPort := by
  unfold State.finds; split <;> rfl
@[simp] theorem State.finds_tsyncAlign (s : State) (f : Nat → Bool) : (s.finds f).tsyncAlign = s.tsyncAlign := by
  unfold State.finds; split <;> rfl
@[simp] theorem State.finds_floors (s : State) (f : Nat → Bool) : (s.finds f).floors = s.floors := by
  unfold State.finds; split <;> rfl
@[simp] theorem State.finds_peerAcc (s : State) (f : Nat → Bool) : (s.finds f).peerAcc = s.peerAcc := by
  unfold State.finds; split <;> rfl
@[simp] theorem State.finds_cecnt (s : State) (f : Nat → Bool) : (s.finds f).cecnt = s.cecnt := by
  unfold State.finds; split <;> rfl
@[simp] theorem State.finds_pfBox (s : State) (f : Nat → Bool) : (s.finds f).pfBox = s.pfBox := by
  unfold State.finds; split <;> rfl
@[simp] theorem State.finds_core (s : State) (f : Nat → Bool) (j : Nat) : (s.finds f).core j = s.core j := by
  unfold State.finds; split <;> rfl
@[simp] theorem State.finds_cluster (s : State) (f : Nat → Bool) (j : Nat) : (s.finds f).cluster j = s.cluster j := by
  unfold State.finds; split <;> rfl
@[simp] theorem State.finds_team_q (s : State) (f : Nat → Bool) (j : Nat) : (s.finds f).team? j = s.team? j := by
  unfold State.finds; split <;> rfl
@[simp] theorem State.finds_block_q (s : State) (f : Nat → Bool) (j : Nat) : (s.finds f).block? j = s.block? j := by
  unfold State.finds; split <;> rfl
@[simp] theorem State.finds_task_q (s : State) (f : Nat → Bool) (j : Nat) : (s.finds f).task? j = s.task? j := by
  unfold State.finds; split <;> rfl
@[simp] theorem State.finds_part (s : State) (f : Nat → Bool) (j : Nat) : (s.finds f).part j = s.part j := by
  unfold State.finds; split <;> rfl
@[simp] theorem State.finds_edge (s : State) (f : Nat → Bool) (i j : Nat) : (s.finds f).edge i j = s.edge i j := by
  unfold State.finds; split <;> rfl
@[simp] theorem State.finds_domain (s : State) (f : Nat → Bool) (j : Nat) : (s.finds f).domain j = s.domain j := by
  unfold State.finds; split <;> rfl
@[simp] theorem State.finds_peek (s : State) (f : Nat → Bool) (w : Nat) : (s.finds f).peek w = s.peek w := by
  unfold State.finds; split <;> rfl
@[simp] theorem State.findsAt_peek (s : State) (loc n w : Nat) : (s.findsAt loc n).peek w = s.peek w := State.finds_peek ..
@[simp] theorem State.findsAt_part (s : State) (loc n p : Nat) : (s.findsAt loc n).part p = s.part p := State.finds_part ..

end Sys2Proof.Machine
end

