-- ==== Sys2Proof/Laws/Memory.lean ====
section
/-! SUPPORT. Sys2Proof/Laws/Memory.lean: the canonical form of device memory and what its operations do: a byte reads as it was
written, every other as before, and each operation keeps the form. -/
namespace Sys2Proof.Machine

/-! ## Bytes -/

@[simp] theorem Memory.get_put_self (m : List Host.Cell) (a : Nat) (b : Byte) (lo : Nat) (h : Memory.wfAbove lo m = true) :
    Memory.get (Memory.put m a b) a = b := by
  induction m generalizing lo with
  | nil => by_cases hb : b = Config.powerOnByte <;> simp [Memory.put, Memory.get, hb]
  | cons e t ih =>
    obtain ⟨k, v⟩ := e
    simp only [Memory.wfAbove, Bool.and_eq_true, decide_eq_true_eq] at h
    simp only [Memory.put]
    have low : ∀ (l : List Host.Cell) (n : Nat), Memory.wfAbove n l = true → a < n → Memory.get l a = Config.powerOnByte := by
      intro l
      induction l with
      | nil => intro n _ _; rfl
      | cons f l ihl =>
        intro n hw hn
        simp only [Memory.wfAbove, Bool.and_eq_true, decide_eq_true_eq] at hw
        rw [Memory.get, if_neg (by omega)]
        exact ihl _ hw.2 (by omega)
    split
    · rename_i hk
      subst hk
      split
      · rename_i hb
        rw [hb]
        exact low t _ h.2 (by omega)
      · simp [Memory.get]
    · split
      · split
        · rename_i hb
          rw [hb, Memory.get, if_neg ‹_›]
          exact low t _ h.2 (by omega)
        · simp [Memory.get]
      · rw [Memory.get, if_neg ‹_›]
        exact ih _ h.2

theorem Memory.get_put_ne (m : List Host.Cell) {a j : Nat} (b : Byte) (h : j ≠ a) :
    Memory.get (Memory.put m a b) j = Memory.get m j := by
  induction m with
  | nil => by_cases hb : b = Config.powerOnByte <;> simp [Memory.put, Memory.get, hb, Ne.symm h]
  | cons e t ih =>
    obtain ⟨k, v⟩ := e
    simp only [Memory.put]
    split
    · rename_i hk
      subst hk
      split <;> simp [Memory.get, Ne.symm h]
    · split
      · split <;> simp [Memory.get, Ne.symm h]
      · simp [Memory.get, ih]

/-! ## The canonical form -/

theorem Memory.wfAbove_mono {m : List Host.Cell} {lo hi : Nat} (h : Memory.wfAbove hi m = true) (le : lo ≤ hi) :
    Memory.wfAbove lo m = true := by
  cases m with
  | nil => rfl
  | cons e t =>
    simp only [Memory.wfAbove, Bool.and_eq_true, decide_eq_true_eq] at h ⊢
    exact ⟨⟨by omega, h.1.2⟩, h.2⟩

theorem Memory.wfAbove_put {m : List Host.Cell} {lo a : Nat} {b : Byte} (h : Memory.wfAbove lo m = true) (le : lo ≤ a) :
    Memory.wfAbove lo (Memory.put m a b) = true := by
  induction m generalizing lo with
  | nil =>
    by_cases hb : b = Config.powerOnByte <;> simp [Memory.put, Memory.wfAbove, hb, le]
  | cons e t ih =>
    obtain ⟨k, v⟩ := e
    simp only [Memory.wfAbove, Bool.and_eq_true, decide_eq_true_eq, bne_iff_ne] at h
    simp only [Memory.put]
    split
    · rename_i hk
      subst hk
      split
      · exact Memory.wfAbove_mono h.2 (by omega)
      · simp [Memory.wfAbove, h.2, *]
    · split
      · split
        · simp [Memory.wfAbove, h]
        · rename_i ha hb
          simp only [Memory.wfAbove, Bool.and_eq_true, decide_eq_true_eq, bne_iff_ne]
          exact ⟨⟨le, hb⟩, ⟨by omega, h.1.2⟩, h.2⟩
      · simp only [Memory.wfAbove, Bool.and_eq_true, decide_eq_true_eq, bne_iff_ne]
        exact ⟨h.1, ih h.2 (by omega)⟩

theorem Memory.wf_put {m : List Host.Cell} (a : Nat) (b : Byte) (h : Memory.wf m = true) :
    Memory.wf (Memory.put m a b) = true := Memory.wfAbove_put h (Nat.zero_le a)

theorem Memory.wf_putBytes {m : List Host.Cell} (a : Nat) (l : List Byte) (h : Memory.wf m = true) :
    Memory.wf (Memory.putBytes m a l) = true := by
  induction l generalizing m a with
  | nil => exact h
  | cons b t ih => exact ih _ (Memory.wf_put a b h)

theorem Memory.wf_setWord {m : List Host.Cell} (w : Nat) (v : Word) (h : Memory.wf m = true) :
    Memory.wf (Memory.setWord m w v) = true := Memory.wf_putBytes _ _ h

/-! ## Words -/

theorem Memory.get_putBytes_ne (m : List Host.Cell) (l : List Byte) {a j : Nat} (h : j < a ∨ a + l.length ≤ j) :
    Memory.get (Memory.putBytes m a l) j = Memory.get m j := by
  induction l generalizing m a with
  | nil => rfl
  | cons b t ih =>
    simp only [List.length_cons] at h
    rw [Memory.putBytes, ih _ (by omega), Memory.get_put_ne _ _ (by omega)]

theorem Memory.word_setWord_ne (m : List Host.Cell) {w j : Nat} (v : Word) (h : j ≠ w) :
    Memory.word (Memory.setWord m w v) j = Memory.word m j := by
  have e : ∀ i ∈ List.range 4, Memory.get (Memory.setWord m w v) (4 * j + i) = Memory.get m (4 * j + i) := by
    intro i hi
    simp only [List.mem_range] at hi
    exact Memory.get_putBytes_ne m _ (by simp [bytesOf]; omega)
  simp only [Memory.word, List.map_congr_left e]

/-! ## The whole memory of a state -/

/-- Tables with an invariant on each value keep it under a write of such a value. -/
theorem Tab.all_set {α : Type} {p : α → Bool} (t : Tab α) (i : Nat) (x : α) (h : t.all (fun e => p e.2) = true)
    (hx : p x = true) : (Tab.set t i x).all (fun e => p e.2) = true := by
  induction t with
  | nil => simp [Tab.set, hx]
  | cons e t ih =>
    obtain ⟨k, v⟩ := e
    simp only [List.all_cons, Bool.and_eq_true] at h
    simp only [Tab.set]
    split
    · simp [hx, h.2]
    · split
      · simp [hx, h.1, h.2]
      · simp [h.1, ih h.2]

theorem Tab.all_get {α : Type} {p : α → Bool} (t : Tab α) (d : α) (i : Nat) (h : t.all (fun e => p e.2) = true)
    (hd : p d = true) : p (Tab.get t d i) = true := by
  induction t with
  | nil => exact hd
  | cons e t ih =>
    obtain ⟨k, v⟩ := e
    simp only [List.all_cons, Bool.and_eq_true] at h
    simp only [Tab.get, Tab.get?]
    split
    · exact h.1
    · exact ih h.2

theorem State.memoryWf_poke {s : State} (w : Nat) (v : Word) (h : s.memoryWf = true) : (s.poke w v).memoryWf = true := by
  simp only [State.memoryWf, Bool.and_eq_true] at h ⊢
  unfold State.poke
  split
  · exact ⟨Memory.wf_setWord _ _ h.1, h.2⟩
  · refine ⟨h.1, ?_⟩
    apply Tab.all_set (p := fun x : Peer => Memory.wf x.mem) _ _ _ h.2
    exact Memory.wf_setWord _ _ (Tab.all_get (p := fun e : Peer => Memory.wf e.mem) _ _ _ h.2 rfl)

/-- Marking a word in error changes no byte. -/
theorem State.memoryWf_keepPoison {s : State} (old : State) (w : Nat) (h : s.memoryWf = true) :
    (s.keepPoison old w).memoryWf = true := by
  unfold State.keepPoison
  split <;> exact h

theorem State.memoryWf_pokeByte {s : State} (a : Nat) (b : Byte) (h : s.memoryWf = true) :
    (s.pokeByte a b).memoryWf = true := State.memoryWf_keepPoison _ _ (State.memoryWf_poke _ _ h)

/-- Folding steps that keep the form keeps it. -/
theorem State.memoryWf_foldl {α : Type} (f : State → α → State) (hf : ∀ s a, s.memoryWf = true → (f s a).memoryWf = true)
    (l : List α) {s : State} (h : s.memoryWf = true) : (l.foldl f s).memoryWf = true := by
  induction l generalizing s with
  | nil => exact h
  | cons a t ih => exact ih (hf s a h)

/-- An update that leaves memory and peers alone keeps the form. -/
theorem State.memoryWf_of_same {s s' : State} (hm : s'.mem = s.mem) (hp : s'.peers = s.peers) (h : s.memoryWf = true) :
    s'.memoryWf = true := by
  simpa [State.memoryWf, hm, hp] using h

theorem State.memoryWf_pokeBytes {s : State} (a : Nat) (l : List Byte) (h : s.memoryWf = true) :
    (s.pokeBytes a l).memoryWf = true :=
  State.memoryWf_of_same (by rfl) (by rfl)
    (State.memoryWf_foldl _ (fun s _ hs => State.memoryWf_pokeByte (s := s) _ _ hs) (bytesAt a l) h)

/-! ## Caches and the registration of stores -/

@[simp] theorem State.onCaches_mem (s : State) (c : Nat) (f : Tab Line → Tab Line) : (s.onCaches c f).mem = s.mem := rfl
@[simp] theorem State.onCaches_peers (s : State) (c : Nat) (f : Tab Line → Tab Line) : (s.onCaches c f).peers = s.peers := rfl
@[simp] theorem State.onCaches_blocks (s : State) (c : Nat) (f : Tab Line → Tab Line) : (s.onCaches c f).blocks = s.blocks := rfl

/-- An acquire changes caches and nothing else (R246). -/
theorem State.acquire_frame (s : State) (c : Nat) (g : Sig) :
    s.acquire c g = { s with cores := (s.acquire c g).cores, clusters := (s.acquire c g).clusters } := by
  unfold State.acquire
  by_cases h : g == 0 <;> simp only [h] <;> rfl

/-- Bringing words from their homes changes no home. -/
theorem State.memoryWf_refreshCore {s : State} (c : Nat) (ws : List Nat) (h : s.memoryWf = true) :
    (s.refreshCore c ws).memoryWf = true := by
  refine State.memoryWf_foldl _ (fun s w hs => ?_) _ h
  by_cases hp : (Tab.get? s.poisoned w).isSome = true <;> simp only [hp, if_true]
  · exact hs
  · exact State.memoryWf_of_same (by rfl) (by rfl) hs

theorem State.memoryWf_registerWord {s : State} (c task w : Nat) (v : Word) (rel : Option Sig) (h : s.memoryWf = true) :
    (s.registerWord c task w v rel).memoryWf = true := by
  have hs : (s.shadowWord task w).memoryWf = true := by
    unfold State.shadowWord
    split
    · exact h
    · exact State.memoryWf_of_same (by rfl) (by rfl) h
  exact State.memoryWf_of_same (s := (s.shadowWord task w).poke w v) (by rfl) (by rfl) (State.memoryWf_poke w v hs)

theorem State.memoryWf_registerStore {s : State} (c : Nat) (p : PStore) (younger : List PStore) (h : s.memoryWf = true) :
    (s.registerStore c p younger).memoryWf = true := by
  unfold State.registerStore
  refine State.memoryWf_of_same (s := State.refreshCore _ c _) (by rfl) (by rfl) (State.memoryWf_refreshCore _ _ ?_)
  refine State.memoryWf_foldl _ (fun s e hs => ?_) _ h
  have h1 := State.memoryWf_registerWord c p.task e.1 e.2 p.rel hs
  dsimp only
  split <;> exact State.memoryWf_of_same (s := s.registerWord c p.task e.1 e.2 p.rel) (by rfl) (by rfl) h1

theorem memoryWf_registerAll (c : Nat) (rest l : List PStore) {s : State} (h : s.memoryWf = true) :
    (registerAll c rest l s).memoryWf = true := by
  induction l generalizing s with
  | nil => exact h
  | cons p t ih => exact ih (State.memoryWf_registerStore _ _ _ h)

/-- Registering any of a core's stores keeps the form: a release, an ordered access, a line that leaves a cache (R243, R244). -/
theorem State.memoryWf_registerIf {s : State} (c : Nat) (f : PStore → Bool) (h : s.memoryWf = true) :
    (s.registerIf c f).memoryWf = true :=
  memoryWf_registerAll _ _ _ (State.memoryWf_of_same (s := s) (by rfl) (by rfl) h)

theorem State.memoryWf_flushL2 {s : State} (cl : Nat) (f : Nat → Bool) (ws : List Nat) (h : s.memoryWf = true) :
    (s.flushL2 cl f ws).memoryWf = true := by
  refine State.memoryWf_foldl _ (fun s w hs => ?_) _ h
  split
  · split
    · exact State.memoryWf_registerIf _ _ hs
    · exact hs
  · exact hs

theorem State.memoryWf_release {s : State} (k : Nat) (h : s.memoryWf = true) : (s.release k).memoryWf = true :=
  State.memoryWf_registerIf _ _ h
theorem State.memoryWf_ordered {s : State} (k : Nat) (ws : List Nat) (h : s.memoryWf = true) : (s.ordered k ws).memoryWf = true :=
  State.memoryWf_flushL2 _ _ _ (State.memoryWf_registerIf _ _ h)
theorem State.memoryWf_acquire {s : State} (c : Nat) (g : Sig) (h : s.memoryWf = true) : (s.acquire c g).memoryWf = true := by
  rw [State.acquire_frame]
  exact State.memoryWf_of_same (s := s) (by rfl) (by rfl) h

end Sys2Proof.Machine
end

