-- ==== Sys2Proof/Laws/Ops.lean ====
section
/-! SUPPORT. Sys2Proof/Laws/Ops.lean: what the shared operations over a team do: the sweep of a whole instruction, its
completion, and the two frames, each said once. -/
namespace Sys2Proof.Machine

/-! ## Masks -/

theorem maskSpan_getLsbD (m : Mask) (lo hi i : Nat) :
    (maskSpan m lo hi).getLsbD i = (m.getLsbD i && decide (i < 32 * hi) && !decide (i < 32 * lo) && decide (i < 1024)) := by
  have below : ∀ n, (lanesBelow n).getLsbD i = (decide (i < n) && decide (i < 1024)) := by
    intro n
    simp only [lanesBelow, BitVec.getLsbD_ofNat, Nat.testBit_two_pow_sub_one]
    rw [Bool.and_comm]
  simp only [maskSpan, BitVec.getLsbD_and, BitVec.getLsbD_not, below]
  by_cases h : i < 1024
  · simp [h]
  · simp [h, BitVec.getLsbD_of_ge m i (by omega)]

/-- Nothing lies between a word and itself. -/
@[simp] theorem maskSpan_empty (m : Mask) (w : Nat) : maskSpan m w w = 0#1024 := by
  apply BitVec.eq_of_getLsbD_eq
  intro i _
  rw [maskSpan_getLsbD]
  simp

/-- A lane of an acting instruction is active. -/
theorem acts.active {p : Pre} {t : Team} (h : acts p t) : t.active ≠ 0#1024 := by
  intro h0
  apply h
  simp [Team.guarded, h0]

/-! ## The sweep -/

theorem flagUnion_zero (l : List Nat) : flagUnion l (fun _ => 0) = 0 := by
  have : ∀ g : Flags, l.foldl (fun a _ => a ||| (0 : Flags)) g = g := by
    induction l with
    | nil => intro g; rfl
    | cons x l ih =>
      intro g
      rw [List.foldl_cons, ih]
      exact BitVec.or_zero
  exact this 0

/-- Lanes that raise no flag change nothing. -/
theorem raiseFlags_zero (t : Team) (m : Mask) : raiseFlags t m (fun _ => 0) = { t := t, traps := 0, flg := 0 } := by
  have hz : ∀ x : Flags, ((0 : Flags) &&& x) = 0 := fun x => BitVec.zero_and
  have ht : t.fflags ||| (0 : Flags).setWidth 32 = t.fflags := BitVec.or_zero
  simp only [raiseFlags, hz, flagUnion_zero, ht, bne_self_eq_false]
  rw [List.filter_eq_nil_iff.2 (by simp)]
  rfl

/-- An instruction not yet begun and not to be stopped performs every pass now; no pass comes next. -/
theorem Team.sweepSpan_whole {t : Team} (act : Mask) (hi : t.intr = none) (hs : t.stopAt = none) :
    t.sweepSpan act = (0, t.words) := by simp [Team.sweepSpan, hi, hs]
theorem Team.nextPass_whole {t : Team} (act : Mask) (hi : t.intr = none) (hs : t.stopAt = none) : t.nextPass act = none := by
  simp [Team.nextPass, Team.sweepSpan_whole act hi hs, passesOf, maskWord]

theorem sweep_ok (k : Nat) (act : Mask) (slots : List (Nat × Slot)) (t : Team) (s : State)
    (f : Mask → Team → State → Act (Team × State × (Nat → Flags))) (hi : t.intr = none) (hs : t.stopAt = none)
    (u : Team) (s' : State) (fl : Nat → Flags) (hf : f (maskSpan act 0 t.words) t s = .ok (u, s', fl))
    (hu : u.intr = none) :
    sweep k act slots t s f =
      .ok { t := (raiseFlags u (maskSpan act 0 t.words) fl).t, s := s',
            traps := (raiseFlags u (maskSpan act 0 t.words) fl).traps,
            cause := causeFloat (raiseFlags u (maskSpan act 0 t.words) fl).flg } := by
  have hm : ∀ x : Mask, x ||| 0 = x := fun _ => BitVec.or_zero
  have hg : ∀ x : Flags, x ||| 0 = x := fun _ => BitVec.or_zero
  simp only [sweep, Team.sweepSpan_whole act hi hs, Team.nextPass_whole act hi hs, hf, hu, bind, Except.bind, pure,
    Except.pure, hm, hg]

theorem sweep_error (k : Nat) (act : Mask) (slots : List (Nat × Slot)) (t : Team) (s : State)
    (f : Mask → Team → State → Act (Team × State × (Nat → Flags))) (hi : t.intr = none) (hs : t.stopAt = none) (e : Stop)
    (hf : f (maskSpan act 0 t.words) t s = .error e) : sweep k act slots t s f = .error e := by
  simp only [sweep, Team.sweepSpan_whole act hi hs, hf, bind, Except.bind]

/-- The same for an instruction on registers: all its passes, no flag, no trap. -/
theorem sweepRegs_ok (k : Nat) (act : Mask) (slots : List (Nat × Slot)) (t : Team) (s : State) (f : Mask → Team → Team)
    (hi : t.intr = none) (hs : t.stopAt = none) (hu : (f (maskSpan act 0 t.words) t).intr = none) :
    sweepRegs k act slots t s f =
      .ok { t := f (maskSpan act 0 t.words) t, s := s, traps := 0, cause := causeFloat 0 } := by
  unfold sweepRegs
  rw [sweep_ok k act slots t s _ hi hs _ s (fun _ => 0) rfl hu, raiseFlags_zero]

/-! ## Completion -/

/-- A completed instruction that traps no lane and leaves lanes active goes on at its next word. -/
theorem complete_next (k : Nat) (p : Pre) (told : Team) (t : Team) (s : State) (hact : t.active ≠ 0#1024)
    (hpart : t.part = told.part) (hpc : t.pc = told.pc) (hb : (s.part told.part).breaksAt told.pc = false) :
    complete k p told { t := t, s := s } = .ok (s.retire k p t) := by
  have hb' : (((s.updPart told.part (fun p => { p with instr := p.instr + 1 })).progress (coreOf k) told.part).part
      told.part).breaksAt told.pc = false := by
    simpa [Part.breaksAt] using hb
  simp only [complete, joinTraps, Option.getD_none, State.retire, State.retireAt, Team.after, hpart, hb', hpc,
    BEq.rfl, if_true, bne_self_eq_false, Bool.or_false, Bool.false_eq_true, if_false]
  rw [if_neg (by simp [hact])]
  rfl

/-- The same for a transfer of control: the run ends (R43). -/
theorem complete_jump (k : Nat) (p : Pre) (told : Team) (t : Team) (s : State) (pc : DWord) (hact : t.active ≠ 0#1024)
    (hpart : t.part = told.part) (hb : (s.part told.part).breaksAt told.pc = false) :
    complete k p told { t := t, s := s, pc := some pc } = .ok (s.retireAt k t pc (p.run || pc != told.pc + 8)) := by
  have hb' : (((s.updPart told.part (fun p => { p with instr := p.instr + 1 })).progress (coreOf k) told.part).part
      told.part).breaksAt told.pc = false := by
    simpa [Part.breaksAt] using hb
  simp only [complete, joinTraps, Option.getD_some, State.retireAt, Team.after, hpart, hb',
    BEq.rfl, if_true, Bool.false_eq_true, if_false]
  rw [if_neg (by simp [hact])]
  rfl

/-! ## The two frames -/

@[simp] theorem tokensPending_nil (t : Team) (l : List Nat) (h : t.pendTok = []) : t.tokensPending l = [] := by
  simp [Team.tokensPending, h]
theorem readTokens_nil (k : Nat) (l : List Nat) (t : Team) (s : State) (h : t.tokSig = []) : readTokens k l t s = (t, s) := by
  have : l.any (fun i => (Tab.get? t.tokSig i).isSome) = false := by
    simp [h, Tab.get?]
  simp [readTokens, this]

/-- An instruction that issues from its beginning, passes its checks and acts on some lane runs its body, and completes. -/
theorem issueWith_body {s : State} {k : Nat} {t : Team} (hi : Issues s k t) (p : Pre) (r : Scalars)
    (check : Nat → Team → State → Act Unit) (act : Team → Mask) (body : Nat → Mask → Team → State → Act Done)
    (hc : check k t s = .ok ()) (ha : act t ≠ 0#1024) :
    issueWith p r check act body s = .next (settle k t s (do
      let d ← body k (act t) t s
      match complete k p t d with
      | .error (.wait _ w) => .error (.wait s w)
      | r => r)) := by
  have ht : { t with tokSig := t.tokSig.filter (fun e => !r.writes.contains e.1) } = t := by
    rw [hi.noUnread, List.filter_nil, ← hi.noUnread]
  simp only [issueWith, hi.cur, hi.here, hc, bind, Except.bind]
  rw [if_neg (by simp [ha])]
  simp only [tokensPending_nil t _ hi.noPending, readTokens_nil k _ t s hi.noUnread, ht]
  rfl

/-- A body that answers a team going on at its next word retires. -/
theorem issueWith_done {s : State} {k : Nat} {t : Team} (hi : Issues s k t) (p : Pre) (r : Scalars)
    (check : Nat → Team → State → Act Unit) (act : Team → Mask) (body : Nat → Mask → Team → State → Act Done)
    (u : Team) (s' : State) (hc : check k t s = .ok ()) (ha : act t ≠ 0#1024)
    (hb : body k (act t) t s = .ok { t := u, s := s' }) (hact : u.active ≠ 0#1024) (hpart : u.part = t.part)
    (hpc : u.pc = t.pc) (hk : (s'.part t.part).breaksAt t.pc = false) :
    issueWith p r check act body s = .next (s'.retire k p u) := by
  rw [issueWith_body hi p r check act body hc ha, hb]
  simp only [bind, Except.bind, complete_next k p t u s' hact hpart hpc hk, settle]

/-- The same for a transfer of control. -/
theorem issueWith_jump {s : State} {k : Nat} {t : Team} (hi : Issues s k t) (p : Pre) (r : Scalars)
    (check : Nat → Team → State → Act Unit) (act : Team → Mask) (body : Nat → Mask → Team → State → Act Done)
    (u : Team) (s' : State) (pc : DWord) (hc : check k t s = .ok ()) (ha : act t ≠ 0#1024)
    (hb : body k (act t) t s = .ok { t := u, s := s', pc := some pc }) (hact : u.active ≠ 0#1024) (hpart : u.part = t.part)
    (hk : (s'.part t.part).breaksAt t.pc = false) :
    issueWith p r check act body s = .next (s'.retireAt k u pc (p.run || pc != t.pc + 8)) := by
  rw [issueWith_body hi p r check act body hc ha, hb]
  simp only [bind, Except.bind, complete_jump k p t u s' pc hact hpart hk, settle]

/-- A check or a body that faults raises the fault: the team stops, the part goes on (R335). -/
theorem issueWith_check_fault {s : State} {k : Nat} {t : Team} (hi : Issues s k t) (p : Pre) (r : Scalars)
    (check : Nat → Team → State → Act Unit) (act : Team → Mask) (body : Nat → Mask → Team → State → Act Done)
    (c d : Nat) (a : DWord) (e : Option (Nat × Nat)) (hc : check k t s = .error (.fault c d a e)) :
    issueWith p r check act body s = .next (s.raise k t c d a e) := by
  simp only [issueWith, hi.cur, hi.here, hc, bind, Except.bind, settle]

/-- With no lane to act on an instruction completes with no effect (R76). -/
theorem issueWith_idle {s : State} {k : Nat} {t : Team} (hi : Issues s k t) (p : Pre) (r : Scalars)
    (check : Nat → Team → State → Act Unit) (act : Team → Mask) (body : Nat → Mask → Team → State → Act Done)
    (hc : check k t s = .ok ()) (ha : act t = 0#1024) (hact : t.active ≠ 0#1024) :
    issueWith p r check act body s = .next (s.retire k p t) := by
  simp only [issueWith, hi.cur, hi.here, hc, bind, Except.bind]
  rw [if_pos (by simp [ha, hi.first])]
  simp only [complete_next k p t t s hact rfl rfl hi.noBreak, settle]

/-- A per-team instruction retires with its effect. -/
theorem perTeam_done {s : State} {k : Nat} {t : Team} (hi : Issues s k t) (p : Pre) (r : Scalars)
    (check : Nat → Team → State → Act Unit) (body : Nat → Team → State → Act Done) (u : Team) (s' : State)
    (hc : check k t s = .ok ()) (ha : acts p t) (hb : body k t s = .ok { t := u, s := s' })
    (hact : u.active = t.active) (hpart : u.part = t.part) (hpc : u.pc = t.pc)
    (hk : (s'.part t.part).breaksAt t.pc = false) :
    perTeam p r check body s = .next (s'.retire k p u) :=
  issueWith_done hi p r check _ _ u s' hc ha hb (by rw [hact]; exact ha.active) hpart hpc hk

/-- A lane-acting instruction retires with its effect. -/
theorem perLane_done {s : State} {k : Nat} {t : Team} (hi : Issues s k t) (p : Pre) (r : Scalars)
    (check : Nat → Team → State → Act Unit) (body : Nat → Mask → Team → State → Act Done) (u : Team) (s' : State)
    (hc : check k t s = .ok ()) (ha : acts p t) (hb : body k (t.guarded p) t s = .ok { t := u, s := s' })
    (hact : u.active = t.active) (hpart : u.part = t.part) (hpc : u.pc = t.pc)
    (hk : (s'.part t.part).breaksAt t.pc = false) :
    perLane p r check body s = .next (s'.retire k p u) := by
  have hm : t.guarded p &&& ~~~t.did = t.guarded p := by
    rw [hi.new, show ~~~(0 : Mask) = BitVec.allOnes 1024 from BitVec.not_zero, BitVec.and_allOnes]
  apply issueWith_done hi p r check _ body u s' hc _ _ (by rw [hact]; exact ha.active) hpart hpc hk
  · simp only [hi.whole, hm]; exact ha
  · simp only [hi.whole, hm]; exact hb

/-! ## What a write of a register leaves alone -/

@[simp] theorem Team.ws_active (t : Team) (i : Nat) (v : Word) : (t.ws i v).active = t.active := by
  unfold Team.ws; split <;> rfl
@[simp] theorem Team.ws_part (t : Team) (i : Nat) (v : Word) : (t.ws i v).part = t.part := by
  unfold Team.ws; split <;> rfl
@[simp] theorem Team.ws_pc (t : Team) (i : Nat) (v : Word) : (t.ws i v).pc = t.pc := by
  unfold Team.ws; split <;> rfl
@[simp] theorem Team.ws2_active (t : Team) (i : Nat) (v : DWord) : (t.ws2 i v).active = t.active := by simp [Team.ws2]
@[simp] theorem Team.ws2_part (t : Team) (i : Nat) (v : DWord) : (t.ws2 i v).part = t.part := by simp [Team.ws2]
@[simp] theorem Team.ws2_pc (t : Team) (i : Nat) (v : DWord) : (t.ws2 i v).pc = t.pc := by simp [Team.ws2]
@[simp] theorem Team.wp_active (t : Team) (i : Nat) (a v : Mask) : (t.wp i a v).active = t.active := by
  unfold Team.wp; split <;> rfl
@[simp] theorem Team.wp_part (t : Team) (i : Nat) (a v : Mask) : (t.wp i a v).part = t.part := by
  unfold Team.wp; split <;> rfl
@[simp] theorem Team.wp_pc (t : Team) (i : Nat) (a v : Mask) : (t.wp i a v).pc = t.pc := by
  unfold Team.wp; split <;> rfl
@[simp] theorem Team.wp_lanes (t : Team) (i : Nat) (a v : Mask) : (t.wp i a v).lanes = t.lanes := by
  unfold Team.wp; split <;> rfl

/-- A fold of writes of lane blocks changes the vector registers alone. -/
theorem foldl_wv (l : List Nat) (r : Nat) (g : Team → Nat → VReg) (t : Team) :
    ∃ v, l.foldl (fun (t : Team) w => t.wv r w (g t w)) t = { t with v := v } := by
  induction l generalizing t with
  | nil => exact ⟨t.v, rfl⟩
  | cons x l ih =>
    obtain ⟨v, h⟩ := ih (t.wv r x (g t x))
    exact ⟨v, h⟩
theorem Team.wlanes_eq (t : Team) (r : Nat) (act : Mask) (tag : Tag) (f : Nat → Word) :
    ∃ v, t.wlanes r act tag f = { t with v := v } := foldl_wv _ r _ t
theorem Team.wlanes2_eq (t : Team) (r : Nat) (act : Mask) (tag : Tag) (f : Nat → DWord) :
    ∃ v, t.wlanes2 r act tag f = { t with v := v } := by
  obtain ⟨v, h⟩ := Team.wlanes_eq t r act tag (fun l => (f l).setWidth 32)
  obtain ⟨v', h'⟩ := Team.wlanes_eq { t with v := v } (r + 1) act tag (fun l => (f l).extractLsb' 32 32)
  exact ⟨v', by simp [Team.wlanes2, h, h']⟩
theorem writeInt_eq (t : Team) (wide : Bool) (r : Nat) (m : Mask) (g : Nat → Nat) :
    ∃ v, writeInt t wide r m g = { t with v := v } := by
  unfold writeInt
  split
  · exact Team.wlanes2_eq ..
  · exact Team.wlanes_eq ..
theorem writeFloat_eq (t : Team) (wide : Bool) (r : Nat) (m : Mask) (tag : Tag) (g : Nat → Nat) :
    ∃ v, writeFloat t wide r m tag g = { t with v := v } := by
  unfold writeFloat
  split
  · exact Team.wlanes2_eq ..
  · exact Team.wlanes_eq ..

/-- The passes of a mask are its words that hold a lane. -/
theorem mem_passesOf {m : Mask} {W w : Nat} : w ∈ passesOf m W ↔ w < W ∧ maskWord m w ≠ 0 := by
  simp [passesOf]
/-- The lanes of a mask below a number of words. -/
theorem mem_lanesOf {m : Mask} {W l : Nat} : l ∈ lanesOf m W ↔ l / 32 < W ∧ m.getLsbD l = true := by
  simp only [lanesOf, List.mem_flatMap, mem_passesOf, List.mem_filter, List.mem_map, List.mem_range, bit]
  constructor
  · rintro ⟨w, ⟨hw, _⟩, ⟨i, hi, rfl⟩, hb⟩
    exact ⟨by omega, hb⟩
  · rintro ⟨hw, hb⟩
    refine ⟨l / 32, ⟨hw, ?_⟩, ⟨l % 32, by omega, by omega⟩, hb⟩
    intro h0
    have : (maskWord m (l/32)).getLsbD (l % 32) = true := by
      simp only [maskWord, BitVec.getLsbD_extractLsb']
      simp [Nat.mod_lt, show 32 * (l / 32) + l % 32 = l by omega, hb]
    rw [h0] at this; simp at this

/-- A row merged depends on the lanes of the mask alone. -/
theorem rowMerge_congr (old : Row) (m : Word) (f g : Nat → Word) (h : ∀ i, i < 32 → m.getLsbD i = true → f i = g i) :
    rowMerge old m f = rowMerge old m g := by
  unfold rowMerge
  apply List.foldl_ext
  intro r i hi
  simp only [List.mem_range] at hi
  cases hb : bit m i
  · rfl
  · simp [h i hi hb]

/-- A vector write depends on the values of the lanes it writes alone. -/
theorem wlanes_congr (t : Team) (r : Nat) (act : Mask) (tag : Tag) (f g : Nat → Word) (h : ∀ l ∈ lanesOf act t.words, f l = g l) :
    t.wlanes r act tag f = t.wlanes r act tag g := by
  unfold Team.wlanes
  apply List.foldl_ext
  intro u w hw
  have := mem_passesOf.1 hw
  congr 2
  apply rowMerge_congr
  intro i hi hb
  apply h
  rw [mem_lanesOf]
  refine ⟨by omega, ?_⟩
  simpa [maskWord, BitVec.getLsbD_extractLsb', hi] using hb

/-- Reading a table made from a list of keys. -/
theorem Tab_get_map (l : List Nat) (g : Nat → FRes) (x : Nat) (d) (hx : x ∈ l) : Tab.get (l.map (fun i => (i, g i))) d x = g x := by
  induction l with
  | nil => cases hx
  | cons a l ih =>
    simp only [List.map_cons, Tab.get, Tab.get?]
    split
    · rename_i h; subst h; rfl
    · rename_i h
      exact ih (by rcases List.mem_cons.1 hx with h' | h'; exact absurd h'.symm h; exact h')

/-- The same for a floating-point result. -/
theorem writeFloat_congr (t : Team) (wide : Bool) (r : Nat) (m : Mask) (tag : Tag) (f g : Nat → Nat) (h : ∀ l ∈ lanesOf m t.words, f l = g l) :
    writeFloat t wide r m tag f = writeFloat t wide r m tag g := by
  unfold writeFloat Team.wlanes2
  split
  · have e : ∀ (f' : Nat → Word), (t.wlanes r m tag f').words = t.words := by
      intro f'; obtain ⟨v, hv⟩ := Team.wlanes_eq t r m tag f'; rw [hv]; rfl
    rw [wlanes_congr t r m tag _ (fun l => (BitVec.ofNat 64 (g l)).setWidth 32) (by intro l hl; simp only [h l hl])]
    apply wlanes_congr
    intro l hl
    rw [e] at hl
    simp only [h l hl]
  · apply wlanes_congr; intro l hl; rw [h l hl]

/-- The flags of lanes depend on those lanes alone. -/
theorem flagUnion_congr (l : List Nat) (f g : Nat → Flags) (h : ∀ x ∈ l, f x = g x) : flagUnion l f = flagUnion l g := by
  unfold flagUnion
  apply List.foldl_ext
  intro a x hx
  rw [h x hx]

end Sys2Proof.Machine
end

