-- ==== Sys2Proof/Laws/Teams.lean ====
section
/-! SUPPORT. Sys2Proof/Laws/Teams.lean: an instruction whose lanes trap (R329), and what the end of halts and the making ready of
teams do (R46, R347), each said once. -/
namespace Sys2Proof.Machine

/-! ## Lanes that trap -/

/-- Lanes that join `%tlanes`, said of the team before its instruction. -/
theorem joinTraps_eq (t u : Team) (x : Mask) (c : Word) (he : u.entered = t.entered) (hl : u.tlanes = t.tlanes) :
    joinTraps u x c t.active (t.pc + 8) = t.joins u x c := by
  unfold joinTraps Team.joins
  by_cases hx : x = 0
  · simp [hx]
  · by_cases h : t.entered = true ∨ t.tlanes = 0
    · simp [he, hl]
    · simp [he, hl, not_or.mp h]
/-- What joining leaves alone. -/
theorem Team.joins_same (t u : Team) (x : Mask) (c : Word) :
    (t.joins u x c).part = u.part ∧ (t.joins u x c).pc = u.pc ∧ (t.joins u x c).s = u.s ∧ (t.joins u x c).v = u.v ∧
      (t.joins u x c).p = u.p ∧ (t.joins u x c).fflags = u.fflags := by
  unfold Team.joins
  split
  · exact ⟨rfl, rfl, rfl, rfl, rfl, rfl⟩
  · split <;> exact ⟨rfl, rfl, rfl, rfl, rfl, rfl⟩
/-- A team that has lanes before its instruction has lanes after it, or a pending trap with its point. -/
theorem Team.joins_goes_on {t u : Team} (x : Mask) (c : Word) (hr : trapReady t) (ha : u.active ≠ 0) (hp : u.pend = t.pend) :
    (t.joins u x c).active ≠ 0 ∨ (t.joins u x c).pend.isNone = false := by
  unfold Team.joins
  split
  · exact .inl ha
  · split
    · exact .inr rfl
    · rename_i h
      obtain h' | h' | h' := hr
      · exact absurd (.inl h') h
      · exact absurd (.inr h') h
      · refine .inr ?_
        show u.pend.isNone = false
        rw [hp]; cases hq : t.pend with
        | none => exact absurd hq h'
        | some _ => rfl
theorem Team.after_joins (t u : Team) (x : Mask) (c : Word) (pc : DWord) :
    (t.joins u x c).after pc = t.joins (u.after pc) x c := by
  unfold Team.joins Team.after
  split
  · rfl
  · split <;> rfl
/-- A completed instruction whose lanes `x` trap: they join `%tlanes`, and the team goes on at its next word (R329). -/
theorem complete_traps (k : Nat) (p : Pre) (told : Team) (t : Team) (s : State) (x : Mask) (c : Word) (hr : trapReady told)
    (hact : t.active ≠ 0#1024) (hpart : t.part = told.part) (hpc : t.pc = told.pc) (he : t.entered = told.entered)
    (hl : t.tlanes = told.tlanes) (hp : t.pend = told.pend) (hb : (s.part told.part).breaksAt told.pc = false) :
    complete k p told { t := t, s := s, traps := x, cause := c } = .ok (s.retire k p (told.joins t x c)) := by
  let s' := (s.updPart told.part (fun p => { p with instr := p.instr + 1 })).progress (coreOf k) told.part
  have hb' : (s'.part told.part).breaksAt told.pc = false := by simpa [s', Part.breaksAt] using hb
  have hv := (Team.joins_same told (t.after (told.pc + 8)) x c).1
  have h := Team.joins_goes_on (t := told) (u := t.after (told.pc + 8)) x c hr hact hp
  have hj := joinTraps_eq told (t.after (told.pc + 8)) x c he hl
  have hw : told.joins (t.after (told.pc + 8)) x c = (told.joins t x c).after ((told.joins t x c).pc + 8) := by
    rw [(Team.joins_same told t x c).2.1, hpc, Team.after_joins]
  have hc : complete k p told { t := t, s := s, traps := x, cause := c } =
      (let u := joinTraps (t.after (told.pc + 8)) x c told.active (told.pc + 8)
       let u := if (s'.part u.part).breaksAt told.pc then joinTraps u u.active causeBreak told.active (told.pc + 8) else u
       if u.active == 0 && u.pend.isNone then do
         let (u, s) ← impliedSync k 300 u s'
         if u.active == 0 then endTeam k told u s
         else pure ((s.setTeam k u).runStep k (p.run || u.pc != told.pc + 8))
       else pure ((s'.setTeam k u).runStep k (p.run || told.pc + 8 != told.pc + 8))) := rfl
  simp only [hc, hj, State.retire, State.retireAt, (Team.joins_same told t x c).1, hpart]
  rw [hw] at hv h ⊢
  generalize (told.joins t x c).after ((told.joins t x c).pc + 8) = v at hv h ⊢
  have hon : ¬ (v.active == 0 && v.pend.isNone) = true := by
    simp only [Bool.and_eq_true, beq_iff_eq, not_and, Bool.not_eq_true]
    exact fun h' => h.resolve_left (fun g => g h')
  have hv : v.part = told.part := hv.trans hpart
  simp only [hv, hb', Bool.false_eq_true, if_false, if_neg hon, bne_self_eq_false, Bool.or_false]
  rfl

/-! ## Halts that end, teams made ready -/

theorem Tab.get?_map {α β : Type} (l : Tab α) (g : Nat → α → β) (k : Nat) :
    Tab.get? (l.map (fun e => (e.1, g e.1 e.2))) k = (Tab.get? l k).map (g k) := by
  induction l with
  | nil => rfl
  | cons e l ih =>
    obtain ⟨i, x⟩ := e
    simp only [List.map_cons, Tab.get?]
    by_cases h : i = k
    · subst h; simp
    · simp [h, ih]
/-- A halt that lasts no longer ends, and nothing else changes of the team. -/
theorem State.team?_endHalts (s : State) (k : Nat) : s.endHalts.team? k =
    (s.team? k).map (fun t => if t.awaitsBlock && s.haltOver t then { t with awaitsBlock := false } else t) := by
  unfold State.team? State.endHalts Tab.mapVals
  exact Tab.get?_map s.teams (fun _ t => if t.awaitsBlock && s.haltOver t then { t with awaitsBlock := false } else t) k
/-- A team that stands now and did not stand before is ready from now on, and nothing else changes of it. -/
theorem State.team?_readiedFrom (s old : State) (k : Nat) : (s.readiedFrom old).team? k = (s.team? k).map (fun t =>
    if t.wait.isNone && s.stands k t && !(match old.team? k with | some u => old.stands k u | none => false)
    then { t with readyAt := s.moment } else t) := by
  unfold State.readiedFrom
  exact Tab.get?_map s.teams (fun k t =>
    if t.wait.isNone && s.stands k t && !(match old.team? k with | some u => old.stands k u | none => false)
    then { t with readyAt := s.moment } else t) k
@[simp] theorem State.endHalts_mem (s : State) : s.endHalts.mem = s.mem := rfl
@[simp] theorem State.endHalts_cores (s : State) : s.endHalts.cores = s.cores := rfl
@[simp] theorem State.endHalts_clusters (s : State) : s.endHalts.clusters = s.clusters := rfl
@[simp] theorem State.endHalts_blocks (s : State) : s.endHalts.blocks = s.blocks := rfl
@[simp] theorem State.endHalts_tasks (s : State) : s.endHalts.tasks = s.tasks := rfl
@[simp] theorem State.endHalts_parts (s : State) : s.endHalts.parts = s.parts := rfl
@[simp] theorem State.endHalts_launches (s : State) : s.endHalts.launches = s.launches := rfl
@[simp] theorem State.endHalts_domains (s : State) : s.endHalts.domains = s.domains := rfl
@[simp] theorem State.endHalts_tick (s : State) : s.endHalts.tick = s.tick := rfl
@[simp] theorem State.endHalts_moment (s : State) : s.endHalts.moment = s.moment := rfl
@[simp] theorem State.endHalts_owners (s : State) : s.endHalts.owners = s.owners := rfl
@[simp] theorem State.endHalts_irqs (s : State) : s.endHalts.irqs = s.irqs := rfl
@[simp] theorem State.readiedFrom_mem (s old : State) : (s.readiedFrom old).mem = s.mem := rfl
@[simp] theorem State.readiedFrom_cores (s old : State) : (s.readiedFrom old).cores = s.cores := rfl
@[simp] theorem State.readiedFrom_clusters (s old : State) : (s.readiedFrom old).clusters = s.clusters := rfl
@[simp] theorem State.readiedFrom_blocks (s old : State) : (s.readiedFrom old).blocks = s.blocks := rfl
@[simp] theorem State.readiedFrom_tasks (s old : State) : (s.readiedFrom old).tasks = s.tasks := rfl
@[simp] theorem State.readiedFrom_parts (s old : State) : (s.readiedFrom old).parts = s.parts := rfl
@[simp] theorem State.readiedFrom_launches (s old : State) : (s.readiedFrom old).launches = s.launches := rfl
@[simp] theorem State.readiedFrom_domains (s old : State) : (s.readiedFrom old).domains = s.domains := rfl
@[simp] theorem State.readiedFrom_tick (s old : State) : (s.readiedFrom old).tick = s.tick := rfl
@[simp] theorem State.readiedFrom_moment (s old : State) : (s.readiedFrom old).moment = s.moment := rfl
@[simp] theorem State.readiedFrom_owners (s old : State) : (s.readiedFrom old).owners = s.owners := rfl
@[simp] theorem State.readiedFrom_irqs (s old : State) : (s.readiedFrom old).irqs = s.irqs := rfl

end Sys2Proof.Machine
end

