-- ==== Sys2Proof/Tests/Slice0.lean ====
section
/-! SUPPORT. Sys2Proof/Tests/Slice0.lean: words written out from the encoding tables, ill-formed terms, one-step checks with
values of the manual, and for each statement with hypotheses states and operands that meet them. -/
set_option Elab.async false
namespace Sys2Proof.Tests
open Sys2Proof.Machine

/-! ## A small part: one block of one team of 64 lanes on core 0, in a task with every kind of table filled -/

def pre : Pre := ⟨false, 7, false⟩
def nopWord : DWord := 0x7734000000000000#64
def rec1 : Rec :=
  { loadRec with lanes := 64, fleet := 2, fmts := [0#128, 8#128, 4#128], qbind := [⟨1, 1⟩, ⟨2, 2⟩, ⟨3, 0⟩, ⟨4, 0⟩],
                 msBase := 0x200000, msOff := 2048, msLines := 2 }
def tk : Task :=
  { loadTask 0 with
    lr := rec1, consts := [5, 6], groups := [⟨0, 1, 1, 1⟩],
    leases := [{ base := 0, len := 0x8000000, rw := true }, { base := 0x8000000, len := 0x8000000 },
               { base := 0x40000000, len := 0x1000, rw := true }] }
def bt : Team := { loadTeam 0 0 0 with lanes := 64, active := lanesBelow 64, part := 0 }
def base : State :=
  let s := ((State.reset.loadWord nopWord).setTask 0 tk).setTeam 0 bt
  let c := s.cluster 0
  { s.setCluster 0 ((c.setBank 1 { req := .fifo, mode := .fifo }).setBank 2 { req := .fifo, mode := .fifo, width := true }) with
    agenda := [], cur := some 0 }
/-- The part with another team in the slot. -/
def withTeam (t : Team) : State := base.setTeam 0 t
/-- The same in a deterministic launch. -/
def detTask : Task := { tk with lr := { rec1 with det := true } }
def detBase : State := base.setTask 0 detTask

theorem issues_of {s : State} {k : Nat} {t : Team} (h : (s.cur == some k && s.team? k == some t && t.phase == 0 &&
    t.intr == none && t.did == 0 && t.stopAt == none && t.pendTok == [] && t.tokSig == [] && !(s.part t.part).breaksAt t.pc) = true) :
    Issues s k t := by
  simp only [Bool.and_eq_true, beq_iff_eq, Bool.not_eq_true'] at h
  obtain ⟨⟨⟨⟨⟨⟨⟨⟨a, b⟩, c⟩, d⟩, e⟩, f⟩, g⟩, i⟩, j⟩ := h
  exact ⟨a, b, c, d, e, f, g, i, j⟩
theorem base_issues : Issues base 0 bt := issues_of (by decide +kernel)
theorem base_acts : acts pre bt := by unfold acts; decide +kernel

def isOk {α : Type} : Act α → Bool
  | .ok _ => true
  | .error _ => false
def got {α : Type} (d : α) : Act α → α
  | .ok a => a
  | .error _ => d
theorem ok_got {α : Type} (d : α) {x : Act α} (h : isOk x = true) : x = .ok (got d x) := by
  cases x with
  | ok a => rfl
  | error e => cases h
theorem ok_unit {x : Act Unit} (h : isOk x = true) : x = .ok () := ok_got () h
def faultIn {α : Type} : Act α → Option (Nat × Nat × DWord × Option (Nat × Nat))
  | .error (.fault c d a e) => some (c, d, a, e)
  | _ => none
theorem fault_of {α : Type} {x : Act α} {c d : Nat} {a : DWord} {e : Option (Nat × Nat)} (h : faultIn x = some (c, d, a, e)) :
    x = .error (.fault c d a e) := by
  cases x with
  | ok a => exact absurd h (by simp [faultIn])
  | error st =>
    cases st with
    | fault c' d' a' e' => simp [faultIn] at h; simp [h]
    | _ => exact absurd h (by simp [faultIn])

/-! ## Decoding: words laid out field by field from Tables 5-1 to 5-12 -/

/-- Words of class 000, one for each opcode of Table 5-12, every used field set. -/
def words0 : List (DWord × Instr) := [
  (0xD004A51E00800000, .sadd ⟨⟨true, 5, false⟩, 10, 20, 30, 0, 2, false⟩),
  (0xD008A50085A00000, .ssub ⟨⟨true, 5, false⟩, 10, 20, 0, 133, 2, true⟩),
  (0xD00CA51E00800000, .smul ⟨⟨true, 5, false⟩, 10, 20, 30, 0, 2, false⟩),
  (0xD010A50085A00000, .smulh ⟨⟨true, 5, false⟩, 10, 20, 0, 133, 2, true⟩),
  (0xD014A51E00800000, .sdiv ⟨⟨true, 5, false⟩, 10, 20, 30, 0, 2, false⟩),
  (0xD018A50085A00000, .srem ⟨⟨true, 5, false⟩, 10, 20, 0, 133, 2, true⟩),
  (0xD01CA51E00800000, .sand ⟨⟨true, 5, false⟩, 10, 20, 30, 0, 2, false⟩),
  (0xD020A50085A00000, .sor ⟨⟨true, 5, false⟩, 10, 20, 0, 133, 2, true⟩),
  (0xD024A51E00800000, .sxor ⟨⟨true, 5, false⟩, 10, 20, 30, 0, 2, false⟩),
  (0xD028A50085A00000, .sshl ⟨⟨true, 5, false⟩, 10, 20, 0, 133, 2, true⟩),
  (0xD02CA51E00800000, .sshr ⟨⟨true, 5, false⟩, 10, 20, 30, 0, 2, false⟩),
  (0xD030A50085A00000, .ssra ⟨⟨true, 5, false⟩, 10, 20, 0, 133, 2, true⟩),
  (0xD034A51E00800000, .smin ⟨⟨true, 5, false⟩, 10, 20, 30, 0, 2, false⟩),
  (0xD038A50085A00000, .smax ⟨⟨true, 5, false⟩, 10, 20, 0, 133, 2, true⟩),
  (0xD03CA51E00800000, .ssel ⟨⟨true, 5, false⟩, 10, 20, 30, 0, 2, false⟩),
  (0xD040A50000800000, .smov ⟨⟨true, 5, false⟩, 10, 20, 0, 0, 2, false⟩),
  (0xD044A00085A00000, .smovi ⟨⟨true, 5, false⟩, 10, 0, 0, 133, 2, true⟩),
  (0xD048A50085A00000, .sldk ⟨⟨true, 5, false⟩, 10, 20, 0, 133, 2, true⟩),
  (0xD04CA51E00800000, .slea ⟨⟨true, 5, false⟩, 10, 20, 30, 0, 2, false⟩),
  (0xD050A50000800000, .spopc ⟨⟨true, 5, false⟩, 10, 20, 0, 0, 2, false⟩),
  (0xD054A50000800000, .sclz ⟨⟨true, 5, false⟩, 10, 20, 0, 0, 2, false⟩),
  (0xD058A50000800000, .sbrev ⟨⟨true, 5, false⟩, 10, 20, 0, 0, 2, false⟩),
  (0xD05CA51E00800000, .sbfx ⟨⟨true, 5, false⟩, 10, 20, 30, 0, 2, false⟩),
  (0xD060A50085A00000, .sbfi ⟨⟨true, 5, false⟩, 10, 20, 0, 133, 2, true⟩),
  (0xD064A51E00800000, .scmpEq ⟨⟨true, 5, false⟩, 10, 20, 30, 0, 2, false⟩),
  (0xD068A50085A00000, .scmpNe ⟨⟨true, 5, false⟩, 10, 20, 0, 133, 2, true⟩),
  (0xD06CA51E00800000, .scmpLt ⟨⟨true, 5, false⟩, 10, 20, 30, 0, 2, false⟩),
  (0xD070A50085A00000, .scmpLe ⟨⟨true, 5, false⟩, 10, 20, 0, 133, 2, true⟩),
  (0xD074A51E00800000, .scmpGt ⟨⟨true, 5, false⟩, 10, 20, 30, 0, 2, false⟩),
  (0xD078A50085A00000, .scmpGe ⟨⟨true, 5, false⟩, 10, 20, 0, 133, 2, true⟩)]
theorem test_decode_scalar : ∀ e ∈ words0, decode e.1 = .ok e.2 := by decide +kernel

/-- Words of class 001, one for each opcode of Table 5-12, every used field set. -/
def words1 : List (DWord × Instr) := [
  (0xD100850C540048E1, .vadd ⟨⟨true, 5, false⟩, 33, 67, 21, 0, 1, 2, 3, 2, 0, 1⟩),
  (0xD104850C540048E1, .vsub ⟨⟨true, 5, false⟩, 33, 67, 21, 0, 1, 2, 3, 2, 0, 1⟩),
  (0xD108850C540048E1, .vmul ⟨⟨true, 5, false⟩, 33, 67, 21, 0, 1, 2, 3, 2, 0, 1⟩),
  (0xD10C850C540048E1, .vmulh ⟨⟨true, 5, false⟩, 33, 67, 21, 0, 1, 2, 3, 2, 0, 1⟩),
  (0xD110850C561C48E1, .vmad ⟨⟨true, 5, false⟩, 33, 67, 21, 135, 1, 2, 3, 2, 0, 1⟩),
  (0xD114850C540048E1, .vand ⟨⟨true, 5, false⟩, 33, 67, 21, 0, 1, 2, 3, 2, 0, 1⟩),
  (0xD118850C540048E1, .vor ⟨⟨true, 5, false⟩, 33, 67, 21, 0, 1, 2, 3, 2, 0, 1⟩),
  (0xD11C850C540048E1, .vxor ⟨⟨true, 5, false⟩, 33, 67, 21, 0, 1, 2, 3, 2, 0, 1⟩),
  (0xD120850C540048E1, .vshl ⟨⟨true, 5, false⟩, 33, 67, 21, 0, 1, 2, 3, 2, 0, 1⟩),
  (0xD124850C540048E1, .vshr ⟨⟨true, 5, false⟩, 33, 67, 21, 0, 1, 2, 3, 2, 0, 1⟩),
  (0xD128850C540048E1, .vsra ⟨⟨true, 5, false⟩, 33, 67, 21, 0, 1, 2, 3, 2, 0, 1⟩),
  (0xD12C850C540048E1, .vmin ⟨⟨true, 5, false⟩, 33, 67, 21, 0, 1, 2, 3, 2, 0, 1⟩),
  (0xD130850C540048E1, .vmax ⟨⟨true, 5, false⟩, 33, 67, 21, 0, 1, 2, 3, 2, 0, 1⟩),
  (0xD134850C000048E0, .vabs ⟨⟨true, 5, false⟩, 33, 67, 0, 0, 1, 2, 3, 2, 0, 0⟩),
  (0xD138850C561C48E1, .vsel ⟨⟨true, 5, false⟩, 33, 67, 21, 135, 1, 2, 3, 2, 0, 1⟩),
  (0xD13C850C000048E0, .vmov ⟨⟨true, 5, false⟩, 33, 67, 0, 0, 1, 2, 3, 2, 0, 0⟩),
  (0xD1408400540048E1, .vmovi ⟨⟨true, 5, false⟩, 33, 0, 21, 0, 1, 2, 3, 2, 0, 1⟩),
  (0xD1448400540048E1, .vsplat ⟨⟨true, 5, false⟩, 33, 0, 21, 0, 1, 2, 3, 2, 0, 1⟩),
  (0xD148850C000048E0, .vpopc ⟨⟨true, 5, false⟩, 33, 67, 0, 0, 1, 2, 3, 2, 0, 0⟩),
  (0xD14C850C000048E0, .vclz ⟨⟨true, 5, false⟩, 33, 67, 0, 0, 1, 2, 3, 2, 0, 0⟩),
  (0xD150850C000048E0, .vbrev ⟨⟨true, 5, false⟩, 33, 67, 0, 0, 1, 2, 3, 2, 0, 0⟩),
  (0xD154850C540048E1, .vbfx ⟨⟨true, 5, false⟩, 33, 67, 21, 0, 1, 2, 3, 2, 0, 1⟩),
  (0xD158850C540048E1, .vcmpEq ⟨⟨true, 5, false⟩, 33, 67, 21, 0, 1, 2, 3, 2, 0, 1⟩),
  (0xD15C850C540048E1, .vcmpNe ⟨⟨true, 5, false⟩, 33, 67, 21, 0, 1, 2, 3, 2, 0, 1⟩),
  (0xD160850C540048E1, .vcmpLt ⟨⟨true, 5, false⟩, 33, 67, 21, 0, 1, 2, 3, 2, 0, 1⟩),
  (0xD164850C540048E1, .vcmpLe ⟨⟨true, 5, false⟩, 33, 67, 21, 0, 1, 2, 3, 2, 0, 1⟩),
  (0xD168850C540048E1, .vcmpGt ⟨⟨true, 5, false⟩, 33, 67, 21, 0, 1, 2, 3, 2, 0, 1⟩),
  (0xD16C850C540048E1, .vcmpGe ⟨⟨true, 5, false⟩, 33, 67, 21, 0, 1, 2, 3, 2, 0, 1⟩),
  (0xD170850C561C48E1, .vdot4 ⟨⟨true, 5, false⟩, 33, 67, 21, 135, 1, 2, 3, 2, 0, 1⟩),
  (0xD174850C561C48E1, .vdot8 ⟨⟨true, 5, false⟩, 33, 67, 21, 135, 1, 2, 3, 2, 0, 1⟩)]
theorem test_decode_vector_integer : ∀ e ∈ words1, decode e.1 = .ok e.2 := by decide +kernel

/-- Words of class 010, one for each opcode of Table 5-12, every used field set. -/
def words2 : List (DWord × Instr) := [
  (0xD200850C540048ED, .fadd ⟨⟨true, 5, false⟩, 33, 67, 21, 0, 1, 2, 3, 2, 3, 1⟩),
  (0xD204850C540048ED, .fsub ⟨⟨true, 5, false⟩, 33, 67, 21, 0, 1, 2, 3, 2, 3, 1⟩),
  (0xD208850C540048ED, .fmul ⟨⟨true, 5, false⟩, 33, 67, 21, 0, 1, 2, 3, 2, 3, 1⟩),
  (0xD20C850C561C48ED, .ffma ⟨⟨true, 5, false⟩, 33, 67, 21, 135, 1, 2, 3, 2, 3, 1⟩),
  (0xD210850C540048ED, .fmin ⟨⟨true, 5, false⟩, 33, 67, 21, 0, 1, 2, 3, 2, 3, 1⟩),
  (0xD214850C540048ED, .fmax ⟨⟨true, 5, false⟩, 33, 67, 21, 0, 1, 2, 3, 2, 3, 1⟩),
  (0xD218850C000048EC, .fabs ⟨⟨true, 5, false⟩, 33, 67, 0, 0, 1, 2, 3, 2, 3, 0⟩),
  (0xD21C850C000048EC, .fneg ⟨⟨true, 5, false⟩, 33, 67, 0, 0, 1, 2, 3, 2, 3, 0⟩),
  (0xD220850C540048ED, .fcmpEq ⟨⟨true, 5, false⟩, 33, 67, 21, 0, 1, 2, 3, 2, 3, 1⟩),
  (0xD224850C540048ED, .fcmpNe ⟨⟨true, 5, false⟩, 33, 67, 21, 0, 1, 2, 3, 2, 3, 1⟩),
  (0xD228850C540048ED, .fcmpLt ⟨⟨true, 5, false⟩, 33, 67, 21, 0, 1, 2, 3, 2, 3, 1⟩),
  (0xD22C850C540048ED, .fcmpLe ⟨⟨true, 5, false⟩, 33, 67, 21, 0, 1, 2, 3, 2, 3, 1⟩),
  (0xD230850C540048ED, .fcmpGt ⟨⟨true, 5, false⟩, 33, 67, 21, 0, 1, 2, 3, 2, 3, 1⟩),
  (0xD234850C540048ED, .fcmpGe ⟨⟨true, 5, false⟩, 33, 67, 21, 0, 1, 2, 3, 2, 3, 1⟩),
  (0xD238850C540048ED, .fcmpUn ⟨⟨true, 5, false⟩, 33, 67, 21, 0, 1, 2, 3, 2, 3, 1⟩),
  (0xD23C850C000048EC, .fclass ⟨⟨true, 5, false⟩, 33, 67, 0, 0, 1, 2, 3, 2, 3, 0⟩),
  (0xD240850C540048ED, .fdiv ⟨⟨true, 5, false⟩, 33, 67, 21, 0, 1, 2, 3, 2, 3, 1⟩),
  (0xD244850C000048EC, .fsqrt ⟨⟨true, 5, false⟩, 33, 67, 0, 0, 1, 2, 3, 2, 3, 0⟩),
  (0xD248850C000048EC, .frcp ⟨⟨true, 5, false⟩, 33, 67, 0, 0, 1, 2, 3, 2, 3, 0⟩),
  (0xD24C850C000048EC, .frsq ⟨⟨true, 5, false⟩, 33, 67, 0, 0, 1, 2, 3, 2, 3, 0⟩),
  (0xD250850C000048EC, .fexp2 ⟨⟨true, 5, false⟩, 33, 67, 0, 0, 1, 2, 3, 2, 3, 0⟩),
  (0xD254850C000048EC, .flog2 ⟨⟨true, 5, false⟩, 33, 67, 0, 0, 1, 2, 3, 2, 3, 0⟩),
  (0xD258850C540048ED, .fsumerr ⟨⟨true, 5, false⟩, 33, 67, 21, 0, 1, 2, 3, 2, 3, 1⟩),
  (0xD25C850C000048EC, .osmx ⟨⟨true, 5, false⟩, 33, 67, 0, 0, 1, 2, 3, 2, 3, 0⟩),
  (0xD260850C021C48EC, .osmxf ⟨⟨true, 5, false⟩, 33, 67, 0, 135, 1, 2, 3, 2, 3, 0⟩)]
theorem test_decode_vector_float : ∀ e ∈ words2, decode e.1 = .ok e.2 := by decide +kernel

/-- Words of class 011, one for each opcode of Table 5-12, every used field set. -/
def words3 : List (DWord × Instr) := [
  (0xD300850C540048ED, .lshf ⟨⟨true, 5, false⟩, 33, 67, 21, 0, 1, 2, 3, 2, 3, 1⟩),
  (0xD304850C021C48EC, .lred ⟨⟨true, 5, false⟩, 33, 67, 0, 135, 1, 2, 3, 2, 3, 0⟩),
  (0xD308850C021C48EC, .lscan ⟨⟨true, 5, false⟩, 33, 67, 0, 135, 1, 2, 3, 2, 3, 0⟩),
  (0xD30C850C000048CC, .vote ⟨⟨true, 5, false⟩, 33, 67, 0, 0, 1, 2, 3, 0, 3, 0⟩),
  (0xD310850C540048E1, .vtos ⟨⟨true, 5, false⟩, 33, 67, 21, 0, 1, 2, 3, 2, 0, 1⟩),
  (0xD3140000540848ED, .mapgen ⟨⟨true, 5, false⟩, 0, 0, 21, 2, 1, 2, 3, 2, 3, 1⟩),
  (0xD3180000000048CC, .mapz ⟨⟨true, 5, false⟩, 0, 0, 0, 0, 1, 2, 3, 0, 3, 0⟩),
  (0xD31C8400540048CD, .mapinfo ⟨⟨true, 5, false⟩, 33, 0, 21, 0, 1, 2, 3, 0, 3, 1⟩),
  (0xD3200000000048CC, .mapmov ⟨⟨true, 5, false⟩, 0, 0, 0, 0, 1, 2, 3, 0, 3, 0⟩),
  (0xD324850C021C48CC, .cvtn ⟨⟨true, 5, false⟩, 33, 67, 0, 135, 1, 2, 3, 0, 3, 0⟩),
  (0xD328850C021C48CC, .cvtw ⟨⟨true, 5, false⟩, 33, 67, 0, 135, 1, 2, 3, 0, 3, 0⟩),
  (0xD32C850C540848CC, .fcvt ⟨⟨true, 5, false⟩, 33, 67, 21, 2, 1, 2, 3, 0, 3, 0⟩),
  (0xD330850C021C48EC, .fcvti ⟨⟨true, 5, false⟩, 33, 67, 0, 135, 1, 2, 3, 2, 3, 0⟩),
  (0xD334850C021C48EC, .icvtf ⟨⟨true, 5, false⟩, 33, 67, 0, 135, 1, 2, 3, 2, 3, 0⟩)]
theorem test_decode_cross_lane : ∀ e ∈ words3, decode e.1 = .ok e.2 := by decide +kernel

/-- Words of class 100, one for each opcode of Table 5-12, every used field set. -/
def words4 : List (DWord × Instr) := [
  (0xD400844A154D4035, .vld ⟨⟨true, 5, false⟩, 33, 18, 133, 1, 2, 3, 2, 2, 0, 53⟩),
  (0xD404844A154D4035, .vst ⟨⟨true, 5, false⟩, 33, 18, 133, 1, 2, 3, 2, 2, 0, 53⟩),
  (0xD408844A154D4000, .sld ⟨⟨true, 5, false⟩, 33, 18, 133, 1, 2, 3, 2, 2, 0, 0⟩),
  (0xD40C844A154D4000, .sst ⟨⟨true, 5, false⟩, 33, 18, 133, 1, 2, 3, 2, 2, 0, 0⟩),
  (0xD410844A154D4005, .ldsc ⟨⟨true, 5, false⟩, 33, 18, 133, 1, 2, 3, 2, 2, 0, 5⟩),
  (0xD414844A154D4006, .stsc ⟨⟨true, 5, false⟩, 33, 18, 133, 1, 2, 3, 2, 2, 0, 6⟩),
  (0xD418004A144D4035, .vprf ⟨⟨true, 5, false⟩, 0, 18, 133, 0, 2, 3, 2, 2, 0, 53⟩),
  (0xD41C844800414000, .scwb ⟨⟨true, 5, false⟩, 33, 18, 0, 0, 2, 0, 2, 2, 0, 0⟩),
  (0xD420844A14404000, .bankq ⟨⟨true, 5, false⟩, 33, 18, 133, 0, 2, 0, 0, 2, 0, 0⟩)]
theorem test_decode_memory : ∀ e ∈ words4, decode e.1 = .ok e.2 := by decide +kernel

/-- Words of class 101, one for each opcode of Table 5-12, every used field set. -/
def words5 : List (DWord × Instr) := [
  (0xD500844A154D4735, .vatom ⟨⟨true, 5, false⟩, 33, 18, 133, 1, 2, 3, 2, 2, 7, 53⟩),
  (0xD504004A154D4335, .vatomNr ⟨⟨true, 5, false⟩, 0, 18, 133, 1, 2, 3, 2, 2, 3, 53⟩),
  (0xD508844A154D4735, .satom ⟨⟨true, 5, false⟩, 33, 18, 133, 1, 2, 3, 2, 2, 7, 53⟩),
  (0xD50C004A154D4435, .satomNr ⟨⟨true, 5, false⟩, 0, 18, 133, 1, 2, 3, 2, 2, 4, 53⟩),
  (0xD510000003000000, .fence ⟨⟨true, 5, false⟩, 0, 0, 0, 3, 0, 0, 0, 0, 0, 0⟩),
  (0xD514004A14414035, .flrenew ⟨⟨true, 5, false⟩, 0, 18, 133, 0, 2, 0, 2, 2, 0, 53⟩),
  (0xD518844A14414035, .fllife ⟨⟨true, 5, false⟩, 33, 18, 133, 0, 2, 0, 2, 2, 0, 53⟩)]
theorem test_decode_atomics : ∀ e ∈ words5, decode e.1 = .ok e.2 := by decide +kernel

/-- Words of class 110, one for each opcode of Table 5-12, every used field set. -/
def words6 : List (DWord × Instr) := [
  (0xD60163215000000A, .cpy ⟨⟨true, 5, false⟩, 22, 12, 33, 5, 0, 0, 0, 10⟩),
  (0xD605630050000000, .cpyt ⟨⟨true, 5, false⟩, 22, 12, 0, 5, 0, 0, 0, 0⟩),
  (0xD609632150000000, .gat ⟨⟨true, 5, false⟩, 22, 12, 33, 5, 0, 0, 0, 0⟩),
  (0xD60D632150000000, .sct ⟨⟨true, 5, false⟩, 22, 12, 33, 5, 0, 0, 0, 0⟩),
  (0xD611630050000000, .lay ⟨⟨true, 5, false⟩, 22, 12, 0, 5, 0, 0, 0, 0⟩),
  (0xD615632150006055, .mapld ⟨⟨true, 5, false⟩, 22, 12, 33, 5, 0, 0, 3, 85⟩),
  (0xD619632150000055, .mapst ⟨⟨true, 5, false⟩, 22, 12, 33, 5, 0, 0, 0, 85⟩),
  (0xD61C000000770000, .seal ⟨⟨true, 5, false⟩, 0, 0, 0, 0, 0, 119, 0, 0⟩),
  (0xD620000000770000, .waitb ⟨⟨true, 5, false⟩, 0, 0, 0, 0, 0, 119, 0, 0⟩),
  (0xD625630000000000, .escld ⟨⟨true, 5, false⟩, 22, 12, 0, 0, 0, 0, 0, 0⟩),
  (0xD628002100031044, .qpush ⟨⟨true, 5, false⟩, 0, 0, 33, 0, 0, 3, 0, 4164⟩),
  (0xD62C002100031044, .qpop ⟨⟨true, 5, false⟩, 0, 0, 33, 0, 0, 3, 0, 4164⟩)]
theorem test_decode_engine : ∀ e ∈ words6, decode e.1 = .ok e.2 := by decide +kernel

/-- Words of class 111, one for each opcode of Table 5-12, every used field set. -/
def words7 : List (DWord × Instr) := [
  (0xD703FFFFF4000000, .bra ⟨⟨true, 5, false⟩, -3, 0⟩),
  (0xD707FFFFF5200000, .brx ⟨⟨true, 5, false⟩, -3, 18874368⟩),
  (0xD70BFFFFF5200000, .call ⟨⟨true, 5, false⟩, -3, 18874368⟩),
  (0xD70C480000000000, .ret ⟨⟨true, 5, false⟩, 18, 0, 0, 0, 0, 0⟩),
  (0xD713FFFFF4000000, .join ⟨⟨true, 5, false⟩, -3, 0⟩),
  (0xD714000000000000, .sync ⟨⟨true, 5, false⟩, 0, 0, 0, 0, 0, 0⟩),
  (0xD718000000000000, .exit ⟨⟨true, 5, false⟩, 0, 0, 0, 0, 0, 0⟩),
  (0xD71C082400000400, .regroup ⟨⟨true, 5, false⟩, 2, 9, 0, 0, 0, 1⟩),
  (0xD7200000000C0000, .bar ⟨⟨true, 5, false⟩, 0, 0, 0, 3, 0, 0⟩),
  (0xD7240000000C0000, .bara ⟨⟨true, 5, false⟩, 0, 0, 0, 3, 0, 0⟩),
  (0xD7280000000C0000, .barw ⟨⟨true, 5, false⟩, 0, 0, 0, 3, 0, 0⟩),
  (0xD72C20242C000000, .park ⟨⟨true, 5, false⟩, 8, 9, 11, 0, 0, 0⟩),
  (0xD730200000000000, .wake ⟨⟨true, 5, false⟩, 8, 0, 0, 0, 0, 0⟩),
  (0xD734000000000000, .nop ⟨⟨true, 5, false⟩, 0, 0, 0, 0, 0, 0⟩),
  (0xD738240000602400, .srd ⟨⟨true, 5, false⟩, 9, 0, 0, 24, 2, 1⟩),
  (0xD73C2400002C0000, .swr ⟨⟨true, 5, false⟩, 9, 0, 0, 11, 0, 0⟩),
  (0xD740000001DC0000, .trap ⟨⟨true, 5, false⟩, 0, 0, 0, 119, 0, 0⟩),
  (0xD744000000000000, .cmtwait ⟨⟨true, 5, false⟩, 0, 0, 0, 0, 0, 0⟩),
  (0xD748000000000000, .cmtpass ⟨⟨true, 5, false⟩, 0, 0, 0, 0, 0, 0⟩),
  (0xD74D632100000000, .dlaunch ⟨⟨true, 5, false⟩, 22, 12, 33, 0, 0, 0, 0, 0⟩)]
theorem test_decode_control : ∀ e ∈ words7, decode e.1 = .ok e.2 := by decide +kernel

/-- Opcodes of no instruction, padding and reserved values are refused with the reason of R88. -/
theorem test_decode_refuses :
    decode 0x0000000000000000#64 = .error .unassigned ∧ decode 0x07FC000000000000#64 = .error .unassigned ∧
    decode 0x7700000000000001#64 = .error .reserved ∧ decode 0x7700000000000C00#64 = .error .reserved := by decide +kernel

/-! ## Ill-formed terms: one for each check of WellFormed -/

theorem test_illFormed_scalar : ∀ i ∈ [Instr.sadd ⟨pre, 0, 0, 0, 1, 0, false⟩, .ssel ⟨pre, 0, 0, 1, 0, 0, true⟩,
    .smov ⟨pre, 0, 0, 1, 0, 0, false⟩, .sclz ⟨pre, 0, 0, 0, 1, 0, false⟩, .sbrev ⟨pre, 0, 0, 0, 0, 0, true⟩,
    .smovi ⟨pre, 0, 1, 0, 0, 0, true⟩, .smovi ⟨pre, 0, 0, 1, 0, 0, true⟩, .smovi ⟨pre, 0, 0, 0, 1, 0, false⟩],
    i.wellFormed = false := by decide +kernel
theorem test_illFormed_vector : ∀ i ∈ [Instr.vadd ⟨pre, 0, 0, 0, 0, 0, 0, 0, 0, 0, 3⟩, .vmovi ⟨pre, 0, 1, 0, 0, 0, 0, 0, 0, 0, 2⟩,
    .vabs ⟨pre, 0, 0, 1, 0, 0, 0, 0, 0, 0, 0⟩, .vabs ⟨pre, 0, 0, 0, 0, 0, 0, 0, 0, 0, 1⟩, .vadd ⟨pre, 0, 0, 0, 1, 0, 0, 0, 0, 0, 0⟩,
    .vadd ⟨pre, 0, 0, 0, 0, 0, 0, 0, 0, 1, 0⟩, .vadd ⟨pre, 0, 0, 64, 0, 0, 0, 0, 0, 0, 1⟩, .mapz ⟨pre, 1, 0, 0, 0, 0, 0, 0, 0, 0, 0⟩,
    .vote ⟨pre, 0, 0, 0, 0, 0, 0, 0, 1, 0, 0⟩, .vtos ⟨pre, 64, 0, 0, 0, 0, 0, 0, 0, 1, 0⟩, .vtos ⟨pre, 0, 0, 1, 0, 0, 0, 0, 0, 1, 0⟩,
    .mapgen ⟨pre, 0, 0, 1, 0, 1, 0, 0, 0, 0, 0⟩, .fcvt ⟨pre, 0, 0, 1, 0, 0, 0, 0, 0, 0, 0⟩, .fcvt ⟨pre, 0, 0, 1, 2, 0, 0, 0, 0, 0, 1⟩],
    i.wellFormed = false := by decide +kernel
theorem test_illFormed_memory : ∀ i ∈ [Instr.vld ⟨pre, 0, 0, 0, 0, 5, 0, 0, 0, 0, 0⟩, .vld ⟨pre, 0, 0, 0, 0, 0, 0, 5, 0, 0, 0⟩,
    .vatom ⟨pre, 0, 0, 0, 0, 0, 0, 2, 0, 11, 0⟩, .vld ⟨pre, 0, 0, 0, 0, 0, 0, 2, 0, 1, 0⟩, .vld ⟨pre, 0, 0, 0, 0, 0, 0, 2, 0, 0, 1⟩,
    .sld ⟨pre, 0, 0, 0, 0, 0, 0, 2, 2, 0, 1⟩, .ldsc ⟨pre, 0, 0, 0, 0, 0, 0, 2, 1, 0, 8⟩, .vprf ⟨pre, 1, 0, 0, 0, 0, 0, 2, 0, 0, 0⟩,
    .vprf ⟨pre, 0, 0, 0, 1, 0, 0, 2, 0, 0, 0⟩, .scwb ⟨pre, 0, 0, 1, 0, 1, 0, 2, 3, 0, 0⟩, .scwb ⟨pre, 0, 0, 0, 1, 1, 0, 2, 3, 0, 0⟩,
    .scwb ⟨pre, 0, 0, 0, 0, 1, 1, 2, 3, 0, 0⟩, .bankq ⟨pre, 0, 0, 0, 0, 1, 0, 1, 3, 0, 0⟩, .vatom ⟨pre, 0, 0, 0, 0, 0, 0, 2, 0, 0, 1⟩,
    .vatomNr ⟨pre, 1, 0, 0, 0, 0, 0, 2, 0, 0, 0⟩, .satom ⟨pre, 0, 0, 0, 0, 0, 0, 2, 3, 0, 1⟩, .satomNr ⟨pre, 1, 0, 0, 0, 0, 0, 2, 3, 0, 0⟩,
    .fence ⟨pre, 0, 1, 0, 1, 0, 0, 0, 0, 0, 0⟩, .fence ⟨pre, 0, 0, 0, 1, 0, 0, 2, 0, 0, 0⟩, .flrenew ⟨pre, 1, 0, 0, 0, 2, 0, 2, 0, 0, 0⟩,
    .fllife ⟨pre, 0, 0, 0, 1, 2, 0, 2, 0, 0, 0⟩], i.wellFormed = false := by decide +kernel
theorem test_illFormed_engine : ∀ i ∈ [Instr.cpy ⟨pre, 0, 0, 0, 0, 1, 0, 0, 0⟩, .cpy ⟨pre, 0, 0, 0, 0, 0, 1, 0, 0⟩,
    .cpy ⟨pre, 0, 0, 0, 0, 0, 0, 1, 0⟩, .cpy ⟨pre, 0, 0, 0, 0, 0, 0, 0, 64⟩, .cpyt ⟨pre, 0, 0, 1, 0, 0, 0, 0, 0⟩,
    .gat ⟨pre, 0, 0, 0, 0, 0, 0, 0, 1⟩, .lay ⟨pre, 0, 0, 1, 0, 0, 0, 0, 0⟩, .mapld ⟨pre, 0, 0, 0, 0, 0, 0, 0, 256⟩,
    .mapst ⟨pre, 0, 0, 0, 0, 0, 0, 1, 0⟩, .seal ⟨pre, 1, 0, 0, 0, 0, 0, 0, 0⟩, .waitb ⟨pre, 0, 1, 0, 0, 0, 0, 0, 0⟩,
    .escld ⟨pre, 1, 2, 0, 1, 0, 0, 0, 0⟩, .qpush ⟨pre, 0, 0, 0, 0, 0, 0, 0, 1⟩, .qpush ⟨pre, 0, 0, 0, 0, 0, 0, 0, 0x1100⟩,
    .qpop ⟨pre, 0, 0, 1, 0, 0, 0, 0, 0⟩, .qpop ⟨pre, 1, 0, 0, 0, 0, 0, 0, 0x1000⟩, .dlaunch ⟨pre, 1, 2, 0, 1, 0, 0, 0, 0⟩],
    i.wellFormed = false := by decide +kernel
theorem test_illFormed_control : ∀ i ∈ [Instr.bra ⟨pre, 0, 1⟩, .brx ⟨pre, 0, 1⟩, .call ⟨pre, 0, 1⟩, .join ⟨pre, 0, 1⟩,
    .ret ⟨pre, 2, 1, 0, 0, 0, 0⟩, .ret ⟨pre, 2, 0, 0, 0, 0, 3⟩, .sync ⟨pre, 1, 0, 0, 0, 0, 0⟩, .exit ⟨pre, 0, 0, 0, 1, 0, 0⟩,
    .regroup ⟨pre, 1, 0, 0, 0, 0, 0⟩, .regroup ⟨pre, 0, 0, 1, 0, 0, 1⟩, .bar ⟨pre, 1, 0, 0, 0, 0, 0⟩, .bara ⟨pre, 0, 0, 0, 0, 1, 0⟩,
    .barw ⟨pre, 0, 1, 0, 0, 0, 0⟩, .park ⟨pre, 0, 0, 0, 1, 0, 0⟩, .wake ⟨pre, 0, 1, 0, 0, 0, 0⟩, .nop ⟨pre, 0, 0, 0, 0, 1, 0⟩,
    .srd ⟨pre, 0, 1, 0, 0, 0, 0⟩, .swr ⟨pre, 0, 0, 0, 10, 1, 0⟩, .trap ⟨pre, 1, 0, 0, 0, 0, 0⟩, .cmtwait ⟨pre, 0, 0, 0, 1, 0, 0⟩,
    .cmtpass ⟨pre, 0, 0, 1, 0, 0, 0⟩], i.wellFormed = false := by decide +kernel
theorem test_illFormed_events : ∀ i ∈ [Instr.slotWriteApply 8192 0, .storeRegistration 512 0, .cpyTransfer 16 0 [], .cpytTransfer 0 16 0,
    .layTransfer 16 0 0, .gatTransfer 0 16 0, .sctTransfer 16 0 0, .mapldTransfer 0 16, .mapstTransfer 16 0, .escldBind 16,
    .escDoneProcess 16, .parkTimeout 16384, .commitBufferDrain 16384, .runArbitration 0 2, .capEvaluation 512,
    .waitConditionMet 16384, .lineFillReturn 512 0, .blockDispatch 0 [(0, 512)] [], .sweepVisit 0 32768, .fleetSoftError 0 0 16,
    .bkctlReqWrite 0 32 0, .bankModeChange 16 0, .dfwCloseWrite 3 0 (.close true), .dfwDrainComplete 0 1, .dfwDomWrite 8 0,
    .notify (some 64) ⟨0, 4⟩ none, .pendingNotifyTimeout 0 4096, .slotRelease 512, .launchRecord 64 0, .evset 0 4096, .evclr 64 0, .mark 0 4096,
    .unknownType 64 0, .xlctlRetry 64, .xlctlAbort 64, .invctlGo 64 false 0, .invalidationAck 64 false, .taskkill 64 0,
    .sliceEnd 8, .pstateHaltWrite 64 0, .partitionHalted 64, .gangSliceStart 8, .ready 0 32 0, .forfeit 8 0, .gangGraceExpiry 8,
    .railOpUpdate [] 0 [] [], .railOpUpdate [0, 0, 0, 0] 0 [] [(64, 1)], .droopStretch 16, .stageTwoFreeze 16, .freezeExpiry 16,
    .clusterResume 0 0 16, .watchdogReport 0 64, .attest (some 64), .hostAp1Access ⟨0, none⟩ 0 3 none, .hostAp1Access ⟨2, none⟩ 0 4 none, .peerAccess 32 0 .read,
    .functionLevelReset 64, .registerWrite (some 64) 0 0, .droopEnd 16, .isscapModeWrite 64 0], i.wellFormed = false := by
  decide +kernel

/-! ## States and operands that meet the hypotheses of each statement, clause by clause -/

def nopY : YF := ⟨pre, 0, 0, 0, 0, 0, 0⟩
theorem witness_DecodeOfEncode : (Instr.nop nopY).wellFormed = true ∧ encode (.nop nopY) = some nopWord ∧
    decode nopWord = .ok (.nop nopY) := by decide +kernel
def ticking : State := { State.reset with agenda := [.event .packageTick] }
theorem witness_StepKeepsMemoryCanonical : ticking.memoryWf = true ∧ ∃ s', step ticking = .next s' := ⟨by decide, _, rfl⟩

def loaded : State := State.reset.withFetchWord 64 0x7734000000000000
def loadedBad : State := State.reset.withFetchWord 64 0
theorem witness_StepRuns_issue : ∃ t, loaded.fetchWord 0 t = .ok nopWord ∧ loaded.agenda = .issue 0 0 none :: [] ∧
    ((loaded.core 0).pipe 0).team = some 0 ∧ loaded.team? 0 = some t ∧ loaded.able 0 t = true ∧ t.wait = none ∧ t.out = none ∧
    t.halted = false ∧ t.active ≠ 0 ∧ t.pend = none ∧ t.resumeDue = false ∧ t.bad = [] ∧ (loaded.blockOf t).badSlots = [] ∧
    ((loaded.cluster (clusterOf (coreOf 0))).reg.freezes && frozenKind nopWord) = false ∧ decode nopWord = .ok (.nop nopY) :=
  ⟨loadTeam 0 0 0, (ok_got 0 (by decide +kernel)).trans (congrArg _ (by decide +kernel)), by decide +kernel⟩
theorem witness_StepRuns_illegal : ∃ t, loadedBad.fetchWord 0 t = .ok 0 ∧ loadedBad.agenda = .issue 0 0 none :: [] ∧
    loadedBad.team? 0 = some t ∧ loadedBad.able 0 t = true ∧ t.bad = [] ∧ decode 0 = .error .unassigned :=
  ⟨loadTeam 0 0 0, (ok_got 0 (by decide +kernel)).trans (congrArg _ (by decide +kernel)), by decide +kernel⟩
theorem witness_StepRuns_event : ticking.agenda = .event .packageTick :: [] ∧
    ∀ r, exec .packageTick { { ticking with agenda := [], moment := 1 } with cur := none } ≠ .fault r :=
  ⟨rfl, fun _ h => by cases h⟩
/-- The word in memory, or held by the instruction cache of the core. -/
def cachedCode : State := loaded.setCore 0 { loaded.core 0 with icache := [(0x10000 / 128, { valid := 3, data := 7 })] }
theorem witness_StepRuns_fetch : ∃ t, loaded.fetchPlace t = .ok 0x10000 ∧ loaded.reach (dieOf (coreOf 0)) 0x10000 t.pc = .ok () ∧
    cachedCode.fetchPlace t = .ok 0x10000 ∧ (loaded.core (coreOf 0)).code 0x10000 = none ∧ (cachedCode.core (coreOf 0)).code 0x10000 = some 7 ∧
    (∀ i, i < 2 → Tab.get? loaded.poisoned (0x10000 / 4 + i) = none) :=
  have place : loaded.fetchPlace (loadTeam 0 0 0) = .ok 0x10000 := (ok_got 0 (by decide +kernel)).trans (congrArg _ (by decide +kernel))
  ⟨loadTeam 0 0 0, place, ok_unit (by decide +kernel), (ok_got 0 (by decide +kernel)).trans (congrArg _ (by decide +kernel)),
    by decide +kernel⟩

theorem witness_RegisterWrites : (63 : Nat) ≠ 0 ∧ (62 : Nat) ≠ 63 ∧ (6 : Nat) ≠ 7 ∧ 63 < 32 * bt.words ∧
    bit (lane1 63) 63 = true ∧ bit (lane1 63) 1023 = false ∧ bt.words ≤ 32 ∧ maskWord (lane1 63) 1 ≠ 0 ∧ maskWord (lane1 63) 0 = 0 := by
  decide +kernel

/-- The type that names 64-bit pairs; the highest even registers. -/
def wideS : S3 := ⟨pre, 62, 60, 2, 0, 2, false⟩
def narrowS : S3 := ⟨pre, 63, 62, 61, 0, 0, false⟩
def offPre : Pre := ⟨false, 0, false⟩
def offS : S3 := { wideS with pre := offPre }
def oddS : S3 := { wideS with sa := 61 }
def tokTeam : Team := { bt with pendTok := [61, 63] }
/-- A vector word of two sources with a false guard, and one with a scalar source b; every rule accepts such words. -/
def offV : V3 := ⟨offPre, 254, 253, 252, 0, 0, 0, 0, 0, 0, 0⟩
def scalarV : V3 := ⟨pre, 254, 253, 63, 0, 0, 0, 0, 0, 0, 1⟩
/-- The false guard of a rule's word. -/
def offF (r : FloatRule) : V3 := ⟨offPre, 254, 253, 0, 0, 0, 0, 0, 0, 0, if r.spec.bks.isEmpty then 0 else 1⟩
/-- The rule of `fdiv`. -/
def fdivRule (f : V3) : FloatRule := ⟨.fdiv, { tys := [0, 1], rms := anyRm, bks := [0, 1, 2] }, tyTag f.ty,
  fun a b _ => (tyFloat f.ty).divR f.rm (summand (tyFloat f.ty) a) (summand (tyFloat f.ty) b)⟩
def oddV : V3 := ⟨pre, 253, 252, 1, 0, 0, 0, 0, 2, 0, 2⟩
theorem witness_GuardsTokensAndPairs : base.cur = some 0 ∧ base.team? 0 = some bt ∧ bt.phase = 0 ∧ bt.stopAt = none ∧ bt.intr = none ∧
    bt.guarded offPre = 0 ∧ bt.active ≠ 0 ∧ (base.part bt.part).breaksAt bt.pc = false ∧ acts pre tokTeam ∧
    (withTeam tokTeam).team? 0 = some tokTeam ∧ tokTeam.phase = 0 ∧ tokTeam.stopAt = none ∧ tokTeam.intr = none ∧
    (∃ x ∈ scalarForms, x.even offS ∧ x.even narrowS ∧ 61 ∈ x.regs narrowS ∧ 61 ∈ tokTeam.pendTok ∧
      ¬ x.even oddS) := by
  refine ⟨rfl, by decide +kernel, rfl, rfl, rfl, by decide +kernel, by decide +kernel, by decide +kernel, base_acts, by decide +kernel,
    rfl, rfl, rfl, { ins := .sadd }, by simp [scalarForms], ?_, ?_, by decide, by decide, ?_⟩ <;>
    (simp only [ScalarForm.even, evenPairs]; decide)
theorem witness_Guards_vectors : (∀ e ∈ vectorTwo, v3Check offV (twoSpec e.2.1) 0 bt base = .ok ()) ∧
    (∀ r ∈ floatRules offV, v3Check (offF r) r.spec 0 bt base = .ok ()) :=
  ⟨fun e he => ok_unit ((List.all_eq_true.mp (by decide +kernel :
      (vectorTwo.all (fun e => isOk (v3Check offV (twoSpec e.2.1) 0 bt base))) = true)) e he),
   fun r hr => ok_unit ((List.all_eq_true.mp (by decide +kernel :
      ((floatRules offV).all (fun r => isOk (v3Check (offF r) r.spec 0 bt base))) = true)) r hr)⟩
theorem witness_Guards_tokens : acts scalarV.pre tokTeam ∧
    (∀ e ∈ vectorTwo, v3Check scalarV (twoSpec e.2.1) 0 tokTeam (withTeam tokTeam) = .ok ()) ∧
    (∀ r ∈ floatRules scalarV, r.spec.bks ≠ [] → v3Check scalarV r.spec 0 tokTeam (withTeam tokTeam) = .ok ()) ∧
    63 ∈ v3ScalarB scalarV (bit scalarV.ty 1) ∧ 63 ∈ v3ScalarB scalarV (scalarV.ty == 1) ∧ 63 ∈ tokTeam.pendTok :=
  ⟨base_acts, fun e he => ok_unit ((List.all_eq_true.mp (by decide +kernel :
      (vectorTwo.all (fun e => isOk (v3Check scalarV (twoSpec e.2.1) 0 tokTeam (withTeam tokTeam)))) = true)) e he),
   fun r hr h => ok_unit (by
    have h2 := List.all_eq_true.mp (by decide +kernel : ((floatRules scalarV).all (fun r => r.spec.bks.isEmpty ||
      isOk (v3Check scalarV r.spec 0 tokTeam (withTeam tokTeam)))) = true) r hr
    simpa [h] using h2), by decide +kernel⟩
theorem witness_Guards_odd : oddV.rm = 0 ∧ noMapFields oddV ∧ oddV.bk = 2 ∧ bit oddV.ty 1 = true ∧ bit oddV.vd 0 = true ∧
    (∃ r ∈ floatRules oddV, (1 : BitVec 2) ∈ r.spec.tys ∧ r.spec.wideD = true) :=
  ⟨rfl, ⟨rfl, rfl, rfl⟩, rfl, rfl, rfl, fdivRule oddV, by simp [floatRules, fdivRule], by decide, rfl⟩
theorem yes_of {l : List (Instr × Prop)} (i : Nat) (h : i < l.length) (hp : l[i].2) : ∃ e ∈ l, e.2 := ⟨_, List.getElem_mem h, hp⟩
theorem no_of {l : List (Instr × Prop)} (i : Nat) (h : i < l.length) (hp : ¬ l[i].2) : ∃ e ∈ l, ¬ e.2 := ⟨_, List.getElem_mem h, hp⟩
/-- Of each format a word that its instruction accepts, with a false guard, and one that it does not. -/
theorem witness_Guards_accepted : bt.did = 0 ∧
    (∃ e ∈ acceptedS3 { wideS with pre := offPre }, e.2) ∧ (∃ e ∈ acceptedS3 oddS, ¬ e.2) ∧
    (∃ e ∈ acceptedV3 ⟨offPre, 254, 0, 0, 0, 4, 0, 0, 0, 0, 0⟩ 0 bt base, e.2) ∧ (∃ e ∈ acceptedV3 offV 0 bt base, ¬ e.2) ∧
    (∃ e ∈ acceptedM ⟨offPre, 0, 0, 0, 3, 0, 0, 0, 0, 0, 0⟩ bt base, e.2) ∧
    (∃ e ∈ acceptedM ⟨offPre, 0, 0, 0, 0, 0, 0, 0, 0, 0, 0⟩ bt base, ¬ e.2) ∧
    (∃ e ∈ acceptedE ⟨offPre, 0, 12, 0, 0, 0, 0, 0, 0⟩ bt base, e.2) ∧ (∃ e ∈ acceptedE ⟨offPre, 0, 12, 0, 0, 0, 0, 0, 0⟩ bt base, ¬ e.2) ∧
    (∃ e ∈ acceptedY ⟨offPre, 63, 0, 0, 11, 0, 0⟩ bt base, e.2) ∧ ∃ e ∈ acceptedY ⟨offPre, 64, 0, 0, 11, 0, 0⟩ bt base, ¬ e.2 := by
  refine ⟨rfl, yes_of 1 (by decide) ?_, no_of 0 (by decide) ?_, yes_of 34 (by decide) ?_, no_of 34 (by decide) ?_,
    yes_of 9 (by decide) ?_, no_of 9 (by decide) ?_, yes_of 1 (by decide) ?_, no_of 9 (by decide) ?_, yes_of 13 (by decide) ?_, no_of 13 (by decide) ?_⟩
  · exact ⟨(by decide : bit wideS.sd 0 = false), (by decide : bit wideS.sa 0 = false), fun _ _ => (by decide : bit wideS.sb 0 = false)⟩
  · exact fun h => absurd (h.1 : oddS.bk = true) (by decide)
  · exact ⟨rfl, rfl, rfl, (by unfold inMapWindow; decide +kernel : inMapWindow bt base 4)⟩
  · exact fun h => absurd (h.2.2.2 : inMapWindow bt base 0) (by unfold inMapWindow; decide +kernel)
  · exact (by decide : (3 : BitVec 2) ≠ 0)
  · exact fun h => (h : (0 : BitVec 2) ≠ 0) rfl
  · exact (by decide : (12#6).toNat % 2 = 0)
  · exact fun h => (h.1 : (0 : BitVec 6) ≠ 0) rfl
  · exact ⟨rfl, .inr (.inl rfl), (by decide : (63#8).toNat ≤ 63)⟩
  · exact fun h => absurd (h.2.2 : (64#8).toNat ≤ 63) (by decide)
/-- The token in s61 has completed with 1, that in s62 with another value. -/
def readTeam : Team := { bt with s := [(61, 1), (62, 0x80000103)], tokSig := [(61, 3), (62, 5)], pendTok := [22] }
theorem witness_Guards_tokens_read : (withTeam readTeam).team? 0 = some readTeam ∧ acts narrowS.pre readTeam ∧
    evenPairs narrowS true true true ∧ ((withTeam readTeam).part readTeam.part).breaksAt readTeam.pc = false ∧
    (let reads := s3Regs (bit narrowS.ty 1) narrowS.sa ++ (if narrowS.bk then [] else s3Regs (bit narrowS.ty 1) narrowS.sb)
     reads = [62, 61] ∧ (∀ r ∈ reads ++ s3Regs (bit narrowS.ty 1) narrowS.sd, r ≠ 0 → r ∉ readTeam.pendTok) ∧
     reads.filter (fun r => readTeam.rs r == 1 && (Tab.get? readTeam.tokSig r).isSome) = [61]) :=
  ⟨by decide +kernel, base_acts, by unfold evenPairs; decide, by decide +kernel, by decide +kernel⟩
theorem wide_pairs (d a b : Bool) : evenPairs wideS d a b := by cases d <;> cases a <;> cases b <;> (unfold evenPairs; decide)
theorem witness_Scalars : Issues base 0 bt ∧ acts wideS.pre bt ∧ evenPairs wideS true true true ∧ evenPairs narrowS true true true :=
  ⟨base_issues, base_acts, wide_pairs _ _ _, by unfold evenPairs; decide⟩
theorem witness_ScalarConstants : Issues base 0 bt ∧ acts wideS.pre bt ∧ evenPairs wideS true false false ∧
    bit wideS.sd 0 = false ∧ bit wideS.sa 0 = false ∧ evenPairs wideS false false true ∧ base.task? bt.task = some tk ∧
    tk.consts[0]? = some 5 ∧ tk.consts[0 + 1]? = some 6 ∧ tk.consts[1]? = some 6 ∧ tk.consts[1 + 1]? = none ∧
    1 = (bt.rs 62).toNat + (scalarB 32 false ⟨pre, 1, 62, 0, 1, 0, true⟩ (bt.rs 0)).toNat ∧
    2 = (bt.rs 62).toNat + (scalarB 32 false ⟨pre, 1, 62, 0, 2, 0, true⟩ (bt.rs 0)).toNat :=
  ⟨base_issues, base_acts, wide_pairs _ _ _, by decide, by decide, wide_pairs _ _ _, by decide +kernel⟩
/-- Word 1 of the table in error, read alone or as the second of a pair. -/
theorem witness_ScalarConstants_error : let x := { tk with badConsts := [1] }
    (base.setTask 0 x).task? bt.task = some x ∧ (∃ w ∈ [1], w ∈ x.badConsts) ∧ (∃ w ∈ [0, 0 + 1], w ∈ x.badConsts) ∧
    (∀ w ∈ [0], w ∉ x.badConsts) ∧ ∀ w ∈ [0, 0 + 1], w ∉ tk.badConsts := by decide +kernel

/-! ### Vector words: every register below the 255 of the launch, map slot 4 an i32 identity, slot 3 an f32 one -/

def mapTeam : Team := { bt with v := [(32 * 10, { tag := plainTag .i32 })] }
def mapBase : State :=
  let b := base.blockOf bt
  (base.setBlock bt.blk { b with slots := [(3, mapgenSlot 0 0 false), (4, mapgenSlot 0 0 true)] }).setTeam 0 mapTeam
theorem map_issues : Issues mapBase 0 mapTeam := issues_of (by decide +kernel)
theorem map_acts : acts pre mapTeam := base_acts
def V (vd va vb vc : BitVec 8) (ka : BitVec 4) (ty bk : BitVec 2) : V3 := ⟨pre, vd, va, vb, vc, ka, 0, 0, ty, 0, bk⟩
theorem accepted_of {f : V3} {sp : VSpec} {k : Nat} {t : Team} {s : State}
    (h : (isOk (v3Check f sp k t s) && isOk (v3CheckTags f k (t.guarded f.pre) t s)) = true) : accepted f sp k t s :=
  have h := Bool.and_eq_true_iff.mp h
  ⟨ok_unit h.1, ok_unit h.2⟩
theorem witness_VectorTwoSources : Issues mapBase 0 mapTeam ∧ acts pre mapTeam ∧
    accepted (V 252 250 248 0 0 2 0) { bks := [0, 1, 2], mapA := true, mapB := true, intClass := true } 0 mapTeam mapBase ∧
    accepted (V 254 10 0x7F 0 4 0 2) { bks := [0, 1, 2], mapA := true, mapB := false, intClass := true } 0 mapTeam mapBase ∧
    accepted (V 254 10 63 0 4 0 1) { bks := [0, 1, 2], mapA := true, mapB := true, intClass := true } 0 mapTeam mapBase :=
  ⟨map_issues, map_acts, by refine ⟨?_, ?_, ?_⟩ <;> exact accepted_of (by decide +kernel)⟩
/-- The instruction stopped between its two passes, and the team that goes on with it. -/
def passIntr : Intr := { act := bt.guarded pre, next := 1, trap := 0, flags := 0, slots := [] }
def passTeam : Team := { bt with intr := some passIntr }
theorem pass_resumes : Resumes (withTeam passTeam) 0 passTeam passIntr := by
  refine ⟨rfl, ?_, rfl, rfl, rfl, ?_, ⟨rfl, rfl⟩, rfl, rfl, ?_⟩ <;> decide +kernel
theorem witness_VectorTwoSources_passes : acts pre bt ∧ (∃ x ∈ passesOf (bt.guarded pre) bt.words, x < 1) ∧
    (passesOf (bt.guarded pre) bt.words).find? (fun x => decide (1 ≤ x)) = some 1 ∧
    passIntr.act = passTeam.guarded pre ∧ (∀ e ∈ vectorTwo, accepted (V 254 253 252 0 0 0 0) (twoSpec e.2.1) 0 bt base) ∧
    (∀ e ∈ vectorTwo, v3Check (V 254 253 252 0 0 0 0) (twoSpec e.2.1) 0 passTeam (withTeam passTeam) = .ok ()) := by
  refine ⟨base_acts, ⟨0, by decide +kernel, by decide⟩, by decide +kernel, by decide +kernel, fun e he => accepted_of ?_,
    fun e he => ok_unit ?_⟩
  · exact List.all_eq_true.mp (by decide +kernel : (vectorTwo.all (fun e => isOk (v3Check (V 254 253 252 0 0 0 0) (twoSpec e.2.1) 0 bt base) &&
      isOk (v3CheckTags (V 254 253 252 0 0 0 0) 0 (bt.guarded pre) bt base))) = true) e he
  · exact List.all_eq_true.mp (by decide +kernel : (vectorTwo.all (fun e =>
      isOk (v3Check (V 254 253 252 0 0 0 0) (twoSpec e.2.1) 0 passTeam (withTeam passTeam)))) = true) e he
theorem witness_VectorOtherArithmetic :
    accepted (V 252 250 248 246 0 2 0) { bks := [0, 1, 2], c := true, mapA := true, mapB := true, mapC := true, intClass := true }
      0 mapTeam mapBase ∧
    accepted (V 252 250 0 0 0 2 0) { tys := [0, 2], mapA := true, intClass := true } 0 mapTeam mapBase ∧
    accepted (V 252 250 0 0 0 3 0) { intClass := true } 0 mapTeam mapBase ∧
    accepted (V 252 250 0xFF 0 0 3 2) { bks := [0, 1, 2], intClass := true } 0 mapTeam mapBase ∧
    accepted (V 253 250 0 0 0 3 0) { wideD := false, intClass := true } 0 mapTeam mapBase ∧
    accepted (V 254 253 63 10 0 0 1) { tys := [0], bks := [0, 1], c := true, mapC := true, intClass := true } 0 mapTeam mapBase :=
  by refine ⟨?_, ?_, ?_, ?_, ?_, ?_⟩ <;> exact accepted_of (by decide +kernel)
theorem witness_VectorMovesAndCompares :
    accepted (V 252 250 0x80 7 0 2 2) { bks := [0, 1, 2], intClass := true } 0 mapTeam mapBase ∧ (V 252 250 0x80 7 0 2 2).vc.toNat < 8 ∧
    accepted (V 252 0 0x80 0 0 2 2) { bks := [2], a := false, intClass := true } 0 mapTeam mapBase ∧
    accepted (V 252 0 62 0 0 2 1) { bks := [1], a := false, intClass := true } 0 mapTeam mapBase ∧
    accepted (V 252 250 0 0 0 2 0) { mapA := true, intClass := true } 0 mapTeam mapBase ∧
    accepted (V 254 10 0 0 4 0 0) { mapA := true, intClass := true } 0 mapTeam mapBase ∧
    accepted (V 7 10 0x80 0 4 1 2) { bks := [0, 1, 2], mapA := true, mapB := true, pred := true, intClass := true } 0 mapTeam mapBase :=
  by refine ⟨?_, ?_, ?_, ?_, ?_, ?_, ?_⟩ <;> first | decide | exact accepted_of (by decide +kernel)

/-! ### Floating-point words -/

/-- A word that each rule of Table 9-4 accepts: type f32, the nearest rounding, the kind of source b the rule takes. -/
def FW (r : FloatRule) : V3 := ⟨pre, 254, 253, if r.spec.bks.isEmpty then 0 else 63, if r.spec.c then 252 else 0, 0, 0, 0, 0, 0,
  if r.spec.bks.isEmpty then 0 else 1⟩
theorem witness_FloatLanes : trapsOff bt ∧ ∀ r ∈ floatRules (V 254 253 0 0 0 0 0), accepted (FW r) r.spec 0 bt base :=
  ⟨rfl, fun r hr => accepted_of ((by decide +kernel : (floatRules (V 254 253 0 0 0 0 0)).all (fun r =>
    isOk (v3Check (FW r) r.spec 0 bt base) && isOk (v3CheckTags (FW r) 0 (bt.guarded (FW r).pre) bt base)) = true) |>
      (List.all_eq_true.mp · r hr))⟩
theorem witness_FloatLanes_mapped_and_wide :
    accepted (V 254 10 0xFE 0 3 0 2) { rms := anyRm, bks := [0, 1, 2], mapA := true, mapB := true } 0 bt
      (mapBase.setTeam 0 bt) ∧
    accepted ⟨pre, 252, 250, 248, 0, 0, 0, 0, 1, 3, 0⟩ { tys := [0, 1], rms := anyRm, bks := [0, 1, 2] } 0 bt base :=
  ⟨accepted_of (by decide +kernel), accepted_of (by decide +kernel)⟩
/-- Every trap enabled and a divisor of zero in each lane: flag DZ traps (R134). -/
def trapTeam : Team := { bt with fmode := 0x1F, v := [(32 * 253, { data := BitVec.ofNat 1024 0x3F800000 })] }
def fdivWord : V3 := ⟨pre, 254, 253, 250, 0, 0, 0, 0, 0, 0, 0⟩
/-- Of each way in which a trap finds its point: no lane waits, those that do have entered, or wait with their point. -/
theorem witness_trapReady : trapReady bt ∧ trapReady { bt with tlanes := lane1 63, entered := true } ∧
    trapReady { bt with tlanes := lane1 63, pend := some { at_ := lanesBelow 64, succ := 0x10008 } } :=
  ⟨.inr (.inl rfl), .inl rfl, .inr (.inr (by decide))⟩
theorem witness_FloatLaneTraps : Issues (withTeam trapTeam) 0 trapTeam ∧ acts fdivWord.pre trapTeam ∧ trapReady trapTeam ∧
    fdivRule fdivWord ∈ floatRules fdivWord ∧ accepted fdivWord (fdivRule fdivWord).spec 0 trapTeam (withTeam trapTeam) ∧
    trapTeam.trapping (trapTeam.acting fdivWord.pre) (fun l => ((fdivRule fdivWord).at fdivWord 0 trapTeam (withTeam trapTeam) l).flags) ≠ 0 :=
  ⟨issues_of (by decide +kernel), base_acts, .inr (.inl rfl), by simp [floatRules, fdivRule], accepted_of (by decide +kernel), by decide +kernel⟩
/-- R135, R329: a division by zero in lane 0 of a team in which lane 63 waits with its point: lane 0 joins it, its cause not taken. -/
def joinTeam : Team :=
  { trapTeam with active := lanesBelow 32, tlanes := lane1 63, tcause := 1, pend := some { at_ := lanesBelow 64, succ := 0x10008 } }
theorem test_fdiv_joins : (match exec (.fdiv fdivWord) (withTeam joinTeam) with
    | .next s => (s.team? 0).map (fun u => (bit u.active 0, bit u.tlanes 0, bit u.tlanes 63, u.tcause, u.pc == joinTeam.pc + 8))
    | _ => none) = some (false, true, true, 1, true) := by decide +kernel
theorem witness_FloatCompare : Issues base 0 bt ∧ acts pre bt ∧ trapReady bt ∧
    accepted (V 7 253 63 0 0 0 1) { tys := [0, 1], bks := [0, 1, 2], mapA := true, mapB := true, pred := true } 0 bt base :=
  ⟨base_issues, base_acts, .inr (.inl rfl), accepted_of (by decide +kernel)⟩
theorem witness_FloatSumErrorAndSoftmax :
    accepted (V 248 250 0x80 0 0 1 2) { tys := [0, 1], bks := [0, 1, 2], group := 2 } 0 bt base ∧
    accepted (V 254 254 0 1 0 0 0) { tys := [0] } 0 bt base ∧ (V 254 254 0 1 0 0 0).vc.toNat < 2 :=
  ⟨accepted_of (by decide +kernel), accepted_of (by decide +kernel), by decide⟩
theorem witness_RoundingKeepsEncodings : ∀ F ∈ [binary64, binary32, bf16, f16, e5m2, e4m3, e3m2, e2m1],
    2 ^ (1 + F.ebits + F.mbits) - 1 < 2 ^ (1 + F.ebits + F.mbits) ∧ (F.value 1).isNaN = false ∧
    (F.value (2 ^ (F.ebits + F.mbits))).isNaN = false := by decide +kernel

theorem ok_ex {α : Type} {x : Act α} (h : isOk x = true) : ∃ a, x = .ok a := by
  cases x with
  | ok a => exact ⟨a, rfl⟩
  | error e => cases h
theorem ok_pair {α β : Type} {x : Act (α × β)} (h : isOk x = true) : ∃ a b, x = .ok (a, b) := by
  obtain ⟨⟨a, b⟩, h⟩ := ok_ex h; exact ⟨a, b, h⟩
theorem ok_three {α β γ : Type} {x : Act (α × β × γ)} (h : isOk x = true) : ∃ a b c, x = .ok (a, b, c) := by
  obtain ⟨⟨a, b, c⟩, h⟩ := ok_ex h; exact ⟨a, b, c, h⟩

/-! ### Cross-lane words and conversions -/

theorem inFile_of {t : Team} {s : State} {r : BitVec 8} {n : Nat} (h : (s.recOf t).vecOk r.toNat n n = true) : inFile t s r n := h
theorem noMap_of {f : V3} (h : f.ka = 0 ∧ f.kb = 0 ∧ f.kc = 0) : noMapFields f := h
/-- A cross-lane word: vd, va, vb, vc, ty, rm, bk. -/
def X (vd va vb vc : BitVec 8) (ty rm bk : BitVec 2) : V3 := ⟨pre, vd, va, vb, vc, 0, 0, 0, ty, rm, bk⟩
theorem witness_LaneShift : Issues base 0 bt ∧ acts pre bt ∧
    (noMapFields (X 254 253 252 0 0 0 0) ∧ inFile bt base 252 1 ∧ inFile bt base 254 1 ∧ inFile bt base 253 1 ∧
      ∀ w ∈ passesOf (bt.guarded pre) bt.words, (bt.rv (253 + 0) w).tag.plain = true) ∧
    (noMapFields (X 252 250 62 0 2 3 1) ∧ uniformB (X 252 250 62 0 2 3 1) true ∧ inFile bt base 252 2 ∧ inFile bt base 250 2 ∧
      ∀ i < 2, ∀ w ∈ passesOf (bt.guarded pre) bt.words, (bt.rv (250 + i) w).tag.plain = true) ∧
    uniformB (X 254 253 0xFF 0 0 1 2) false :=
  ⟨base_issues, base_acts,
   ⟨noMap_of (by decide), inFile_of (by decide +kernel), inFile_of (by decide +kernel), inFile_of (by decide +kernel), by decide +kernel⟩,
   ⟨noMap_of (by decide), by unfold uniformB; decide, inFile_of (by decide +kernel), inFile_of (by decide +kernel), by decide +kernel⟩,
   by unfold uniformB; decide⟩
theorem witness_ReductionsAndScans : trapReady bt ∧
    (noMapFields (X 252 250 0 5 3 1 0) ∧ (X 252 250 0 5 3 1 0).vc.toNat < 9 ∧ redWide 5 3 = true ∧ inFile bt base 252 2 ∧
      inFile bt base 250 2 ∧ (X 252 250 0 5 3 1 0).rm.toNat < 2) ∧
    (noMapFields (X 254 253 0 8 0 3 0) ∧ (X 254 253 0 8 0 3 0).vc.toNat < 9 ∧ bit (X 254 253 0 8 0 3 0).ty 1 = false ∧
      redWide 8 0 = false ∧ inFile bt base 254 1 ∧ inFile bt base 253 1) :=
  ⟨.inr (.inl rfl), ⟨noMap_of (by decide), by decide, by decide, inFile_of (by decide +kernel), inFile_of (by decide +kernel), by decide⟩,
    ⟨noMap_of (by decide), by decide, by decide, by decide, inFile_of (by decide +kernel), inFile_of (by decide +kernel)⟩⟩
theorem witness_Votes : (∀ r ∈ [(0 : BitVec 2), 1], noMapFields (X 7 7 0 0 0 r 0) ∧ (X 7 7 0 0 0 r 0).va.toNat < 8 ∧
      (X 7 7 0 0 0 r 0).vd.toNat < 8) ∧
    (∀ r ∈ [(2 : BitVec 2), 3], noMapFields (X 254 7 0 0 0 r 0) ∧ inFile bt base 254 1) :=
  ⟨fun _ _ => ⟨noMap_of ⟨rfl, rfl, rfl⟩, (by decide : (7#8).toNat < 8), (by decide : (7#8).toNat < 8)⟩, fun _ _ => ⟨noMap_of ⟨rfl, rfl, rfl⟩, inFile_of (by decide +kernel)⟩⟩
theorem witness_LaneToScalar : noMapFields (X 62 252 63 0 2 0 2) ∧ bit (X 62 252 63 0 2 0 2).vd 0 = false ∧ inFile bt base 252 2 ∧
    uniformB (X 62 252 63 0 2 0 2) true ∧ v3UniformB (X 62 252 63 0 2 0 2) bt < bt.lanes ∧
    bt.lanes ≤ v3UniformB (X 63 254 64 0 0 0 2) bt ∧ inFile bt base 254 1 ∧ uniformB (X 63 254 64 0 0 0 2) false ∧
    ((lanesOf (bt.guarded (X 63 254 0 0 0 1 0).pre) bt.words).head?).getD 0 < bt.lanes :=
  ⟨noMap_of (by decide), by decide, inFile_of (by decide +kernel), by unfold uniformB; decide, by decide +kernel, by decide +kernel,
    inFile_of (by decide +kernel), by unfold uniformB; decide, by decide +kernel⟩
/-- A guard false in every lane: lane 64 of 64 as an immediate, lane 63, and a scalar. -/
def offX (vb : BitVec 8) (bk : BitVec 2) : V3 := { X 63 254 vb 0 0 0 bk with pre := offPre }
theorem witness_LaneToScalar_off : bt.active ≠ 0 ∧ bt.guarded (offX 64 2).pre = 0 ∧ noMapFields (offX 64 2) ∧ inFile bt base 254 1 ∧
    bt.lanes ≤ v3UniformB (offX 64 2) bt ∧ uniformB (offX 63 2) false ∧ v3UniformB (offX 63 2) bt < bt.lanes ∧
    uniformB (offX 62 1) false ∧ (offX 62 1).bk = 1 :=
  ⟨by decide +kernel, by decide +kernel, noMap_of (by decide), inFile_of (by decide +kernel), by decide +kernel, by unfold uniformB; decide,
    by decide +kernel, by unfold uniformB; decide, rfl⟩

/-- A slot word: destination slot 4. -/
def M4 (va vb vc : BitVec 8) (kb : BitVec 4) (ty bk : BitVec 2) : V3 := ⟨pre, 0, va, vb, vc, 4, kb, 0, ty, 0, bk⟩
theorem witness_SlotWrites : inMapWindow bt base 4 ∧ inMapWindow bt base 3 ∧ (M4 0 0 8 0 1 0).vc.toNat < 9 ∧
    bit (M4 0 0 8 0 1 0).ty 1 = false ∧ mapgenRange 8 = none ∧ mapgenRange 2 = some (1, 32) ∧ mapgenRange 4 = some (-31, 31) ∧
    uniformB (M4 0 32 2 0 1 2) false ∧ uniformB (M4 0 63 6 0 1 1) false ∧
    (∀ q ∈ [(1 : BitVec 8), 32], 1 ≤ (M4 0 q 2 0 1 2).vb.toInt ∧ (M4 0 q 2 0 1 2).vb.toInt ≤ 32) ∧
    (M4 0 0 2 0 1 2).vb.toInt < 1 ∧ 32 < (M4 0 33 2 0 1 2).vb.toInt ∧ (M4 0 0xE1 4 0 1 2).vb.toInt = -31 :=
  ⟨by unfold inMapWindow; decide +kernel, by unfold inMapWindow; decide +kernel, by decide, by decide, by decide, by decide, by decide,
    by unfold uniformB; decide, by unfold uniformB; decide, by decide, by decide, by decide, by decide⟩
theorem witness_SlotInfo : inMapWindow bt base 4 ∧ inFile bt base 254 1 ∧ (M4 0 2 0 0 0 2).vb ≠ 0 ∧ (M4 0 2 0 0 0 2).vb ≠ 1 ∧
    (M4 0 0 0 0 0 1).bk ≠ 2 ∧ (M4 0 1 0 0 0 2).bk = 2 ∧ (M4 0 1 0 0 0 2).vb = 1 :=
  ⟨by unfold inMapWindow; decide +kernel, inFile_of (by decide +kernel), by decide⟩

def q8Tag : Tag := plainTag .q8
def q8Team : Team := { bt with v := [(32 * 254, { tag := q8Tag }), (32 * 254 + 1, { tag := q8Tag })] }
theorem witness_BlockConversions : Issues (withTeam q8Team) 0 q8Team ∧ acts pre q8Team ∧ trapReady q8Team ∧
    noMapFields (X 254 248 0 1 0 0 0) ∧ (X 254 248 0 1 0 0 0).vc.toNat < 8 ∧ q8Tag = slotTag ((base.recOf bt).fmtSlot 1) ∧
    q8Tag.fmt.scaled = true ∧ inFile bt base 254 1 ∧ (base.recOf bt).vecOk 248 q8Tag.fmt.count 1 = true ∧
    (base.recOf bt).vecOk 251 q8Tag.fmt.count 1 = true ∧
    tagsMatch q8Team (q8Team.guarded pre) 254 q8Tag = true ∧ tagsMatch bt (bt.guarded pre) 254 q8Tag = false :=
  ⟨issues_of (by decide +kernel), base_acts, .inr (.inl rfl), noMap_of (by decide), by decide, by decide +kernel, by decide,
    inFile_of (by decide +kernel), by decide +kernel⟩
theorem witness_ScalarFormatConversions :
    (noMapFields (X 252 254 0 1 0 0 0) ∧ inFile bt base 252 2 ∧ inFile bt base 254 1) ∧
    (noMapFields (X 254 252 0 0 0 3 0) ∧ inFile bt base 254 1 ∧ inFile bt base 252 2) ∧
    (noMapFields (X 254 253 252 3 0 3 0) ∧ (X 254 253 252 3 0 3 0).vc.toNat < 8 ∧ inFile bt base 253 1 ∧ inFile bt base 252 1) ∧
    (noMapFields (X 254 253 0 7 0 0 0) ∧ (X 254 253 0 7 0 0 0).vc.toNat < 8) ∧
    (noMapFields (X 252 250 0 1 3 3 0) ∧ (X 252 250 0 1 3 3 0).vc.toNat < 2 ∧ inFile bt base 252 2 ∧ inFile bt base 250 2) :=
  ⟨⟨noMap_of (by decide), inFile_of (by decide +kernel), inFile_of (by decide +kernel)⟩,
   ⟨noMap_of (by decide), inFile_of (by decide +kernel), inFile_of (by decide +kernel)⟩,
   ⟨noMap_of (by decide), by decide, inFile_of (by decide +kernel), inFile_of (by decide +kernel)⟩,
   ⟨noMap_of (by decide), by decide⟩,
   ⟨noMap_of (by decide), by decide, inFile_of (by decide +kernel), inFile_of (by decide +kernel)⟩⟩

/-! ### Memory words: lanes 0 and 63 act; s10, s12 and s14 hold addresses -/

def pre1 : Pre := ⟨false, 1, false⟩
def memTeam : Team :=
  { bt with p := [(1, lane1 0 ||| lane1 63)], s := [(10, 0x40000), (12, 0xFFC), (14, 0x7FFFFF4), (16, 0x8000000), (18, 0x2000000), (20, 0x200000)] }
def memBase : State := withTeam memTeam
theorem mem_issues : Issues memBase 0 memTeam := issues_of (by decide +kernel)
theorem mem_acts : acts pre1 memTeam := by unfold acts; decide +kernel
/-- A memory word: md, ma, imm, ord, spc, sz, am. -/
def MW (md ma imm : BitVec 8) (ord : BitVec 2) (spc sz : BitVec 3) (am : BitVec 2) : MF := ⟨pre1, md, ma, imm, ord, spc, 0, sz, am, 0, 0⟩
theorem witness_AccessPlaces : (0x7FFFFF0#64).toNat % 16 = 0 ∧ memBase.task? memTeam.task = some tk ∧ canonical 0x7FFFFF0 = true ∧
    tk.det = false ∧ (∀ w ∈ wordsAt (0x7FFFFF0#64).toNat 16, tk.inUndo (4 * w) = false ∧
      (tk.leaseOf (4 * w)).map (·.rw) = some true ∧ memBase.locate tk (4 * w) = some (4 * w) ∧
      memBase.blockedEdge (dieOfLoc (4 * w)) 5 (dieOf (coreOf 0)) = none ∧ memBase.peerAdmits (4 * w) = true) ∧
    (0xFF0#64).toNat + 16 ≤ (memBase.recOf memTeam).scratchBytes ∧ (0xFF0#64).toNat + 16 ≤ 2048 * (memBase.recOf memTeam).fleet ∧
    (4#64).toNat + 4 ≤ 4 * tk.consts.length := by decide +kernel
/-- Two blocks share a sliced lease of 256 bytes, 128 each. -/
def ownTask : Task :=
  { tk with lr := { rec1 with det := true, grid := 2 }, leases := [{ base := 0x40000, len := 256, rw := true, sliced := true }] }
def ownBase : State := memBase.setTask 0 ownTask
theorem witness_AccessPlaces_sliced : ownBase.task? memTeam.task = some ownTask ∧ ownTask.det = true ∧
    (∀ w ∈ wordsAt 0x40070 16, ownTask.inUndo (4 * w) = false ∧ (ownTask.leaseOf (4 * w)).map (fun l => (l.rw, l.sliced)) = some (true, true) ∧
      0x40000 + memTeam.block * (256 / ownTask.lr.grid) ≤ 4 * w ∧ 4 * w < 0x40000 + (memTeam.block + 1) * (256 / ownTask.lr.grid) ∧
      (ownBase.locate ownTask (4 * w)).isSome = true) ∧
    ¬ (4 * (0x40080 / 4) < 0x40000 + (memTeam.block + 1) * (256 / ownTask.lr.grid)) ∧ canonical 0x40080 = true ∧
    ownTask.inUndo (4 * (0x40080 / 4)) = false ∧
    (ownTask.leaseOf (4 * (0x40080 / 4))).map (fun l => (l.rw, l.sliced)) = some (true, true) := by decide +kernel
/-- R292: the first word past the own slice is a lease violation. -/
theorem test_own_slice : isOk (resolve 0 memTeam ownBase 0 true 16 16 0x40070) = true ∧
    (match resolve 0 memTeam ownBase 0 true 16 16 0x40080 with | .error (.fault c d a _) => (c, d, a) == (2, 3, 0x40080#64) | _ => false) =
      true := by decide +kernel
theorem witness_AccessFaults : canonical 0x0100000000000000 = false ∧ canonical 0xFF00000000000000 = true ∧
    (0x10001#64).toNat % 2 ≠ 0 ∧ (memBase.recOf memTeam).scratchBytes < (0xFF4#64).toNat + 16 ∧
    2048 * (memBase.recOf memTeam).fleet < (0xFFC#64).toNat + 8 ∧ 4 * tk.consts.length < (8#64).toNat + 4 ∧
    (0x8FFC#64).toNat < 36864 ∧ tk.lr.privSize < (0xA000#64).toNat + 1 ∧ ¬ (0x9000#64).toNat < 36864 ∧
    tk.inUndo 0x2000000 = true ∧ tk.inUndo 0x20FFFFC = true ∧ tk.inUndo 0x2100000 = false ∧ tk.leaseOf 0x10000000 = none ∧
    (tk.leaseOf 0x8000000).map (·.rw) = some false ∧ (tk.leaseOf 0x40000000).map (·.rw) = some true ∧
    memBase.locate tk 0x40000000 = none := by decide +kernel
theorem witness_MemoryFaultStopsTheTeam :
    lanesFor 0 memTeam memBase (MW 254 18 0 0 0 2 3) false (memTeam.acting pre1) = .error (.fault 2 1 0x2000000 none) ∧
    lanesFor 0 memTeam memBase (MW 254 16 0 0 0 2 3) true (memTeam.acting pre1) = .error (.fault 2 2 0x8000000 none) ∧
    teamAccess 0 memTeam memBase (MW 63 12 0 0 0 3 3) false 8 8 = .error (.fault 1 2 0xFFC none) ∧
    teamAccess 0 memTeam memBase (MW 62 12 1 0 1 2 3) true 4 4 = .error (.fault 1 3 0x1000 none) ∧
    mCheck (MW 254 18 0 1 0 2 3) { ords := [0, 1] } memTeam memBase = .ok () ∧
    vstStop (MW 254 16 0 2 0 2 3) 0 memTeam memBase = none ∧
    mCheck (MW 254 16 0 2 0 2 3) { ords := [0, 2], spcs := [0, 1, 2, 3] } memTeam memBase = .ok () ∧
    mCheck (MW 62 12 0 1 0 3 3) { ords := [0, 1], szs := [0, 1, 2, 3], ams := [3] } memTeam memBase = .ok () ∧
    mCheck (MW 63 12 1 2 1 2 3) { ords := [0, 2], spcs := [0, 1, 2, 3], szs := [0, 1, 2, 3], ams := [3] } memTeam memBase = .ok () ∧
    mdVector (MW 254 18 0 0 0 2 3) memTeam memBase = .ok () ∧ mdScalar (MW 62 12 0 1 0 3 3) 62 = .ok () :=
  ⟨fault_of (by decide +kernel), fault_of (by decide +kernel), fault_of (by decide +kernel), fault_of (by decide +kernel),
    ok_unit (by decide +kernel), by decide +kernel, ok_unit (by decide +kernel), ok_unit (by decide +kernel), ok_unit (by decide +kernel),
    ok_unit (by decide +kernel), ok_unit (by decide +kernel)⟩
/-- The page of the address in s10 lies on die 1, and the edges are closed. -/
def farTask : Task := { tk with pins := [{ va := 0, size := 0x40000000, dpa := 2 ^ 37, w := true, gpas := [] }] }
def farBase : State := memBase.setTask 0 farTask
def farW : MF := MW 62 10 0 0 0 2 3
def farAcc : LaneAcc := ⟨0, 0x40000, ⟨0, [2 ^ 35 + 0x10000], false⟩⟩
theorem witness_MemoryFault_edge : mCheck farW { ords := [0, 1], szs := [0, 1, 2, 3], ams := [3] } memTeam farBase = .ok () ∧
    mdScalar farW farW.md = .ok () ∧ teamAccess 0 memTeam farBase farW false 4 4 = .ok farAcc ∧ farAcc.place = ⟨0, [2 ^ 35 + 0x10000], false⟩ ∧
    farBase.held? (coreOf 0) memTeam (2 ^ 35 + 0x10000) = none ∧
    cached (farBase.cluster (clusterOf (coreOf 0))).l2 (2 ^ 35 + 0x10000) = none ∧
    farBase.blockedEdge (dieOfLoc (4 * (2 ^ 35 + 0x10000))) 5 (dieOf (coreOf 0)) = some (0, 0) :=
  ⟨ok_unit (by decide +kernel), ok_unit (by decide +kernel), (ok_got farAcc (by decide +kernel)).trans rfl, rfl, by decide +kernel⟩

/-- Four-byte lanes from s10 on, lane l at 4 l; a release. -/
def stW : MF := MW 254 10 0 2 0 2 1
def stAccs : List LaneAcc := got [] (lanesFor 0 memTeam memBase stW true (memTeam.acting pre1))
def stData : List (LaneAcc × Nat) := got [] (vstData 0 stW memTeam memBase (memTeam.acting pre1))
/-- An eight-byte store of s62 and s63 to scratch. -/
def sstW : MF := MW 62 12 (-4) 0 1 2 3
def sstAcc : LaneAcc := got ⟨0, 0, ⟨0, [], false⟩⟩ (teamAccess 0 memTeam memBase sstW true 4 4)
theorem witness_StoresQueueTheirWords : mCheck stW { ords := [0, 2], spcs := [0, 1, 2, 3] } memTeam memBase = .ok () ∧
    mdVector stW memTeam memBase = .ok () ∧ vstStop stW 0 memTeam memBase = none ∧
    lanesFor 0 memTeam memBase stW true (memTeam.acting pre1) = .ok stAccs ∧
    vstData 0 stW memTeam memBase (memTeam.acting pre1) = .ok stData ∧
    (∃ u s', storeLanes 0 memTeam memBase 0 true (min 8 4) stData = .ok (u, s')) ∧
    mdScalar sstW 62 = .ok () ∧ teamAccess 0 memTeam memBase sstW true 4 4 = .ok sstAcc ∧
    (∃ u s', storeLanes 0 memTeam memBase 0 false 4 [(sstAcc, memTeam.scalar false 62 % 2 ^ 32)] = .ok (u, s')) ∧
    (∀ a ∈ stAccs, a.place.spc = 0 ∧ a.place.shared = false) ∧ storeReady 0 memTeam memBase 0 4 stAccs = .ok () ∧ stAccs ≠ [] ∧
    ∃ s1, memBase.chargeLines memTeam.task (stAccs.flatMap (·.place.words)) = .ok s1 :=
  ⟨ok_unit (by decide +kernel), ok_unit (by decide +kernel), by decide +kernel, ok_got [] (by decide +kernel),
    ok_got [] (by decide +kernel), ok_pair (by decide +kernel),
    ok_unit (by decide +kernel), ok_got _ (by decide +kernel), ok_pair (by decide +kernel), by decide +kernel,
    ok_unit (by decide +kernel), by decide +kernel, ok_ex (by decide +kernel)⟩
theorem place_of {x : Act Place} {spc : Nat} {ws : List Nat}
    (h : (match x with | .ok p => p.spc == spc && p.words == ws && p.shared == false | .error _ => false) = true) :
    x = .ok ⟨spc, ws, false⟩ := by
  cases x with
  | ok p =>
    obtain ⟨a, b, c⟩ := p
    simp only [Bool.and_eq_true, beq_iff_eq] at h
    obtain ⟨⟨rfl, rfl⟩, rfl⟩ := h
    rfl
  | error e => cases h
/-- Lane 0 stores 128 bits at the address in s10. -/
def st128 : MF := MW 248 10 0 0 0 4 1
theorem witness_StoresQueue_halves : let m := lane1 0
    (∃ accs, lanesFor 0 memTeam memBase st128 true m = .ok accs ∧ accs.map (fun a => (a.lane, a.addr)) = [(0, 0x40000#64)]) ∧
    resolve 0 memTeam memBase 0 true 8 8 0x40000 = .ok ⟨0, [0x10000, 0x10001], false⟩ ∧
    resolve 0 memTeam memBase 0 true 8 8 (0x40000 + 8) = .ok ⟨0, [0x10002, 0x10003], false⟩ :=
  ⟨⟨_, ok_got [] (by decide +kernel), by decide +kernel⟩, place_of (by decide +kernel), place_of (by decide +kernel)⟩
/-- In a shared range with 255 of 256 entries taken, the first of two passes fits. -/
def sharedTask : Task :=
  { tk with lr := { rec1 with det := true }, leases := [{ base := 0, len := 0x8000000, rw := true, shared := true }] }
def fullTeam : Team := { memTeam with buffer := List.replicate 255 (.store 0x40 [(0x40000, 1#8)] none) }
def sharedBase : State := (base.setTask 0 sharedTask).setTeam 0 fullTeam
def stP : MF := MW 254 10 0 0 0 2 1
def fullData : List (LaneAcc × Nat) :=
  got [] (vstData 0 stP { fullTeam with stopAt := some 1 } sharedBase (maskSpan (fullTeam.guarded pre1) 0 1))
theorem witness_StoresQueue_stop : Issues sharedBase 0 fullTeam ∧ mCheck stP { ords := [0, 2], spcs := [0, 1, 2, 3] } fullTeam sharedBase = .ok () ∧
    mdVector stP fullTeam sharedBase = .ok () ∧ vstStop stP 0 fullTeam sharedBase = some 1 ∧
    vstData 0 stP { fullTeam with stopAt := some 1 } sharedBase (maskSpan (fullTeam.guarded pre1) 0 1) = .ok fullData ∧
    ∃ u s', storeLanes 0 { fullTeam with stopAt := some 1 } sharedBase 0 false (min 8 4) fullData = .ok (u, s') :=
  ⟨issues_of (by decide +kernel), ok_unit (by decide +kernel), ok_unit (by decide +kernel), by decide +kernel,
    ok_got [] (by decide +kernel), ok_pair (by decide +kernel)⟩

/-- Loads of global words that the core does not hold, and of constants, which need no cache. -/
def ldW : MF := MW 254 0 0 0 4 2 3
def ldAccs : List LaneAcc := got [] (lanesFor 0 memTeam memBase ldW false (memTeam.acting pre1))
def sldW : MF := MW 62 0 0 1 4 3 3
def sldAcc : LaneAcc := got ⟨0, 0, ⟨0, [], false⟩⟩ (teamAccess 0 memTeam memBase sldW false 8 8)
/-- The core holds the line of the word at 0x40000. -/
def heldBase : State := memBase.bringLine 0 0x800 0 0 true
def heldAcc : LaneAcc := ⟨0, 0x40000, ⟨0, [0x10000], false⟩⟩
def missAccs : List LaneAcc := got [] (lanesFor 0 memTeam memBase (MW 254 10 0 0 0 2 1) false (memTeam.acting pre1))
theorem wait_of {α : Type} {x : Act α} {s : State} {w : Wait}
    (h : (match x with | .error (.wait a b) => a == s && b == w | _ => false) = true) : x = .error (.wait s w) := by
  cases x with
  | ok a => cases h
  | error e => cases e <;> simp_all
theorem witness_LoadsAndTheirReadiness : mCheck ldW { ords := [0, 1] } memTeam memBase = .ok () ∧ mdVector ldW memTeam memBase = .ok () ∧
    lanesFor 0 memTeam memBase ldW false (memTeam.acting pre1) = .ok ldAccs ∧ loadReady 0 memTeam memBase false 0 ldAccs = .ok () ∧
    mCheck sldW { ords := [0, 1], szs := [0, 1, 2, 3], ams := [3] } memTeam memBase = .ok () ∧ mdScalar sldW 62 = .ok () ∧
    teamAccess 0 memTeam memBase sldW false 8 8 = .ok sldAcc ∧ loadReady 0 memTeam memBase true 0 [sldAcc] = .ok () :=
  ⟨ok_unit (by decide +kernel), ok_unit (by decide +kernel), ok_got [] (by decide +kernel), ok_unit (by decide +kernel),
    ok_unit (by decide +kernel), ok_unit (by decide +kernel), ok_got _ (by decide +kernel), ok_unit (by decide +kernel)⟩
theorem witness_Loads_wait : lanesFor 0 memTeam memBase (MW 254 10 0 0 0 2 1) false (memTeam.acting pre1) = .ok missAccs ∧
    loadReady 0 memTeam memBase false 0 missAccs = .error (.wait (memBase.setTeam 0 memTeam) (.fill [0x800, 0x801] [0x800, 0x801] 0)) ∧
    teamAccess 0 memTeam memBase (MW 62 10 0 0 0 2 3) false 4 4 = .ok heldAcc ∧
    loadReady 0 memTeam memBase false 0 [heldAcc] = .error (.wait (memBase.setTeam 0 memTeam) (.fill [0x800] [0x800] 0)) :=
  ⟨ok_got [] (by decide +kernel), wait_of (by decide +kernel),
    (ok_got heldAcc (by decide +kernel)).trans rfl, wait_of (by decide +kernel)⟩
theorem witness_Loads_readiness : heldAcc.place.spc = 0 ∧ heldAcc.place.shared = false ∧
    (∀ w ∈ [heldAcc].flatMap (·.place.words), Tab.get? memBase.poisoned w = none) ∧
    (∀ w ∈ [heldAcc].flatMap (·.place.words), (heldBase.held? (coreOf 0) memTeam w).isSome = true) ∧
    (∃ w ∈ [heldAcc].flatMap (·.place.words), memBase.held? (coreOf 0) memTeam w = none) ∧
    (∀ w ∈ [heldAcc].flatMap (·.place.words), memBase.blockedEdge (dieOfLoc (4 * w)) 5 (dieOf (coreOf 0)) = none ∧
      memBase.peerAdmits (4 * w) = true) ∧ memBase.task? memTeam.task = some tk := by decide +kernel
/-- Ready loads of scratch, below the mapped region and in a filled line of it, of fleeting tiles and of constants. -/
def placed (spc : Nat) (ws : List Nat) : LaneAcc := ⟨0, 0, ⟨spc, ws, false⟩⟩
theorem witness_Loads_spaces :
    (let b : Block := { memBase.blockOf memTeam with touched := [16] }
     let c := memBase.cluster 0
     let s := (memBase.setBlock 0 b).setCluster 0 (c.setBank 0 { c.bank 0 with mode := .scratch })
     ∀ w ∈ [placed 1 [1, 512]].flatMap (·.place.words), (∀ n, bankOfLine (s.blockOf memTeam).banks (w / 32) = some n →
       ((s.cluster (clusterOf (coreOf 0))).bank n).mode = .scratch) ∧
       ((s.recOf memTeam).regionLine (w / 32) = none ∨ w / 32 ∈ (s.blockOf memTeam).touched) ∧ w ∉ (s.blockOf memTeam).badWords) ∧
    memBase.detOf memTeam = false ∧ (placed 2 [0]).place.shared = false ∧ (placed 3 [0]).place.spc = 3 ∧
    ∀ w ∈ [placed 4 [0, 1]].flatMap (·.place.words), w ∉ tk.badConsts := by
  refine ⟨fun w h => ?_, by decide +kernel⟩
  have hw : w = 1 ∨ w = 512 := by simpa [placed] using h
  rcases hw with rfl | rfl <;> refine ⟨fun n e => ?_, by decide +kernel⟩ <;>
    (rw [show bankOfLine _ _ = some 0 by decide +kernel] at e; cases e; decide +kernel)

def queued : PStore := { team := 0, task := 0, part := 0, uid := 0, block := 0, teamNo := 0, words := [(0x10000, 7)] }
def queuedBase : State := memBase.setCore 0 { memBase.core 0 with stores := [queued] }
theorem witness_WordsChanged : (0 : Nat) ≠ 7 ∧ [0x10000, 0x10001].Nodup ∧
    (memBase.core (coreOf 0)).l1.length + 2 ≤ Config.l1Lines ∧ memBase.memoryWf = true ∧ queuedBase.memoryWf = true ∧
    (∀ e ∈ queuedBase.cores, ∀ p ∈ e.2.stores, ∀ x ∈ p.words, x.1 ≠ 0x10001) ∧ queued ∈ (queuedBase.core 0).stores ∧
    (∀ w ∈ [0x10000, 0x10001], dirtyBy (memBase.cluster (clusterOf (coreOf 0))).l2 w = none) := by decide +kernel

/-- Chunks of q8, 272 bytes for two lane blocks, in scratch. -/
def chW (ord : BitVec 2) (spc : BitVec 3) : MF := ⟨pre1, 254, 0, 0, ord, spc, 0, 2, 1, 0, 1⟩
def chAccs (w : Bool) (spc : BitVec 3) : List (Nat × List LaneAcc) := got [] (chunkAccs 0 memTeam memBase (chW 0 spc) w (memTeam.acting pre1))
def q8Mem : Team := { memTeam with v := q8Team.v }
theorem witness_ScaledChunks : (chunkTag (chW 0 1) memTeam memBase).fmt.scaled = true ∧ mdVector (chW 0 1) memTeam memBase = .ok () ∧
    mCheck (chW 1 1) { ords := [0, 1], szs := [2], ams := [1] } memTeam memBase = .ok () ∧
    chunkAccs 0 memTeam memBase (chW 0 1) false (memTeam.acting pre1) = .ok (chAccs false 1) ∧
    loadReady 0 memTeam memBase false 0 ((chAccs false 1).flatMap (·.2)) = .ok () ∧
    mCheck (chW 2 1) { ords := [0, 2], spcs := [0, 1, 2, 3], szs := [2], ams := [1] } memTeam memBase = .ok () ∧
    (∃ w ∈ passesOf (memTeam.guarded pre1) memTeam.words, (memTeam.rv 254 w).tag.fmt.scaled = false) ∧
    (∀ w ∈ passesOf (q8Mem.guarded pre1) q8Mem.words, (q8Mem.rv 254 w).tag = chunkTag (chW 0 1) memTeam memBase) ∧
    stscStop (chW 0 1) 0 q8Mem (withTeam q8Mem) = none ∧
    chunkAccs 0 memTeam memBase (chW 0 1) true (memTeam.acting pre1) = .ok (chAccs true 1) ∧
    ∃ u s', storeLanes 0 q8Mem (withTeam q8Mem) 0 false 4 ((chAccs true 1).flatMap (fun c =>
      c.2.zip ((chunkWords (q8Mem.rv 254 c.1)).map (·.toNat)))) = .ok (u, s') :=
  ⟨by decide +kernel, ok_unit (by decide +kernel), ok_unit (by decide +kernel), ok_got [] (by decide +kernel), ok_unit (by decide +kernel),
    ok_unit (by decide +kernel), by decide +kernel, by decide +kernel, by decide +kernel, ok_got [] (by decide +kernel), ok_pair (by decide +kernel)⟩

def prfW : MF := ⟨pre1, 0, 10, 0, 0, 0, 0, 2, 1, 0, 0⟩
/-- `scwb` of the range whose base is s8:s9 and whose length is in s7. -/
def wbW : MF := ⟨pre1, 7, 8, 0, 0, 1, 0, 2, 3, 0, 0⟩
def wbTeam (n : Word) : Team := { memTeam with s := [(7, n)] }
def bqW (imm : BitVec 8) : MF := ⟨pre1, 63, 0, imm, 0, 1, 0, 0, 3, 0, 0⟩
/-- One dirty word, 512, in line 16 of the mapped region; the bank of the line in scratch mode or away from it. -/
def dirtyBase (away : Bool) : State :=
  let s := withTeam (wbTeam 4096)
  let b : Block := { s.blockOf bt with touched := [16], dirty := [(16, 1)], scratch := [(512, 9)] }
  let c := s.cluster 0
  (s.setBlock 0 b).setCluster 0 (c.setBank 0 { c.bank 0 with mode := if away then .cache else .scratch })
def dirtyAcc : LaneAcc := ⟨0, 0x200000, ⟨0, [0x80000], false⟩⟩
theorem witness_PrefetchWriteBackBankQuery : mCheck prfW { spcs := [0, 3] } memTeam memBase = .ok () ∧
    mCheck wbW { spcs := [1], szs := [2], ams := [3] } memTeam memBase = .ok () ∧
    mCheck (bqW 31) { spcs := [1], szs := [0], ams := [3] } memTeam memBase = .ok () ∧ wbW.md.toNat < 64 ∧
    (wbTeam 0).rs wbW.md.toNat = 0 ∧ (memBase.recOf memTeam).scratchBytes < 0 + ((wbTeam 4097).rs 7).toNat ∧
    0 + ((wbTeam 4096).rs 7).toNat ≤ (memBase.recOf memTeam).scratchBytes ∧ (wbTeam 4096).rs 7 ≠ 0 ∧ (bqW 31).md.toNat < 64 ∧
    memBase.detOf memTeam = false ∧ (laneAddr (bqW 31) memTeam 1 0).toNat ≤ 31 ∧ 31 < (laneAddr (bqW 32) memTeam 1 0).toNat :=
  ⟨ok_unit (by decide +kernel), ok_unit (by decide +kernel), ok_unit (by decide +kernel), by decide +kernel⟩
theorem witness_WriteBack : Issues (dirtyBase false) 0 (wbTeam 4096) ∧
    (∃ u s', storeLanes 0 (wbTeam 4096) (dirtyBase false) 0 false 4 [(dirtyAcc, 9)] = .ok (u, s')) ∧
    globalWords (wbTeam 4096) (dirtyBase false) true 0x200000 4 = .ok dirtyAcc.place ∧
    (∀ w ∈ [512], (dirtyBase false).lineStall ((dirtyBase false).blockOf bt) (w / 32) = none ∧
      ((dirtyBase false).blockOf bt).badWords.contains w = false) ∧
    [512].findSome? (fun w => (dirtyBase true).lineStall ((dirtyBase true).blockOf bt) (w / 32)) = some 0 :=
  ⟨issues_of (by decide +kernel), ok_pair (by decide +kernel), (ok_got dirtyAcc.place (by decide +kernel)).trans rfl, by decide +kernel⟩

/-- Partition 0 with both stages mapping the first GiB to itself. -/
def walkBase : State := { base with
  mem := [(0x100000, 1), (0x100001, 0x10), (0x100002, 0x10), (0x101000, 1), (0x101001, 0x20), (0x101002, 0x10), (0x102000, 6),
    (0x110000, 1), (0x110001, 0x10), (0x110002, 0x11), (0x111000, 1), (0x111001, 0x20), (0x111002, 0x11), (0x112000, 6)]
  parts := [(0, { ncl := 1, s1root := 0x110000, s2root := 0x100000, window := 1 })] }
/-- A line of the first GiB, which stage one and stage two map to itself, or one of die 1, its walk begun under this generation or
the one before. -/
def walking (gen : Word) (line : Nat) : State := { walkBase with cores := [(0, { refills := [⟨0, 0, 0, [0x40000], gen, line⟩] })] }
theorem witness_PrefetchWalks : walkBase.vloc bt.part 0x40000 = some 0x40000 ∧ base.vloc bt.part 0x40000 = none ∧
    (∀ v ∈ [0x40000, 0x40004], v / 128 = ([0x40000, 0x40004] : List Nat).headD 0 / 128) ∧ [0x40000, 0x40004] ≠ [] := by decide +kernel
theorem witness_PrefetchWalks_end : ∀ e ∈ [((0 : Word), 0x800), (1, 0x800), (0, 2 ^ 30)], let s := walking e.1 e.2
    Issues s 0 bt ∧ (s.core 0).refills = [⟨0, 0, 0, [0x40000], e.1, e.2⟩] ∧ (∀ e ∈ s.teams, e.2.wait = none) := by
  intro e he
  simp only [List.mem_cons, List.not_mem_nil, or_false] at he
  rcases he with rfl | rfl | rfl <;> exact ⟨issues_of (by decide +kernel), by decide +kernel, by decide +kernel⟩
theorem witness_PrefetchWalks_request : ((walking 0 0x800).part 0).walkGen = 0 ∧ ((walking 1 0x800).part 0).walkGen = 0 ∧
    cached ((walking 0 0x800).core 0).l1 (32 * 0x800 + 0x40000 / 4 % 32) = none ∧
    cached ((walking 0 0x800).cluster 0).l2 (32 * 0x800 + 0x40000 / 4 % 32) = none ∧
    (walking 0 0x800).blockedEdge (dieOfLoc (128 * 0x800)) 5 (dieOf 0) = none ∧ (walking 0 0x800).peerAdmits (128 * 0x800) = true ∧
    (walking 0 (2 ^ 30)).blockedEdge (dieOfLoc (128 * 2 ^ 30)) 5 (dieOf 0) = some (0, 0) := by decide +kernel
/-- The walk of a line that the core holds. -/
def walkHeld : State := heldBase.setCore 0 { heldBase.core 0 with refills := [⟨0, 0, 0, [0x40000], 0, 0x800⟩] }
theorem witness_PrefetchWalks_near : Issues walkHeld 0 memTeam ∧ (walkHeld.core 0).refills = [⟨0, 0, 0, [0x40000], 0, 0x800⟩] ∧
    (walkHeld.part 0).walkGen = 0 ∧ cached (walkHeld.core 0).l1 (32 * 0x800 + 0x40000 / 4 % 32) ≠ none :=
  ⟨issues_of (by decide +kernel), by decide +kernel⟩

def flW : MF := ⟨pre1, 254, 0, 0, 0, 2, 0, 2, 3, 0, 0⟩
theorem witness_FencesAndFleetingTiles : Issues memBase 0 memTeam ∧ acts pre1 memTeam ∧
    (∀ o ∈ [(1 : BitVec 2), 2, 3], (⟨pre1, 0, 0, 0, o, 0, 0, 0, 0, 0, 0⟩ : MF).ord ≠ 0) ∧
    mCheck flW { spcs := [2], szs := [2] } memTeam memBase = .ok () ∧ mdVector flW memTeam memBase = .ok () ∧
    (∃ accs, lanesFor 0 memTeam memBase flW true (memTeam.guarded pre1) = .ok accs) ∧
    ∃ accs, lanesFor 0 memTeam memBase flW false (memTeam.guarded pre1) = .ok accs :=
  ⟨mem_issues, mem_acts, by decide, ok_unit (by decide +kernel), ok_unit (by decide +kernel), ok_ex (by decide +kernel),
    ok_ex (by decide +kernel)⟩

/-- A word owned by core 0 in a line of its cache, and one that it does not own; the signature of the line or none. -/
def ownedBase : State := { heldBase with owners := [(0x10000, 0)] }
theorem witness_ReleaseAndAcquire : queuedBase.memoryWf = true ∧
    (∀ p ∈ (queuedBase.core (coreOf 0)).stores, ∀ e ∈ p.words, e.1 = 0x10000 → p.team = 0) ∧
    lastStored (queuedBase.core (coreOf 0)).stores 0x10000 = some 7 ∧ lastStored (queuedBase.core (coreOf 0)).stores 0x10001 = none ∧
    dirtyIn (ownedBase.core 0).l1 0x10000 = false ∧ Tab.get? ownedBase.owners 0x10000 = some 0 ∧ Tab.get? ownedBase.owners 0x10001 = none ∧
    (cached (ownedBase.core 0).l1 0x10001).isSome = true := by decide +kernel

def atW (md : BitVec 8) (sz : BitVec 3) (am : BitVec 2) (aop : BitVec 5) (mx : BitVec 8) : MF := ⟨pre1, md, 10, 0, 3, 0, 0, sz, am, aop, mx⟩
/-- The accesses of the returning atomic on pairs, and of the scalar one. -/
def atAccs (f : MF) : List (LaneAcc × Nat × Nat) :=
  (got [] (lanesFor 0 memTeam memBase f true (memTeam.acting pre1))).map (fun a => (a, 0, 0))
def casW : MF := atW 252 3 1 7 250
def addNr : MF := ⟨pre1, 0, 10, 0, 2, 0, 0, 2, 1, 0, 254⟩
theorem witness_Atomics_lanes : atomCheck casW false false memTeam memBase = .ok () ∧ mdVector casW memTeam memBase = .ok () ∧
    inFile memTeam memBase 250 2 ∧ (∃ accs, lanesFor 0 memTeam memBase casW true (memTeam.acting pre1) = .ok accs) ∧
    (∃ o u s', atomicLanes 0 memTeam memBase 7 true true true true true (atAccs casW) = .ok (o, u, s')) ∧
    atomCheck addNr true false memTeam memBase = .ok () ∧ inFile memTeam memBase 254 1 ∧ nrStop addNr 0 memTeam memBase = none ∧
    (∃ accs, lanesFor 0 memTeam memBase addNr true (memTeam.acting pre1) = .ok accs) ∧
    ∃ o u s', atomicLanes 0 memTeam memBase 0 false false false true true (atAccs addNr) = .ok (o, u, s') :=
  ⟨ok_unit (by decide +kernel), ok_unit (by decide +kernel), inFile_of (by decide +kernel), ok_ex (by decide +kernel),
    ok_three (by decide +kernel), ok_unit (by decide +kernel), inFile_of (by decide +kernel), by decide +kernel,
    ok_ex (by decide +kernel), ok_three (by decide +kernel)⟩
def casS : MF := atW 62 3 3 7 60
theorem witness_Atomics_team : atomCheck casS false true memTeam memBase = .ok () ∧ mdScalar casS 62 = .ok () ∧ scalarOk 60 true = true ∧
    atomCheck (⟨pre1, 0, 10, 0, 2, 0, 0, 2, 3, 0, 63⟩ : MF) true true memTeam memBase = .ok () ∧ scalarOk 63 false = true ∧
    teamAccess 0 memTeam memBase casS true 8 8 = .ok (got sstAcc (teamAccess 0 memTeam memBase casS true 8 8)) ∧
    (∃ o u s', atomicLanes 0 memTeam memBase 7 true true true true true
      [(got sstAcc (teamAccess 0 memTeam memBase casS true 8 8), 0, 0)] = .ok (o, u, s')) ∧
    ∃ o u s', atomicLanes 0 memTeam memBase 0 false false false true true [(heldAcc, 0, 0)] = .ok (o, u, s') :=
  ⟨ok_unit (by decide +kernel), ok_unit (by decide +kernel), by decide, ok_unit (by decide +kernel), by decide,
    ok_got _ (by decide +kernel), ok_three (by decide +kernel), ok_three (by decide +kernel)⟩
/-- Lanes 0 and 63 on one word. -/
def chainAccs : List (LaneAcc × Nat × Nat) := [(heldAcc, 1, 0), ({ heldAcc with lane := 63 }, 2, 0)]
theorem witness_Atomics_chain : memBase.memoryWf = true ∧ (∀ e ∈ chainAccs, e.1.place = { spc := 0, words := [0x10000] }) ∧
    (∀ e ∈ chainAccs, memBase.reach (dieOf (coreOf 0)) (4 * 0x10000) e.1.addr = .ok ()) ∧ Tab.get? memBase.poisoned 0x10000 = none ∧
    (∃ s1, memBase.chargeLines memTeam.task (chainAccs.flatMap (·.1.place.words)) = .ok s1) ∧ chainAccs ≠ [] :=
  ⟨by decide +kernel, by simp [chainAccs, heldAcc], fun e he => ok_unit (List.all_eq_true.mp (by decide +kernel :
      (chainAccs.all (fun e => isOk (memBase.reach (dieOf (coreOf 0)) (4 * 0x10000) e.1.addr))) = true) e he),
    by decide +kernel, ok_ex (by decide +kernel), by simp [chainAccs]⟩

/-! ### Engine words -/

def engTeam : Team := { bt with s := [(12, 0x40000), (14, 0x40080), (16, 0x40), (33, 128)] }
/-- Token s22, operands from s12, count s33; var gives `cpy` device memory to scratch and `mapld` slot 1 by columns. -/
def engW : EF := ⟨pre, 22, 12, 33, 15, 0, 0, 0, 1⟩
theorem eng_issues : Issues (withTeam engTeam) 0 engTeam := issues_of (by decide +kernel)
theorem witness_DroverCommands : Issues (withTeam engTeam) 0 engTeam ∧ acts engW.pre engTeam ∧
    (∀ e ∈ droverCommands engW 0 engTeam (withTeam engTeam), e.2.2) ∧
    (((withTeam engTeam).cluster (clusterOf (coreOf 0))).channel engW.eng.toNat).length < 16 ∧ engTeam.held = false := by
  refine ⟨eng_issues, base_acts, ?_, by decide +kernel, rfl⟩
  intro e he
  simp only [droverCommands, List.mem_cons, List.not_mem_nil, or_false] at he
  rcases he with rfl | rfl | rfl | rfl | rfl | rfl | rfl <;> dsimp only <;> decide +kernel
/-- Another token pending, and the register of this one read by nothing since it completed. -/
def pendEng : Team := { engTeam with pendTok := [20], tokSig := [(22, 5)] }
theorem witness_DroverCommands_pending : (withTeam pendEng).cur = some 0 ∧ (withTeam pendEng).team? 0 = some pendEng ∧
    pendEng.phase = 0 ∧ pendEng.intr = none ∧ pendEng.stopAt = none ∧ ((withTeam pendEng).part pendEng.part).breaksAt pendEng.pc = false ∧
    acts engW.pre pendEng ∧ pendEng.held = false ∧
    (∀ r ∈ (List.range 4).map (engW.dp.toNat + ·) ++ [engW.cn.toNat], Tab.get? pendEng.tokSig r = none ∧ (r ≠ 0 → r ∉ pendEng.pendTok)) ∧
    (engW.tk.toNat ≠ 0 → engW.tk.toNat ∉ pendEng.pendTok) ∧ (∀ e ∈ droverCommands engW 0 pendEng (withTeam pendEng), e.2.2) ∧
    (((withTeam pendEng).cluster (clusterOf (coreOf 0))).channel engW.eng.toNat).length < 16 := by
  refine ⟨by decide +kernel, by decide +kernel, rfl, rfl, rfl, by decide +kernel, base_acts, rfl, by decide +kernel, by decide, ?_, by decide +kernel⟩
  intro e he
  simp only [droverCommands, List.mem_cons, List.not_mem_nil, or_false] at he
  rcases he with rfl | rfl | rfl | rfl | rfl | rfl | rfl <;> dsimp only <;> decide +kernel
/-- The commit token held, the commit buffer not empty. -/
def heldEng : Team := { engTeam with held := true, buffer := [.store 0x40 [(0x40000, 1#8)] none] }
theorem witness_DroverCommands_token : Issues (withTeam heldEng) 0 heldEng ∧ acts engW.pre heldEng ∧ heldEng.held = true ∧
    heldEng.buffer ≠ [] ∧ ∃ e ∈ droverCommands engW 0 heldEng (withTeam heldEng), e.2.2 :=
  ⟨issues_of (by decide +kernel), base_acts, rfl, by decide, (.cpyt, .cpyt _, _), List.mem_cons_of_mem _ (List.mem_cons_self ..), by decide⟩
def aCmd : Cmd := { kind := .cpyt 0x40000, uid := 0, task := 0, blk := 0, blockNo := 0, teamNo := 0, id := 0, tok := 22, pc := 0, underToken := false }
def fullChannel : State := (withTeam engTeam).setChannel 0 15 (List.replicate 16 aCmd)
theorem witness_DroverCommands_full_and_empty : Issues fullChannel 0 engTeam ∧
    16 ≤ ((fullChannel.cluster (clusterOf (coreOf 0))).channel engW.eng.toNat).length ∧
    engTeam.rs (0#6 : BitVec 6).toNat = 0 ∧ engW.dp.toNat % 4 = 0 ∧ field engW.var 0 3 ≤ 2 ∧ field engW.var 3 3 ≤ 2 ∧
    (engTeam.rs2 engW.dp.toNat).toNat % 4 = 0 ∧ (engTeam.rs2 (engW.dp.toNat + 2)).toNat % 4 = 0 :=
  ⟨issues_of (by decide +kernel), by decide +kernel⟩
theorem witness_Batches :
    let t : Team := { bt with batches := [(0, [0]), (255, [0, 1])], cmds := [(0, { done := true }), (1, {})] }
    Issues (withTeam t) 0 t ∧ Tab.get t.batches [] 7 = [] ∧ (∃ i ∈ Tab.get t.batches [] 255, (Tab.get t.cmds {} i).done = false) ∧
      Tab.get t.batches [] 0 ≠ [] ∧ ∀ i ∈ Tab.get t.batches [] 0, (Tab.get t.cmds {} i).done = true :=
  ⟨issues_of (by decide +kernel), by decide +kernel⟩

/-- Queue 0 is a word FIFO, queue 1 a line FIFO, 2 the ready port and 3 the done port. -/
def qW (qb : BitVec 8) (var : BitVec 13) : EF := ⟨pre, 0, 0, 16, 0, 0, qb, 0, var⟩
def lineIdx : Team := { bt with s := [(16, 1)] }
def entry : QEntry := { data := 9, sig := 0 }
def fifoBase (l : List QEntry) : State :=
  let s := withTeam lineIdx
  s.setCluster 0 (((s.cluster 0).setBank 1 { mode := .fifo, fifo := l }).setBank 2 { mode := .fifo, width := true, fifo := l })
theorem witness_FifoQueues : Issues (fifoBase [entry]) 0 lineIdx ∧ acts pre lineIdx ∧
    ((qW 0 0).qb.toNat ≤ 7 ∧ (((fifoBase [entry]).recOf lineIdx).queue 0).kind = 1 ∧ (qW 0 0).lineForm = false) ∧
    ((((fifoBase [entry]).recOf lineIdx).queue 1).kind = 2 ∧ (qW 1 0x10FE).lineForm = true ∧
      ((fifoBase [entry]).recOf lineIdx).vecOk (field (qW 1 0x10FE).var 0 8) 1 1 = true ∧ (lineIdx.rs 16).toNat < lineIdx.words) ∧
    (((fifoBase [entry]).cluster 0).bank 1).fifo = entry :: [] ∧ entry.bad = false ∧
    (((fifoBase [{ entry with bad := true }]).cluster 0).bank 1).fifo = { entry with bad := true } :: [] ∧ (((fifoBase [entry]).cluster 0).bank 2).fifo.length < fifoSize true ∧
    (((fifoBase []).cluster 0).bank 1).fifo = [] :=
  ⟨issues_of (by decide +kernel), base_acts, by decide +kernel⟩
theorem witness_FifoQueues_full :
    (((fifoBase (List.replicate 262144 entry)).cluster 0).bank 1).fifo = List.replicate 262144 entry ∧
    fifoSize false ≤ (List.replicate 262144 entry).length ∧
    (((fifoBase (List.replicate 262144 entry)).cluster 0).bank 2).fifo = List.replicate 262144 entry ∧
    fifoSize true ≤ (List.replicate 262144 entry).length :=
  ⟨rfl, by rw [List.length_replicate]; decide, rfl, by rw [List.length_replicate]; decide⟩
def aGraph : Graph := { task := 0, count := 2, succ := [(0, [1])], counters := [(1, 1)], ring := [0] }
def graphBase (g : Graph) (t : Team) : State := (withTeam t).setCluster 0 { base.cluster 0 with graph := some g }
theorem witness_EscapementPorts : Issues (graphBase aGraph lineIdx) 0 lineIdx ∧
    ((graphBase aGraph lineIdx).cluster (clusterOf (coreOf 0))).graphOf lineIdx.task = some aGraph ∧ (qW 2 0).lineForm = false ∧
    (((graphBase aGraph lineIdx).recOf lineIdx).queue 2).kind = 3 ∧ (((graphBase aGraph lineIdx).recOf lineIdx).queue 3).kind = 4 ∧
    aGraph.ring = 0 :: [] ∧ ({ aGraph with ring := [], processed := 2 } : Graph).processed = aGraph.count ∧
    ({ aGraph with ring := [] } : Graph).processed ≠ aGraph.count ∧ (lineIdx.rs 16).toNat < aGraph.count ∧
    (let g : Graph := { aGraph with handed := [1] }; 1 ∈ g.handed ∧ 1 ∉ g.pushed ∧ g.port.length < 64) ∧
    (let g : Graph := { aGraph with handed := [1], port := List.replicate 64 (0, 0) }; 1 ∈ g.handed ∧ 1 ∉ g.pushed ∧ 64 ≤ g.port.length) ∧
    ((withTeam lineIdx).cluster (clusterOf (coreOf 0))).graphOf lineIdx.task = none ∧
    aGraph.bad = false ∧ ({ aGraph with bad := true } : Graph).bad = true ∧ 1 ∉ aGraph.handed ∧ aGraph.count ≤ (({ lineIdx with s := [(16, 2)] } : Team).rs 16).toNat ∧ engW.tk ≠ 0 ∧ engW.dp.toNat % 2 = 0 :=
  ⟨issues_of (by decide +kernel), by decide +kernel⟩

/-! ### Control words: s18 a target, s20 an address that is no multiple of 8, p1 the lower half of the lanes -/

def ctlTeam : Team := { bt with s := [(18, 0x20000), (20, 0x20004)], p := [(1, lanesBelow 32)] }
def BW (p : Pre) (r : Nat) (disp : BitVec 24) : BF := ⟨p, disp, BitVec.ofNat 26 (r * 2 ^ 20)⟩
def YW (p : Pre) (ya : BitVec 8) : YF := ⟨p, ya, 0, 0, 0, 0, 0⟩
theorem ctl_issues : Issues (withTeam ctlTeam) 0 ctlTeam := issues_of (by decide +kernel)
def anEntry (kind : Nat) : Entry := Entry.make 0x30000 kind (lanesBelow 32)
theorem witness_Branch : Issues (withTeam ctlTeam) 0 ctlTeam ∧ ctlTeam.active ≠ 0 ∧ ctlTeam.guarded offPre = 0 ∧
    ctlTeam.guarded pre = ctlTeam.active ∧ ctlTeam.guarded pre1 ≠ 0 ∧ ctlTeam.guarded pre1 ≠ ctlTeam.active ∧
    (∃ u s', pushEntry 0 (Entry.make (ctlTeam.pc + 8 * (0x800000#24).signExtend 64) kindPend (ctlTeam.guarded pre1)) ctlTeam
      (withTeam ctlTeam) = .ok (u, s')) ∧
    (let t : Team := { ctlTeam with stack := List.replicate 16 (anEntry 1), spilledEntries := 240 }
     256 ≤ t.stack.length + t.spilledEntries) :=
  ⟨ctl_issues, by decide +kernel, by decide +kernel, by decide +kernel, by decide +kernel, by decide +kernel,
    ok_pair (by decide +kernel), by decide⟩
theorem witness_UniformJumps : ctlTeam.guarded offPre = 0 ∧ acts pre ctlTeam ∧ acts pre1 ctlTeam ∧
    branchReg (BW pre 62 0) = 62 ∧ branchReg (BW pre 62 0) % 2 = 0 ∧ (YW pre 62).ya.toNat % 2 = 0 ∧ (YW pre 62).ya.toNat ≤ 63 ∧
    ctlTeam.guarded pre = ctlTeam.active ∧ ctlTeam.guarded pre1 ≠ ctlTeam.active ∧
    (ctlTeam.rs2 18 + 8 * (0xFFFFFF#24).signExtend 64) &&& 7 = 0 ∧ (ctlTeam.rs2 20 + 8 * (1#24).signExtend 64) &&& 7 ≠ 0 ∧
    (ctlTeam.pc + 8 * (1#24).signExtend 64) &&& 7 = 0 ∧
    (({ ctlTeam with pc := 0x10004 } : Team).pc + 8 * (1#24).signExtend 64) &&& 7 ≠ 0 ∧
    branchReg (BW pre 0 0) = 0 ∧ branchReg (BW pre 61 0) % 2 = 1 ∧ (YW pre 0).ya = 0 ∧ (YW pre 61).ya.toNat % 2 = 1 ∧
    63 < (YW pre 64).ya.toNat ∧ ({ YW pre 62 with yk := 1 } : YF).yk ≠ 0 :=
  ⟨by decide +kernel, base_acts, by unfold acts; decide +kernel, by decide +kernel⟩
def deepTeam : Team := { ctlTeam with stack := List.replicate 16 (anEntry 1), spilledEntries := 239 }
theorem witness_StackJoinAndSync : deepTeam.stack.length + deepTeam.spilledEntries < 256 ∧ deepTeam.stack.length = 16 ∧
    deepTeam.stack.getLast? = some (anEntry 1) ∧
    (withTeam deepTeam).imageLocs 0 deepTeam 239 = some ((List.range 36).map (fun j => 0x1000000 + 144 * 239 + 4 * j)) ∧
    (withTeam deepTeam).spillCheck 0 deepTeam false 239 = .ok () ∧ reloadCheck 0 deepTeam (withTeam deepTeam) = .ok () ∧
    (∃ u s', pushEntry 0 (Entry.make (deepTeam.pc + 8 * (0x7FFFFF#24).signExtend 64) kindJoin deepTeam.active) deepTeam
      (withTeam deepTeam) = .ok (u, s')) ∧ ctlTeam.stack.length < 16 ∧ ctlTeam.stack = [] ∧
    (∃ r, popEntry 0 deepTeam (withTeam deepTeam) = some r ∧ r.1.mask &&& ~~~r.2.retired ≠ 0 ∧ r.1.kind = kindJoin) ∧
    (∃ r, popEntry 0 { ctlTeam with stack := [anEntry 3] } base = some r ∧ r.1.mask &&& ~~~r.2.retired ≠ 0 ∧ r.1.kind = kindTrap) ∧
    (∃ r, popEntry 0 { ctlTeam with stack := [anEntry 4], resumes := [lane1 0] } base = some r ∧ r.1.mask &&& ~~~r.2.retired ≠ 0 ∧
      r.1.kind = kindResume ∧ r.2.resumes.headD 0 ≠ 0) :=
  ⟨by decide +kernel, by decide +kernel, by decide +kernel, by decide +kernel, ok_unit (by decide +kernel), ok_unit (by decide +kernel),
    ok_pair (by decide +kernel), by decide +kernel, by decide +kernel, ⟨(anEntry 1, { deepTeam with stack := List.replicate 15 (anEntry 1) }), by decide +kernel⟩,
    ⟨(anEntry 3, ctlTeam), by decide +kernel⟩, ⟨(anEntry 4, { ctlTeam with resumes := [lane1 0] }), by decide +kernel⟩⟩
/-- R57: an image over the edge of a page: its last four words lie on the next page, 16 MiB on. -/
def edgeTask : Task :=
  { tk with lr := { rec1 with privBase := 0x100FF80 },
            pins := [{ va := 0x1000000, size := 0x10000, dpa := 0x1000000, w := true, gpas := [] },
                     { va := 0x1010000, size := 0x10000, dpa := 0x2010000, w := true, gpas := [] }] }
theorem test_image_over_two_pages : ((withTeam deepTeam).setTask 0 edgeTask).imageLocs 0 deepTeam 0 =
    some ((List.range 32).map (fun j => 0x100FF80 + 4 * j) ++ (List.range 4).map (fun j => 0x2010000 + 4 * j)) := by decide +kernel
/-- Lanes 0 to 31 retired: the entry on top of the stack is empty, or both are. -/
def goneTeam : Team := { ctlTeam with retired := lanesBelow 32, active := lane1 40, stack := [anEntry 1, Entry.make 0x30008 1 (lane1 63)] }
theorem witness_ImpliedSync : goneTeam.stack = [anEntry 1] ++ Entry.make 0x30008 1 (lane1 63) :: [] ∧ [anEntry 1] ≠ [] ∧
    goneTeam.spilledEntries = 0 ∧ goneTeam.stack.length ≤ 16 ∧ goneTeam.pend = none ∧
    (∀ x ∈ [anEntry 1], x.mask &&& ~~~goneTeam.retired = 0) ∧
    (Entry.make 0x30008 1 (lane1 63)).mask &&& ~~~goneTeam.retired ≠ 0 ∧ goneTeam.guarded pre = goneTeam.active ∧
    (∀ x ∈ [anEntry 1], x.mask &&& ~~~(goneTeam.retired ||| goneTeam.guarded pre) = 0) ∧
    (Entry.make 0x30008 1 (lane1 63)).mask &&& ~~~(goneTeam.retired ||| goneTeam.guarded pre) ≠ 0 ∧
    (∀ x ∈ ({ goneTeam with stack := [anEntry 1] } : Team).stack, x.mask &&& ~~~(goneTeam.retired ||| goneTeam.guarded pre) = 0) := by
  decide +kernel
/-- Lane 0 has trapped; the other lanes, all of an `exit`, are the last. -/
def trapLast : Team := { ctlTeam with tlanes := lane1 0, pend := some { succ := 0x10008, at_ := lane1 0 } }
theorem witness_ExitRetiresLanes_trap : Issues (withTeam trapLast) 0 trapLast ∧ acts pre trapLast ∧
    trapLast.guarded pre = trapLast.active ∧ trapLast.pend ≠ none :=
  ⟨issues_of (by decide +kernel), by unfold acts; decide +kernel, by decide +kernel⟩
theorem witness_ExitRetiresLanes : acts pre1 ctlTeam ∧ ctlTeam.guarded pre1 ≠ ctlTeam.active ∧ ctlTeam.guarded pre = ctlTeam.active ∧
    ctlTeam.stack = [] ∧ ctlTeam.pend = none ∧ (withTeam ctlTeam).task? ctlTeam.task = some tk ∧ tk.det = false ∧
    ((withTeam ctlTeam).block? ctlTeam.blk).map (·.dirty) = some [] := ⟨by unfold acts; decide +kernel, by decide +kernel⟩
def rgW (yk : BitVec 2) (va vb : BitVec 8) : YF := ⟨pre, va, vb, 0, 0, 0, yk⟩
def rgTeam : Team := { ctlTeam with active := lane1 63, stack := [anEntry 1] }
theorem witness_Regroup : Issues (withTeam rgTeam) 0 rgTeam ∧ (rgW 0 0 0).yk.toNat < 2 ∧ (rgW 1 0 254).yk.toNat < 2 ∧
    (rgW 1 0 254).ya.toNat ≤ (rgW 1 0 254).yb.toNat ∧ (rgW 1 0 254).yb.toNat < ((withTeam rgTeam).recOf rgTeam).regs ∧
    (∃ e ∈ allEntries 0 { rgTeam with stack := [anEntry 2] } base, e.kind = kindPend ∨ e.kind = kindResume) ∧
    (∀ e ∈ allEntries 0 rgTeam (withTeam rgTeam), e.kind ≠ kindPend ∧ e.kind ≠ kindResume) ∧
    rgTeam.lanes ≤ 1024 ∧ (∀ i, i < rgTeam.spilledEntries → (withTeam rgTeam).spillCheck 0 rgTeam true i = .ok ()) ∧
    (∀ r ∈ [254], ∀ w < rgTeam.words, (rgTeam.rv r w).tag.plain = true) ∧
    renumber (lanesOf ((rgTeam.active ||| (lanesBelow 32) ||| rgTeam.tlanes) &&& ~~~rgTeam.retired) rgTeam.words) rgTeam.active ≠ 0 :=
  ⟨issues_of (by decide +kernel), by decide, by decide, by decide, by decide +kernel, by decide +kernel, by decide +kernel, by decide,
    fun i h => absurd h (Nat.not_lt_zero i), by decide +kernel⟩
theorem witness_Regroup_tag : let t := rgTeam.wv 254 1 { data := 0, tag := { fmt := .q8 } }
    Issues (withTeam t) 0 t ∧ acts pre t ∧ (rgW 1 0 254).yb.toNat = 254 ∧ 1 < t.words ∧ (t.rv 254 1).tag.plain = false :=
  ⟨issues_of (by decide +kernel), by unfold acts; decide +kernel, by decide +kernel⟩

/-! ### Barriers, park, system words -/

def arrTeam : Team := { bt with arrived := [(0, 0)] }
def doneTask : Task := { tk with gstate := [(0, { gen := 1, done := some ⟨0, 0, 0, [], []⟩ })] }
def barW (slot : BitVec 8) : YF := ⟨pre, 0, 0, 0, slot, 0, 0⟩
theorem witness_Barriers : Issues base 0 bt ∧ (barW 0).sel.toNat < 4 ∧ base.task? bt.task = some tk ∧ tk.groupSlot bt.block bt.team 0 = some 0 ∧
    Tab.get? bt.arrived 0 = none ∧ (∃ u s', arriveAt 0 0 bt base = .ok (u, s')) ∧
    (let r := got (bt, base) (arriveAt 0 0 bt base)
     Tab.get? r.1.arrived 0 = some 0 ∧ r.2.generationDone bt.task (r.2.groupOf r.1 0) 0 0 = true) ∧
    Issues (withTeam arrTeam) 0 arrTeam ∧ Tab.get? arrTeam.arrived 0 = some 0 ∧
    (withTeam arrTeam).generationDone bt.task 0 0 0 = false ∧ ((withTeam arrTeam).setTask 0 doneTask).generationDone bt.task 0 0 0 = true :=
  ⟨base_issues, by decide, by decide +kernel, by decide +kernel, by decide +kernel, ok_pair (by decide +kernel), by decide +kernel,
    issues_of (by decide +kernel), by decide +kernel⟩
/-- A group of two teams, of which one has arrived. -/
def twoTask : Task := { tk with lr := { rec1 with teams := 2 }, groups := [⟨0, 1, 1, 3⟩] }
theorem witness_Generations : (base.setTask 0 twoTask).task? 0 = some twoTask ∧ twoTask.groups[0]? = some ⟨0, 1, 1, 3⟩ ∧
    (insertNew (Tab.get twoTask.gstate {} 0).arrived 0).length < (⟨0, 1, 1, 3⟩ : Group).members 2 ∧
    (⟨0, 1, 1, 1⟩ : Group).members 1 ≤ (insertNew (Tab.get tk.gstate {} 0).arrived 0).length ∧
    Issues (base.setTask 0 twoTask) 0 bt ∧
    (let r := got (bt, base) (arriveAt 0 0 bt (base.setTask 0 twoTask))
     Tab.get? r.1.arrived 0 = some 0 ∧ r.2.generationDone bt.task (r.2.groupOf r.1 0) 0 0 = false) :=
  ⟨by decide +kernel, by decide +kernel, by decide +kernel, by decide +kernel, issues_of (by decide +kernel), by decide +kernel⟩
/-- The word at 0x40000 is 0: s8 its address, s62 and s63 expected value and time. -/
def parkW (e d : BitVec 8) : YF := ⟨pre, 8, e, d, 0, 0, 0⟩
def parkTeam : Team := { bt with s := [(8, 0x40000), (62, 1), (63, 0xFFFFFFFF)] }
def parkSt : State := withTeam parkTeam
theorem witness_ParkAndWake : Issues parkSt 0 parkTeam ∧ parkWord 0 (parkW 62 63) parkTeam parkSt = .ok 0x10000 ∧
    parkSt.reach (dieOf (coreOf 0)) (4 * 0x10000) (parkTeam.rs2 8) = .ok () ∧
    (∃ v u s', parkLoad 0 0x10000 (parkTeam.rs2 8) parkTeam parkSt = .ok (v, u, s')) ∧
    (parkW 62 63).ya.toNat % 2 = 0 ∧ (parkW 62 63).ya.toNat ≤ 63 ∧ (parkW 62 63).yb.toNat ≤ 63 ∧ (parkW 62 63).yc.toNat ≤ 63 ∧
    parkSt.detOf parkTeam = false ∧ Tab.get? parkSt.poisoned 0x10000 = none ∧
    (got (1, bt, base) (parkLoad 0 0x10000 (parkTeam.rs2 8) parkTeam parkSt)).1 = 0 ∧ (0 : Word) ≠ parkTeam.rs 62 ∧
    (0 : Word) = parkTeam.rs 61 ∧ parkTeam.rs 63 ≠ 0 ∧ parkTeam.rs 0 = 0 :=
  ⟨issues_of (by decide +kernel), (ok_got 0 (by decide +kernel)).trans (congrArg _ (by decide +kernel)), ok_unit (by decide +kernel),
    ok_three (by decide +kernel), by decide +kernel⟩
/-- The word of die 1 across a closed edge, its address in s8. -/
def farPark : State := parkSt.setTask 0 farTask
theorem witness_ParkAndWake_edge : Issues farPark 0 parkTeam ∧ parkWord 0 (parkW 62 63) parkTeam farPark = .ok (2 ^ 35 + 0x10000) ∧
    farPark.blockedEdge (dieOfLoc (4 * (2 ^ 35 + 0x10000))) 5 (dieOf (coreOf 0)) = some (0, 0) ∧ farPark.detOf parkTeam = false :=
  ⟨issues_of (by decide +kernel), (ok_got 0 (by decide +kernel)).trans (congrArg _ (by decide +kernel)), by decide +kernel⟩
/-- The second virtual cluster of a partition whose first is cluster 5; a deterministic launch; a queue of each kind. -/
theorem witness_SpecialRegisters_values :
    (let s := base.setPart 0 { ncl := 2, cltab := 5 }
     1 < (s.part bt.part).ncl ∧ field (s.part bt.part).cltab (4 * 1) 4 = clusterOf (coreOf 0) ∧
     ∀ d, d < 1 → field (s.part bt.part).cltab (4 * d) 4 ≠ clusterOf (coreOf 0)) ∧
    base.task? bt.task = some tk ∧ tk.lr.det = false ∧ detTask.lr.det = true ∧ fullTeam.buffer.length ≤ 256 ∧
    tk.lr.fmts[2]? = some 4 ∧ (base.recOf bt).queue 0 = ⟨1, 1⟩ ∧ (base.recOf bt).queue 1 = ⟨2, 2⟩ ∧ (base.recOf bt).queue 7 = ⟨0, 0⟩ ∧
    ((graphBase aGraph lineIdx).cluster (clusterOf (coreOf 0))).graphOf bt.task = some aGraph := by decide +kernel
theorem witness_SpecialRegisters : specialIndex 0x0D = some 32 ∧ specialIndex 0x12 = some 15 ∧ specialIndex 2 = some 0 ∧ specialIndex 0x13 = none ∧
    specialWide 9 = true ∧ bit (62#8) 0 = false ∧ (base.recOf bt).vecOk 252 2 2 = true ∧ (base.recOf bt).vecOk 254 1 1 = true := by
  decide +kernel
/-- Words that `srd` and `swr` refuse: yk, sel, idx, ya. -/
def RW (yk : BitVec 2) (sel : BitVec 8) (idx : BitVec 6) (ya : BitVec 8) : YF := ⟨pre, ya, 0, 0, sel, idx, yk⟩
theorem witness_SpecialRegisters_illegal : specialIndex (RW 0 0x13 0 7).sel.toNat = none ∧ 2 ≤ (RW 2 2 0 7).yk.toNat ∧ (RW 0 1 0 7).yk = 0 ∧
    (RW 0 1 0 7).sel.toNat < 2 ∧ specialIndex (RW 0 2 1 7).sel.toNat = some 0 ∧ 0 < (RW 0 2 1 7).idx.toNat ∧
    specialIndex (RW 0 9 0 61).sel.toNat = some 0 ∧ (RW 0 9 0 61).idx.toNat ≤ 0 ∧ 2 ≤ (RW 0 9 0 61).sel.toNat ∧
    specialWide (RW 0 9 0 61).sel.toNat = true ∧ bit (RW 0 9 0 61).ya 0 = true ∧ 63 < (RW 0 2 0 64).ya.toNat ∧
    (base.recOf bt).vecOk (RW 1 9 0 255).ya.toNat 2 2 = false ∧ (base.recOf bt).vecOk (RW 1 2 0 255).ya.toNat 1 1 = false ∧
    ((RW 0 8 0 7).sel.toNat ≠ 0x0A ∧ (RW 0 8 0 7).sel.toNat ≠ 0x0B ∧ (RW 0 8 0 7).sel.toNat ≠ 0x0C) ∧
    (RW 0 0x0C 0 64).sel.toNat = 0x0C ∧ 63 < (RW 0 0x0C 0 64).ya.toNat := by decide +kernel
/-- One of the two lanes, or both, have performed the store. -/
def didTeam (m : Mask) : Team := { memTeam with did := m }
def leftOf (m : Mask) : Mask := (didTeam m).guarded pre1 &&& ~~~m
/-- What the statement asks of the team. -/
def Resumed (t : Team) : Prop := (withTeam t).cur = some 0 ∧ (withTeam t).team? 0 = some t ∧ t.phase = 0 ∧ t.intr = none ∧
  t.stopAt = none ∧ t.pendTok = [] ∧ t.tokSig = [] ∧ ((withTeam t).part t.part).breaksAt t.pc = false ∧ t.active ≠ 0
theorem resumed_did (m : Mask) : Resumed (didTeam m) :=
  ⟨rfl, rfl, rfl, rfl, rfl, rfl, rfl,
   (by decide +kernel : ((withTeam memTeam).part memTeam.part).breaksAt memTeam.pc = false), (by decide +kernel : memTeam.active ≠ 0)⟩
theorem witness_ResumedStore : Resumed (didTeam (lane1 0)) ∧ Resumed (didTeam (lane1 0 ||| lane1 63)) ∧
    leftOf (lane1 0 ||| lane1 63) = 0 ∧ leftOf (lane1 0) ≠ 0 ∧ (didTeam (lane1 0)).words = 2 :=
  ⟨resumed_did _, resumed_did _, by decide +kernel⟩
theorem witness_ResumedStore_data : let t := didTeam (lane1 0)
    mCheck stP { ords := [0, 2], spcs := [0, 1, 2, 3] } t (withTeam t) = .ok () ∧ mdVector stP t (withTeam t) = .ok () ∧
    vstData 0 stP t (withTeam t) (maskSpan (leftOf (lane1 0)) 0 2) = .ok (got [] (vstData 0 stP t (withTeam t) (maskSpan (leftOf (lane1 0)) 0 2))) ∧
    bufferStop t (leftOf (lane1 0)) (entriesOf (unitSize (accessSize stP)) (leftOf (lane1 0)) t (withTeam t) (vstData 0 stP)) = none ∧
    ∃ u s', storeLanes 0 t (withTeam t) 0 false (unitSize (accessSize stP))
      (got [] (vstData 0 stP t (withTeam t) (maskSpan (leftOf (lane1 0)) 0 2))) = .ok (u, s') :=
  ⟨ok_unit (by decide +kernel), ok_unit (by decide +kernel), ok_got [] (by decide +kernel), by decide +kernel, ok_pair (by decide +kernel)⟩
def trapped : Team := { bt with active := lanesBelow 32, tlanes := lane1 63, tcause := 1, pend := some { at_ := lanesBelow 64, succ := 0x10008 }, broke := true }
def untrapped : State := (withTeam trapped).setTask 0 { tk with lr := { rec1 with trapVec := 0 } }
def resumeTeam : Team := { bt with active := lane1 0, stack := [Entry.make 0x10000 kindResume (lane1 63)] }
theorem witness_TrapsRaisedAndTaken : Issues base 0 bt ∧ bt.tlanes = 0 ∧ Issues (withTeam trapped) 0 trapped ∧ trapped.entered = false ∧
    trapped.tlanes ≠ 0 ∧ trapped.pend ≠ none ∧ (withTeam trapped).trapDue 0 trapped = true ∧ trapped.stack.length + 2 ≤ 16 ∧
    trapped.spilledEntries = 0 ∧ ((withTeam trapped).recOf trapped).trapVec ≠ 0 ∧ (untrapped.recOf trapped).trapVec = 0 ∧
    untrapped.trapDue 0 trapped = true ∧ resumeTeam.stack = Entry.make 0x10000 kindResume (lane1 63) :: [] ∧
    (Entry.make 0x10000 kindResume (lane1 63)).kind = kindResume ∧ (Entry.make 0x10000 kindResume (lane1 63)).pc = resumeTeam.pc :=
  ⟨base_issues, rfl, issues_of (by decide +kernel), by decide +kernel⟩
/-- An enabled breakpoint at the pc; lanes that trap already wait with their point, or none do. -/
def brkBase (t : Team) : State := (withTeam t).updPart 0 (fun x => { x with bkpt := [(0, 0x10001)] })
theorem witness_Breakpoints : ((brkBase bt).part bt.part).breaksAt bt.pc = true ∧ bt.tlanes = 0 ∧ (brkBase bt).cur = some 0 ∧
    (brkBase bt).team? 0 = some bt ∧ bt.phase = 0 ∧ bt.intr = none ∧ bt.stopAt = none ∧ bt.pendTok = [] ∧ bt.tokSig = [] ∧
    ((brkBase trapped).part trapped.part).breaksAt trapped.pc = true ∧ trapped.pend ≠ none ∧ (brkBase trapped).team? 0 = some trapped := by
  decide +kernel
/-- The first of two teams of a deterministic launch, with the token or without it, about to end. -/
def detPair : Task := { twoTask with lr := { twoTask.lr with det := true } }
def detEnd (t : Team) : State := (base.setTask 0 detPair).setTeam 0 t
def tokenTeam : Team := { bt with held := true }
theorem witness_CommitToken_end : Issues (detEnd bt) 0 bt ∧ Issues (detEnd tokenTeam) 0 tokenTeam ∧ bt.guarded pre = bt.active ∧
    bt.active ≠ 0 ∧ bt.stack = [] ∧ bt.spilledEntries = 0 ∧ bt.pend = none ∧ (detEnd bt).task? bt.task = some detPair ∧
    detPair.det = true ∧ bt.passed = false ∧ bt.canPass = false ∧ tokenTeam.canPass = true ∧
    ((detEnd tokenTeam).block? bt.blk).map (·.dirty) = some [] ∧ detPair.teamId bt.block bt.team + 1 < detPair.lr.grid * detPair.lr.teams :=
  ⟨issues_of (by decide +kernel), issues_of (by decide +kernel), by decide +kernel⟩
theorem witness_CommitToken : base.detOf bt = false ∧ Issues detBase 0 bt ∧ detBase.detOf bt = true ∧ bt.passed = false ∧ bt.held = false ∧
    bt.canPass = false ∧ ({ bt with held := true } : Team).canPass = true ∧
    Issues (detBase.setTeam 0 { bt with held := true }) 0 { bt with held := true } ∧
    Issues (detBase.setTeam 0 { bt with passed := true }) 0 { bt with passed := true } :=
  ⟨by decide +kernel, issues_of (by decide +kernel), by decide +kernel, rfl, rfl, by decide +kernel, by decide +kernel,
    issues_of (by decide +kernel), issues_of (by decide +kernel)⟩
theorem witness_DynamicLaunch : engW.tk ≠ 0 ∧ engW.dp ≠ 0 ∧ bit engW.dp 0 = false ∧ (withTeam engTeam).task? engTeam.task = some tk ∧
    (engTeam.rs2 engW.dp.toNat).toNat % 512 = 0 ∧
    ∃ p, resolve 0 engTeam (withTeam engTeam) 0 false 512 4 (engTeam.rs2 engW.dp.toNat) = .ok p :=
  ⟨by decide, by decide, by decide, by decide +kernel, by decide +kernel, ok_ex (by decide +kernel)⟩
theorem witness_DynamicLaunch_token : Issues (withTeam heldEng) 0 heldEng ∧ acts engW.pre heldEng ∧ heldEng.held = true ∧ heldEng.buffer ≠ [] ∧
    (∃ p, resolve 0 heldEng (withTeam heldEng) 0 false 512 4 (heldEng.rs2 engW.dp.toNat) = .ok p) ∧
    (engTeam.held = true → engTeam.buffer = []) ∧ Issues (withTeam engTeam) 0 engTeam ∧ acts engW.pre engTeam :=
  ⟨issues_of (by decide +kernel), base_acts, rfl, by decide, ok_ex (by decide +kernel), by decide, issues_of (by decide +kernel), base_acts⟩
/-- Teams of a deterministic launch whose leases are shared: the token passed; held and the buffer not empty; not held. -/
def sharedWith (t : Team) : State := (base.setTask 0 sharedTask).setTeam 0 t
def passedTeam : Team := { q8Mem with passed := true }
def heldTeam : Team := { q8Mem with held := true, buffer := [.store 0x40 [(0x40000, 1#8)] none] }
theorem witness_CommitToken_shared : Issues (sharedWith passedTeam) 0 passedTeam ∧ passedTeam.passed = true ∧
    Issues (sharedWith heldTeam) 0 heldTeam ∧ heldTeam.passed = false ∧ heldTeam.held = true ∧ heldTeam.buffer ≠ [] ∧
    Issues (sharedWith q8Mem) 0 q8Mem ∧ q8Mem.passed = false ∧ q8Mem.held = false ∧ acts pre1 q8Mem ∧ q8Mem.buffer.length + 4 ≤ 256 :=
  ⟨issues_of (by decide +kernel), rfl, issues_of (by decide +kernel), rfl, rfl, by decide, issues_of (by decide +kernel), rfl, rfl,
    by unfold acts; decide +kernel, by decide⟩
def inShared (f : MF) (write : Bool) : List LaneAcc := got [] (lanesFor 0 q8Mem (sharedWith q8Mem) f write (q8Mem.acting pre1))
def chShared : MF := ⟨pre1, 254, 10, 0, 0, 0, 0, 2, 1, 0, 1⟩
def sharedChunks : List (Nat × List LaneAcc) := got [] (chunkAccs 0 q8Mem (sharedWith q8Mem) chShared false (q8Mem.acting pre1))
theorem witness_CommitToken_loads :
    (mCheck (MW 254 10 0 1 0 2 1) { ords := [0, 1] } q8Mem (sharedWith q8Mem) = .ok () ∧ mdVector (MW 254 10 0 1 0 2 1) q8Mem (sharedWith q8Mem) = .ok () ∧
      lanesFor 0 q8Mem (sharedWith q8Mem) (MW 254 10 0 1 0 2 1) false (q8Mem.acting pre1) = .ok (inShared (MW 254 10 0 1 0 2 1) false) ∧
      ∃ a ∈ inShared (MW 254 10 0 1 0 2 1) false, a.place.shared = true) ∧
    (mCheck (MW 62 10 0 1 0 3 3) { ords := [0, 1], szs := [0, 1, 2, 3], ams := [3] } q8Mem (sharedWith q8Mem) = .ok () ∧
      mdScalar (MW 62 10 0 1 0 3 3) 62 = .ok () ∧
      isOk (teamAccess 0 q8Mem (sharedWith q8Mem) (MW 62 10 0 1 0 3 3) false 8 8) = true ∧
      (got heldAcc (teamAccess 0 q8Mem (sharedWith q8Mem) (MW 62 10 0 1 0 3 3) false 8 8)).place.shared = true) ∧
    (mCheck chShared { ords := [0, 1], szs := [2], ams := [1] } q8Mem (sharedWith q8Mem) = .ok () ∧ mdVector chShared q8Mem (sharedWith q8Mem) = .ok () ∧
      (chunkTag chShared q8Mem (sharedWith q8Mem)).fmt.scaled = true ∧
      chunkAccs 0 q8Mem (sharedWith q8Mem) chShared false (q8Mem.acting pre1) = .ok sharedChunks ∧
      ∃ c ∈ sharedChunks, ∃ a ∈ c.2, a.place.shared = true) :=
  ⟨⟨ok_unit (by decide +kernel), ok_unit (by decide +kernel), ok_got [] (by decide +kernel), by decide +kernel⟩,
    ⟨ok_unit (by decide +kernel), ok_unit (by decide +kernel), by decide +kernel, by decide +kernel⟩,
    ⟨ok_unit (by decide +kernel), ok_unit (by decide +kernel), by decide +kernel, ok_got [] (by decide +kernel), by decide +kernel⟩⟩
def stShared : List (LaneAcc × Nat) := got [] (vstData 0 stP q8Mem (sharedWith q8Mem) (q8Mem.acting pre1))
def stscShared : List (LaneAcc × Nat) := got [] (stscData 0 chShared q8Mem (sharedWith q8Mem) (q8Mem.acting pre1))
theorem witness_CommitToken_stores :
    (mCheck stP { ords := [0, 2], spcs := [0, 1, 2, 3] } q8Mem (sharedWith q8Mem) = .ok () ∧ mdVector stP q8Mem (sharedWith q8Mem) = .ok () ∧
      vstStop stP 0 q8Mem (sharedWith q8Mem) = none ∧
      vstData 0 stP q8Mem (sharedWith q8Mem) (q8Mem.acting pre1) = .ok stShared ∧ stShared ≠ [] ∧ ∀ e ∈ stShared, e.1.place.shared = true) ∧
    (mCheck chShared { ords := [0, 2], spcs := [0, 1, 2, 3], szs := [2], ams := [1] } q8Mem (sharedWith q8Mem) = .ok () ∧
      chunkTagsOk q8Mem (q8Mem.guarded pre1) 254 (chunkTag chShared q8Mem (sharedWith q8Mem)) = true ∧
      stscStop chShared 0 q8Mem (sharedWith q8Mem) = none ∧
      stscData 0 chShared q8Mem (sharedWith q8Mem) (q8Mem.acting pre1) = .ok stscShared ∧ stscShared ≠ [] ∧
      ∀ e ∈ stscShared, e.1.place.shared = true) ∧
    (mCheck (MW 62 10 0 2 0 3 3) { ords := [0, 2], spcs := [0, 1, 2, 3], szs := [0, 1, 2, 3], ams := [3] } q8Mem (sharedWith q8Mem) = .ok () ∧
      isOk (teamAccess 0 q8Mem (sharedWith q8Mem) (MW 62 10 0 2 0 3 3) true 8 8) = true ∧
      (got heldAcc (teamAccess 0 q8Mem (sharedWith q8Mem) (MW 62 10 0 2 0 3 3) true 8 8)).place.shared = true) :=
  ⟨⟨ok_unit (by decide +kernel), ok_unit (by decide +kernel), by decide +kernel, ok_got [] (by decide +kernel), by decide +kernel, by decide +kernel⟩,
    ⟨ok_unit (by decide +kernel), by decide +kernel, by decide +kernel, ok_got [] (by decide +kernel), by decide +kernel, by decide +kernel⟩,
    ⟨ok_unit (by decide +kernel), by decide +kernel, by decide +kernel⟩⟩
def satomNrW : MF := ⟨pre1, 0, 10, 0, 2, 0, 0, 2, 3, 0, 63⟩
theorem witness_CommitToken_atomics :
    (atomCheck casW false false q8Mem (sharedWith q8Mem) = .ok () ∧ mdVector casW q8Mem (sharedWith q8Mem) = .ok () ∧ casW.aop = 7 ∧
      ((sharedWith q8Mem).recOf q8Mem).vecOk casW.mx.toNat (dataRegs casW.sz) (dataRegs casW.sz) = true ∧
      lanesFor 0 q8Mem (sharedWith q8Mem) casW true (q8Mem.acting pre1) = .ok (inShared casW true) ∧
      ∃ a ∈ inShared casW true, a.place.shared = true) ∧
    (atomCheck casS false true q8Mem (sharedWith q8Mem) = .ok () ∧ casS.aop = 7 ∧
      isOk (teamAccess 0 q8Mem (sharedWith q8Mem) casS true 8 8) = true ∧
      (got heldAcc (teamAccess 0 q8Mem (sharedWith q8Mem) casS true 8 8)).place.shared = true) ∧
    (atomCheck addNr true false q8Mem (sharedWith q8Mem) = .ok () ∧
      ((sharedWith q8Mem).recOf q8Mem).vecOk addNr.mx.toNat (dataRegs addNr.sz) (dataRegs addNr.sz) = true ∧
      nrStop addNr 0 q8Mem (sharedWith q8Mem) = none ∧
      lanesFor 0 q8Mem (sharedWith q8Mem) addNr true (q8Mem.acting pre1) = .ok (inShared addNr true) ∧
      inShared addNr true ≠ [] ∧ ∀ a ∈ inShared addNr true, a.place.shared = true) ∧
    (atomCheck satomNrW true true q8Mem (sharedWith q8Mem) = .ok () ∧ scalarOk 63 false = true ∧
      isOk (teamAccess 0 q8Mem (sharedWith q8Mem) satomNrW true 4 4) = true ∧
      (got heldAcc (teamAccess 0 q8Mem (sharedWith q8Mem) satomNrW true 4 4)).place.shared = true) :=
  ⟨⟨ok_unit (by decide +kernel), ok_unit (by decide +kernel), rfl, by decide +kernel, ok_got [] (by decide +kernel), by decide +kernel⟩,
    ⟨ok_unit (by decide +kernel), rfl, by decide +kernel, by decide +kernel⟩,
    ⟨ok_unit (by decide +kernel), by decide +kernel, by decide +kernel, ok_got [] (by decide +kernel), by decide +kernel, by decide +kernel⟩,
    ⟨ok_unit (by decide +kernel), by decide, by decide +kernel, by decide +kernel⟩⟩
/-- A copy from a shared range, issued under the token or not. -/
def sharedCopy (u : Bool) : Cmd := { aCmd with kind := .cpy 0 0 0x40000 0x40080 64, underToken := u }
def sharedCopying (u : Bool) : State := (sharedWith memTeam).setChannel 0 3 [sharedCopy u]
def allShared : Lease := { base := 0, len := 0x8000000, rw := true, shared := true }
theorem witness_CommitToken_commands : (sharedCopying false).task? (sharedCopy false).task = some sharedTask ∧ sharedTask.det = true ∧
    canonical 0x40080 = true ∧ 0x40080 % 4 = 0 ∧
    (match sharedTask.checkWord 0 false 0x40080 with | .ok l => l == allShared | .error _ => false) = true ∧ allShared.shared = true ∧
    ((sharedCopying false).cluster 0).channel 3 = sharedCopy false :: [] ∧ (sharedCopying false).cmdRuns (sharedCopy false) = true ∧
    (sharedCopying true).locate sharedTask 0x40080 = some 0x40080 ∧ isOk ((sharedCopying true).reach 0 0x40080 0x40080) = true ∧
    (sharedCopy true).underToken = true := by decide +kernel
/-- R292, R206: a line of a mapped region whose first word alone is of the own slice: its fill is a lease violation at the second. -/
def sliceTask : Task :=
  { tk with lr := { rec1 with det := true, grid := 2, msBase := 0x40000, msLines := 1 },
            leases := [{ base := 0x3FF84, len := 256, rw := true, sliced := true }] }
theorem test_region_line_of_two_slices :
    (match fillRegion 0 memTeam ((base.setTask 0 sliceTask).setTeam 0 memTeam) 0 0 with
      | .error (.fault c d a _) => (c, d, a) == (2, 3, 0x40004#64) | _ => false) = true := by decide +kernel

/-! ### Events of the pipes, of memory, of dispatch -/

def waiter (w : Wait) : Team := { bt with wait := some w }
def resting (w : Wait) : State := { withTeam (waiter w) with cur := none }
def ownEntry : CommitEntry := .store 0x40 [(0x40000, 1#8)] none
def drainTeam : Team := { bt with buffer := [ownEntry], held := true }
def heldSlot : State := base.setBlock 0 { base.blockOf bt with heldWrites := [⟨4, {}, 0⟩] }
theorem witness_WaitEvents : (resting .over).team? 0 = some (waiter .over) ∧ (resting .over).waitMet 0 (waiter .over) = true ∧
    (resting (.token [0, 63])).team? 0 = some (waiter (.token [0, 63])) ∧
    (resting (.channel 15)).team? 0 = some (waiter (.channel 15)) ∧ (resting (.batch 255)).team? 0 = some (waiter (.batch 255)) ∧
    (resting (.park 0 0 0 none)).team? 0 = some (waiter (.park 0 0 0 none)) ∧
    (resting (.park 0 0 0 (some 0))).team? 0 = some (waiter (.park 0 0 0 (some 0))) ∧ (0 : DWord) ≤ (resting (.park 0 0 0 (some 0))).tick := by
  decide +kernel
theorem witness_WaitEvents_others : (resting (.barrier 0 1)).team? 0 = some (waiter (.barrier 0 1)) ∧
    (resting (.queueEmpty 0)).team? 0 = some (waiter (.queueEmpty 0)) ∧ (((resting (.queueEmpty 0)).recOf bt).queue 0).kind ≠ 3 ∧
    (resting (.commit true)).team? 0 = some (waiter (.commit true)) ∧ (resting (.commit false)).team? 0 = some (waiter (.commit false)) ∧
    (resting .ending).team? 0 = some (waiter .ending) ∧ (resting (.commit true)).waitMet 0 (waiter (.commit true)) = false := by
  decide +kernel
theorem witness_SlotWriteApply : heldSlot.block? 0 = some { base.blockOf bt with heldWrites := ⟨4, {}, 0⟩ :: [] } ∧
    ∀ e ∈ heldSlot.teams, e.2.blk = 0 → ∀ i, e.2.intr = some i → ∀ x ∈ i.slots, x.1 ≠ 4 := by
  have h : ∀ e ∈ heldSlot.teams, e.2.intr = none := by decide +kernel
  exact ⟨by decide +kernel, fun e he _ i hi => absurd hi (by simp [h e he])⟩
/-- A team that waits for one line, outside Outrider state and in it. -/
def fillTeam : Team := waiter (.fill [0x800] [0x800] 7)
def aheadTeam : Team := fillTeam.checkpoint
def filling (u : Team) : State := { withTeam u with cur := none }
theorem witness_LineFill : ∀ u ∈ [fillTeam, aheadTeam], (filling u).teams.filter (fun e => coreOf e.1 == coreOf 0 && (match e.2.wait with
      | some (.fill lines _ _) => lines.contains 0x800
      | _ => false)) = [(0, u)] ∧ u.wait = some (.fill [0x800] [0x800] 7) ∧
    (∀ x ∈ ((filling u).core (coreOf 0)).refills, x.line ≠ 0x800) ∧
    bit ((filling u).goodWords 0 0x800 ([0x800].contains 0x800)) (0x10000 % 32) = true ∧ 0x10000 / 32 = 0x800 := by decide +kernel
theorem witness_LineFill_state : fillTeam.out = none ∧ aheadTeam.out.isSome = true := by decide +kernel
theorem witness_Registration : queuedBase.memoryWf = true ∧ (queuedBase.core 0).stores = queued :: [] ∧
    (queued.words.map (·.1)).Nodup := by decide +kernel
theorem witness_Drain : (withTeam drainTeam).team? 0 = some drainTeam ∧ drainTeam.buffer = ownEntry :: [] ∧ drainTeam.held = true ∧
    drainTeam.fault = none ∧ (withTeam drainTeam).partRuns drainTeam.part = true ∧ (withTeam drainTeam).taskRuns drainTeam.task = true ∧
    (∃ s', drainEntry 0 drainTeam (withTeam drainTeam) ownEntry = .ok s') ∧
    ((got base (drainEntry 0 drainTeam (withTeam drainTeam) ownEntry)).team? 0).isSome = true :=
  ⟨by decide +kernel, rfl, rfl, rfl, by decide +kernel, by decide +kernel, ok_ex (by decide +kernel), by decide +kernel⟩
/-- R338: the entry of a store at 0x40 whose page is gone: its fault names the store, not the team's pc. -/
def lostTeam : Team := { bt with buffer := [.store 0x40 [(0x7FFFFFF0000, 1#8)] none], held := true }
theorem test_drain_fault_pc : lostTeam.pc ≠ 0x40 ∧ (match exec (.commitBufferDrain 0) (withTeam lostTeam) with
    | .next s => (s.team? 0).bind (fun u => u.fault.map (fun r => (r.cls, r.detail, r.pc)))
    | _ => none) = some (1, 5, 0x40) := by decide +kernel
theorem witness_IllegalWords : base.cur = some 0 ∧ base.team? 0 = some bt ∧ decode 0 = .error .unassigned ∧
    decode 0x7734000000000001#64 = .error .reserved := by decide +kernel
/-- The word at the pc of a team in Outrider state: a pair register that is odd, a Drover command, a scalar sum. -/
def aheadBase (w : DWord) : State := ((filling aheadTeam).poke (loadAddr / 4) (w.setWidth 32)).poke (loadAddr / 4 + 1) (w.extractLsb' 32 32)
def wordOf (i : Instr) : DWord := (encode i).getD 0
def tokenW : EF := { engW with cn := 0, var := 0 }
def aheadWith (i : Instr) : Prop :=
  (aheadBase (wordOf i)).fetchWord 0 aheadTeam = .ok (wordOf i) ∧ (aheadBase (wordOf i)).team? 0 = some aheadTeam ∧
  (∃ o, aheadTeam.out = some o) ∧ (aheadBase (wordOf i)).pipeReady (coreOf 0) (slotOf 0 % 2) = false ∧ aheadTeam.resumeDue = false ∧
  aheadTeam.pend = none ∧ ((aheadBase (wordOf i)).part aheadTeam.part).breaksAt aheadTeam.pc = false ∧
  (aheadBase (wordOf i)).frozenNext 0 aheadTeam = false ∧ decode (wordOf i) = .ok i ∧ aheadTeam.guarded (Pre.ofBits (wordOf i)) ≠ 0
def aheadState (i : Instr) : State := (aheadBase (wordOf i)).keepCode 0 aheadTeam
def aheadUses (i : Instr) : Uses :=
  (aheadState i).usesFor aheadTeam (wordOf i)
def aheadFails (i : Instr) : Bool :=
  (aheadState i).checkFails 0 i aheadTeam ((aheadUses i).slots.filter (fun n => ((aheadTeam.out.map (·.invSlot)).getD []).contains n))
    (if opcodeOf (wordOf i) / 64 = 1 then Fmt.i32 else Fmt.f32)
theorem ahead_of {i : Instr} (h : isOk ((aheadBase (wordOf i)).fetchWord 0 aheadTeam) = true)
    (e : got 0 ((aheadBase (wordOf i)).fetchWord 0 aheadTeam) = wordOf i ∧ (aheadBase (wordOf i)).team? 0 = some aheadTeam ∧
      (aheadBase (wordOf i)).pipeReady (coreOf 0) (slotOf 0 % 2) = false ∧ aheadTeam.resumeDue = false ∧
      aheadTeam.pend = none ∧ ((aheadBase (wordOf i)).part aheadTeam.part).breaksAt aheadTeam.pc = false ∧
      (aheadBase (wordOf i)).frozenNext 0 aheadTeam = false ∧ decode (wordOf i) = .ok i ∧ aheadTeam.guarded (Pre.ofBits (wordOf i)) ≠ 0) :
    aheadWith i :=
  ⟨(ok_got 0 h).trans (congrArg _ e.1), e.2.1, ⟨_, rfl⟩, e.2.2⟩
theorem witness_Outrider_fault : aheadWith (.sadd oddS) := ahead_of (by decide +kernel) (by decide +kernel)
theorem witness_Outrider_fault_check : aheadFails (.sadd oddS) = true := by decide +kernel
theorem witness_Outrider_skip : aheadWith (.cpyt tokenW) ∧ aheadFails (.cpyt tokenW) = false ∧
    (aheadState (.cpyt tokenW)).readsBad aheadTeam (wordOf (.cpyt tokenW)) (aheadUses (.cpyt tokenW)) = false ∧
    aheadOf (opcodeOf (wordOf (.cpyt tokenW))) (MF.ofBits (wordOf (.cpyt tokenW))).spc.toNat = .skip ∧
    (aheadUses (.cpyt tokenW)).ws = [22] :=
  ⟨ahead_of (by decide +kernel) (by decide +kernel), by decide +kernel⟩
theorem witness_Outrider_run : aheadWith (.sadd narrowS) ∧ aheadFails (.sadd narrowS) = false ∧
    (aheadState (.sadd narrowS)).readsBad aheadTeam (wordOf (.sadd narrowS)) (aheadUses (.sadd narrowS)) = false ∧
    Instr.sadd narrowS = Instr.sadd (S3.ofBits (wordOf (.sadd narrowS))) ∧ opcodeOf (wordOf (.sadd narrowS)) < 64 ∧
    evenPairs (S3.ofBits (wordOf (.sadd narrowS))) true true true ∧
    ∀ o, aheadTeam.out = some o → o.badWhole aheadTeam (aheadUses (.sadd narrowS)) = false ∧
      aheadTeam.tokensPending (aheadUses (.sadd narrowS)).ws = [] ∧
      (aheadState (.sadd narrowS)).shadowRows (coreOf 0) + o.shadow.length ≤ 256 := by
  refine ⟨ahead_of (by decide +kernel) (by decide +kernel), by decide +kernel, by decide +kernel, by decide +kernel, by decide +kernel,
    by unfold evenPairs; decide +kernel, fun o h => ?_⟩
  cases h
  decide +kernel


/-- No run on pipe A of core 0; one team, or a second in slot 2. -/
def freshTeam : Team := { bt with started := false }
def idle (l : Tab Team) : State := { base with teams := l, cores := [], cur := none }
theorem witness_Arbitration : (((idle [(0, freshTeam)]).core 0).pipe 0).team = none ∧
    (idle [(0, freshTeam)]).pipeTeams 0 0 = [(0, freshTeam)] ∧ (idle [(0, freshTeam)]).waiting 0 freshTeam = true ∧
    ((idle [(0, freshTeam)]).part freshTeam.part).capMode = 0 ∧
    (idle [(0, aheadTeam)]).pipeTeams 0 0 = [(0, aheadTeam)] ∧ (idle [(0, aheadTeam)]).able 0 aheadTeam = true ∧
    aheadTeam.out.isSome = true ∧ (idle [(0, aheadTeam)]).frozenNext 0 aheadTeam = false := by decide +kernel
/-- Of two teams, the second, which waits since a moment before the end of the first one's run: that one is deferred. -/
def ranTeam : Team := { freshTeam with started := true, runEnd := 2, readyAt := 1 }
def lateTeam : Team := { freshTeam with uid := 1, readyAt := 1 }
theorem witness_Arbitration_two : (∀ t ∈ [freshTeam, ranTeam], let s := idle [(0, t), (2, lateTeam)]
     s.pipeTeams 0 0 = [(0, t), (2, lateTeam)] ∧ s.waiting 0 t = true ∧ s.waiting 2 lateTeam = true ∧
     (∀ e ∈ s.pipeTeams 0 0, (s.part e.2.part).capMode = 0) ∧ ((s.core 0).pipe 0).team = none) ∧
    (∀ p ∈ [0, 1], (idle []).part p = (idle [(0, ranTeam)]).part p) ∧ freshTeam.started = false ∧ freshTeam.ref < lateTeam.ref ∧
    ranTeam.started = true ∧ lateTeam.ref < ranTeam.runEnd ∧ lateTeam.started = false := by decide +kernel
def capped : State :=
  ({ withTeam { bt with score := 64 } with cur := none }.setPart 0 { capMode := 2 }).setCore 0 { capClock := 4096, caps := [(0, 16)] }
theorem witness_CapEvaluation : 4096 ≤ (capped.core 0).capClock ∧ (capped.part 0).capMode = 2 ∧ Tab.get (capped.core 0).caps 16 (2 * 0 + 0) = 16 ∧
    ∃ e ∈ capped.pipeTeams 0 0, e.2.part = 0 ∧ (capped.part 0).thresh ≤ e.2.score := by decide +kernel
/-- A score below half of THRESH, or from half of it to below it. -/
def cappedAt (score cap : Nat) : State := (capped.setTeam 0 { bt with score := score }).setCore 0 { capClock := 4096, caps := [(0, cap)] }
theorem witness_CapEvaluation_raise : let s := cappedAt 0 8
    4096 ≤ (s.core 0).capClock ∧ (s.part 0).capMode = 2 ∧ (∃ e ∈ s.pipeTeams 0 0, e.2.part = 0 ∧ e.2.score < (s.part 0).thresh / 2) ∧
    ¬ ∃ e ∈ s.pipeTeams 0 0, e.2.part = 0 ∧ (s.part 0).thresh / 2 ≤ e.2.score := by decide +kernel
theorem witness_CapEvaluation_same : let s := cappedAt ((capped.part 0).thresh / 2) 8
    4096 ≤ (s.core 0).capClock ∧ (s.part 0).capMode = 2 ∧ (∃ e ∈ s.pipeTeams 0 0, e.2.part = 0 ∧ (s.part 0).thresh / 2 ≤ e.2.score) ∧
    ¬ ∃ e ∈ s.pipeTeams 0 0, e.2.part = 0 ∧ (s.part 0).thresh ≤ e.2.score := by decide +kernel
def twoClusters : Task := { tk with gstate := [(0, { gen := 1, done := some ⟨0, 0, 0, [0, 1], [0]⟩ })] }
theorem witness_ClusterResume : ({ base.setTask 0 twoClusters with tick := 4 }).task? 0 = some twoClusters ∧
    (Tab.get twoClusters.gstate {} 0).done = some ⟨0, 0, 0, [0, 1], [0]⟩ ∧ [0, 1][[0].length]? = some 1 ∧
    (0 : DWord) + BitVec.ofNat 64 (1 * base.slew) ≤ 4 := by decide +kernel
def twoBlocks : Task := { tk with lr := { rec1 with grid := 2, qbind := [] }, groups := [] }
def dispatching : State := { (base.setTask 0 twoBlocks).setPart 0 { ncl := 1 } with cur := none }
theorem witness_BlockDispatch : dispatching.task? 0 = some twoBlocks ∧ dispatching.partRuns 0 = true ∧ dispatching.taskRuns 0 = true ∧
    dispatching.childDispatches twoBlocks = true ∧ dispatching.inOrder 0 twoBlocks [1] = true ∧
    (∀ e ∈ dispatching.tasks, dispatching.goesBefore e.1 0 = true → dispatching.dispatchable e.1 = false) ∧
    dispatching.banksReady twoBlocks.lr 0 = true ∧ twoBlocks.lr.bindsEsc = false ∧ twoBlocks.det = false ∧
    (∃ s', dispatching.placeBlock 0 1 1 = some s') ∧ (dispatching.freeTeamSlots 1)[0]? = some 32 :=
  ⟨by decide +kernel, by decide +kernel, by decide +kernel, by decide +kernel, by decide +kernel, by decide +kernel, by decide +kernel,
    rfl, rfl, Option.isSome_iff_exists.mp (by decide +kernel), by decide +kernel⟩
/-- A block that binds the Escapement, which no other launch is bound to, and the Escapement's bank in its cluster. -/
def escBlocks : Task := { tk with lr := { rec1 with grid := 2, qbind := [⟨3, 0⟩] }, groups := [] }
def escPlace : State :=
  let s := dispatching.setTask 0 escBlocks
  s.setCluster 0 { (s.cluster 0).setBank 31 { mode := .scratch, req := .scratch, esc := true } with escBank := some 31 }
theorem witness_BlockDispatch_esc : let s := escPlace
    s.task? 0 = some escBlocks ∧ escBlocks.lr.bindsEsc = true ∧ s.escServes 0 (clusterOf 1) = true ∧ s.banksReady escBlocks.lr 0 = true ∧
    s.partRuns 0 = true ∧ s.taskRuns 0 = true ∧ s.childDispatches escBlocks = true ∧ s.inOrder 0 escBlocks [1] = true ∧
    (∀ e ∈ s.tasks, s.goesBefore e.1 0 = true → s.dispatchable e.1 = false) ∧ ∃ s', s.placeBlock 0 1 1 = some s' :=
  ⟨by decide +kernel, by decide +kernel, by decide +kernel, by decide +kernel, by decide +kernel, by decide +kernel, by decide +kernel,
    by decide +kernel, by decide +kernel, Option.isSome_iff_exists.mp (by decide +kernel)⟩
/-- A team in the save area, its banks with its partition. -/
def spilled : State :=
  let s := { dispatching with teams := [(16384, { bt with uid := 0 })] }
  s.setCluster 0 ((s.cluster 0).setBank 1 { (s.cluster 0).bank 1 with owner := some 0 })
/-- The same team in `park`, and a mate on the core that was halted and waits for the block (R347). -/
def parkedOut : Team := { bt with wait := some (.park 0 31 0 none) }
def awaiting : Team := { bt with uid := 1, team := 1, awaitsBlock := true }
def outAndParked : State := { spilled with teams := [(2, awaiting), (16384, parkedOut)] }
theorem test_parked_mate_comes_back : (match exec (.teamReload 16384) outAndParked with
    | .next s => some (s.teams.map (fun e => (e.1, e.2.awaitsBlock))) | _ => none) = some [(0, false), (2, false)] ∧
    (match exec (.teamReload 16384) { spilled with teams := [(16384, parkedOut)] } with
    | .next s => some (s.teams.map (fun e => e.1)) | _ => none) = some [16384] := by decide +kernel
/-- R211: banks 1 and 2, in FIFO mode, are asked too, after those in cache mode, where no launch binds them. -/
theorem test_fifo_banks_give_lines :
    (({ dispatching with tasks := [(0, twoBlocks)], teams := [], blocks := [] } : State).takeLines 0 (32 * Config.linesPerBank)).map
      (fun e => (e.1.length, (e.2.cluster 0).bank 1 |>.trans)) = some (32, true) := by decide +kernel
/-- R52, R314: a group of one block is no gang, whatever fits. -/
theorem test_one_block_group : gangsOk { rec1 with teams := 8, regs := 255 } [⟨0, 1, 1, 1⟩] 0 = true := by decide +kernel
/-- R315: block 1 fits where block 0 has gone; a group of one block is no gang (R52, R314). -/
theorem witness_Dispatchable : dispatching.task? 0 = some twoBlocks ∧ dispatching.partRuns 0 = true ∧ dispatching.taskRuns 0 = true ∧
    dispatching.childDispatches twoBlocks = true ∧ twoBlocks.nextGangs.length = 1 := by decide +kernel
theorem witness_TeamReload : spilled.team? 16384 = some bt ∧ isSpilled 16384 = true ∧ spilled.mayReload bt.part = true ∧
    spilled.taskRuns bt.task = true ∧ bt.parked = false ∧ outAndParked.team? 16384 = some parkedOut ∧ parkedOut.parked = true ∧
    outAndParked.blockAwaits parkedOut.blk = true ∧ outAndParked.stands 2 awaiting = false ∧ spilled.saveBad bt.part = none ∧ spilled.team? (16384 % slotKeys) = none ∧
    ((spilled.block? bt.blk).map (fun b => (b.slotsSpilled, b.linesSpilled))) = some (false, false) ∧
    spilled.banksReady (spilled.recOf bt) (clusterOf (coreOf 16384)) = true ∧ (spilled.recOf bt).bindsEsc = false ∧
    (∀ n ∈ (spilled.recOf bt).fifoBanks, let x := (spilled.cluster (clusterOf (coreOf 16384))).bank n
      x.owner = some bt.part ∧ Tab.get? x.saved bt.part = none) ∧ (spilled.cluster (clusterOf (coreOf 16384))).counterBank bt.task = [] ∧
    spilled.rowsUsed (coreOf 16384) + bt.regs * bt.words ≤ Config.rowsPerCore ∧
    spilled.slotsUsed (coreOf 16384) ≤ Config.mapSlotsPerCore := by decide +kernel

/-! ### The Drover and the Escapement -/

def withCmd (c : Cmd) : State := { base.setChannel 0 3 [c] with cur := none }
def cpyCmd : Cmd := { aCmd with kind := .cpy 1 1 0 64 8 }
def cpySrc : List Word × Cmd × State := got ([], cpyCmd, base) (engBytes (withCmd cpyCmd) 0 cpyCmd 1 64 2)
/-- Descriptors of zeros: a width of 0 is out of range; a started command holds its descriptor. -/
def cpytCmd : Cmd := { aCmd with kind := .cpyt 0x40000 }
def layCmd : Cmd := { aCmd with kind := .lay 0x40000 }
def descOf (l : List (Nat × Nat)) : List Byte := (List.range 128).map (fun i => BitVec.ofNat 8 (Tab.get l 0 i))
theorem witness_Transfers_cpy : ((withCmd cpyCmd).cluster 0).channel 3 = cpyCmd :: [] ∧ (withCmd cpyCmd).cmdRuns cpyCmd = true ∧
    cpyCmd.kind = .cpy 1 1 0 64 8 ∧ cpyCmd.started = false ∧ cpyCmd.done = [] ∧
    engBytes (withCmd cpyCmd) 0 cpyCmd 1 64 (8 / 4) = .ok (cpySrc.1, cpySrc.2.1, cpySrc.2.2) ∧
    ∃ c2 s2, (List.range (8 / 4)).foldlM (fun (r : Cmd × State) i => engWrite r.2 0 r.1 1 (0 + 4 * i) ((cpySrc.1[i]?).getD 0))
      ({ cpySrc.2.1 with started := true, source := cpySrc.1 }, cpySrc.2.2) = .ok (c2, s2) :=
  ⟨by decide +kernel, by decide +kernel, rfl, rfl, rfl, ok_got ([], cpyCmd, base) (by decide +kernel), ok_pair (by decide +kernel)⟩
theorem witness_Transfers_descriptors : ¬ (0x40040 % 128 = 0) ∧ ¬ (0x40020 % 64 = 0) ∧ 0x40000 % 128 = 0 ∧
    (withCmd cpytCmd).cmdRuns cpytCmd = true ∧
    (∃ ws c1 s1, engBytes (withCmd cpytCmd) 0 cpytCmd 0 0x40000 32 = .ok (ws, c1, s1)) ∧
    (let ws := (got ([], cpyCmd, base) (engBytes (withCmd cpytCmd) 0 cpytCmd 0 0x40000 32)).1
     stridedOk false (wordBytes ws) = false ∧ stridedOk true (wordBytes ws) = false) ∧
    ∃ ws c1 s1, engBytes (withCmd layCmd) 0 layCmd 0 0x40000 32 = .ok (ws, c1, s1) :=
  ⟨by decide, by decide, by decide, by decide +kernel, ok_three (by decide +kernel), by decide +kernel, ok_three (by decide +kernel)⟩

def oneElem : List Byte := descOf [(16, 1), (17, 1), (18, 1), (19, 2), (20, 1), (24, 1), (28, 1), (32, 1), (36, 1)]
def running (k : CmdKind) (d : List Byte) : Cmd := { aCmd with kind := k, started := true, desc := d }
def gatDesc : List Byte := descOf [(28, 1), (29, 1), (30, 1), (31, 2)]
theorem witness_Transfers_last :
    (let c := running (.cpyt 0x40000) oneElem
     c.count + 1 = stridedTotal c.desc ∧ isOk (engCopy 0 (fieldB c.desc 16 1) (fieldB c.desc 17 1) (stridedAddr c.desc (fieldB c.desc 0 8) 80 c.count)
       (stridedAddr c.desc (fieldB c.desc 8 8) 40 c.count) (elemSize (fieldB c.desc 19 1) / 4) c (withCmd c)) = true) ∧
    (let c := running (.lay 0x40000) oneElem
     c.count + 1 = stridedTotal c.desc ∧ isOk (engCopy 0 (fieldB c.desc 16 1) (fieldB c.desc 17 1) (layAddr c.desc c.count)
       (stridedAddr c.desc (fieldB c.desc 8 8) 40 c.count) (elemSize (fieldB c.desc 19 1) / 4) c (withCmd c)) = true) ∧
    (let c := running (.gat 0x40000 1) gatDesc
     c.count + 1 = 1 ∧ isOk (gatherElem 0 false c.desc c.count c (withCmd c)) = true) ∧
    (let c := running (.sct 0x40000 1) gatDesc
     c.count + 1 = 1 ∧ isOk (gatherElem 0 true c.desc c.count c (withCmd c)) = true) := by decide +kernel
def mapldCmd : Cmd := { aCmd with kind := .mapld 4 1 false 0 128 0 }
def mapstCmd : Cmd := { aCmd with kind := .mapst 4 1 false 0 128 }
def slotBase (c : Cmd) (sl : Slot) : State := (withCmd c).setBlock 0 { base.blockOf bt with slots := [(4, sl)] }
def badSlot (c : Cmd) : State := (withCmd c).setBlock 0 { base.blockOf bt with badSlots := [4] }
theorem witness_Transfers_slots :
    isOk ((List.range 32).foldlM (fun (x : List (List Word) × Cmd × State) i => do
      let (ws, c, s) ← engBytes x.2.2 0 x.2.1 1 ((0 + i * 128) % 2 ^ 64) 32
      pure (x.1 ++ [ws], c, s)) (([] : List (List Word)), mapldCmd, withCmd mapldCmd)) = true ∧
    ((slotBase mapstCmd { tag := q8Tag, set := true }).blockOfCmd mapstCmd).badSlots.contains 4 = false ∧
    (((slotBase mapstCmd { tag := q8Tag, set := true }).blockOfCmd mapstCmd).slotFor 0 4).tag.fmt.scaled = true ∧
    (((slotBase mapstCmd { set := true }).blockOfCmd mapstCmd).slotFor 0 4).tag.fmt.scaled = false ∧
    ((badSlot mapstCmd).blockOfCmd mapstCmd).badSlots.contains 4 = true ∧ (badSlot mapstCmd).cmdRuns mapstCmd = true := by decide +kernel
theorem witness_Transfers_mapst :
    isOk ((List.range 32).foldlM (fun (r : Cmd × State) n => (List.range 32).foldlM (fun (r : Cmd × State) l =>
      engWrite r.2 0 r.1 1 ((0 + n * 128 + 4 * l) % 2 ^ 64) (rowWord (Tab.get (mapgenSlot 1 0 false).cols 0 n) l)) r)
      (mapstCmd, slotBase mapstCmd (mapgenSlot 1 0 false))) = true := by decide +kernel
/-- The commands by rows: format 0 has one element in a lane word, format 2 (BF16) two. -/
def bfTask : Task := { tk with lr := { rec1 with fmts := [0#128, 2#128] } }
def rowCmd (fs : Nat) : Cmd := { aCmd with kind := .mapld 4 1 true 0 64 fs }
def bfBase (c : Cmd) : State := (withCmd c).setTask 0 bfTask
theorem witness_Transfers_rows : (slotTag (rec1.fmtSlot 0)).fmt.count = 1 ∧
    isOk ((List.range 32).foldlM (fun (x : List (List Word) × Cmd × State) i => do
      let (ws, c, s) ← engBytes x.2.2 0 x.2.1 1 ((0 + i * 64) % 2 ^ 64) 32
      pure (x.1 ++ [ws], c, s)) (([] : List (List Word)), rowCmd 0, withCmd (rowCmd 0))) = true ∧
    (slotTag (bfTask.lr.fmtSlot 1)).fmt.count = 2 ∧
    isOk ((List.range 64).foldlM (fun (x : List (List Word) × Cmd × State) i => do
      let (ws, c, s) ← engBytes x.2.2 0 x.2.1 1 ((0 + i * 64) % 2 ^ 64) 16
      pure (x.1 ++ [ws], c, s)) (([] : List (List Word)), rowCmd 1, bfBase (rowCmd 1))) = true := by decide +kernel
/-- A slot of one word: in Q8 with its scale, in BF16 with two elements, in a format of one. -/
def scaledSlot : Slot := { tag := q8Tag, set := true, scales := [(0, 0x7F)] }
def halfSlot : Slot := { tag := plainTag .bf16, set := true, cols := [(0, 0x3F803F80)] }
def rowStore : Cmd := { aCmd with kind := .mapst 4 1 true 0 64 }
def scaledStore : Cmd := { aCmd with kind := .mapst 4 1 false 0 64 }
theorem witness_Transfers_mapst_layouts :
    (scaledSlot.tag.fmt.scaled = true ∧ isOk ((List.range 32).foldlM (fun (r : Cmd × State) i => (List.range 34).foldlM (fun (r : Cmd × State) j =>
      engWrite r.2 0 r.1 1 ((0 + i * 64 + 4 * j) % 2 ^ 64)
        (if j = 0 then (Tab.get scaledSlot.scales 0 i).setWidth 32 else if j = 1 then (Tab.get scaledSlot.scales 0 i).extractLsb' 32 32
         else rowWord (Tab.get scaledSlot.cols 0 i) (j - 2))) r) (scaledStore, slotBase scaledStore scaledSlot)) = true) ∧
    (halfSlot.tag.fmt.scaled = false ∧ halfSlot.tag.fmt.count = 2 ∧
      isOk ((List.range 64).foldlM (fun (r : Cmd × State) i => (List.range 16).foldlM (fun (r : Cmd × State) j =>
        let half := fun (n : Nat) => (rowWord (Tab.get halfSlot.cols 0 n) (i % 32)).extractLsb' (16 * (i / 32)) 16
        engWrite r.2 0 r.1 1 ((0 + i * 64 + 4 * j) % 2 ^ 64) (half (2 * j + 1) ++ half (2 * j))) r)
        (rowStore, slotBase rowStore halfSlot)) = true) ∧
    isOk ((List.range 32).foldlM (fun (r : Cmd × State) i => (List.range 32).foldlM (fun (r : Cmd × State) j =>
      engWrite r.2 0 r.1 1 ((0 + i * 64 + 4 * j) % 2 ^ 64) (rowWord (Tab.get (mapgenSlot 1 0 false).cols 0 j) i)) r)
      (rowStore, slotBase rowStore (mapgenSlot 1 0 false))) = true := by decide +kernel
theorem witness_Transfers_ahead : (withTeam aheadTeam).issuer aCmd.uid = some (0, aheadTeam) ∧ (withTeam aheadTeam).team? 0 = some aheadTeam ∧
    ∃ o, aheadTeam.out = some o := ⟨by decide +kernel, by decide +kernel, _, rfl⟩
theorem witness_Transfers_finish : base.issuer aCmd.uid = some (0, bt) ∧ base.team? 0 = some bt ∧ aCmd.tok ≠ 0 := by decide +kernel

/-- An `escld`, and a graph of one row at 0x40000. -/
def anEsc (desc : Nat) : EscLoad := { uid := 0, task := 0, blockNo := 0, teamNo := 0, tok := 22, pc := 0, desc := desc }
def escBase (e : EscLoad) (g : Option Graph) : State :=
  let s := [(0x10000, 0x41000#32), (0x10002, 0x41000#32), (0x10004, 0x41000#32), (0x10006, 1#32)].foldl (fun s x => s.poke x.1 x.2) base
  { s.setCluster 0 { s.cluster 0 with escLoads := [e], graph := g } with cur := none }
/-- Graphs that leave the cluster's Escapement free: none, one of the launch that is complete, one of a launch that is gone. -/
def doneGraph : Graph := { aGraph with processed := 2 }
def goneGraph : Graph := { aGraph with task := 7 }
theorem witness_ClusterEvents_escld : ((escBase (anEsc 0x40020) none).cluster 0).escLoads = anEsc 0x40020 :: [] ∧
    (escBase (anEsc 0x40020) none).engineRuns 0 = true ∧ ¬ (anEsc 0x40020).desc % 64 = 0 ∧
    aGraph.task = (anEsc 0x40000).task ∧ aGraph.processed ≠ aGraph.count ∧
    doneGraph.task = (anEsc 0x40000).task ∧ doneGraph.processed = doneGraph.count ∧
    goneGraph.task ≠ (anEsc 0x40000).task ∧ (escBase (anEsc 0x40000) (some goneGraph)).task? goneGraph.task = none ∧
    ((escBase (anEsc 0x40000) (some goneGraph)).setTask 7 tk).task? goneGraph.task ≠ none := by decide +kernel
/-- R277: a descriptor of zeros, and a graph whose only row has in-degree 1 and no predecessor. -/
def escLoose : State := (escBase (anEsc 0x40000) (some doneGraph)).poke 0x10400 1
def escAnswer (s : State) : Option Word :=
  match exec (.escldBind 0) s with | .next s' => (s'.team? 0).map (fun t => t.rs 22) | _ => none
theorem test_escld_answers :
    escAnswer ((escBase (anEsc 0x40000) (some goneGraph)).setTask 7 tk) = some 0x80000105#32 ∧
    escAnswer (escBase (anEsc 0x40000) (some aGraph)) = some 0x80000108#32 ∧
    escAnswer (escBase (anEsc 0x40020) (some doneGraph)) = some 0x80000101#32 ∧
    escAnswer (escBase (anEsc 0x40040) (some doneGraph)) = some 0x80000102#32 ∧ escAnswer escLoose = some 0x80000106#32 ∧
    escAnswer (escBase (anEsc 0x40000) (some doneGraph)) = some 1#32 := by decide +kernel
def s0 (e : EscLoad) (g : Graph) : State := (escBase e (some g)).setCluster 0 { (escBase e (some g)).cluster 0 with escLoads := [] }
def escAfter : State := (escBase (anEsc 0x40000) none).setCluster 0 { (escBase (anEsc 0x40000) none).cluster 0 with escLoads := [] }
def escCmd : Cmd := { kind := .cpyt 0x40000, uid := 0, task := 0, blk := 0, blockNo := 0, teamNo := 0, id := 0, tok := 22, pc := 0, underToken := true }
def esc1 : List Word × Cmd × State := got ([], aCmd, base) (engBytes escAfter 0 escCmd 0 0x40000 16)
def esc2 : List Word × Cmd × State := got ([], aCmd, base) (engBytes esc1.2.2 0 escCmd 0 0x41000 1)
def esc3 : List Word × Cmd × State := got ([], aCmd, base) (engBytes esc2.2.2 0 escCmd 0 0x41000 2)
def esc4 : List Word × Cmd × State := got ([], aCmd, base) (engBytes esc3.2.2 0 escCmd 0 0x41000 0)
theorem witness_ClusterEvents_graph : engBytes escAfter 0 escCmd 0 0x40000 16 = .ok (esc1.1, esc1.2.1, esc1.2.2) ∧
    engBytes esc1.2.2 0 escCmd 0 0x41000 1 = .ok (esc2.1, esc2.2.1, esc2.2.2) ∧
    engBytes esc2.2.2 0 escCmd 0 0x41000 2 = .ok (esc3.1, esc3.2.1, esc3.2.2) ∧
    engBytes esc3.2.2 0 escCmd 0 0x41000 0 = .ok (esc4.1, esc4.2.1, esc4.2.2) ∧
    (let d := wordBytes esc1.1
     fieldB d 24 4 = 1 ∧ fieldB d 28 36 = 0 ∧ fieldB d 0 8 = 0x41000 ∧ fieldB d 8 8 = 0x41000 ∧ fieldB d 16 8 = 0x41000 ∧
     ((esc3.1[1]?).getD 0).toNat = 0 ∧ graphOk 1 (esc2.1.map (·.toNat)) (esc3.1.map (·.toNat)) (esc4.1.map (·.toNat)) = true) :=
  ⟨ok_got ([], aCmd, base) (by decide +kernel), ok_got ([], aCmd, base) (by decide +kernel), ok_got ([], aCmd, base) (by decide +kernel),
    ok_got ([], aCmd, base) (by decide +kernel), by decide +kernel⟩
theorem witness_ClusterEvents_errors :
    isOk (engBytes (s0 (anEsc 0x40040) doneGraph) 0 { escCmd with kind := .cpyt 0x40040 } 0 0x40040 16) = true ∧
    fieldB (wordBytes (got ([], aCmd, base) (engBytes (s0 (anEsc 0x40040) doneGraph) 0 { escCmd with kind := .cpyt 0x40040 } 0 0x40040 16)).1) 24 4 = 0 ∧
    (let l := s0 (anEsc 0x40000) doneGraph |>.poke 0x10400 1
     isOk (engBytes l 0 escCmd 0 0x41000 1) = true ∧ isOk (engBytes l 0 escCmd 0 0x41000 2) = true ∧
     isOk (engBytes l 0 escCmd 0 0x41000 0) = true ∧ graphOk 1 [1] [1, 0] [] = false) := by decide +kernel
def portGraph : Graph := { aGraph with ring := [], handed := [0], pushed := [0], port := [(0, 0)] }
def portBase : State :=
  let c := base.cluster 0
  base.setCluster 0 { c.setBank 31 { c.bank 31 with req := .scratch, mode := .scratch, esc := true } with graph := some portGraph, escBank := some 31 }
def deadTile : State := { base.setBlock 0 { base.blockOf bt with tiles := [(0, { valid := BitVec.allOnes 512 })] } with tick := 4096 }
theorem witness_ClusterEvents_rest : portGraph.bad = false ∧ ({ portGraph with bad := true } : Graph).bad = true ∧ (portBase.cluster 0).graph = some portGraph ∧ portBase.engineRuns 0 = true ∧
    portGraph.spilled = false ∧ portBase.escReady 0 = true ∧
    portGraph.port = (0, 0) :: [] ∧ (deadTile.block? 0).bind (fun b => Tab.get? b.tiles 0) = some { valid := BitVec.allOnes 512 } ∧
    ({ valid := BitVec.allOnes 512 } : Tile).live deadTile.sample = false ∧ ({ valid := BitVec.allOnes 512 } : Tile).live 4095 = true := by
  decide +kernel
def leaving (x : Bank) : State := base.setCluster 0 ((base.cluster 0).setBank 31 x)
def leftBank (m : BankMode) (o : Option Nat) : Bank := { mode := m, req := .fifo, fw := true, trans := true, aim := .fifo, owner := o }
theorem witness_ClusterEvents_requests : field (0x300#32) 8 2 = 3 ∧ BankMode.ofCode (field (0x200#32) 8 2) = some .fifo ∧
    ((base.cluster 0).bank 31).mode = .cache ∧ ((base.cluster 0).bank 31).esc = false ∧ ((base.cluster 0).bank 31).trans = false ∧
    BankMode.ofCode (field (0x000#32) 8 2) = some .cache ∧ ((portBase.cluster 0).bank 31).esc = true ∧
    (((leaving (leftBank .cache none)).cluster 0).bank 31).trans = true := by decide +kernel
theorem witness_ClusterEvents_modes : (((leaving (leftBank .cache none)).cluster 0).bank 31).next = none ∧
    (((leaving (leftBank .cache none)).cluster 0).bank 31).esc = false ∧ (leaving (leftBank .scratch none)).linesUsed 0 31 = 0 ∧
    (leaving (leftBank .fifo none)).binders 0 31 = [] ∧
    (let x := { leftBank .fifo none with saved := [(0, false, [])] }
     let s := base.setCluster 0 ((base.cluster 0).setBank 1 x)
     s.binders 0 1 = [0] ∧ (Tab.get? x.saved 0).isSome = true) := by decide +kernel

/-! ### Queues and launches: stage one and stage two map the first 1 GiB to itself, a queue of 16 records at 0x61000 -/

/-- A cell, unless its byte is that of memory never written. -/
def cell (a : Nat) (b : Byte) : List Host.Cell := if b = 0 then [] else [(a, b)]
/-- Queue 0 with flags `en`, HEAD 0 and TAIL `tail`, its first record of type `type`; the hardware slots given. -/
def qBase (en tail type : Byte) (h : Tab HwSlot) : State :=
  { State.reset with
    boot := .running
    mem := [(0x60001, 0x10), (0x60002, 0x6), (0x60008, 0x4), (0x6000A, 0x1)] ++ cell 0x6000B en ++ cell 0x60010 tail ++ cell 0x61000 type ++ [(0x61011, 0x20), (0x61012, 0x6), (0x100000, 0x1), (0x100001, 0x10), (0x100002, 0x10), (0x101000, 0x1), (0x101001, 0x20), (0x101002, 0x10), (0x102000, 0x6), (0x110000, 0x1), (0x110001, 0x10), (0x110002, 0x11), (0x111000, 0x1), (0x111001, 0x20), (0x111002, 0x11), (0x112000, 0x6)],
    parts := [(0, { ncl := 1, s1root := 0x110000, s2root := 0x100000, window := 1, qtbase := 0x60000, qtsize := 1, pnmap := [(0, some 0)] })],
    hwSlots := h }
def q511 : Tab HwSlot := [(511, { part := 0, queue := 0, credit := 1 })]
theorem witness_QueueEvents_notify : notified none 0 4 = some (0, 0) ∧ (qBase 1 0 0 q511).up = true ∧ State.reset.up = false ∧
    notified none 0 8 = none ∧ ((qBase 1 0 0 q511).qdesc 0 0).map (fun d => (d.logn, d.head, d.tail, d.en)) = some (4, 0, 0, true) := by
  decide +kernel
theorem witness_QueueEvents_far :
    ¬ 2 ^ 4 < ((16#32).toNat + 2 ^ 32 - 0) % 2 ^ 32 ∧ 2 ^ 4 < ((17#32).toNat + 2 ^ 32 - 0) % 2 ^ 32 ∧
    ((qBase 1 0 0 q511).slotOfQueue 0 0).isSome = true ∧ (qBase 1 0 0 []).slotOfQueue 0 0 = none ∧
    ((qBase 0 0 0 []).qdesc 0 0).map (·.en) = some false ∧ (qBase 1 0 0 []).freeSlot = some 0 ∧
    (∀ en ∈ [(0 : Byte), 1], ((((qBase en 0 0 q511).sawDesc 0 0).vwrite 0 (0x60000 + 16) (bytesOf 4 17)).vread 0 (0x60000 + 11) 1).map (·.length) = some 1) := by
  decide +kernel
/-- Every slot is taken by a queue: of a partition with no descriptor, or queue 1 of partition 0, which may lose it. -/
def crowd (p : Nat) : Tab HwSlot := (List.range Config.queueSlots).map (fun i => (i, { part := p, queue := 1, credit := 0 }))
def crowdedAt (p : Nat) : State := (qBase 1 0 0 (crowd p)).updPart 0 (fun x => { x with qtsize := 2 })
def crowdedBase (p : Nat) : State := ((crowdedAt p).sawDesc 0 0).vwrite 0 (0x60000 + 16) (bytesOf 4 1)
theorem get_of_map {α : Type} (l : List Nat) (g : Nat → α) (i : Nat) (h : i ∈ l) : Tab.get? (l.map (fun i => (i, g i))) i = some (g i) := by
  induction l with
  | nil => cases h
  | cons a l ih =>
    by_cases e : a = i
    · simp [Tab.get?, e]
    · simp only [List.map_cons, Tab.get?, if_neg e]
      exact ih (by rcases List.mem_cons.mp h with h | h; exacts [absurd h.symm e, h])
theorem crowdedAt_hwSlots (p : Nat) : (crowdedAt p).hwSlots = crowd p := by
  simp only [crowdedAt, State.updPart, State.setPart, qBase]
theorem crowd_free (p : Nat) : (crowdedAt p).freeSlot = none := by
  unfold State.freeSlot
  rw [List.find?_eq_none]
  intro i hi
  rw [crowdedAt_hwSlots, crowd, get_of_map _ _ _ hi]
  simp
theorem crowd_slots : (crowdedBase 1).hwSlots = crowd 1 ∧ ((crowdedBase 1).part 1).queueCount = 0 ∧
    (crowd 1).all (fun e => e.2.part == 1) = true := by decide +kernel
theorem witness_QueueEvents_crowded : (crowdedAt 1).freeSlot = none ∧ (crowdedAt 1).slotOfQueue 0 0 = none ∧
    (crowdedBase 1).unmappable = none := by
  refine ⟨crowd_free 1, by decide +kernel, ?_⟩
  obtain ⟨h, hq, hp⟩ := crowd_slots
  unfold State.unmappable
  rw [h, List.find?_eq_none]
  intro e he
  have : e.2.part = 1 := by simpa using List.all_eq_true.mp hp e he
  have hn : (crowdedBase 1).qdesc 1 e.2.queue = none := by unfold State.qdesc; simp [hq]
  simp [State.mayUnmap, this, hn]
theorem witness_QueueEvents_unmaps : (crowdedAt 0).freeSlot = none ∧ (crowdedAt 0).slotOfQueue 0 0 = none ∧
    (crowdedBase 0).unmappable = some (0, { part := 0, queue := 1, credit := 0 }) := ⟨crowd_free 0, by decide +kernel, by decide +kernel⟩
theorem witness_QueueEvents_latched : Tab.get? ((qBase 1 0 0 []).part 0).pnmap 0 = some (some 0) ∧
    (0 : DWord) + ((qBase 1 0 0 []).part 0).ntmo.setWidth 64 ≤ ({ qBase 1 0 0 [] with tick := 0x10000 }).tick ∧
    ((qBase 1 0 0 []).nextLatched).map (fun e => (e.1, e.2.1)) = some (0, 0) ∧ 511 < Config.queueSlots ∧
    Tab.get? (qBase 1 0 0 []).hwSlots 511 = none ∧ Tab.get? ((qBase 1 0 0 []).part 0).pnmap 1 = none := by decide +kernel
theorem witness_QueueEvents_taken : ((qBase 1 0 0 q511).nextLatched).map (fun e => (e.1, e.2.1)) = some (0, 0) ∧
    Tab.get? (qBase 1 0 0 q511).hwSlots 511 = some { part := 0, queue := 0, credit := 1 } ∧
    (qBase 1 0 0 q511).mayUnmap { part := 0, queue := 0, credit := 1 } = true ∧
    (qBase 3 0 0 q511).mayUnmap { part := 0, queue := 0, credit := 1 } = false ∧ (qBase 3 0 0 q511).nextLatched.isSome = true := by decide +kernel
/-- Slot 511 with queue 1, which has no record, or a record that cannot lose its slot; queue 0 latched. -/
def slotOne : State := (qBase 1 0 0 [(511, { part := 0, queue := 1, credit := 0 })]).updPart 0 (fun x => { x with qtsize := 2 })
theorem witness_QueueEvents_given : slotOne.slotOfQueue 0 0 = none ∧ (slotOne.nextLatched).map (fun e => (e.1, e.2.1)) = some (0, 0) ∧
    slotOne.mayUnmap { part := 0, queue := 1, credit := 0 } = true ∧ (qBase 1 0 0 q511).slotOfQueue 0 0 = some 511 ∧
    (qBase 1 0 0 []).slotOfQueue 0 0 = none ∧ ((qBase 0 0 0 q511).qdesc 0 0).map (·.en) = some false := by decide +kernel
theorem witness_QueueEvents_records : ∀ ty ∈ [(0 : Byte), 1, 2, 3, 4, 5],
    let s := qBase 1 1 ty q511
    s.slotOfQueue 0 0 = some 511 ∧ (s.headReady 0 0).map (fun e => (e.2.1, fieldB e.2.2 0 1)) = some (0, ty.toNat) ∧
    (s.choose 511).isSome = true := by decide +kernel
/-- R375: the error that the Starter's read of its record meets raises vector 2, once. -/
theorem test_record_in_error : (match exec (.evset 0 0) { qBase 1 1 2 q511 with poisoned := [(0x18400, 1)], unfound := [0x18400] } with
    | .next s => some (s.unfound, s.irqs.map (fun i => (i.fn, i.vector))) | _ => none) = some ([], [(none, 2)]) := by decide +kernel
theorem witness_QueueEvents_mark : ((qBase 1 1 4 q511).vloc 0 0x62000) = some 0x62000 := by decide +kernel

def aRec : Rec := { loadRec with vbudget := 0 }
def aLaunch : Launch := { part := 0, src := .queue 0 0, addr := 0x30000, wait := some 0, eligible := true }
def leaseAt (a : Nat) : List Lease := [{ base := a, len := 0x10000, rw := true }]
def readyLaunch (a : Nat) : Launch := { aLaunch with read := some (aRec, [], [], leaseAt a) }
def admitted : Launch := { readyLaunch 0 with pins := some [] }
def launching (l : Launch) : State := { qBase 0 0 0 [] with launches := [(0, l)] }
def holding : Task := { tk with leases := [{ base := 0, len := 0x10000, excl := true }] }
def walksWell {α β : Type} : Except α β → Bool
  | .ok _ => true
  | .error _ => false
theorem walk_ok {α β γ : Type} {x : Except α (β × γ)} (h : walksWell x = true) : ∃ a b, x = .ok (a, b) := by
  match x, h with
  | .ok (a, b), _ => exact ⟨a, b, rfl⟩
theorem walk_error {α β γ : Type} {x : Except (α × β) γ} (h : walksWell x = false) : ∃ a b, x = .error (a, b) := by
  match x, h with
  | .error (a, b), _ => exact ⟨a, b, rfl⟩
theorem witness_LaunchEvents : aLaunch.failed = false ∧ ({ aLaunch with eligible := false } : Launch).wait.isSome = true ∧
    aLaunch.read = none ∧ ¬ ({ aLaunch with addr := 0x30100 } : Launch).addr.toNat % 512 = 0 ∧ (readyLaunch 0).pins = none ∧
    (launching admitted).held admitted aRec (leaseAt 0) = false ∧
    ((launching admitted).setTask 0 holding).held admitted aRec (leaseAt 0) = true := by decide +kernel
theorem witness_LaunchEvents_walks :
    (∃ pins s1, pinAll 0 (pinnedRanges aRec (leaseAt 0)) [] (launching (readyLaunch 0)) = .ok (pins, s1)) ∧
    (∃ va s1, pinAll 0 (pinnedRanges aRec (leaseAt 0x40000000)) [] (launching (readyLaunch 0x40000000)) = .error (va, s1)) ∧
    ({ readyLaunch 0 with walked := some [] } : Launch).gen = ((launching (readyLaunch 0)).part 0).walkGen ∧
    ({ readyLaunch 0 with walked := some [], gen := 1 } : Launch).gen ≠ ((launching (readyLaunch 0)).part 0).walkGen :=
  ⟨walk_ok (by decide +kernel), walk_error (by decide +kernel), by decide +kernel⟩
/-- A launch that waits for no event, and one that waits for event 1. -/
theorem witness_LaunchEvents_signature : admitted.wait = some 0 ∧ ({ admitted with wait := some 2 } : Launch).wait ≠ some 0 ∧
    (launching { admitted with wait := some 2 }).held { admitted with wait := some 2 } aRec (leaseAt 0) = false := by decide +kernel
/-- A child of a parent that admits none, its record not yet read. -/
def childLaunch : Launch := { aLaunch with src := .child 0 0 0 0 22 0 }
theorem witness_LaunchEvents_child : childLaunch.read = none ∧ (base.setTask 0 { tk with lr := { rec1 with dlDepth := 0 } }).task? 0 =
    some { tk with lr := { rec1 with dlDepth := 0 } } ∧ ({ rec1 with dlDepth := 1, dlMax := 0 } : Rec).dlMax ≤ 0 := by decide +kernel
def exited : State := base.setTask 0 { tk with exited := [0] }
def faulted : Task := { tk with faults := [{ cls := 2, detail := 1 }] }
theorem witness_TaskEvents : exited.task? 0 = some { tk with exited := [0] } ∧ tk.root = 0 ∧ exited.completes 9 0 = true ∧
    (base.setTask 0 faulted).reported 0 faulted = some { cls := 2, detail := 1 } ∧ faulted.det = false ∧
    base.taskById 0 1 = some (0, tk) := by decide +kernel

/-- A task whose lease is one page of the mapped GiB, or one no table maps; its page revoked or its walk failed. -/
def revokedTask (rev : Bool) (a : Nat) : Task := { tk with lr := aRec, leases := leaseAt a, pins := [], revoked := rev, walkFailed := !rev }
def revoked (rev : Bool) (a : Nat) : State := { qBase 0 0 0 [] with tasks := [(0, revokedTask rev a)] }
def failedLaunch (l : Launch) : State := { qBase 0 0 0 [] with launches := [(3, { l with failed := true })] }
theorem witness_TranslationEvents_retry : (∀ e ∈ base.tasks, e.2.part = 0 → e.2.walkFailed = false ∧ e.2.revoked = false) ∧
    (∀ rev ∈ [true, false], ∀ a ∈ [0, 0x40000000],
      (revoked rev a).tasks.filter (fun e => e.2.part == 0 && (e.2.walkFailed || (e.2.revoked &&
        (!((revoked rev a).part 0).inv1.busy && !((revoked rev a).part 0).inv2.busy)))) = [(0, revokedTask rev a)] ∧
      (revoked rev a).task? 0 = some (revokedTask rev a) ∧ (revoked rev a).launches = []) ∧
    walksWell (pinAll 0 (pinnedRanges aRec (leaseAt 0)) [] (revoked true 0)) = true ∧
    walksWell (pinAll 0 (pinnedRanges aRec (leaseAt 0x40000000)) [] (revoked true 0x40000000)) = false := by decide +kernel
theorem witness_TranslationEvents_repark : ({ bt with wait := some (.park 0x40000 0x10000 0 none) } : Team).wait =
    some (.park 0x40000 0x10000 0 none) ∧ base.locate tk (0x40000#64).toNat = some 0x40000 := by decide +kernel
theorem witness_TranslationEvents_abort : (∀ l ∈ [aLaunch, childLaunch], (failedLaunch l).launches.filter (fun e => e.2.part == 0 && e.2.failed) =
      [(3, { l with failed := true })] ∧ ∀ e ∈ (failedLaunch l).tasks, e.2.part = 0 → e.2.walkFailed = false) ∧
    (revoked false 0).tasks.filter (fun e => e.2.part == 0 && e.2.walkFailed) = [(0, revokedTask false 0)] ∧
    (∀ e ∈ (revoked false 0).launches, e.2.part = 0 → e.2.failed = false) := by decide +kernel
/-- A task pinned on the page an invalidation meets, a launch too, with a team. -/
def aPin : Pin := { va := 0, size := 0x10000, dpa := 0 }
def struckState : State := { withTeam bt with tasks := [(0, { tk with pins := [aPin] })], launches := [(0, { readyLaunch 0 with pins := some [aPin] })] }
theorem witness_TranslationEvents_go : bit (0x101#32) 0 = true ∧ bit (0x100#32) 0 = false ∧ ((struckState.part 0).inval false).busy = false ∧
    [aPin].any (fun x => ({ (struckState.part 0).inval false with all := true, busy := true } : Inval).revokes false x) = true ∧
    struckState.task? 0 = some { tk with pins := [aPin] } ∧ struckState.team? 0 = some bt ∧ bt.task = 0 ∧
    (∀ e ∈ (revoked false 0).tasks, e.2.part = 0 → e.2.pins.any (fun x => ({ all := true, busy := true } : Inval).revokes false x) = false) := by
  decide +kernel
def acking (s : State) (two : Bool) : State := s.updPart 0 (fun x => { x with inv1 := { busy := two }, inv2 := { busy := true } })
theorem witness_TranslationEvents_ack : ((acking base false).part 0).inval true = { busy := true } ∧ ((acking base false).part 0).inval false = {} ∧
    (∀ c ∈ (acking base false).cores, ∀ q ∈ c.2.stores, q.part ≠ 0) ∧
    (∀ e ∈ (acking base false).launches, e.2.part = 0 → e.2.walked.isSome = true → e.2.gen = ((acking base false).part 0).walkGen) ∧
    (∀ e ∈ (acking base false).tasks, e.2.part = 0 → e.2.revoked = false) ∧ (((acking base true).part 0).inval false).busy = true := by
  decide +kernel
theorem witness_TranslationEvents_wait : (∃ c ∈ (acking queuedBase false).cores, ∃ q ∈ c.2.stores, q.part = 0) ∧
    (let s := acking (launching { readyLaunch 0 with walked := some [], gen := 1 }) false
     ∃ e ∈ s.launches, e.2.part = 0 ∧ e.2.walked.isSome = true ∧ e.2.gen ≠ (s.part 0).walkGen) ∧
    (∃ c ∈ (acking (walking 1 0x800) false).cores, ∃ r ∈ c.2.refills, r.part = 0 ∧ r.gen ≠ ((acking (walking 1 0x800) false).part 0).walkGen) ∧
    (∀ c ∈ (acking (walking 0 0x800) false).cores, ∀ r ∈ c.2.refills, r.part = 0 → r.gen = ((acking (walking 0 0x800) false).part 0).walkGen) := by
  decide +kernel
theorem witness_TranslationEvents_rewalk : let s := acking (revoked true 0) false
    (∀ c ∈ s.cores, ∀ q ∈ c.2.stores, q.part ≠ 0) ∧ s.launches = [] ∧ ((s.part 0).inval false).busy = false ∧
    s.tasks.filter (fun e => e.2.part == 0 && e.2.revoked && !e.2.walkFailed) = [(0, revokedTask true 0)] ∧
    s.task? 0 = some (revokedTask true 0) ∧
    walksWell (pinAll 0 (pinnedRanges aRec (leaseAt 0)) []
      (s.updPart 0 (fun x => x.setInval true { (s.part 0).inval true with busy := false }))) = true := by decide +kernel


/-! ### Slices: entry 0 is partition 0, ordinary, entry 1 partition 1, a gang; 100 ticks each -/

def sliceTab : Tab Word := [(0, 0x6400), (1, 0x6481)]
def sliced (x : Domain) : State :=
  { (base.setPart 0 { ncl := 1 }).setPart 1 { ncl := 1, sliceOff := true } with cur := none, tick := 0x200 }.setDomain 0 { x with slices := sliceTab }
def gangAt (posted : Bool) (got : Word) (start : DWord) : Domain :=
  { index := some 1, gangctl := 0x10080000001, gang := some { start := start, posted := posted, got := got } }
theorem witness_SliceEnd : field (Tab.get (base.domain 0).slices 0 0) 8 24 = 0 ∧
    field (Tab.get ((sliced {}).domain 0).slices 0 0) 8 24 ≠ 0 ∧ ((sliced {}).domain 0).ends ≤ (sliced {}).tick ∧
    (sliced {}).nextEntry 0 ((sliced {}).domain 0) = some 0 ∧
    (sliced { index := some 0 }).nextEntry 0 ((sliced { index := some 0 }).domain 0) = some 1 ∧
    (sliced { ends := 0x201 }).tick < ((sliced { ends := 0x201 }).domain 0).ends := by decide +kernel
/-- Early messages, for the tick at which entry 1 begins: a READY of port 31, a FORFEIT. -/
theorem witness_SliceEnd_early : bit (Tab.get sliceTab 0 1) 7 = true ∧ bit (Tab.get sliceTab 0 0) 7 = false ∧
    ((32, 0x200) : Nat × DWord) ∉ ((sliced { index := some 0, early := [(31, 0x200)] }).domain 0).early ∧
    ((32, 0x200) : Nat × DWord) ∈ ((sliced { index := some 0, early := [(32, 0x200)] }).domain 0).early := by decide +kernel
/-- Entry 1 follows entry 0; after entry 1, whose follower has LEN 0, entry 0; an entry of another domain's partition is passed over. -/
theorem witness_SliceOrder : ((sliced {}).domain 0).index = none ∧ ((sliced { index := some 0 }).domain 0).index = some 0 ∧
    (sliced { index := some 1 }).nextEntry 0 ((sliced { index := some 1 }).domain 0) = some 0 ∧
    (let s := (sliced {}).setDomain 0 { slices := [(0, 0x6407), (1, 0x6400)] }
     s.nextEntry 0 (s.domain 0) = some 1) := by decide +kernel
/-- R347: once its partition runs, nothing of its block in the save area, a team halted in place awaits its block no more; and a write
of 1 to HALT halts it again. -/
def haltedBase : State := (sliced {}).setTeam 0 { bt with halted := true, awaitsBlock := true }
theorem test_halt_ends : (List.map (fun (v : Word) => match exec (.pstateHaltWrite 0 v) haltedBase with
    | .next s => (s.team? 0).map (fun u => (u.halted, u.awaitsBlock)) | _ => none) [0, 1]) =
    [some (true, false), some (true, true)] := by decide +kernel
def halting (x : Part) : State := { base.setPart 0 x with cur := none }
theorem witness_Halting : ((halting { haltBit := true }).part 0).haltedBit = false ∧ ((halting { haltBit := true }).part 0).haltBit = true ∧
    (∀ c ∈ (halting { haltBit := true }).cores, ∀ q ∈ c.2.stores, q.part ≠ 0) ∧
    ((halting { sliceOff := true }).part 0).haltBit = false ∧ ((halting { sliceOff := true }).part 0).sliceOff = true ∧
    bit (0xD#32) 0 = true ∧ base.team? 0 = some bt ∧ bt.part = 0 := by decide +kernel
theorem witness_Messages : let x := (sliced (gangAt false 0 0x100)).domain 0
    (∀ g, x.gang = some g → g.start ≠ 0x200) ∧ (sliced (gangAt false 0 0x100)).tick ≤ 0x200 ∧ (∀ g, x.gang = some g → g.start ≠ 0xFF) ∧
    (0xFF : DWord) < (sliced (gangAt false 0 0x100)).tick := by
  refine ⟨fun g h => ?_, by decide +kernel, fun g h => ?_, by decide +kernel⟩ <;>
    (have e : ((sliced (gangAt false 0 0x100)).domain 0).gang = some { start := 0x100 } := by decide +kernel
     obtain rfl := Option.some.inj (e.symm.trans h)
     decide)
/-- A slice that waits: within its grace, not posted; posted; past it. A gang partition held halted cannot issue. -/
theorem witness_GangSlices :
    (let s := sliced (gangAt false 0 0x100); let x := s.domain 0
     x.gang = some { start := 0x100 } ∧ s.tick - 0x100 ≤ x.grace ∧ s.canIssueHere x.slicePart = true ∧ (0 : Word) &&& x.ports ≠ x.ports) ∧
    (let s := sliced (gangAt false 0x80000001 0x100); let x := s.domain 0
     s.tick - 0x100 ≤ x.grace ∧ s.canIssueHere x.slicePart = true ∧ (0x80000001 : Word) &&& x.ports = x.ports) ∧
    (let s := (sliced (gangAt false 0 0x100)).updPart 1 (fun y => { y with haltBit := true }); let x := s.domain 0
     s.tick - 0x100 ≤ x.grace ∧ s.canIssueHere x.slicePart = false) ∧
    (let s := sliced (gangAt false 0 0xFF); let x := s.domain 0
     x.gang = some { start := 0xFF } ∧ x.grace < s.tick - 0xFF) := by decide +kernel
theorem witness_GangSlices_posted :
    (let s := sliced (gangAt true 0x80000001 0x100); let x := s.domain 0
     x.gang = some { start := 0x100, posted := true, got := 0x80000001 } ∧ s.tick - 0x100 ≤ x.grace ∧
     (0x80000001 : Word) &&& x.ports = x.ports) ∧
    (let s := sliced (gangAt true 1 0x100); let x := s.domain 0
     x.grace ≤ s.tick - 0x100 ∧ ¬ (true = true ∧ (1 : Word) &&& x.ports = x.ports ∧ s.tick - 0x100 ≤ x.grace)) := by decide +kernel


/-! ### Power, time, the firewall -/

def powered (t : DWord) : State := { base with tick := t, railAt := 0, pkgThr := false }
def floorTask : Task := { tk with lr := { rec1 with floor := 1 } }
theorem witness_Rails : (powered 1023).tick - (powered 1023).railAt < 1024 ∧ 1024 ≤ (powered 1024).tick - (powered 1024).railAt ∧
    Config.packageLimit < 2801 ∧ ¬ Config.packageLimit < 2800 ∧ ((powered 1024).part 0).ncl ≠ 0 ∧
    (powered 1024).floored 0 = false ∧ (Tab.get (powered 1024).rails {} 3).op = 0 := by decide +kernel
def frozenCl (n : Nat) : State := base.setCluster 0 { base.cluster 0 with reg := { droop := true, frozen := true, count := n } }
def droopCl : State := base.setCluster 0 { base.cluster 0 with reg := { droop := true, count := 65 } }
theorem witness_Regulator : (droopCl.cluster 0).reg.droop = true ∧ (droopCl.cluster 0).reg.frozen = false ∧ 64 < (droopCl.cluster 0).reg.count ∧
    ((frozenCl 256).cluster 0).reg.frozen = true ∧
    max 16 (min 4096 ((frozenCl 256).cluster 0).frz) ≤ ((frozenCl 256).cluster 0).reg.count := by decide +kernel
/-- The tick before a tile has gone unvisited for 16,384 ticks, and before that. -/
def tickTile (t : DWord) : State := { base.setBlock 0 { base.blockOf bt with tiles := [(7, {})] } with tick := t }
theorem witness_PackageTick : ((tickTile 16383).block? 0).bind (fun b => Tab.get? b.tiles 7) = some {} ∧
    16384 ≤ (tickTile 16383).tick + 1 - ({} : Tile).visit ∧ (tickTile 16382).tick + 1 - ({} : Tile).visit < 16384 := by decide +kernel
def aligning (t a : DWord) : State := { State.reset with tsyncAlign := true, tick := t, alignAt := a }
theorem witness_TickAlign : State.reset.tsyncAlign = false ∧ base.tasks ≠ [] ∧ (aligning 65540 5).tick - (aligning 65540 5).alignAt < 65536 ∧
    (aligning 65541 5).tsyncAlign = true ∧ (aligning 65541 5).tasks = [] ∧ 65536 ≤ (aligning 65541 5).tick - (aligning 65541 5).alignAt ∧
    (aligning 65541 5).tick ≤ 65541 ∧ (65540 : DWord) < (aligning 65541 5).tick ∧ (aligning 65541 5).tick - 65540 ≤ 1 ∧
    (1 : DWord) < (aligning 65541 5).tick - 65539 := by decide +kernel
theorem witness_Watchdog :
    2 ^ max 16 (base.part 0).log2w ≤ Tab.get ((base.setCore 0 { wd := [(0, 2 ^ 24)] }).core 0).wd 0 0 ∧ (base.part 0).wdValid = false ∧
    ((base.updPart 0 (fun x => { x with wdValid := true })).part 0).wdValid = true := by decide +kernel
/-- R363: of 16 cycles from cycle 8 on, with 8 of 16 withheld, 8 count. -/
def countBase : State :=
  { base.setCore 0 { base.core 0 with cycle := 8, wd := [(0, 7)] } with throttled := [(0, 8)] }.updPart 0 (fun x => { x with ncl := 1 })
theorem test_withheld_cycles : (countBase.part 0).ncl ≠ 0 ∧ countBase.cyclesCounted 0 0 16 = 8 ∧
    Tab.get ((countBase.countCycles 0 16).core 0).wd 0 0 = 15 := by decide +kernel
theorem witness_Watchdog_halted : countBase.partHalted 0 = false ∧ (countBase.updPart 0 (fun x => { x with haltBit := true })).partHalted 0 = true ∧
    ((∃ e ∈ countBase.teams, e.2.part = 0) ∧ ∀ e ∈ (countBase.updPart 0 (fun x => { x with sliceOff := true })).teams, e.2.part = 0 →
      (countBase.updPart 0 (fun x => { x with sliceOff := true })).inPlace e.2 = true) := by decide +kernel
/-- R363, R325: with every team of the partition halted in place the count stands; R357: so it does from the sixty-fifth cycle of a droop on. -/
theorem test_halted_cycles :
    Tab.get (((countBase.updPart 0 (fun x => { x with haltBit := true })).countCycles 0 16).core 0).wd 0 0 = 7 ∧
    (({ countBase with throttled := [] }.setCluster 0 { base.cluster 0 with reg := { droop := true, count := 60 } }).cyclesCounted 0 0 16) = 5 := by
  decide +kernel
/-- A cluster whose cache holds a word that a core dirtied. -/
def dirtyLine (core : Nat) : Cluster := { base.cluster 0 with l2 := [(0x800, { valid := 1, dirty := 1, src := [(0, core)] })] }
theorem witness_PatrolScrub : (base.block? 0).isSome = true ∧ base.team? 0 = some bt ∧
    (∀ x ∈ (memBase.core 0).stores, ∀ e ∈ x.words, e.1 ≠ 0x10000) ∧
    (queuedBase.core 0).stores.filter (fun x => x.words.any (fun e => e.1 == 0x10000)) = [queued] ∧
    queuedBase.team? queued.team = some memTeam ∧ queuedBase.task? queued.task = some tk ∧ memTeam.task = queued.task ∧
    memTeam.uid = queued.uid ∧
    memTeam.fault = none ∧ tk.lr.det = false ∧ base.task? 0 = some tk ∧ (graphBase aGraph lineIdx |>.cluster 0).graph = some aGraph ∧
    dirtyBy (heldBase.cluster 0).l2 0x10000 = none ∧ dirtyIn (heldBase.core 0).l1 0x10000 = false ∧
    dirtyBy (dirtyLine 2).l2 0x10000 = some 2 ∧ dirtyIn (dirtyLine 2).l2 0x10000 = true ∧ ((0xFFFF : DWord) + 1).setWidth 16 = 0#16 := by decide +kernel
/-- The team of the queued store has left its slot. -/
def leftBase : State := { queuedBase with teams := [] }
theorem witness_PatrolScrub_left : (leftBase.core 0).stores.filter (fun x => x.words.any (fun e => e.1 == 0x10000)) = [queued] ∧
    leftBase.team? queued.team = none ∧ leftBase.task? queued.task = some tk := by decide +kernel
def openEdge : State := State.reset.setEdge 0 0 { state := .opened, close := false }
def drainEdge : State := State.reset.setEdge 0 0 { state := .draining }
/-- A store of core 0 to a word of die 1 waits to be registered. -/
def crossing : State := drainEdge.setCore 0 { stores := [{ team := 0, task := 0, part := 0, uid := 0, block := 0, teamNo := 0, words := [(2 ^ 35, 7)] }] }
theorem witness_FirewallEdges : (openEdge.edge 0 0).state = .opened ∧ (State.reset.edge 0 0).state = .closed ∧ (drainEdge.edge 0 0).state = .draining ∧
    drainEdge.inTransit 0 0 = false ∧ (crossing.edge 0 0).state = .draining ∧ crossing.inTransit 0 0 = true := by decide +kernel
theorem witness_FirewallDomains :
    (∀ e ∈ edgesOf 7, (State.reset.edge 7 e).close = true ∧ (State.reset.edge 7 e).state = .closed) ∧ State.reset.dieUsed 7 = false ∧
    (∃ e ∈ edgesOf 0, (openEdge.edge 0 e).state ≠ .closed) ∧ base.dieUsed 0 = true := by decide +kernel

/-! ### The mailbox of the physical function, its buffer at 0x80000, and of partition 0 -/

def boxed (code : Byte) (buf : List (Nat × Byte)) (s : State) : State :=
  { s with boot := .running, pfBox := { addr := 0x80000, busy := true, code := code }, mem := buf.map (fun e => (0x80000 + e.1, e.2)) }
/-- PCREATE of partition 63 in domain 7: one cluster, 14, a save area of 64 MiB, GiB 1023. -/
def createBuf : List (Nat × Byte) := [(0, 63), (1, 7), (2, 1), (4, 14), (15, 0xF0), (16, 0xFF), (20, 64), (175, 0x80)]
def buf (s : State) : List Byte := s.peekBytes 0x80000 352
theorem witness_Mailbox_attest : State.reset.up = false ∧
    (let s := boxed 1 [] State.reset
     s.up = true ∧ (s.box none).busy = true ∧ (s.box none).code = 1#8 ∧ s.bufferAt none = some 0x80000 ∧ s.pfBox.busy = true) ∧
    ((boxed 0x15 [] State.reset).box none).busy = true ∧ codeKnown none 0x15 = false ∧ codeKnown (some 63) 0x10 = false ∧
    (let s := (qBase 0 0 0 []).updPart 0 (fun x => { x with mbox := { addr := 0x80000, busy := true, code := 1 } })
     s.up = true ∧ (s.box (some 0)).busy = true ∧ s.bufferAt (some 0) = some 0x80000) := by decide +kernel
theorem witness_Mailbox_pcreate :
    let s := boxed 0x10 createBuf State.reset
    s.bufferAt none = some 0x80000 ∧ fieldB (buf s) 0 1 = 63 ∧ s.domainExists (fieldB (buf s) 1 1) = true ∧ fieldB (buf s) 2 1 = 1 ∧
    fieldB (buf s) 3 1 = 0 ∧ s.cltabOk 7 1 (BitVec.ofNat 64 (fieldB (buf s) 4 8)) = true ∧
    s.saveOk 7 1 (BitVec.ofNat 64 (fieldB (buf s) 12 8)) (fieldB (buf s) 20 4) = true ∧
    s.windowOk 7 (BitVec.ofNat 1024 (fieldB (buf s) 48 128)) = true ∧ (s.part 63).ncl = 0 ∧
    ((s.setPart 63 { ncl := 1 }).part 63).ncl ≠ 0 := by decide +kernel
theorem witness_Mailbox_pdestroy :
    (let s := boxed 0x11 [] (base.setPart 0 { ncl := 1 })
     fieldB (buf s) 0 1 = 0 ∧ (s.part 0).ncl ≠ 0 ∧ ∃ e ∈ s.tasks, e.2.part = 0) ∧
    (let s := boxed 0x11 [(0, 63)] (base.setPart 63 { ncl := 1 })
     fieldB (buf s) 0 1 = 63 ∧ (s.part 63).ncl ≠ 0 ∧ ∀ e ∈ s.tasks, e.2.part ≠ 63) := by decide +kernel
/-- The rectangle of dies 2, 3, 6 and 7 becomes a domain; die 1 leaves a rectangle that is none without it. -/
def domainAt (s : State) : State := boxed 0x12 [(0, 2), (1, 2), (2, 2)] s
def moves (s : State) (i : Nat) : Prop := i < 8 ∧ ((s.domainsWith (rectangle 2 2 2) 2)[i]?).getD i ≠ s.domOf i
theorem witness_Mailbox_domain :
    (let s := boxed 0x12 [(0, 3), (1, 2), (2, 1)] State.reset
     4 < fieldB (buf s) 0 1 % 4 + fieldB (buf s) 1 1) ∧
    (let s := boxed 0x12 [(0, 1), (1, 1), (2, 1)] { State.reset with dieDom := [(0, 0), (1, 0), (4, 0), (5, 0)] }
     fieldB (buf s) 0 1 = 1 ∧ fieldB (buf s) 1 1 = 1 ∧ fieldB (buf s) 2 1 = 1 ∧
     ¬ ∀ x, x < 8 → isRectangle ((List.range 8).filter (fun i => ((s.domainsWith (rectangle 1 1 1) 1)[i]?).getD i == x)) = true) ∧
    (let s := domainAt State.reset
     fieldB (buf s) 0 1 = 2 ∧ fieldB (buf s) 1 1 = 2 ∧ fieldB (buf s) 2 1 = 2 ∧
     (∀ x, x < 8 → isRectangle ((List.range 8).filter (fun i => ((s.domainsWith (rectangle 2 2 2) 2)[i]?).getD i == x)) = true)) := by
  decide +kernel
theorem witness_Mailbox_domain_moves :
    (∀ i, i < 8 → (domainAt State.reset).dieUsed i = false ∧ (domainAt State.reset).dieShut i = true) ∧
    (let s := domainAt (State.reset.setEdge 3 2 { state := .opened, close := false })
     moves s 3 ∧ s.dieShut 3 = false ∧ ∀ i, i < 8 → s.dieUsed i = false) ∧
    (let s := domainAt (State.reset.setPart 9 { ncl := 1, window := 1#1024 <<< (128 * 7) })
     moves s 7 ∧ s.dieUsed 7 = true) := by unfold moves; decide +kernel
/-- Partition 0, cluster 0, GiB 0, halted, to domain 7, cluster 14, GiB 1023; and to the peer behind port 31. -/
def moving (dom port : Byte) : State :=
  boxed 0x13 ([(1, dom)] ++ [(2, port)]) (base.setPart 0 { ncl := 1, haltBit := true, haltedBit := true, window := 1, saveSize := 64 })
def newPlace : Placement := { cltab := 14, window := 1#1024 <<< 1023, saveBase := 0xFFF0000000 }
theorem witness_Mailbox_migrate :
    (let s := moving 7 255
     fieldB (buf s) 0 1 = 0 ∧ (s.part 0).ncl ≠ 0 ∧ fieldB (buf s) 2 1 = 255 ∧ s.haltedNow 0 = true ∧ s.domainExists 7 = true ∧
     7 ≠ (s.part 0).dom ∧ ((s.removePart 0).setDown (s.pack 0) 0 7 newPlace).isSome = true) ∧
    (let s := moving 7 255
     (s.removePart 0).setDown (s.pack 0) 0 7 { newPlace with cltab := 12 } = none) ∧
    (let s := moving 0 255
     fieldB (buf s) 1 1 = (s.part 0).dom) := by decide +kernel
theorem witness_Mailbox_migrate_peer :
    (let s := moving 7 31
     fieldB (buf s) 2 1 = 31 ∧ fieldB (buf s) 2 1 ≠ 255 ∧ s.haltedNow 0 = true ∧ (Tab.get s.peers {} 31).step = Config.geomStep) ∧
    (let s := { moving 7 31 with peers := [(31, { step := Config.geomStep + 1 })] }
     (Tab.get s.peers {} 31).step ≠ Config.geomStep) ∧
    ((moving 7 31).setPart 0 { ncl := 1 }).haltedNow 0 = false := by decide +kernel
/-- A team of the partition with a register in error; save area words in error. -/
def movingBad (inSave : Bool) : State :=
  let s := moving 7 255
  if inSave then { s with poisoned := [(0, 2)] } else s.setTeam 0 { bt with bad := [.s 5] }
theorem witness_Mailbox_migrate_bad : ((moving 7 255).haltedNow 0 = true ∧ (moving 7 255).packBad 0 = none) ∧
    ((movingBad true).haltedNow 0 = true ∧ (movingBad true).saveBad 0 = some 2 ∧ (movingBad true).packBad 0 = some 2) ∧
    ((movingBad false).haltedNow 0 = true ∧ (movingBad false).saveBad 0 = none ∧ (movingBad false).packBad 0 = some 4) ∧
    (∃ e ∈ (movingBad false).tasks, e.2.part = 0) := by decide +kernel
/-- R375: the error in the buffer's word is found by the Yardmaster's read. -/
theorem test_buffer_in_error : (match exec .pdestroy { boxed 0x11 [(0, 63)] (base.setPart 63 { ncl := 1 }) with
      poisoned := [(0x20000, 1)], unfound := [0x20000] } with
    | .next s => some (s.pfBox.stat, s.unfound, s.irqs.map (fun i => i.vector)) | _ => none) = some (1, [], [2, 0]) := by decide +kernel
theorem witness_Mailbox_unfit : ({ boxed 1 [] State.reset with pfBox := { addr := 0x80001, busy := true, code := 1 } } : State).bufferAt none = none := by
  decide +kernel
/-- Whether an image verifies is a free value (log 23): the two clauses of FWLOAD cover both. -/
theorem witness_Mailbox_fwload : 0xFFFFFFFFF0 + 16 ≤ 2 ^ 40 ∧ (boxed 0x14 [] State.reset).up = true ∧
    ({ boxed 0x14 [] State.reset with boot := .recovery } : State).boot = .recovery ∧
    ∀ img, Config.imageVerifies img = true ∨ Config.imageVerifies img = false :=
  ⟨by decide, by decide +kernel, rfl, fun img => by cases Config.imageVerifies img <;> simp⟩


/-! ### The host -/

def upBase : State := { base with boot := .running, peerAcc := [(0, 0x8000000000100000), (31, 0x8000000000100000)] }
theorem witness_HostEvents_ap1 : upBase.up = true ∧ State.reset.up = false ∧ linkOf none 1 = true ∧ linkOf (some 63) 0 = false ∧
    linkOf none 2 = false ∧
    ((List.range 8).mapM (fun i => upBase.ap1 none true (0xFFFFFFFFF8 + i))).isSome = true ∧
    ((List.range 8).mapM (fun i => upBase.ap1 none false (0xFFFFFFFFF8 + i))).isSome = true ∧
    ((List.range 8).mapM (fun i => upBase.ap1 none true (0xFFFFFFFFF9 + i))) = none := by decide +kernel
theorem witness_HostEvents_peers : upBase.admitsPeer 31 0x3FFFFFFC = true ∧ upBase.admitsPeer 31 0x40000000 = false ∧
    upBase.blockedEdge (dieOfLoc 0x3FFFFFFC) 5 (31 / 4) = some (7, 1) ∧
    upBase.admitsPeer 0 0x3FFFFFFC = true ∧ upBase.blockedEdge (dieOfLoc 0x3FFFFFFC) 5 (0 / 4) = none ∧ upBase.memoryWf = true ∧ (10#5).toNat ≤ 10 := by
  decide +kernel
/-- A word in error of which a write takes one byte. -/
def poisonedBase : State := { upBase with poisoned := [(31, 1)] }
/-- R375: a host's read of an error that nothing has met yet raises vector 2, and a second read does not. -/
def unfoundBase : State := { poisonedBase with unfound := [31] }
theorem witness_HostEvents_finds : (∃ w ∈ unfoundBase.unfound, (w == 31) = true ∧ Tab.get? unfoundBase.poisoned w ≠ none) ∧
    ∀ w ∈ unfoundBase.unfound, (w == 30) = true → Tab.get? unfoundBase.poisoned w = none := by decide +kernel
def readAt (s : State) : State := match exec (.hostAp1Access ⟨0, none⟩ 126 4 none) s with | .next s' => s' | _ => s
theorem test_host_read_of_an_error : (readAt unfoundBase).irqs.map (fun i => (i.fn, i.vector)) = [(none, 2)] ∧
    (readAt (readAt unfoundBase)).irqs.length = 1 := by decide +kernel
theorem witness_HostEvents_bytes : poisonedBase.memoryWf = true ∧ ([((124 : Nat), (7 : Byte))].map (·.1)).Nodup ∧
    Tab.get? poisonedBase.poisoned 31 ≠ none ∧ 4 * 31 + 1 ∉ [((124 : Nat), (7 : Byte))].map (·.1) := by decide +kernel
def oneShadow : Shadow := { prior := 5, mask := 1, stamp := 0 }
theorem witness_HostEvents_discard :
    let s := { upBase with peerShadows := [(peerTask 0 5, [(0, oneShadow)])] }
    Tab.get s.peerShadows [] (peerTask 0 5) = [(0, oneShadow)] ∧ s.memoryWf = true := by decide +kernel
/-- A parcel of partition 0, without tasks, waits behind port 31. -/
def arriving : State :=
  { (boxed 0 [] State.reset) with peers := [(31, { parcels := [{ part := { ncl := 1, window := 1, saveSize := 64 } }] })] }
def parcelAt (s : State) : Parcel := ((Tab.get s.peers {} 31).parcels.head?).getD { part := {} }
theorem witness_HostEvents_arrive : arriving.up = true ∧ (Tab.get arriving.peers {} 31).parcels = parcelAt arriving :: [] ∧
    (arriving.part 63).ncl = 0 ∧ (Tab.get arriving.peers {} 31).step = Config.geomStep ∧
    (arriving.setDown (parcelAt arriving) 63 7 newPlace).isSome = true ∧
    arriving.setDown (parcelAt arriving) 63 7 { newPlace with saveBase := 1 } = none := by decide +kernel
theorem witness_HostEvents_reset : (∀ e ∈ upBase.tasks, e.2.part ≠ 63) ∧ upBase.tasks.filter (fun e => e.2.part == 0) = [(0, tk)] ∧
    upBase.task? 0 = some tk ∧ field (2#32) 0 2 = 2 ∧ (upBase.part 0).capMode ≠ 2 ∧ (Tab.get? upBase.cores 0).isSome = true := by
  decide +kernel
/-- R113: a team parked on word 31 goes on when a team of a peer writes another value there, not when a Drover does. -/
def parkedUp : State := upBase.setTeam 0 { bt with wait := some (.park 0 31 0 none) }
theorem test_peer_ends_parks : (List.map (fun (b : Bool) => match exec (.peerAccess 0 124#64 (.write 5 7 b)) parkedUp with
    | .next s => (s.team? 0).map (fun u => u.wait == some .over) | _ => none) [true, false]) = [some true, some false] := by decide +kernel
/-- R340, R342, R371: a peer's task writes word 31 of line 0 twice, then faults: the word is as before, its version gone. -/
def peerWrote (v : Word) (s : State) : State :=
  match exec (.peerAccess 0 124#64 (.write 5 v true)) s with | .next s' => s' | _ => s
theorem test_peer_versions :
    (let s := peerWrote 7 (peerWrote 6 upBase)
     s.peek 31 = 7 ∧ Tab.get s.peerShadows [] (peerTask 0 5) = [(0, { prior := upBase.peekLine 0, mask := 0x80000000, stamp := 0 })] ∧
     s.memoryWf = true ∧
     (match exec (.peerAccess 0 0 (.discard [5])) s with
      | .next s' => s'.peek 31 == upBase.peek 31 && s'.peerShadows == [] | _ => false) = true) := by decide +kernel

end Sys2Proof.Tests
end

/-! Control instructions: `nop`, `bra`, and the uniform jumps `brx`, `call` and `ret` (R82, R102 to R104, R117). First what a
push of a stack entry leaves alone, then the frame of a branch, then the obligations. -/
namespace Sys2Proof.Machine

/-! ## What a push of a stack entry does -/

@[simp] theorem State.poke_parts (s : State) (w : Nat) (v : Word) : (s.poke w v).parts = s.parts := by
  unfold State.poke; split <;> rfl
@[simp] theorem State.keepPoison_parts (s old : State) (w : Nat) : (s.keepPoison old w).parts = s.parts := by
  unfold State.keepPoison; split <;> rfl
@[simp] theorem State.pokeByte_parts (s : State) (a : Nat) (b : Byte) : (s.pokeByte a b).parts = s.parts := by
  simp [State.pokeByte]

/-- Folding steps that leave the partitions alone leaves them alone. -/
theorem State.foldl_parts {α : Type} (f : State → α → State) (hf : ∀ s a, (f s a).parts = s.parts) (l : List α) (s : State) :
    (l.foldl f s).parts = s.parts := by
  induction l generalizing s with
  | nil => rfl
  | cons a l ih => rw [List.foldl_cons, ih, hf]

@[simp] theorem State.pokeBytes_parts (s : State) (a : Nat) (l : List Byte) : (s.pokeBytes a l).parts = s.parts := by
  unfold State.pokeBytes State.heal
  exact State.foldl_parts _ (fun s e => State.pokeByte_parts s e.1 e.2) (bytesAt a l) s
@[simp] theorem State.storeEntry_parts (s : State) (locs : List Nat) (e : Entry) : (s.storeEntry locs e).parts = s.parts :=
  State.foldl_parts _ (fun s _ => State.pokeBytes_parts s _ _) _ s
@[simp] theorem State.storeEntry_part (s : State) (locs : List Nat) (e : Entry) (p : Nat) :
    (s.storeEntry locs e).part p = s.part p := by
  simp [State.part]

/-- Counting a request changes no breakpoint. -/
@[simp] theorem State.countFill_breaksAt (s : State) (p : Nat) (pc : DWord) :
    ((s.countFill p).part p).breaksAt pc = (s.part p).breaksAt pc := by
  simp [State.countFill, State.updPart, State.setPart, State.part, Part.breaksAt]

/-- A push that succeeds keeps the entry on chip, or spills the oldest one to private space (R57). -/
theorem pushEntry_cases {k : Nat} {e : Entry} {t u : Team} {s s' : State} (h : pushEntry k e t s = .ok (u, s')) :
    t.stack.length + t.spilledEntries < 256 ∧
    ((t.stack.length < 16 ∧ u = { t with stack := e :: t.stack } ∧ s' = s) ∨
     (16 ≤ t.stack.length ∧ ∃ old locs, t.stack.getLast? = some old ∧ s.imageLocs k t t.spilledEntries = some locs ∧
      s.spillCheck k t false t.spilledEntries = .ok () ∧
      u = { t with stack := e :: t.stack.take 15, spilledEntries := t.spilledEntries + 1 } ∧
      s' = (s.storeEntry locs old).countFill t.part)) := by
  unfold pushEntry at h
  split at h
  · cases h
  next hroom =>
  refine ⟨not_le.1 hroom, ?_⟩
  split at h
  next hchip => cases h; exact .inl ⟨hchip, rfl, rfl⟩
  next hchip =>
    cases hs : s.spillCheck k t false t.spilledEntries with
    | error x => rw [hs] at h; split at h <;> cases h
    | ok =>
      rw [hs] at h
      split at h
      next old locs hold hlocs => cases h; exact .inr ⟨not_lt.1 hchip, old, locs, hold, hlocs, rfl, rfl, rfl⟩
      next => cases h

/-- A push changes neither the team's place and mask nor the breakpoints of its partition. -/
theorem pushEntry_keeps {k : Nat} {e : Entry} {t u : Team} {s s' : State} (h : pushEntry k e t s = .ok (u, s')) :
    u.part = t.part ∧ u.pc = t.pc ∧ u.active = t.active ∧
      ∀ pc, (s'.part t.part).breaksAt pc = (s.part t.part).breaksAt pc := by
  obtain ⟨-, ⟨-, rfl, rfl⟩ | ⟨-, old, locs, -, -, -, rfl, rfl⟩⟩ := pushEntry_cases h
  · exact ⟨rfl, rfl, rfl, fun _ => rfl⟩
  · exact ⟨rfl, rfl, rfl, fun pc => by simp⟩

/-- A stack of 256 entries takes no more (R57). -/
theorem pushEntry_full (k : Nat) (e : Entry) {t : Team} (s : State) (h : 256 ≤ t.stack.length + t.spilledEntries) :
    pushEntry k e t s = illegal 3 := if_pos h

/-! ## The frame of a branch -/

/-- A body that faults raises the fault: the team stops, the part goes on (R335). -/
theorem issueWith_body_fault {s : State} {k : Nat} {t : Team} (hi : Issues s k t) (p : Pre) (r : Scalars)
    (check : Nat → Team → State → Act Unit) (act : Team → Mask) (body : Nat → Mask → Team → State → Act Done)
    (c d : Nat) (a : DWord) (e : Option (Nat × Nat)) (hc : check k t s = .ok ()) (ha : act t ≠ 0#1024)
    (hb : body k (act t) t s = .error (.fault c d a e)) :
    issueWith p r check act body s = .next (s.raise k t c d a e) := by
  rw [issueWith_body hi p r check act body hc ha, hb]
  rfl

/-- A guard true in some active lanes, not in all, leaves active lanes where it is false. -/
theorem Team.guarded_rest_ne_zero {t : Team} {p : Pre} (h : t.guarded p ≠ t.active) :
    t.active &&& ~~~(t.guarded p) ≠ 0#1024 := by
  intro h0
  apply h
  apply BitVec.eq_of_getLsbD_eq
  intro i hi
  have hbit := congrArg (BitVec.getLsbD · i) h0
  unfold Team.guarded at hbit ⊢
  simp only [BitVec.getLsbD_and, BitVec.getLsbD_not, hi, decide_true, Bool.true_and, BitVec.getLsbD_zero] at hbit ⊢
  revert hbit
  cases t.active.getLsbD i <;> simp

section
variable {s : State} {k : Nat} {t : Team} (hi : Issues s k t) {p : Pre} (r : Scalars) {check : Act Unit}
  {body : Nat → Mask → Team → State → Act Done}
include hi

/-- A guard true in no active lane: the branch falls through (R103, R104). -/
theorem branchFrame_idle (hc : check = .ok ()) (hact : t.active ≠ 0) (hg : t.guarded p = 0) :
    branchFrame p r check body s = .next (s.retire k p t) :=
  issueWith_idle hi p r _ _ body hc hg hact

/-- A check that finds an illegal operation raises it, whatever the guard (R85, R88). -/
theorem branchFrame_illegal {d : Nat} (hc : check = illegal d) :
    branchFrame p r check body s = .next (s.raise k t 6 d 0 none) :=
  issueWith_check_fault hi p r _ _ body 6 d 0 none hc

/-- A branch taken by all lanes goes on at its target. -/
theorem branchFrame_jump {u : Team} {pc : DWord} (hc : check = .ok ()) (ha : acts p t)
    (hb : body k (t.guarded p) t s = jump u s pc) (hact : u.active = t.active) (hpart : u.part = t.part) :
    branchFrame p r check body s = .next (s.retireAt k u pc (p.run || pc != t.pc + 8)) :=
  issueWith_jump hi p r _ _ body u s pc hc ha hb (hact ▸ ha.active) hpart hi.noBreak

/-- A branch whose body faults raises the fault. -/
theorem branchFrame_fault {c d : Nat} {a : DWord} (hc : check = .ok ()) (ha : acts p t)
    (hb : body k (t.guarded p) t s = faultAt c d a) :
    branchFrame p r check body s = .next (s.raise k t c d a none) :=
  issueWith_body_fault hi p r _ _ body c d a none hc ha hb
end

/-! ## The register of a jump (R102) -/

theorem linkCheck_ok {r : Nat} (h0 : r ≠ 0) (he : r % 2 = 0) (hr : r ≤ 63) : linkCheck r = .ok () := by
  have h63 : ¬ 63 < r := by omega
  simp [linkCheck, illegalIf, h0, he, h63, pure, Except.pure, bind, Except.bind]
theorem linkCheck_zero : linkCheck 0 = illegal 1 := rfl
theorem linkCheck_bad {r : Nat} (h0 : r ≠ 0) (h : r % 2 = 1 ∨ 63 < r) : linkCheck r = illegal 2 := by
  simp [linkCheck, illegalIf, h0, h, pure, Except.pure, bind, Except.bind]

/-! ## A uniform jump (R104) -/

/-- The body `brx`, `call` and `ret` share: a target, and the team with its link. -/
def jumpBody (target : Team → DWord) (link : Team → Team) (_ : Nat) (m : Mask) (t : Team) (s : State) : Act Done :=
  uniformJump m (target t) t (link t) s

theorem exec_brx (f : BF) (s : State) : exec (.brx f) s =
    branchFrame f.pre { reads := [branchReg f, branchReg f + 1] } (linkCheck (branchReg f))
      (jumpBody (fun t => t.rs2 (branchReg f) + 8 * f.disp.signExtend 64) id) s := rfl
theorem exec_call (f : BF) (s : State) : exec (.call f) s =
    branchFrame f.pre { writes := [branchReg f, branchReg f + 1] } (linkCheck (branchReg f))
      (jumpBody (fun t => t.pc + 8 * f.disp.signExtend 64) (fun t => t.ws2 (branchReg f) (t.pc + 8))) s := rfl
/-- The check of `ret`: yk 0, and its register. -/
def retCheck (f : YF) : Act Unit := do
  illegalIf (f.yk != 0) 1
  linkCheck f.ya.toNat
theorem exec_ret (f : YF) (s : State) : exec (.ret f) s =
    branchFrame f.pre { reads := [f.ya.toNat, f.ya.toNat + 1] } (retCheck f)
      (jumpBody (fun t => t.rs2 f.ya.toNat) id) s := rfl

theorem retCheck_of_yk_zero {f : YF} (h : f.yk = 0) : retCheck f = linkCheck f.ya.toNat := by
  simp [retCheck, illegalIf, h, pure, Except.pure, bind, Except.bind]
theorem retCheck_ok {f : YF} (hk : f.yk = 0) (h0 : f.ya ≠ 0) (he : f.ya.toNat % 2 = 0) (hr : f.ya.toNat ≤ 63) :
    retCheck f = .ok () :=
  (retCheck_of_yk_zero hk).trans (linkCheck_ok (fun h => h0 (BitVec.eq_of_toNat_eq h)) he hr)
theorem retCheck_illegal {f : YF} (h : f.yk ≠ 0 ∨ f.ya = 0) : retCheck f = illegal 1 := by
  by_cases hk : f.yk = 0
  · rw [retCheck_of_yk_zero hk, h.resolve_left (not_not_intro hk)]
    rfl
  · have hb : (f.yk != 0) = true := bne_iff_ne.2 hk
    simp only [retCheck, illegalIf, hb, if_true]
    rfl

section
variable {s : State} {k : Nat} {t : Team} (hi : Issues s k t) {p : Pre} (r : Scalars) {check : Act Unit}
  {target : Team → DWord} {link : Team → Team} (hc : check = .ok ()) (ha : acts p t)
include hi hc ha

/-- Taken by all lanes, with an aligned target: the team goes on there, with its link. -/
theorem uniformJump_taken (hg : t.guarded p = t.active) (hal : target t &&& 7#64 = 0#64)
    (hact : (link t).active = t.active) (hpart : (link t).part = t.part) :
    branchFrame p r check (jumpBody target link) s =
      .next (s.retireAt k (link t) (target t) (p.run || target t != t.pc + 8)) :=
  branchFrame_jump hi r hc ha (by simp [jumpBody, uniformJump, hg, hal]) hact hpart

/-- Taken by all lanes, with a target that is no multiple of 8: a memory fault, and no link. -/
theorem uniformJump_misaligned (hg : t.guarded p = t.active) (hal : target t &&& 7#64 ≠ 0#64) :
    branchFrame p r check (jumpBody target link) s = .next (s.raise k t 1 7 (target t) none) :=
  branchFrame_fault hi r hc ha (by simp [jumpBody, uniformJump, hg, hal])

/-- Taken by some active lanes and not by all: an illegal operation. -/
theorem uniformJump_diverged (hg : t.guarded p ≠ t.active) :
    branchFrame p r check (jumpBody target link) s = .next (s.raise k t 6 5 0 none) :=
  branchFrame_fault hi r hc ha (by simp [jumpBody, uniformJump, hg, illegal, faultAt])
end

/-! ## `bra` (R103) -/

/-- What `bra` does in the lanes that take it. -/
def braBody (f : BF) (k : Nat) (m : Mask) (t : Team) (s : State) : Act Done :=
  if m == t.active then jump t s (branchTarget f t.pc)
  else do
    let (t, s) ← pushEntry k (Entry.make (branchTarget f t.pc) kindPend m) t s
    done { t with active := t.active &&& ~~~m } s
theorem exec_bra (f : BF) (s : State) : exec (.bra f) s = branchFrame f.pre {} (.ok ()) (braBody f) s := rfl

section
variable {s : State} {k : Nat} {t : Team} (hi : Issues s k t) {f : BF}
include hi

/-- Taken by all active lanes. -/
theorem bra_taken (ha : acts f.pre t) (hg : t.guarded f.pre = t.active) : exec (.bra f) s =
    .next (s.retireAt k t (branchTarget f t.pc) (f.pre.run || branchTarget f t.pc != t.pc + 8)) := by
  rw [exec_bra]
  exact branchFrame_jump hi {} rfl ha (if_pos (beq_iff_eq.2 hg)) rfl rfl

/-- Taken by some lanes: the others go on at the next word, and the entry keeps those that took it. -/
theorem bra_diverged {u : Team} {s' : State} (ha : acts f.pre t) (hg : t.guarded f.pre ≠ t.active)
    (hp : pushEntry k (Entry.make (branchTarget f t.pc) kindPend (t.guarded f.pre)) t s = .ok (u, s')) :
    exec (.bra f) s = .next (s'.retire k f.pre { u with active := t.active &&& ~~~(t.guarded f.pre) }) := by
  obtain ⟨hpart, hpc, hact, hbreaks⟩ := pushEntry_keeps hp
  have hb : braBody f k (t.guarded f.pre) t s = done { u with active := t.active &&& ~~~(t.guarded f.pre) } s' := by
    simp [braBody, hg, hp, hact, bind, Except.bind]
  rw [exec_bra]
  exact issueWith_done hi f.pre {} _ _ (braBody f) _ s' rfl ha hb (Team.guarded_rest_ne_zero hg) hpart hpc
    ((hbreaks t.pc).trans hi.noBreak)

/-- Taken by some lanes where the stack is full: an illegal operation (R57). -/
theorem bra_full (ha : acts f.pre t) (hg : t.guarded f.pre ≠ t.active) (hfull : 256 ≤ t.stack.length + t.spilledEntries) :
    exec (.bra f) s = .next (s.raise k t 6 3 0 none) := by
  rw [exec_bra]
  apply branchFrame_fault hi {} rfl ha
  simp [braBody, hg, pushEntry_full k _ s hfull, illegal, faultAt, bind, Except.bind]
end

/-- Settles O38, by the three cases of R103. -/
theorem branch : Obligations.Branch := by
  unfold Obligations.Branch
  intro s k t f hi hact target
  refine ⟨fun hg => ?_, fun hg => ?_, fun hg0 hg => ⟨fun u s' hp => ?_, fun hfull => ?_⟩⟩
  · rw [exec_bra]
    exact branchFrame_idle hi {} rfl hact hg
  · exact bra_taken hi (fun h0 => hact (hg ▸ h0)) hg
  · exact bra_diverged hi hg0 hg hp
  · exact bra_full hi hg0 hg hfull

/-! ## The jumps, and `nop` -/

/-- Settles O39: the three jumps are one frame and one body, so the cases of R104 are said of these, once. -/
theorem uniformJumps : Obligations.UniformJumps := by
  unfold Obligations.UniformJumps
  intro s k t f y hi r
  refine ⟨fun hact hg h0 he hr => ?_, fun hact hg hk h0 he hr => ?_, fun ha h0 he hr => ?_, fun ha hk h0 he hr => ?_, ?_⟩
  · have hc : linkCheck r = .ok () := linkCheck_ok h0 he hr
    rw [exec_brx, exec_call]
    exact ⟨branchFrame_idle hi _ hc hact hg, branchFrame_idle hi _ hc hact hg⟩
  · rw [exec_ret]
    exact branchFrame_idle hi _ (retCheck_ok hk h0 he hr) hact hg
  · have hc : linkCheck r = .ok () := linkCheck_ok h0 he hr
    rw [exec_brx, exec_call]
    exact ⟨fun hg => ⟨fun hal => uniformJump_taken hi _ hc ha hg hal rfl rfl,
        fun hal => uniformJump_misaligned hi _ hc ha hg hal, fun hal => uniformJump_misaligned hi _ hc ha hg hal,
        fun hal => uniformJump_taken hi _ hc ha hg hal (Team.ws2_active ..) (Team.ws2_part ..)⟩,
      fun hg => ⟨uniformJump_diverged hi _ hc ha hg, uniformJump_diverged hi _ hc ha hg⟩⟩
  · have hc : retCheck y = .ok () := retCheck_ok hk h0 he hr
    rw [exec_ret]
    exact ⟨fun hg hal => uniformJump_taken hi _ hc ha hg hal rfl rfl,
      fun hg hal => uniformJump_misaligned hi _ hc ha hg hal, fun hg => uniformJump_diverged hi _ hc ha hg⟩
  · intro bad
    simp only [bad, exec_brx, exec_call, exec_ret]
    refine ⟨fun h0 => ?_, fun hodd => ?_, fun h => branchFrame_illegal hi _ (retCheck_illegal h),
      fun hk h0 h => branchFrame_illegal hi _ ((retCheck_of_yk_zero hk).trans (linkCheck_bad ?_ h))⟩
    · have hc : linkCheck r = illegal 1 := h0 ▸ linkCheck_zero
      exact ⟨branchFrame_illegal hi _ hc, branchFrame_illegal hi _ hc⟩
    · have hc : linkCheck r = illegal 2 := linkCheck_bad (by omega) (.inl hodd)
      exact ⟨branchFrame_illegal hi _ hc, branchFrame_illegal hi _ hc⟩
    · exact fun h => h0 (BitVec.eq_of_toNat_eq h)

theorem ykZero_ok {f : YF} (h : f.yk = 0) : ykZero f = .ok () := by
  simp [ykZero, illegalIf, h, pure, Except.pure]

/-- Settles O45: the body of `nop` answers the team and the part it was given (R117). -/
theorem nopOnlyAdvances : Obligations.NopOnlyAdvances := by
  unfold Obligations.NopOnlyAdvances
  intro s k t f hi ha hk
  exact perTeam_done hi f.pre {} (fun _ _ _ => ykZero f) _ t s (ykZero_ok hk) ha rfl rfl rfl rfl hi.noBreak

end Sys2Proof.Machine
